-- ==== Sys2Proof/Word.lean ====
section
/-! DEFINITION. The value types of 00_scope.md rule R10: the words MELFE moves and holds. -/

namespace Sys2Proof

/-- A 64-bit word: a register, a memory word, the data of a bus transaction (20_memory.md R83, R84). -/
abbrev Word := BitVec 64

/-- A binary64 value held as its encoding `bits64` (00_scope.md R10): every one of the 2^64 encodings, so
that a NaN kept in memory keeps its bits until an operation reads it (R12). -/
abbrev F64 := BitVec 64

/-- An unsigned 32-bit value, the type of the integer configuration registers (10_state.md section 4). -/
abbrev U32 := BitVec 32

/-- A byte address of the host address space: 2^24 of them (20_memory.md R80). -/
abbrev HostAddr := BitVec 24

/-- A pipeline context number, the CTX field of a command word (30_encoding.md R111). -/
abbrev Ctx := BitVec 2

end Sys2Proof
end

