-- ==== Sys2Proof/Config.lean ====
section
/-! DEFINITION. What an implementation fixes and what the spec leaves free: the implementation parameters of
00_scope.md R6 (a record, held in State, log 1), the identification value (10_state.md R33), and the opaque
constants for the numerics beyond their exact cases (R7, log 2), the command latency (70_reset_and_hazards.md
R380, log 7) and the platform parameters (20_memory.md R87, 60_exceptions.md R332, log 12). -/

namespace Sys2Proof

/-- The implementation parameters of 00_scope.md R6, each readable in a CAP register (10_state.md R34). -/
structure Caps where
  dmemWords : Nat
  maxNfft : Nat
  maxFilt : Nat
  maxFrame : Nat
  maxDct : Nat
  numCtx : Nat
deriving DecidableEq, Repr

/-- The values "taken by this spec's default instance" (00_scope.md R6). -/
def Caps.default : Caps where
  dmemWords := 65536
  maxNfft := 2048
  maxFilt := 64
  maxFrame := 2048
  maxDct := 64
  numCtx := 4

/-- The legal ranges of 00_scope.md R6, with the bound that keeps the filter matrix in its window. -/
abbrev Caps.Legal (c : Caps) : Prop :=
  (1 ≤ c.dmemWords ∧ c.dmemWords ≤ 2 ^ 20) ∧
  (2 ≤ c.maxNfft ∧ c.maxNfft ≤ 8190 ∧ 2 ^ c.maxNfft.log2 = c.maxNfft ∧ c.maxNfft / 2 + 1 ≤ 4096) ∧
  (1 ≤ c.maxFilt ∧ c.maxFilt ≤ 4094) ∧
  (1 ≤ c.maxFrame ∧ c.maxFrame ≤ 4096) ∧
  (1 ≤ c.maxDct ∧ c.maxDct ≤ 256) ∧
  (1 ≤ c.numCtx ∧ c.numCtx ≤ 4) ∧
  (c.maxNfft / 2 + 1) * c.maxFilt ≤ 524288

namespace Config

/-- The value of the ID register, "MELFE" in ASCII and the revision 7 (10_state.md R33). -/
def idValue : Word := 0x4D454C4645000007#64

/-- FREE VALUE (log 2): what the implementation's log10 gives outside the exact cases of 00_scope.md R7. -/
opaque rawLog10 : F64 → F64

/-- FREE VALUE (log 2): what the implementation's 10^x gives outside the exact cases of 00_scope.md R7. -/
opaque rawPow10 : F64 → F64

/-- FREE VALUE (log 2): what the implementation's natural logarithm gives outside the exact cases of R7. -/
opaque rawLn : F64 → F64

/-- FREE VALUE (log 2): what the implementation's cosine gives outside the exact cases of 00_scope.md R7. -/
opaque rawCos : F64 → F64

/-- FREE VALUE (log 2): real and imaginary part of bin `b` of the implementation's DFT of the `L` samples `x`
(00_scope.md R7), as `rawRdft L x b`. -/
opaque rawRdft : Nat → List F64 → Nat → F64 × F64

/-- FREE VALUE (log 7): CMD_LATENCY of 70_reset_and_hazards.md R380, counted in the exempt host reads that
complete before the engine's step, for a command word and the number of the issue. -/
opaque commandLatency : Word → Nat → Nat

/-- MELFE_BASE, the block's place in the platform's address map (20_memory.md R87, OPEN, log 12). -/
opaque melfeBase : Nat

/-- IRQ_LINE, the platform interrupt line irq is wired to (60_exceptions.md R332, OPEN, log 12). -/
opaque irqLine : Nat

end Config

end Sys2Proof
end

