-- ==== Sys2Proof/Syntax.lean ====
section
/-! DEFINITION. The command set: one constructor for every row of spec/opcode_table.json (30_encoding.md R112).
A command word holds no immediate; its only operand fields are CTX and ORTH (R111). -/

namespace Sys2Proof

/-- The 20 commands of 30_encoding.md R112, in the table's order. -/
inductive Instr where
  /-- NOP, 40_control.md R142. -/
  | nop
  /-- FB_BUILD, 41_filterbank.md R168. -/
  | fbBuild
  /-- MEL, 41_filterbank.md R169. -/
  | mel
  /-- MELINV, 41_filterbank.md R170. -/
  | melInv
  /-- WIN_BUILD, 42_frame.md R204. -/
  | winBuild
  /-- CTX_RESET with context `c`, 42_frame.md R206. -/
  | ctxReset (c : Ctx)
  /-- FRAME_COUNT, 42_frame.md R205. -/
  | frameCount
  /-- FRAME_FETCH, 42_frame.md R207. -/
  | frameFetch
  /-- PREEMPH with context `c`, 42_frame.md R208. -/
  | preemph (c : Ctx)
  /-- WINDOW, 42_frame.md R209. -/
  | window
  /-- FRAME_PREP with context `c`, 42_frame.md R210. -/
  | framePrep (c : Ctx)
  /-- SPEC_POWER, 43_spectral.md R246. -/
  | specPower
  /-- SPEC_PROJECT, 43_spectral.md R244. -/
  | specProject
  /-- SPEC_LOGMEL, 43_spectral.md R245. -/
  | specLogMel
  /-- DCT_BASIS with the ORTH flag, 44_dct.md R274. -/
  | dctBasis (orth : Bool)
  /-- DCT_ORTH, 44_dct.md R275. -/
  | dctOrth
  /-- DCT2, 44_dct.md R276. -/
  | dct2
  /-- IDCT_ORTH, 44_dct.md R277. -/
  | idctOrth
  /-- DCT3, 44_dct.md R278. -/
  | dct3
  /-- DCT_LEGACY, 44_dct.md R279. -/
  | dctLegacy
deriving DecidableEq, Repr

/-- The context a command names, where it takes one (30_encoding.md R112, column "uses CTX"). -/
def Instr.ctx? : Instr → Option Ctx
  | .ctxReset c => some c
  | .preemph c => some c
  | .framePrep c => some c
  | .nop => none
  | .fbBuild => none
  | .mel => none
  | .melInv => none
  | .winBuild => none
  | .frameCount => none
  | .frameFetch => none
  | .window => none
  | .specPower => none
  | .specProject => none
  | .specLogMel => none
  | .dctBasis _ => none
  | .dctOrth => none
  | .dct2 => none
  | .idctOrth => none
  | .dct3 => none
  | .dctLegacy => none

end Sys2Proof
end

