-- ==== Sys2Proof/WellFormed.lean ====
section
/-! DEFINITION. Well-formed commands. The fields of `Instr` are bit-exact, so the one check left is decode
check 5 of 30_encoding.md R114: a context must exist in the instance. -/

namespace Sys2Proof

/-- A command is well formed in an instance with `numCtx` contexts when the context it names is below
`numCtx` (30_encoding.md R114 check 5; 10_state.md R57). -/
def Instr.wellFormed (numCtx : Nat) (i : Instr) : Bool :=
  match i.ctx? with
  | some c => decide (c.toNat < numCtx)
  | none => true

end Sys2Proof
end

