-- ==== Sys2Proof/Decode.lean ====
section
/-! DEFINITION. Decoding and encoding of command words (30_encoding.md R110 to R116). `decode` applies the six
checks of R114 in their order and names the first that fails; `encode` writes the word of R112. -/

namespace Sys2Proof

/-- The 20 assigned opcodes of 30_encoding.md R112, before the operand fields are read. -/
inductive Opcode where
  | nop | fbBuild | mel | melInv | winBuild | ctxReset | frameCount | frameFetch | preemph | window
  | framePrep | specPower | specProject | specLogMel | dctBasis | dctOrth | dct2 | idctOrth | dct3
  | dctLegacy
deriving DecidableEq, Repr

/-- Why a command word does not decode: the checks of 30_encoding.md R114, in its order. -/
inductive DecodeReject where
  /-- Check 1: d[63:32] is not zero. -/
  | highWordNonZero
  /-- Check 2: d[7:0] is no OPCODE of R112. -/
  | unknownOpcode
  /-- Check 3: d[15:10] or d[31:17] is not zero. -/
  | reservedBits
  /-- Check 4: CTX is not zero and the command does not use it. -/
  | ctxNotTaken
  /-- Check 5: the command uses CTX and CTX >= NUM_CTX. -/
  | ctxOutOfRange
  /-- Check 6: ORTH is not zero and the command is not DCT_BASIS. -/
  | orthNotTaken
deriving DecidableEq, Repr

/-- The number of a decode check (30_encoding.md R114), for ERR_INFO.CHECK. -/
def DecodeReject.check : DecodeReject → Nat
  | .highWordNonZero => 1
  | .unknownOpcode => 2
  | .reservedBits => 3
  | .ctxNotTaken => 4
  | .ctxOutOfRange => 5
  | .orthNotTaken => 6

/-- The OPCODE column of 30_encoding.md R112. -/
def opcodeTable : List (BitVec 8 × Opcode) :=
  [ (0x00#8, .nop),
    (0x10#8, .fbBuild), (0x11#8, .mel), (0x12#8, .melInv),
    (0x20#8, .winBuild), (0x21#8, .ctxReset), (0x22#8, .frameCount), (0x23#8, .frameFetch),
    (0x24#8, .preemph), (0x25#8, .window), (0x26#8, .framePrep),
    (0x30#8, .specPower), (0x31#8, .specProject), (0x32#8, .specLogMel),
    (0x40#8, .dctBasis), (0x41#8, .dctOrth), (0x42#8, .dct2), (0x43#8, .idctOrth), (0x44#8, .dct3),
    (0x45#8, .dctLegacy) ]

/-- The command an opcode byte selects; none for a reserved opcode (30_encoding.md R115). -/
def opcodeAt (b : BitVec 8) : Option Opcode :=
  (opcodeTable.find? (fun row => row.1 == b)).map Prod.snd

/-- Column "uses CTX" of 30_encoding.md R112. -/
def Opcode.usesCtx : Opcode → Bool
  | .ctxReset => true
  | .preemph => true
  | .framePrep => true
  | _ => false

/-- Column "uses ORTH" of 30_encoding.md R112. -/
def Opcode.usesOrth : Opcode → Bool
  | .dctBasis => true
  | _ => false

/-- The command of an opcode with its operand fields (30_encoding.md R111). -/
def Opcode.withFields (c : Ctx) (orth : Bool) : Opcode → Instr
  | .nop => .nop
  | .fbBuild => .fbBuild
  | .mel => .mel
  | .melInv => .melInv
  | .winBuild => .winBuild
  | .ctxReset => .ctxReset c
  | .frameCount => .frameCount
  | .frameFetch => .frameFetch
  | .preemph => .preemph c
  | .window => .window
  | .framePrep => .framePrep c
  | .specPower => .specPower
  | .specProject => .specProject
  | .specLogMel => .specLogMel
  | .dctBasis => .dctBasis orth
  | .dctOrth => .dctOrth
  | .dct2 => .dct2
  | .idctOrth => .idctOrth
  | .dct3 => .dct3
  | .dctLegacy => .dctLegacy

/-- d[7:0], OPCODE (30_encoding.md R110). -/
def opcodeField (d : Word) : BitVec 8 := d.extractLsb' 0 8

/-- d[9:8], CTX (30_encoding.md R110). -/
def ctxField (d : Word) : Ctx := d.extractLsb' 8 2

/-- d[15:10], reserved (30_encoding.md R110). -/
def reservedLowField (d : Word) : BitVec 6 := d.extractLsb' 10 6

/-- d[16], ORTH (30_encoding.md R110). -/
def orthField (d : Word) : Bool := d.getLsbD 16

/-- d[31:17], reserved (30_encoding.md R110). -/
def reservedHighField (d : Word) : BitVec 15 := d.extractLsb' 17 15

/-- d[63:32], the CMD high word, reserved (30_encoding.md R110). -/
def highWordField (d : Word) : U32 := d.extractLsb' 32 32

/-- Decoding of a pending word in an instance with `numCtx` contexts: the checks of 30_encoding.md R114 in
order, the first that fails named; a word that passes all six names exactly one command. -/
def decode (numCtx : Nat) (d : Word) : Except DecodeReject Instr :=
  if highWordField d ≠ 0#32 then .error .highWordNonZero
  else
    match opcodeAt (opcodeField d) with
    | none => .error .unknownOpcode
    | some op =>
      if reservedLowField d ≠ 0#6 ∨ reservedHighField d ≠ 0#15 then .error .reservedBits
      else if ctxField d ≠ 0#2 ∧ op.usesCtx = false then .error .ctxNotTaken
      else if op.usesCtx = true ∧ numCtx ≤ (ctxField d).toNat then .error .ctxOutOfRange
      else if orthField d = true ∧ op.usesOrth = false then .error .orthNotTaken
      else .ok (op.withFields (ctxField d) (orthField d))

/-- The instruction the decoder reads from the `nbits`-bit number `w` of spec/opcode_table.json, in the default
instance (00_scope.md R6). The command word is one 64-bit unit, so there is no layout of bytes (20_memory.md
R83); bits at `nbits` and above are zero. -/
def decodeTableWord (nbits w : Nat) : Option Instr :=
  match decode Caps.default.numCtx (BitVec.ofNat 64 (w % 2 ^ nbits)) with
  | .ok i => some i
  | .error _ => none

/-- The OPCODE of a command (30_encoding.md R112). -/
def Instr.opcode : Instr → BitVec 8
  | .nop => 0x00#8
  | .fbBuild => 0x10#8
  | .mel => 0x11#8
  | .melInv => 0x12#8
  | .winBuild => 0x20#8
  | .ctxReset _ => 0x21#8
  | .frameCount => 0x22#8
  | .frameFetch => 0x23#8
  | .preemph _ => 0x24#8
  | .window => 0x25#8
  | .framePrep _ => 0x26#8
  | .specPower => 0x30#8
  | .specProject => 0x31#8
  | .specLogMel => 0x32#8
  | .dctBasis _ => 0x40#8
  | .dctOrth => 0x41#8
  | .dct2 => 0x42#8
  | .idctOrth => 0x43#8
  | .dct3 => 0x44#8
  | .dctLegacy => 0x45#8

/-- The ORTH bit of a command (30_encoding.md R111): DCT_BASIS alone has one. -/
def Instr.orthBit : Instr → Bool
  | .dctBasis o => o
  | .nop => false
  | .fbBuild => false
  | .mel => false
  | .melInv => false
  | .winBuild => false
  | .ctxReset _ => false
  | .frameCount => false
  | .frameFetch => false
  | .preemph _ => false
  | .window => false
  | .framePrep _ => false
  | .specPower => false
  | .specProject => false
  | .specLogMel => false
  | .dctOrth => false
  | .dct2 => false
  | .idctOrth => false
  | .dct3 => false
  | .dctLegacy => false

/-- The CMD value of a command: OPCODE | (CTX << 8) | (ORTH << 16), all else zero (30_encoding.md R112). -/
def encode (i : Instr) : Word :=
  i.opcode.setWidth 64 ||| ((i.ctx?.getD 0#2).setWidth 64 <<< 8)
    ||| ((BitVec.ofBool i.orthBit).setWidth 64 <<< 16)

end Sys2Proof
end

