-- ==== Sys2Proof/Machine/Float.lean ====
section
/-! DEFINITION. Binary64 arithmetic as 00_scope.md R10 to R16 fixes it: every operand is taken apart into an
exact integer number of units of 2^-1074 (the spacing of the subnormals), the result is computed exactly, and
one rounding function brings it back. -/

namespace Sys2Proof.Machine

/-- The canonical NaN of 00_scope.md R12. -/
def canonicalNaN : F64 := 0x7FF8000000000000#64

/-- +0.0 (00_scope.md R11). -/
def posZero : F64 := 0x0000000000000000#64

/-- The encoding of +infinity, as a number: the first one past the finite magnitudes. -/
def infMagnitude : Nat := 0x7FF0000000000000

/-- The sign, bit 63 of the encoding (00_scope.md R10). -/
def signOf (a : F64) : Bool := a.getLsbD 63

/-- The encoding without its sign, bits 62:0. -/
def magnitudeBits (a : F64) : Nat := a.toNat % 2 ^ 63

/-- The biased exponent, bits 62:52 of the encoding (00_scope.md R10). -/
def exponentField (a : F64) : Nat := magnitudeBits a / 2 ^ 52

/-- The fraction, bits 51:0 of the encoding (00_scope.md R10). -/
def fractionField (a : F64) : Nat := a.toNat % 2 ^ 52

/-- `isNaN` of 00_scope.md R14: every NaN encoding. -/
def isNaN (a : F64) : Bool := decide (infMagnitude < magnitudeBits a)

/-- +infinity or -infinity. -/
def isInf (a : F64) : Bool := decide (magnitudeBits a = infMagnitude)

/-- `isFinite` of 00_scope.md R14: neither infinite nor NaN. -/
def isFinite (a : F64) : Bool := decide (magnitudeBits a < infMagnitude)

/-- +0.0 or -0.0. -/
def isZero (a : F64) : Bool := decide (magnitudeBits a = 0)

/-- The absolute value of a finite number in units of 2^-1074, exactly. -/
def magnitudeUnits (a : F64) : Nat :=
  if exponentField a = 0 then fractionField a
  else (2 ^ 52 + fractionField a) * 2 ^ (exponentField a - 1)

/-- The value of a finite number in units of 2^-1074, exactly. -/
def units (a : F64) : Int :=
  if signOf a then -(magnitudeUnits a : Int) else (magnitudeUnits a : Int)

/-- How many of the units 2^-1074 make 1: 2^1074, as a product of powers that every evaluator of Lean computes. -/
def unitsPerOne : Nat := 2 ^ 256 * 2 ^ 256 * 2 ^ 256 * 2 ^ 256 * 2 ^ 50

/-- roundTiesToEven (00_scope.md R11) of the non-negative rational `n/d` units: the encoding, without its
sign, of the nearest binary64 magnitude. The grid is 1 unit below 2^53 units and 2^shift units in the binade
above it; the encodings of consecutive magnitudes are consecutive numbers, so a carry out of the fraction
moves into the exponent by itself, and a magnitude past the largest finite one is infinity. -/
def roundMagnitude (n d : Nat) : Nat :=
  let shift := (n / d).log2 - 52
  let grid := d * 2 ^ shift
  let m := n / grid
  let rest := n % grid
  let rounded := if grid < 2 * rest ∨ (2 * rest = grid ∧ m % 2 = 1) then m + 1 else m
  min (2 ^ 52 * shift + rounded) infMagnitude

/-- The encoding with sign `neg` and magnitude encoding `mag`. -/
def packSign (neg : Bool) (mag : Nat) : F64 :=
  BitVec.ofNat 64 ((if neg then 2 ^ 63 else 0) + mag)

/-- Infinity with sign `neg`. -/
def infinity (neg : Bool) : F64 := packSign neg infMagnitude

/-- The value with its sign bit turned. -/
def fneg (a : F64) : F64 := a ^^^ 0x8000000000000000#64

/-- A NaN as the canonical NaN, any other value as it is: how an operation passes a value on (00_scope.md
R12). -/
def canonical (a : F64) : F64 := if isNaN a then canonicalNaN else a

/-- `fadd` of 00_scope.md R11. An exact zero sum is -0.0 only when both operands are -0.0. -/
def fadd (a b : F64) : F64 :=
  if isNaN a ∨ isNaN b then canonicalNaN
  else if isInf a then
    if isInf b ∧ signOf a ≠ signOf b then canonicalNaN else a
  else if isInf b then b
  else
    let k := units a + units b
    if k = 0 then packSign (signOf a && signOf b) 0
    else packSign (decide (k < 0)) (roundMagnitude k.natAbs 1)

/-- `fsub` of 00_scope.md R11. -/
def fsub (a b : F64) : F64 := fadd a (fneg b)

/-- `fmul` of 00_scope.md R11; 0*inf is a NaN. -/
def fmul (a b : F64) : F64 :=
  let neg := signOf a ^^ signOf b
  if isNaN a ∨ isNaN b then canonicalNaN
  else if isInf a ∨ isInf b then
    if isZero a ∨ isZero b then canonicalNaN else infinity neg
  else packSign neg (roundMagnitude (magnitudeUnits a * magnitudeUnits b) unitsPerOne)

/-- `fdiv` of 00_scope.md R11; 0/0 and inf/inf are NaNs, a non-zero value over zero is an infinity. -/
def fdiv (a b : F64) : F64 :=
  let neg := signOf a ^^ signOf b
  if isNaN a ∨ isNaN b then canonicalNaN
  else if isInf a then
    if isInf b then canonicalNaN else infinity neg
  else if isInf b then packSign neg 0
  else if isZero b then
    if isZero a then canonicalNaN else infinity neg
  else packSign neg (roundMagnitude (unitsPerOne * magnitudeUnits a) (magnitudeUnits b))

/-- The integer square root of `x`, bit by bit from bit `k - 1` down, above the root `r` found so far. -/
def isqrtBits : Nat → Nat → Nat → Nat
  | 0, _, r => r
  | k + 1, x, r =>
    if (r + 2 ^ k) * (r + 2 ^ k) ≤ x then isqrtBits k x (r + 2 ^ k) else isqrtBits k x r

/-- The greatest `r` with `r * r ≤ x`. -/
def isqrt (x : Nat) : Nat := isqrtBits (x.log2 / 2 + 1) x 0

/-- `fsqrt` of 00_scope.md R11. A root that is no whole number of units lies strictly between two of them,
and rounds as the half between them does: no rounding boundary of a root lies inside one unit. -/
def fsqrt (a : F64) : F64 :=
  if isNaN a then canonicalNaN
  else if isZero a then a
  else if signOf a then canonicalNaN
  else if isInf a then a
  else
    let x := unitsPerOne * magnitudeUnits a
    let r := isqrt x
    packSign false (roundMagnitude (2 * r + (if r * r = x then 0 else 1)) 2)

/-- `f64(n)` of 00_scope.md R10 for an integer `n`: roundTiesToEven. -/
def ofInt (n : Int) : F64 :=
  packSign (decide (n < 0)) (roundMagnitude (unitsPerOne * n.natAbs) 1)

/-- `f64(n)` of 00_scope.md R10 for an unsigned integer. -/
def ofNat (n : Nat) : F64 := ofInt (n : Int)

/-- The place of a value in the order of 00_scope.md R14: both zeros at 0, the infinities at the ends. -/
def orderKey (a : F64) : Int :=
  if signOf a then -(magnitudeBits a : Int) else (magnitudeBits a : Int)

/-- `a < b` of 00_scope.md R14: false with a NaN operand. -/
def flt (a b : F64) : Bool := !isNaN a && !isNaN b && decide (orderKey a < orderKey b)

/-- `a <= b` of 00_scope.md R14: false with a NaN operand. -/
def fle (a b : F64) : Bool := !isNaN a && !isNaN b && decide (orderKey a ≤ orderKey b)

/-- `a == b` of 00_scope.md R14: false with a NaN operand; the two zeros are equal. -/
def feq (a b : F64) : Bool := !isNaN a && !isNaN b && decide (orderKey a = orderKey b)

/-- `floor(x)` of 00_scope.md R13, exact, for a finite value (the rules that apply it check that first). -/
def floorInt (a : F64) : Int := units a / (unitsPerOne : Int)

/-- `rha(x)` of 00_scope.md R13, halves away from zero, exact, for a finite value. -/
def rha (a : F64) : Int :=
  let n : Int := ((unitsPerOne + 2 * magnitudeUnits a) / (2 * unitsPerOne) : Nat)
  if signOf a then -n else n

/-- `fdot(v, w, L)` of 00_scope.md R15, of the pairs (v[n], w[n]) in ascending n: a sum from +0.0. -/
def fdot (pairs : List (F64 × F64)) : F64 :=
  pairs.foldl (fun acc p => fadd acc (fmul p.1 p.2)) posZero

/-- PI = RNE(pi) (00_scope.md R16). -/
def cPi : F64 := 0x400921FB54442D18#64

/-- TWO_PI (00_scope.md R16). -/
def cTwoPi : F64 := 0x401921FB54442D18#64

/-- SQRT2 = fsqrt(2.0) (00_scope.md R16). -/
def cSqrt2 : F64 := 0x3FF6A09E667F3BCD#64

/-- FLOOR_E = RNE(1e-5) (00_scope.md R16). -/
def cFloorE : F64 := 0x3EE4F8B588E368F1#64

/-- C2595 (00_scope.md R16). -/
def c2595 : F64 := 0x40A4460000000000#64

/-- C700 (00_scope.md R16). -/
def c700 : F64 := 0x4085E00000000000#64

/-- HAM_A = RNE(0.54) (00_scope.md R16). -/
def cHamA : F64 := 0x3FE147AE147AE148#64

/-- HAM_B = RNE(0.46) (00_scope.md R16). -/
def cHamB : F64 := 0x3FDD70A3D70A3D71#64

/-- HALF (00_scope.md R16). -/
def cHalf : F64 := 0x3FE0000000000000#64

/-- ONE (00_scope.md R16). -/
def cOne : F64 := 0x3FF0000000000000#64

/-- TWO (00_scope.md R16). -/
def cTwo : F64 := 0x4000000000000000#64

end Sys2Proof.Machine
end

