-- ==== Sys2Proof/Machine/State.lean ====
section
/-! DEFINITION. The state of MELFE as plain data (10_state.md R31), the reasons a step can stop, and the
power-on reset state (70_reset_and_hazards.md R360, R362). -/

namespace Sys2Proof.Machine

/-- A word-addressed memory or buffer: its WRITTEN words as (word address, word) pairs, addresses strictly
rising; a word that is not listed is unwritten (10_state.md R78). The cell is the 64-bit word, the smallest
unit MELFE ever moves (20_memory.md R83, R84; log 5). -/
abbrev Memory := List (Nat × Word)

/-- What an unlisted word reads as: no value, so that reading it faults (10_state.md R78, log 4). -/
def Memory.unlisted : Option Word := none

/-- The canonical form: addresses strictly rising. No entry can equal what an unlisted word reads as, since
that is no value. -/
abbrev Memory.wf (m : Memory) : Prop := m.Pairwise (fun a b => a.1 < b.1)

/-- Every listed address lies below `cap`: the memory fits its capacity (20_memory.md R81, R88). -/
abbrev Memory.within (cap : Nat) (m : Memory) : Prop := ∀ p ∈ m, p.1 < cap

/-- The word spaces: the ten internal buffers and DMEM (20_memory.md R88). -/
inductive Space where
  | edgeHz | edgeBin | fbHeight | win | raw | cond | wnd | pwr | dctm | fb | dmem
deriving DecidableEq, Repr

/-- The error codes of 60_exceptions.md R321. Codes 8 to 255 are never produced, so no constructor has one. -/
inductive ErrCode where
  | none | invalidConfiguration | invalidInput | illegalCommand | addressRange | capacityExceeded
  | notBuilt | sequenceError
deriving DecidableEq, Repr

/-- FRAME_STAGE (10_state.md R72). The values 5 to 7 never occur. -/
inductive FrameStage where
  | empty | raw | cond | wnd | pwr
deriving DecidableEq, Repr

/-- BASIS_TAG.VARIANT (10_state.md R68). The values 7 to 15 never occur. -/
inductive BasisVariant where
  | none | generic | orth2 | norm2 | orth3 | norm3 | legacy
deriving DecidableEq, Repr

/-- STATUS (10_state.md R36), its fields. -/
structure Status where
  busy : Bool
  done : Bool
  err : Bool
  fbValid : Bool
  winValid : Bool
  errCode : ErrCode
  frameStage : FrameStage
  lastOp : BitVec 8
deriving DecidableEq, Repr

/-- ERR_INFO (10_state.md R38): CHECK in bits 15:0, INDEX in bits 47:16. -/
structure ErrInfo where
  check : BitVec 16
  index : BitVec 32
deriving DecidableEq, Repr

/-- The nine configuration registers (10_state.md R40 to R48). -/
structure Cfg where
  sampleRate : U32
  frameRate : U32
  frameDur : F64
  nfft : U32
  nfilt : U32
  ncep : U32
  lowerFreq : F64
  upperFreq : F64
  alpha : F64
deriving DecidableEq, Repr

/-- BASIS_TAG (10_state.md R68), its fields; the reserved bits are zero. -/
structure BasisTag where
  variant : BasisVariant
  orth : Bool
  rows : BitVec 16
  cols : BitVec 16
deriving DecidableEq, Repr

/-- The internal buffers (10_state.md R58 to R67). -/
structure Buffers where
  fb : Memory
  edgeHz : Memory
  edgeBin : Memory
  fbHeight : Memory
  win : Memory
  raw : Memory
  cond : Memory
  wnd : Memory
  pwr : Memory
  dctm : Memory
deriving DecidableEq, Repr

/-- What the outside gives MELFE, one at a time: a bus transaction of `size` bytes at byte address `addr`
(20_memory.md R91, R92), or the platform's reset line (70_reset_and_hazards.md R360). -/
inductive HostInput where
  | read (addr : HostAddr) (size : Nat)
  | write (addr : HostAddr) (size : Nat) (data : Word)
  | resetLine
deriving DecidableEq, Repr

/-- The response of a completed bus transaction (20_memory.md R90, R91, R92). -/
inductive BusResponse where
  /-- OKAY with the data of a read. -/
  | okayRead (data : Word)
  /-- OKAY for a write. -/
  | okayWrite
  /-- ERROR; a read that gets it returns data 0. -/
  | error
deriving DecidableEq, Repr

/-- The architectural state of MELFE (10_state.md R31), then the model's own four fields. -/
structure State where
  /-- The CAP registers, one value per instance, changed by no step (10_state.md R34, log 1). -/
  caps : Caps
  /-- CTRL.IRQ_EN (10_state.md R35). -/
  irqEn : Bool
  /-- STATUS (10_state.md R36). -/
  status : Status
  /-- CMD (10_state.md R37); while BUSY it is the pending command (R73). -/
  cmd : Word
  /-- ERR_INFO (10_state.md R38). -/
  errInfo : ErrInfo
  /-- The CFG registers (10_state.md R40 to R48). -/
  cfg : Cfg
  /-- ARG0 to ARG5 (10_state.md R52). -/
  args : Vector Word 6
  /-- RES0 (10_state.md R53). -/
  res0 : Word
  /-- RES1 (10_state.md R53). -/
  res1 : Word
  /-- SIG_BASE (10_state.md R55). -/
  sigBase : Word
  /-- SIG_LEN (10_state.md R56). -/
  sigLen : Word
  /-- PRIOR[0] to PRIOR[3]; those at NUM_CTX and above are never named (10_state.md R57). -/
  prior : Vector F64 4
  /-- BASIS_TAG (10_state.md R68). -/
  basisTag : BasisTag
  /-- BASIS_STEP (10_state.md R69). -/
  basisStep : F64
  /-- The internal buffers (10_state.md R58 to R67). -/
  bufs : Buffers
  /-- DMEM (20_memory.md R81). -/
  dmem : Memory
  /-- MODEL'S OWN (log 6): the inputs still to come, the first one next. -/
  inputs : List HostInput
  /-- MODEL'S OWN (log 6): the response of the last completed bus transaction. -/
  response : Option BusResponse
  /-- MODEL'S OWN (log 7): how many exempt reads may still complete before the pending command's step. -/
  engineDelay : Nat
  /-- MODEL'S OWN (log 7): how many commands were issued; the free latency is applied to it. -/
  issueCount : Nat
deriving DecidableEq, Repr

/-- The model's faults. Each is safe: the model stops where the hardware goes on. -/
inductive Fault where
  /-- ReadUnwritten(space, index) of 60_exceptions.md R328: the engine or the host read a word that nothing has
  written. Raised by every command that reads DMEM or a buffer and by a host read of a window. Safe. -/
  | readUnwritten (space : Space) (index : Nat)
  /-- A value that is not finite would have to be rounded to an integer, which 00_scope.md R13 does not define.
  Raised by FRAME_COUNT, FRAME_FETCH and FRAME_PREP, in states that no run reaches (42_frame.md R202, log 10).
  Safe. -/
  | nonFiniteRounding
  /-- Pre-emphasis of a frame of no samples, whose last entry 42_frame.md R208 reads. Raised by PREEMPH and
  FRAME_PREP, in states that no run reaches (42_frame.md R201 check 12 and R212, log 10). Safe. -/
  | emptyFrame
deriving DecidableEq, Repr

/-- The model's refusals. -/
inductive Refusal where
  /-- An instruction without a meaning, raised by `exec`'s arm for it. Safe. No arm raises it: every command has
  its meaning. -/
  | notModelled (mnemonic : String)
deriving DecidableEq, Repr

/-- The configuration registers at reset (70_reset_and_hazards.md R362; 00_scope.md R8). -/
def Cfg.reset : Cfg where
  sampleRate := 16000#32
  frameRate := 160#32
  frameDur := 0x3F9A36E2EB1C432D#64
  nfft := 512#32
  nfilt := 40#32
  ncep := 13#32
  lowerFreq := 0x4060AAAA64C2F838#64
  upperFreq := 0x40BAC77F62B6AE7D#64
  alpha := 0x3FEF0A3D70A3D70A#64

/-- STATUS at reset: 0 (70_reset_and_hazards.md R362). -/
def Status.reset : Status where
  busy := false
  done := false
  err := false
  fbValid := false
  winValid := false
  errCode := .none
  frameStage := .empty
  lastOp := 0#8

/-- Every internal buffer unwritten (70_reset_and_hazards.md R360, R362). -/
def Buffers.unwritten : Buffers where
  fb := []
  edgeHz := []
  edgeBin := []
  fbHeight := []
  win := []
  raw := []
  cond := []
  wnd := []
  pwr := []
  dctm := []

/-- BASIS_TAG at reset: 0, NONE (70_reset_and_hazards.md R362). -/
def BasisTag.reset : BasisTag where
  variant := .none
  orth := false
  rows := 0#16
  cols := 0#16

/-- Power-on reset of an instance with the parameters `caps` (70_reset_and_hazards.md R360, R362): every
register at its reset value, every DMEM word and buffer entry unwritten, the engine IDLE. -/
def State.powerOn (caps : Caps) : State where
  caps := caps
  irqEn := false
  status := Status.reset
  cmd := 0#64
  errInfo := ⟨0#16, 0#32⟩
  cfg := Cfg.reset
  args := #v[0#64, 0#64, 0#64, 0#64, 0#64, 0#64]
  res0 := 0#64
  res1 := 0#64
  sigBase := 0#64
  sigLen := 0#64
  prior := #v[0#64, 0#64, 0#64, 0#64]
  basisTag := BasisTag.reset
  basisStep := 0#64
  bufs := Buffers.unwritten
  dmem := []
  inputs := []
  response := none
  engineDelay := 0
  issueCount := 0

/-- The machine right after power-on reset: the default instance of 00_scope.md R6 (log 1). -/
def State.reset : State := State.powerOn Caps.default

end Sys2Proof.Machine
end

