-- ==== Sys2Proof/Machine/Ops.lean ====
section
/-! DEFINITION. The named operations over memories, buffers, registers and STATUS, the issue and completion of a
command, error completion (60_exceptions.md R322) with the clearing of an error beside it (R326), the resets, and
the one way a command runs: all checks first, then the effects (R323). -/

namespace Sys2Proof.Machine

/-! ### Words of a memory -/

/-- Word `i` of a memory, where it is written (10_state.md R78). -/
def Memory.read : Memory → Nat → Option Word
  | [], _ => Memory.unlisted
  | (a, v) :: rest, i => if a = i then some v else Memory.read rest i

/-- The words `vals` at consecutive addresses from `base`. -/
def Memory.block : Nat → List Word → Memory
  | _, [] => []
  | base, v :: vals => (base, v) :: Memory.block (base + 1) vals

/-- Stores `vals` at the words from `base` on; every other word keeps its value and its written attribute
(10_state.md R78 and section 9). -/
def Memory.write (m : Memory) (base : Nat) (vals : List Word) : Memory :=
  m.filter (fun p => decide (p.1 < base)) ++ Memory.block base vals
    ++ m.filter (fun p => decide (base + vals.length ≤ p.1))

/-- Word `i` of the memory of space `sp`; reading an unwritten word faults (60_exceptions.md R328). -/
def readWord (sp : Space) (m : Memory) (i : Nat) : Except Fault Word :=
  match m.read i with
  | some v => .ok v
  | none => .error (.readUnwritten sp i)

/-- The `n` words from `base` on, in ascending order; the first unwritten one faults. -/
def readRange (sp : Space) (m : Memory) : Nat → Nat → Except Fault (List Word)
  | _, 0 => .ok []
  | base, n + 1 =>
    match readWord sp m base with
    | .error f => .error f
    | .ok v =>
      match readRange sp m (base + 1) n with
      | .error f => .error f
      | .ok vs => .ok (v :: vs)

/-- An R x C matrix as its words, row-major (00_scope.md R17). -/
def rowMajor (rows cols : Nat) (entry : Nat → Nat → F64) : List F64 :=
  (List.range rows).flatMap (fun r => (List.range cols).map (fun c => entry r c))

/-! ### Spaces of the state -/

/-- The memory behind a space (20_memory.md R88). -/
def State.space (s : State) : Space → Memory
  | .edgeHz => s.bufs.edgeHz
  | .edgeBin => s.bufs.edgeBin
  | .fbHeight => s.bufs.fbHeight
  | .win => s.bufs.win
  | .raw => s.bufs.raw
  | .cond => s.bufs.cond
  | .wnd => s.bufs.wnd
  | .pwr => s.bufs.pwr
  | .dctm => s.bufs.dctm
  | .fb => s.bufs.fb
  | .dmem => s.dmem

/-- The capacity of a space in words (20_memory.md R88; 10_state.md R58 to R67). -/
def Space.capacity (c : Caps) : Space → Nat
  | .edgeHz => c.maxFilt + 2
  | .edgeBin => c.maxFilt + 2
  | .fbHeight => c.maxFilt
  | .win => c.maxFrame
  | .raw => c.maxFrame
  | .cond => c.maxFrame
  | .wnd => c.maxFrame
  | .pwr => c.maxNfft / 2 + 1
  | .dctm => c.maxDct * c.maxDct
  | .fb => (c.maxNfft / 2 + 1) * c.maxFilt
  | .dmem => c.dmemWords

/-- Word `i` of a space, where it is written: the one read of one word of memory. -/
def State.peek (s : State) (sp : Space) (i : Nat) : Option Word := (s.space sp).read i

/-- Stores `vals` in DMEM from word `base` on (20_memory.md R81). -/
def State.writeDmem (s : State) (base : Nat) (vals : List Word) : State :=
  { s with dmem := s.dmem.write base vals }

/-! ### PRIOR -/

/-- PRIOR[c] (10_state.md R57). -/
def State.priorOf (s : State) (c : Ctx) : F64 := s.prior[c.toNat]'c.isLt

/-- PRIOR[c] <- v (10_state.md R57). -/
def State.setPrior (s : State) (c : Ctx) (v : F64) : State :=
  { s with prior := s.prior.set c.toNat v c.isLt }

/-! ### STATUS, issue and completion -/

/-- Completion without error (40_control.md R140): DONE <- 1, BUSY <- 0; ERR and ERR_CODE stay. -/
def State.complete (s : State) : State :=
  { s with status := { s.status with done := true, busy := false } }

/-- A MELFE error: Err(code, check, index) (60_exceptions.md R320). -/
structure CmdError where
  code : ErrCode
  check : Nat
  index : Nat
deriving DecidableEq, Repr

/-- Error completion, MELFE's form of trap entry (60_exceptions.md R322): DONE, ERR, ERR_CODE and ERR_INFO are
written, then BUSY <- 0; nothing else changes. -/
def State.errorComplete (s : State) (e : CmdError) : State :=
  { s with
    status := { s.status with done := true, err := true, errCode := e.code, busy := false }
    errInfo := ⟨BitVec.ofNat 16 e.check, BitVec.ofNat 32 e.index⟩ }

/-- The clearing of an error by a 1 written to STATUS bit 2, which stands where a trap return would
(60_exceptions.md R326; 10_state.md R36): ERR, ERR_CODE and ERR_INFO <- 0. -/
def State.clearErr (s : State) : State :=
  { s with
    status := { s.status with err := false, errCode := .none }
    errInfo := ⟨0#16, 0#32⟩ }

/-- The clearing of DONE by a 1 written to STATUS bit 1 (10_state.md R36). -/
def State.clearDone (s : State) : State :=
  { s with status := { s.status with done := false } }

/-- Command issue (40_control.md R141): CMD and LAST_OP take the word, DONE, ERR, ERR_CODE and ERR_INFO are
cleared, BUSY <- 1. The free latency of the new command is drawn (70_reset_and_hazards.md R380, log 7). -/
def State.issue (s : State) (d : Word) : State :=
  { s with
    cmd := d
    status := { s.status with
      lastOp := d.extractLsb' 0 8, done := false, err := false, errCode := .none, busy := true }
    errInfo := ⟨0#16, 0#32⟩
    engineDelay := Config.commandLatency d s.issueCount
    issueCount := s.issueCount + 1 }

/-- Soft reset (70_reset_and_hazards.md R361): every register at its reset value and every buffer unwritten; DMEM
keeps every word and its written attribute. The inputs, the response and the issue counter are the model's own
and stay. -/
def State.softReset (s : State) : State :=
  { State.powerOn s.caps with
    dmem := s.dmem, inputs := s.inputs, response := s.response, issueCount := s.issueCount }

/-- Power-on reset by the platform's reset line (70_reset_and_hazards.md R360): as a soft reset, and every DMEM
word unwritten. -/
def State.powerOnReset (s : State) : State := { s.softReset with dmem := [] }

/-! ### How a command runs -/

/-- The first check that fails gives the command's only error (60_exceptions.md R324). -/
def firstError : List (Bool × CmdError) → Option CmdError
  | [] => none
  | (fails, e) :: rest => if fails then some e else firstError rest

/-- A command whose effects read no memory: every check first, then the effects, then completion
(40_control.md R140; 60_exceptions.md R323). -/
def runTotal (checks : List (Bool × CmdError)) (effects : State → State) (s : State) :
    Host.Outcome State Fault Refusal :=
  .next (match firstError checks with
    | some e => s.errorComplete e
    | none => (effects s).complete)

/-- A command whose effects read memory: the same, and a read of an unwritten word faults. -/
def runReading (checks : List (Bool × CmdError)) (effects : State → Except Fault State) (s : State) :
    Host.Outcome State Fault Refusal :=
  match firstError checks with
  | some e => .next (s.errorComplete e)
  | none =>
    match effects s with
    | .ok t => .next t.complete
    | .error f => .fault f

/-- min(n, 2^64 - 1), what RES0 and RES1 hold of an unbounded count (42_frame.md R205, R207). -/
def saturate64 (n : Nat) : Word := BitVec.ofNat 64 (min n (2 ^ 64 - 1))

end Sys2Proof.Machine
end

