-- ==== Sys2Proof/Machine/Operands.lean ====
section
/-! DEFINITION. Every operand a command reads: the ARG registers with their meanings (30_encoding.md R113), the
configuration registers as integers and binary64 values, the derived registers (10_state.md R49 to R51) and the
signal descriptor (R55, R56). No operand is sign-extended, scaled or shifted (R113). -/

namespace Sys2Proof.Machine

/-- ARG0 as SRC, a DMEM word address (30_encoding.md R113). -/
def State.src (s : State) : Nat := s.args[0].toNat

/-- ARG1 as DST, a DMEM word address (30_encoding.md R113). -/
def State.dst (s : State) : Nat := s.args[1].toNat

/-- ARG2 as N (30_encoding.md R113). -/
def State.argN (s : State) : Nat := s.args[2].toNat

/-- ARG3 as K (30_encoding.md R113). -/
def State.argK (s : State) : Nat := s.args[3].toNat

/-- ARG4 as ROWS (30_encoding.md R113). -/
def State.rows (s : State) : Nat := s.args[4].toNat

/-- ARG5 as X, an f64 scalar (30_encoding.md R113). -/
def State.argX (s : State) : F64 := s.args[5]

/-- ARG5 as X, a frame index (30_encoding.md R113). -/
def State.frameIndex (s : State) : Nat := s.args[5].toNat

/-- CFG_SAMPLE_RATE (10_state.md R40). -/
def State.sampleRate (s : State) : Nat := s.cfg.sampleRate.toNat

/-- CFG_FRAME_RATE (10_state.md R41). -/
def State.frameRate (s : State) : Nat := s.cfg.frameRate.toNat

/-- CFG_NFFT (10_state.md R43). -/
def State.nfft (s : State) : Nat := s.cfg.nfft.toNat

/-- CFG_NFILT (10_state.md R44). -/
def State.nfilt (s : State) : Nat := s.cfg.nfilt.toNat

/-- CFG_NCEP (10_state.md R45). -/
def State.ncep (s : State) : Nat := s.cfg.ncep.toNat

/-- NBINS = CFG_NFFT/2 + 1 (10_state.md R58; 41_filterbank.md R160). -/
def State.nbins (s : State) : Nat := s.nfft / 2 + 1

/-- CFG_FRAME_LEN of a configuration (10_state.md R49): the floor of duration times sample rate where that is
finite, not negative and below 2^32, else 0. -/
def Cfg.frameLen (c : Cfg) : Nat :=
  let d := fmul c.frameDur (ofNat c.sampleRate.toNat)
  if isFinite d && fle posZero d && flt d (ofNat 4294967296) then (floorInt d).toNat else 0

/-- CFG_FSHIFT of a configuration (10_state.md R50). -/
def Cfg.fshift (c : Cfg) : F64 := fdiv (ofNat c.sampleRate.toNat) (ofNat c.frameRate.toNat)

/-- CFG_DFREQ of a configuration (10_state.md R51). -/
def Cfg.dfreq (c : Cfg) : F64 := fdiv (ofNat c.sampleRate.toNat) (ofNat c.nfft.toNat)

/-- FRAME_LEN, the value of CFG_FRAME_LEN (10_state.md R49). -/
def State.frameLen (s : State) : Nat := s.cfg.frameLen

/-- FSHIFT, the value of CFG_FSHIFT (10_state.md R50). -/
def State.fshift (s : State) : F64 := s.cfg.fshift

/-- DFREQ, the value of CFG_DFREQ (10_state.md R51). -/
def State.dfreq (s : State) : F64 := s.cfg.dfreq

/-- SIG_BASE, written S0 in 42_frame.md R200 (10_state.md R55). -/
def State.sigStart (s : State) : Nat := s.sigBase.toNat

/-- SIG_LEN, written L in 42_frame.md R200 (10_state.md R56). -/
def State.sigSamples (s : State) : Nat := s.sigLen.toNat

/-- A power of two (10_state.md R43), by the place of its highest bit. -/
def isPowerOfTwo (n : Nat) : Bool := decide (2 ^ n.log2 = n)

/-- A range of `n` words at word `a` leaves DMEM (20_memory.md R82), in exact integers. -/
def State.outOfDmem (s : State) (a n : Nat) : Bool := decide (s.caps.dmemWords < a + n)

end Sys2Proof.Machine
end

