-- ==== Sys2Proof/Machine/Flags.lean ====
section
/-! DEFINITION. The status bits and words the host sees: STATUS, CTRL, ERR_INFO and BASIS_TAG as 64-bit words
(10_state.md R35, R36, R38, R68), the interrupt output (60_exceptions.md R330), and the flags a configuration
write clears (10_state.md R74). -/

namespace Sys2Proof.Machine

/-- The code of an error (60_exceptions.md R321). -/
def ErrCode.toBits : ErrCode → BitVec 8
  | .none => 0#8
  | .invalidConfiguration => 1#8
  | .invalidInput => 2#8
  | .illegalCommand => 3#8
  | .addressRange => 4#8
  | .capacityExceeded => 5#8
  | .notBuilt => 6#8
  | .sequenceError => 7#8

/-- The value of FRAME_STAGE (10_state.md R72). -/
def FrameStage.toBits : FrameStage → BitVec 3
  | .empty => 0#3
  | .raw => 1#3
  | .cond => 2#3
  | .wnd => 3#3
  | .pwr => 4#3

/-- The value of BASIS_TAG.VARIANT (10_state.md R68). -/
def BasisVariant.toBits : BasisVariant → BitVec 4
  | .none => 0#4
  | .generic => 1#4
  | .orth2 => 2#4
  | .norm2 => 3#4
  | .orth3 => 4#4
  | .norm3 => 5#4
  | .legacy => 6#4

/-- The STATUS word (10_state.md R36), its reserved bits zero. -/
def Status.word (t : Status) : Word :=
  0#32 ++ t.lastOp ++ 0#5 ++ t.frameStage.toBits ++ t.errCode.toBits ++ 0#2
    ++ BitVec.ofBool t.winValid ++ BitVec.ofBool t.fbValid ++ 0#1
    ++ BitVec.ofBool t.err ++ BitVec.ofBool t.done ++ BitVec.ofBool t.busy

/-- The CTRL word (10_state.md R35): SOFT_RESET reads 0. -/
def State.ctrlWord (s : State) : Word := 0#63 ++ BitVec.ofBool s.irqEn

/-- The ERR_INFO word (10_state.md R38): (INDEX << 16) | CHECK. -/
def ErrInfo.word (e : ErrInfo) : Word := 0#16 ++ e.index ++ e.check

/-- The BASIS_TAG word (10_state.md R68). -/
def BasisTag.word (t : BasisTag) : Word :=
  0#16 ++ t.cols ++ t.rows ++ 0#11 ++ BitVec.ofBool t.orth ++ t.variant.toBits

/-- The interrupt output irq (60_exceptions.md R330). -/
def State.irq (s : State) : Bool := s.irqEn && s.status.done

/-- The nine configuration registers, by name (10_state.md R40 to R48). -/
inductive CfgReg where
  | sampleRate | frameRate | frameDur | nfft | nfilt | ncep | lowerFreq | upperFreq | alpha
deriving DecidableEq, Repr

/-- Column FB_VALID of the table of 10_state.md R74. -/
def CfgReg.clearsFb : CfgReg → Bool
  | .sampleRate => true
  | .frameRate => false
  | .frameDur => false
  | .nfft => true
  | .nfilt => true
  | .ncep => false
  | .lowerFreq => true
  | .upperFreq => true
  | .alpha => false

/-- Column WIN_VALID of the table of 10_state.md R74. -/
def CfgReg.clearsWin : CfgReg → Bool
  | .sampleRate => true
  | .frameRate => true
  | .frameDur => true
  | .nfft => true
  | .nfilt => false
  | .ncep => false
  | .lowerFreq => false
  | .upperFreq => false
  | .alpha => true

/-- Column FRAME_STAGE of the table of 10_state.md R74. -/
def CfgReg.emptiesStage : CfgReg → Bool
  | .sampleRate => true
  | .frameRate => true
  | .frameDur => true
  | .nfft => true
  | .nfilt => false
  | .ncep => false
  | .lowerFreq => false
  | .upperFreq => false
  | .alpha => true

/-- The flags a completed write to a configuration register leaves (10_state.md R74), whether or not the value
written differs from the old one. -/
def Status.afterCfgWrite (r : CfgReg) (t : Status) : Status :=
  { t with
    fbValid := t.fbValid && !r.clearsFb
    winValid := t.winValid && !r.clearsWin
    frameStage := if r.emptiesStage then .empty else t.frameStage }

/-- A configuration register as a 64-bit word: a u32 register has its reserved bits zero (10_state.md section 4). -/
def Cfg.read (c : Cfg) : CfgReg → Word
  | .sampleRate => c.sampleRate.setWidth 64
  | .frameRate => c.frameRate.setWidth 64
  | .frameDur => c.frameDur
  | .nfft => c.nfft.setWidth 64
  | .nfilt => c.nfilt.setWidth 64
  | .ncep => c.ncep.setWidth 64
  | .lowerFreq => c.lowerFreq
  | .upperFreq => c.upperFreq
  | .alpha => c.alpha

/-- What a write stores in a configuration register: data bits 31:0 in a u32 register, all 64 bits in a binary64
one (10_state.md section 4). Legality is not checked here. -/
def Cfg.store (c : Cfg) (d : Word) : CfgReg → Cfg
  | .sampleRate => { c with sampleRate := d.setWidth 32 }
  | .frameRate => { c with frameRate := d.setWidth 32 }
  | .frameDur => { c with frameDur := d }
  | .nfft => { c with nfft := d.setWidth 32 }
  | .nfilt => { c with nfilt := d.setWidth 32 }
  | .ncep => { c with ncep := d.setWidth 32 }
  | .lowerFreq => { c with lowerFreq := d }
  | .upperFreq => { c with upperFreq := d }
  | .alpha => { c with alpha := d }

/-- A completed host write to a configuration register: the value and its effect on the flags (20_memory.md R92;
10_state.md R74). -/
def State.writeCfg (s : State) (r : CfgReg) (d : Word) : State :=
  { s with cfg := s.cfg.store d r, status := s.status.afterCfgWrite r }

end Sys2Proof.Machine
end

