-- ==== Sys2Proof/Machine/Bus.lean ====
section
/-! DEFINITION. The host's side (20_memory.md): the address map, what a location reads as and what a write to it
does, a completed transaction and its response, the reads that BUSY does not hold, and the byte view of a bridge
(R83). -/

namespace Sys2Proof.Machine

/-- The capability registers (10_state.md R34). -/
inductive CapReg where
  | dmemWords | maxNfft | maxFilt | maxFrame | maxDct | numCtx
deriving DecidableEq, Repr

/-- The registers of the map of 20_memory.md R86. -/
inductive Reg where
  | id
  | cap (r : CapReg)
  | ctrl | status | cmd | errInfo
  | arg (k : Fin 6)
  | res0 | res1
  | cfg (r : CfgReg)
  | frameLen | fshift | dfreq
  | sigBase | sigLen | basisTag | basisStep
  | prior (c : Ctx)
deriving DecidableEq, Repr

/-- The register map (20_memory.md R86): byte offset and register. -/
def registerMap : List (Nat × Reg) :=
  [ (0x000, .id), (0x008, .cap .dmemWords), (0x010, .cap .maxNfft), (0x018, .cap .maxFilt),
    (0x020, .cap .maxFrame), (0x028, .cap .maxDct), (0x030, .cap .numCtx),
    (0x040, .ctrl), (0x048, .status), (0x050, .cmd), (0x058, .errInfo),
    (0x060, .arg 0), (0x068, .arg 1), (0x070, .arg 2), (0x078, .arg 3), (0x080, .arg 4), (0x088, .arg 5),
    (0x090, .res0), (0x098, .res1),
    (0x100, .cfg .sampleRate), (0x108, .cfg .frameRate), (0x110, .cfg .frameDur), (0x118, .cfg .nfft),
    (0x120, .cfg .nfilt), (0x128, .cfg .ncep), (0x130, .cfg .lowerFreq), (0x138, .cfg .upperFreq),
    (0x140, .cfg .alpha), (0x148, .frameLen), (0x150, .fshift), (0x158, .dfreq),
    (0x180, .sigBase), (0x188, .sigLen), (0x190, .basisTag), (0x198, .basisStep),
    (0x1A0, .prior 0#2), (0x1A8, .prior 1#2), (0x1B0, .prior 2#2), (0x1B8, .prior 3#2) ]

/-- A register exists in the instance: PRIOR[c] only below NUM_CTX (10_state.md R57). -/
def Reg.mapped (caps : Caps) : Reg → Bool
  | .prior c => decide (c.toNat < caps.numCtx)
  | _ => true

/-- The register at a byte offset below 0x1000 (20_memory.md R86). -/
def registerAt (caps : Caps) (off : Nat) : Option Reg :=
  match registerMap.find? (fun row => row.1 == off) with
  | some row => if row.2.mapped caps then some row.2 else none
  | none => none

/-- The memory windows (20_memory.md R88): base, end and space. -/
def windowMap : List (Nat × Nat × Space) :=
  [ (0x010000, 0x017FFF, .edgeHz), (0x018000, 0x01FFFF, .edgeBin), (0x020000, 0x027FFF, .fbHeight),
    (0x040000, 0x047FFF, .win), (0x048000, 0x04FFFF, .raw), (0x050000, 0x057FFF, .cond),
    (0x058000, 0x05FFFF, .wnd), (0x060000, 0x067FFF, .pwr), (0x080000, 0x0FFFFF, .dctm),
    (0x100000, 0x4FFFFF, .fb), (0x800000, 0xFFFFFF, .dmem) ]

/-- A location of the host address space. -/
inductive Location where
  | reg (r : Reg)
  | word (sp : Space) (w : Nat)
deriving DecidableEq, Repr

/-- The mapped word of a window at a byte address: only below the window's capacity (20_memory.md R88). -/
def windowAt (caps : Caps) (a : Nat) : Option Location :=
  match windowMap.find? (fun row => decide (row.1 ≤ a) && decide (a ≤ row.2.1)) with
  | some row =>
    if (a - row.1) / 8 < row.2.2.capacity caps then some (.word row.2.2 ((a - row.1) / 8)) else none
  | none => none

/-- The location a transaction of `size` bytes at `a` reaches: none when it is misaligned, not 8 bytes wide
(20_memory.md R85) or unmapped (R90). -/
def locate (caps : Caps) (a : HostAddr) (size : Nat) : Option Location :=
  if a.toNat % 8 ≠ 0 ∨ size ≠ 8 then none
  else if a.toNat < 0x1000 then (registerAt caps a.toNat).map Location.reg
  else windowAt caps a.toNat

/-- A capability register's value, zero-extended (10_state.md R34). -/
def Caps.read (c : Caps) : CapReg → Word
  | .dmemWords => BitVec.ofNat 64 c.dmemWords
  | .maxNfft => BitVec.ofNat 64 c.maxNfft
  | .maxFilt => BitVec.ofNat 64 c.maxFilt
  | .maxFrame => BitVec.ofNat 64 c.maxFrame
  | .maxDct => BitVec.ofNat 64 c.maxDct
  | .numCtx => BitVec.ofNat 64 c.numCtx

/-- What a register reads as, reserved bits zero (20_memory.md R91); derived registers are computed here
(10_state.md R49 to R51). -/
def State.readReg (s : State) : Reg → Word
  | .id => Config.idValue
  | .cap r => Caps.read s.caps r
  | .ctrl => s.ctrlWord
  | .status => s.status.word
  | .cmd => s.cmd
  | .errInfo => s.errInfo.word
  | .arg k => s.args[k]
  | .res0 => s.res0
  | .res1 => s.res1
  | .cfg r => s.cfg.read r
  | .frameLen => BitVec.ofNat 64 s.frameLen
  | .fshift => s.fshift
  | .dfreq => s.dfreq
  | .sigBase => s.sigBase
  | .sigLen => s.sigLen
  | .basisTag => s.basisTag.word
  | .basisStep => s.basisStep
  | .prior c => s.priorOf c

/-- A write of `d` to CTRL (10_state.md R35): bit 1 performs the soft reset, whatever bit 0 is; else bit 0 is
IRQ_EN. -/
def State.writeCtrl (s : State) (d : Word) : State :=
  if d.getLsbD 1 then s.softReset else { s with irqEn := d.getLsbD 0 }

/-- A write of `d` to STATUS (10_state.md R36): bit 1 clears DONE, bit 2 clears ERR, ERR_CODE and ERR_INFO. -/
def State.writeStatus (s : State) (d : Word) : State :=
  let t := if d.getLsbD 1 then s.clearDone else s
  if d.getLsbD 2 then t.clearErr else t

/-- What a completed write of `d` to a register does (20_memory.md R92); a read-only register ignores it. -/
def State.writeReg (s : State) (d : Word) : Reg → State
  | .id => s
  | .cap _ => s
  | .ctrl => s.writeCtrl d
  | .status => s.writeStatus d
  | .cmd => s.issue d
  | .errInfo => s
  | .arg k => { s with args := s.args.set k.val d k.isLt }
  | .res0 => s
  | .res1 => s
  | .cfg r => s.writeCfg r d
  | .frameLen => s
  | .fshift => s
  | .dfreq => s
  | .sigBase => { s with sigBase := d }
  | .sigLen => { s with sigLen := d }
  | .basisTag => s
  | .basisStep => s
  | .prior _ => s

/-- What a location reads as (20_memory.md R91); an unwritten window word faults (10_state.md R78). -/
def State.readLocation (s : State) : Location → Except Fault Word
  | .reg r => .ok (s.readReg r)
  | .word sp w => readWord sp (s.space sp) w

/-- What a completed write does to a location (20_memory.md R92): of the windows only DMEM is writable. -/
def State.writeLocation (s : State) (d : Word) : Location → State
  | .reg r => s.writeReg d r
  | .word .dmem w => s.writeDmem w [d]
  | .word .edgeHz _ => s
  | .word .edgeBin _ => s
  | .word .fbHeight _ => s
  | .word .win _ => s
  | .word .raw _ => s
  | .word .cond _ => s
  | .word .wnd _ => s
  | .word .pwr _ => s
  | .word .dctm _ => s
  | .word .fb _ => s

/-- A completed input: a bus transaction with its response (20_memory.md R85, R90 to R92), or the reset line
(70_reset_and_hazards.md R360). -/
def completeInput (t : HostInput) (s : State) : Host.Outcome State Fault Refusal :=
  match t with
  | .resetLine => .next s.powerOnReset
  | .read a size =>
    match locate s.caps a size with
    | none => .next { s with response := some .error }
    | some loc =>
      match s.readLocation loc with
      | .ok v => .next { s with response := some (.okayRead v) }
      | .error f => .fault f
  | .write a size d =>
    match locate s.caps a size with
    | none => .next { s with response := some .error }
    | some loc => .next { s.writeLocation d loc with response := some .okayWrite }

/-- The registers whose reads BUSY does not hold: ID, the CAP registers, STATUS and CTRL (20_memory.md R93). -/
def Reg.exempt : Reg → Bool
  | .id => true
  | .cap _ => true
  | .status => true
  | .ctrl => true
  | _ => false

/-- A transaction that completes at once while BUSY = 1 (20_memory.md R93): a read of such a register. -/
def HostInput.exempt (caps : Caps) : HostInput → Bool
  | .read a size =>
    match locate caps a size with
    | some (.reg r) => r.exempt
    | _ => false
  | _ => false

/-- The data a response carries to the host: 0 with an ERROR (20_memory.md R90). -/
def BusResponse.data : BusResponse → Word
  | .okayRead v => v
  | .okayWrite => 0#64
  | .error => 0#64

/-- Byte `k` of a word as a little-endian bridge presents it, at byte address A + k (20_memory.md R83). -/
def bridgeByte (w : Word) (k : Fin 8) : BitVec 8 := w.extractLsb' (8 * k.val) 8

/-- The platform address of a host address of the block (20_memory.md R87, MELFE_BASE open, log 12). -/
def platformAddress (a : HostAddr) : Nat := Config.melfeBase + a.toNat

end Sys2Proof.Machine
end

