-- ==== Sys2Proof/Machine/Numerics.lean ====
section
/-! DEFINITION. The numerics parameters of 00_scope.md R7: total functions that depend only on their operands,
held to the exact cases R7 requires, to the one NaN of R12 and to the two cases that rules of the commands state of
them without an accuracy premise (log 19); everything beyond is the implementation's own (the opaque constants of
Config, log 2). -/

namespace Sys2Proof.Machine

/-- The five numerics parameters, as the commands use them. `rdft L x b` is (re, im) of bin b. -/
structure Numerics where
  log10 : F64 → F64
  pow10 : F64 → F64
  ln : F64 → F64
  cos : F64 → F64
  rdft : Nat → List F64 → Nat → F64 × F64

/-- The exact cases both logarithms have (00_scope.md R7): a NaN gives NaN, x < 0 gives NaN, +0.0 gives -inf,
1.0 gives +0.0, +inf gives +inf. The value at -0.0 is not stated, so it stays free. -/
def logContract (raw : F64 → F64) (x : F64) : F64 :=
  if isNaN x then canonicalNaN
  else if flt x posZero then canonicalNaN
  else if x = posZero then infinity true
  else if x = cOne then posZero
  else if x = infinity false then infinity false
  else canonical (raw x)

/-- NUM_ln (00_scope.md R7): the exact cases of a logarithm, and from the energy floor up no -inf, since 43_spectral.md
R251 and R244 say that no LM[j] is one (log 19). A raw function that answers -inf there is read as the least finite
value; every function that never does so is left as it is. -/
def lnContract (raw : F64 → F64) (x : F64) : F64 :=
  let r := logContract raw x
  if fle cFloorE x ∧ r = infinity true then packSign true (infMagnitude - 1) else r

/-- 309.0: from this exponent on 10^x overflows for the contract, 10^309 being more than five times 2^1024 (log 19). -/
def cPow10Overflow : F64 := 0x4073500000000000#64

/-- The exact cases of NUM_pow10 (00_scope.md R7), and its overflow to +inf for a large operand (41_filterbank.md R170,
which leaves open how large; from 309.0 on here, log 19). -/
def pow10Contract (raw : F64 → F64) (x : F64) : F64 :=
  if isNaN x then canonicalNaN
  else if isZero x then cOne
  else if fle cPow10Overflow x then infinity false
  else canonical (raw x)

/-- The exact cases of NUM_cos (00_scope.md R7). -/
def cosContract (raw : F64 → F64) (x : F64) : F64 :=
  if isNaN x ∨ isInf x then canonicalNaN else if isZero x then cOne else canonical (raw x)

/-- NUM_rdft has the NaN rule R12 alone (00_scope.md R7): a NaN sample propagates into every bin (DEDUCED from
R7, R12 and 43_spectral.md R246, log 3) and every NaN is the canonical one. -/
def rdftContract (raw : Nat → List F64 → Nat → F64 × F64) (len : Nat) (x : List F64) (b : Nat) : F64 × F64 :=
  if x.any isNaN then (canonicalNaN, canonicalNaN)
  else (canonical (raw len x b).1, canonical (raw len x b).2)

/-- The numerics built from an implementation's raw functions. -/
def Numerics.ofRaw (log10 pow10 ln cos : F64 → F64) (rdft : Nat → List F64 → Nat → F64 × F64) : Numerics where
  log10 := logContract log10
  pow10 := pow10Contract pow10
  ln := lnContract ln
  cos := cosContract cos
  rdft := rdftContract rdft

/-- An implementation's numerics meet the contract: the wrappers leave them as they are. -/
def Numerics.Conforms (nu : Numerics) : Prop := Numerics.ofRaw nu.log10 nu.pow10 nu.ln nu.cos nu.rdft = nu

/-- The numerics of the machine: the implementation's own, free beyond the contract (00_scope.md R7, log 2). -/
def numerics : Numerics :=
  Numerics.ofRaw Config.rawLog10 Config.rawPow10 Config.rawLn Config.rawCos Config.rawRdft

end Sys2Proof.Machine
end

