-- ==== Sys2Proof/Machine/Control.lean ====
section
/-! DEFINITION. The control command NOP (40_control.md). -/

namespace Sys2Proof.Machine

/-- NOP (40_control.md R142): no check of its own and no effect beyond the completion of R140. -/
def execNop (s : State) : Host.Outcome State Fault Refusal :=
  runTotal [] (fun t => t) s

end Sys2Proof.Machine
end

