-- ==== Sys2Proof/Machine/Dct.lean ====
section
/-! DEFINITION. The DCT-II/III engine (44_dct.md): the cosine bases, the batch application, and the commands
DCT_BASIS, DCT_ORTH, DCT2, IDCT_ORTH, DCT3 and DCT_LEGACY. -/

namespace Sys2Proof.Machine

/-- Entry (a, b) of dctMatrix(A, B, step, o) (44_dct.md R271): the first column is divided by SQRT2 when `o`.
DESIGN CHOICE: where a finite step times (a + 0.5) overflows, R271's formula gives NaN in column 0 (inf * 0) and its prose
1.0; the formula is taken (log 21). -/
def dctMatrix (nu : Numerics) (step : F64) (o : Bool) (a b : Nat) : F64 :=
  let g := nu.cos (fmul (fmul step (fadd (ofNat a) cHalf)) (ofNat b))
  if o ∧ b = 0 then fdiv g cSqrt2 else g

/-- Entry (i, j) of the legacy basis for `n` filters (44_dct.md R279): row 0 is scaled by 0.5. -/
def legacyMatrix (nu : Numerics) (n i j : Nat) : F64 :=
  let g := nu.cos (fmul (fdiv (fmul cPi (ofNat i)) (ofNat n)) (fadd (ofNat j) cHalf))
  if i = 0 then fmul g cHalf else g

/-- Entry (k, n) of dct3's matrix before it is transposed (44_dct.md R278): the first column is scaled by 0.5. -/
def dct3Matrix (nu : Numerics) (step : F64) (k n : Nat) : F64 :=
  if n = 0 then fmul (dctMatrix nu step false k n) cHalf else dctMatrix nu step false k n

/-- Checks 10 and 11 of 44_dct.md R272, for the row lengths `n` and `k`. -/
def dctSizeChecks (s : State) (n k : Nat) : List (Bool × CmdError) :=
  [ (decide (n = 0) || decide (k = 0), ⟨.invalidConfiguration, 10, 0⟩),
    (decide (s.caps.maxDct < n) || decide (s.caps.maxDct < k), ⟨.capacityExceeded, 11, 0⟩) ]

/-- The checks of DCT_BASIS (44_dct.md R272, checks 10, 11 and 12). -/
def dctBasisChecks (s : State) : List (Bool × CmdError) :=
  dctSizeChecks s s.argN s.argK ++ [(!isFinite s.argX, ⟨.invalidConfiguration, 12, 0⟩)]

/-- The checks of a transform (44_dct.md R272, checks 10, 11, 13 and 14). -/
def transformChecks (s : State) (n k : Nat) : List (Bool × CmdError) :=
  dctSizeChecks s n k ++
  [ (s.outOfDmem s.src (s.rows * n), ⟨.addressRange, 13, 0⟩),
    (s.outOfDmem s.dst (s.rows * k), ⟨.addressRange, 14, 0⟩) ]

/-- DCTM <- a `rows` x `cols` basis, with its BASIS_TAG and BASIS_STEP (44_dct.md R280; 10_state.md R67 to R69). -/
def State.setBasis (s : State) (variant : BasisVariant) (orth : Bool) (rows cols : Nat) (step : F64)
    (entry : Nat → Nat → F64) : State :=
  { s with
    bufs := { s.bufs with dctm := s.bufs.dctm.write 0 (rowMajor rows cols entry) }
    basisTag := ⟨variant, orth, BitVec.ofNat 16 rows, BitVec.ofNat 16 cols⟩
    basisStep := step }

/-- Row `m` of a batch of rows of `n` words (00_scope.md R17). -/
def batchRow (input : List F64) (n m : Nat) : List F64 := (input.drop (m * n)).take n

/-- Batch application (44_dct.md R273): every input word is read first, then ROWS rows of `k` outputs are written;
`f row j` is output `j` of a row. -/
def applyBatch (s : State) (n k : Nat) (f : List F64 → Nat → F64) : Except Fault State :=
  match readRange .dmem s.dmem s.src (s.rows * n) with
  | .error e => .error e
  | .ok input => .ok (s.writeDmem s.dst (rowMajor s.rows k (fun m j => f (batchRow input n m) j)))

/-- fdot of a row with the vector `w` (00_scope.md R15). -/
def dotRow (row : List F64) (w : Nat → F64) : F64 :=
  fdot (row.zip ((List.range row.length).map w))

/-- The effects of DCT_BASIS (44_dct.md R274). -/
def dctBasisEffects (nu : Numerics) (o : Bool) (s : State) : State :=
  s.setBasis .generic o s.argN s.argK s.argX (dctMatrix nu s.argX o)

/-- DCT_BASIS (44_dct.md R274). -/
def execDctBasis (orth : Bool) (s : State) : Host.Outcome State Fault Refusal :=
  runTotal (dctBasisChecks s) (dctBasisEffects numerics orth) s

/-- The effects of DCT_ORTH (44_dct.md R275). -/
def dctOrthEffects (nu : Numerics) (s : State) : Except Fault State :=
  let step := fdiv cPi (ofNat s.argN)
  let scale := fsqrt (fdiv cTwo (ofNat s.argN))
  applyBatch (s.setBasis .orth2 true s.argN s.argK step (dctMatrix nu step true)) s.argN s.argK
    (fun row k => fmul (dotRow row (fun n => dctMatrix nu step true n k)) scale)

/-- DCT_ORTH (44_dct.md R275). -/
def execDctOrth (s : State) : Host.Outcome State Fault Refusal :=
  runReading (transformChecks s s.argN s.argK) (dctOrthEffects numerics) s

/-- The effects of DCT2 (44_dct.md R276). -/
def dct2Effects (nu : Numerics) (s : State) : Except Fault State :=
  let step := fdiv cPi (ofNat s.argN)
  let scale := fdiv cTwo (ofNat s.argN)
  applyBatch (s.setBasis .norm2 false s.argN s.argK step (dctMatrix nu step false)) s.argN s.argK
    (fun row k => fmul (dotRow row (fun n => dctMatrix nu step false n k)) scale)

/-- DCT2 (44_dct.md R276). -/
def execDct2 (s : State) : Host.Outcome State Fault Refusal :=
  runReading (transformChecks s s.argN s.argK) (dct2Effects numerics) s

/-- The effects of IDCT_ORTH (44_dct.md R277): the stored basis is the transpose. -/
def idctOrthEffects (nu : Numerics) (s : State) : Except Fault State :=
  let step := fdiv cPi (ofNat s.argK)
  let scale := fsqrt (fdiv cTwo (ofNat s.argK))
  applyBatch (s.setBasis .orth3 true s.argN s.argK step (fun n k => dctMatrix nu step true k n)) s.argN s.argK
    (fun row k => fmul (dotRow row (fun n => dctMatrix nu step true k n)) scale)

/-- IDCT_ORTH (44_dct.md R277). -/
def execIdctOrth (s : State) : Host.Outcome State Fault Refusal :=
  runReading (transformChecks s s.argN s.argK) (idctOrthEffects numerics) s

/-- The effects of DCT3 (44_dct.md R278): the stored basis is the transpose. -/
def dct3Effects (nu : Numerics) (s : State) : Except Fault State :=
  let step := fdiv cPi (ofNat s.argK)
  applyBatch (s.setBasis .norm3 false s.argN s.argK step (fun n k => dct3Matrix nu step k n)) s.argN s.argK
    (fun row k => dotRow row (fun n => dct3Matrix nu step k n))

/-- DCT3 (44_dct.md R278). -/
def execDct3 (s : State) : Host.Outcome State Fault Refusal :=
  runReading (transformChecks s s.argN s.argK) (dct3Effects numerics) s

/-- The effects of DCT_LEGACY (44_dct.md R279): N = CFG_NFILT, K = CFG_NCEP, the stored basis is K x N. -/
def dctLegacyEffects (nu : Numerics) (s : State) : Except Fault State :=
  applyBatch (s.setBasis .legacy false s.ncep s.nfilt posZero (legacyMatrix nu s.nfilt)) s.nfilt s.ncep
    (fun row i => fdiv (dotRow row (legacyMatrix nu s.nfilt i)) (ofNat s.nfilt))

/-- DCT_LEGACY (44_dct.md R279). -/
def execDctLegacy (s : State) : Host.Outcome State Fault Refusal :=
  runReading (transformChecks s s.nfilt s.ncep) (dctLegacyEffects numerics) s

end Sys2Proof.Machine
end

