-- ==== Sys2Proof/Machine/Filterbank.lean ====
section
/-! DEFINITION. The filter-bank builder (41_filterbank.md): mel and its inverse, the edges, the triangles, and the
commands FB_BUILD, MEL and MELINV. -/

namespace Sys2Proof.Machine

/-- mel (41_filterbank.md R161). -/
def melOf (nu : Numerics) (f : F64) : F64 := fmul c2595 (nu.log10 (fadd cOne (fdiv f c700)))

/-- melinv (41_filterbank.md R162). -/
def melInvOf (nu : Numerics) (m : F64) : F64 := fmul c700 (fsub (nu.pow10 (fdiv m c2595)) cOne)

/-- dmel, the spacing of the edges in mel (41_filterbank.md R163). -/
def melSpacing (nu : Numerics) (c : Cfg) : F64 :=
  fdiv (fsub (melOf nu c.upperFreq) (melOf nu c.lowerFreq)) (ofNat (c.nfilt.toNat + 1))

/-- Mi, the mel value of edge `i` (41_filterbank.md R163). -/
def edgeMel (nu : Numerics) (c : Cfg) (i : Nat) : F64 :=
  fadd (melOf nu c.lowerFreq) (fmul (melSpacing nu c) (ofNat i))

/-- Ei, the frequency of edge `i` in Hz (41_filterbank.md R164). -/
def edgeHzOf (nu : Numerics) (c : Cfg) (i : Nat) : F64 := melInvOf nu (edgeMel nu c i)

/-- qi, the frequency of edge `i` in bins, before rounding (41_filterbank.md R165). -/
def edgeRatio (nu : Numerics) (c : Cfg) (i : Nat) : F64 := fdiv (edgeHzOf nu c i) c.dfreq

/-- bin_i, the bin of edge `i` (41_filterbank.md R165), for a finite qi (R167 check 19). -/
def edgeBinOf (nu : Numerics) (c : Cfg) (i : Nat) : Int := rha (edgeRatio nu c i)

/-- height_j of a filter with edge bins `l` and `r` (41_filterbank.md R166). -/
def filterHeight (dfreq : F64) (l r : Int) : F64 := fdiv cTwo (fmul (ofInt (r - l)) dfreq)

/-- leftSlope (41_filterbank.md R166). -/
def leftSlope (height : F64) (l c : Int) : F64 :=
  if c ≠ l then fdiv height (ofInt (c - l)) else posZero

/-- rightSlope, negative when c < r (41_filterbank.md R166). -/
def rightSlope (height : F64) (c r : Int) : F64 :=
  if c ≠ r then fdiv height (ofInt (c - r)) else posZero

/-- FBval at bin `b` of the filter with edge bins `l`, `c`, `r` (41_filterbank.md R166). -/
def triangle (dfreq : F64) (l c r b : Int) : F64 :=
  if l < b ∧ b < c then fmul (ofInt (b - l)) (leftSlope (filterHeight dfreq l r) l c)
  else if b = c then filterHeight dfreq l r
  else if c < b ∧ b < r then fmul (ofInt (b - r)) (rightSlope (filterHeight dfreq l r) c r)
  else posZero

/-- height_j of a configuration (41_filterbank.md R166). -/
def heightOf (nu : Numerics) (c : Cfg) (j : Nat) : F64 :=
  filterHeight c.dfreq (edgeBinOf nu c j) (edgeBinOf nu c (j + 2))

/-- FBval(b, j) of a configuration (41_filterbank.md R166). -/
def fbValue (nu : Numerics) (c : Cfg) (b j : Nat) : F64 :=
  triangle c.dfreq (edgeBinOf nu c j) (edgeBinOf nu c (j + 1)) (edgeBinOf nu c (j + 2)) (b : Int)

/-- Nyquist frequency of a configuration (00_scope.md R18). -/
def Cfg.nyquist (c : Cfg) : F64 := fdiv (ofNat c.sampleRate.toNat) cTwo

/-- The smallest index below `n` where `bad` holds. -/
def firstIndex (n : Nat) (bad : Nat → Bool) : Option Nat := (List.range n).find? bad

/-- Check 19 of 41_filterbank.md R167 fails at edge `i`. -/
def edgeOutside (nu : Numerics) (c : Cfg) (i : Nat) : Bool :=
  !isFinite (edgeRatio nu c i) || decide (edgeBinOf nu c i < 0)
    || decide ((c.nfft.toNat / 2 : Int) < edgeBinOf nu c i)

/-- Check 20 of 41_filterbank.md R167 fails at filter `j`. -/
def edgesDisordered (nu : Numerics) (c : Cfg) (j : Nat) : Bool :=
  decide (edgeBinOf nu c (j + 1) < edgeBinOf nu c j)
    || decide (edgeBinOf nu c (j + 2) < edgeBinOf nu c (j + 1))

/-- Check 21 of 41_filterbank.md R167 fails at filter `j`. -/
def filterZeroWidth (nu : Numerics) (c : Cfg) (j : Nat) : Bool :=
  decide (edgeBinOf nu c j = edgeBinOf nu c (j + 2))

/-- The checks of FB_BUILD in their order (41_filterbank.md R167). -/
def fbBuildChecks (nu : Numerics) (s : State) : List (Bool × CmdError) :=
  let c := s.cfg
  [ (decide (s.sampleRate = 0), ⟨.invalidConfiguration, 10, 0⟩),
    (decide (s.nfft < 2) || !isPowerOfTwo s.nfft, ⟨.invalidConfiguration, 11, 0⟩),
    (decide (s.caps.maxNfft < s.nfft), ⟨.capacityExceeded, 12, 0⟩),
    (decide (s.nfilt = 0), ⟨.invalidConfiguration, 13, 0⟩),
    (decide (s.caps.maxFilt < s.nfilt), ⟨.capacityExceeded, 14, 0⟩),
    (!isFinite c.lowerFreq || !isFinite c.upperFreq, ⟨.invalidConfiguration, 15, 0⟩),
    (flt c.nyquist c.upperFreq, ⟨.invalidConfiguration, 16, 0⟩),
    (flt c.lowerFreq posZero, ⟨.invalidConfiguration, 17, 0⟩),
    (!flt c.lowerFreq c.upperFreq, ⟨.invalidConfiguration, 18, 0⟩),
    ((firstIndex (s.nfilt + 2) (edgeOutside nu c)).isSome,
      ⟨.invalidConfiguration, 19, (firstIndex (s.nfilt + 2) (edgeOutside nu c)).getD 0⟩),
    ((firstIndex s.nfilt (edgesDisordered nu c)).isSome,
      ⟨.invalidConfiguration, 20, (firstIndex s.nfilt (edgesDisordered nu c)).getD 0⟩),
    ((firstIndex s.nfilt (filterZeroWidth nu c)).isSome,
      ⟨.invalidConfiguration, 21, (firstIndex s.nfilt (filterZeroWidth nu c)).getD 0⟩) ]

/-- The effects of FB_BUILD (41_filterbank.md R168). -/
def fbBuildEffects (nu : Numerics) (s : State) : State :=
  { s with
    bufs := { s.bufs with
      edgeHz := s.bufs.edgeHz.write 0 ((List.range (s.nfilt + 2)).map (edgeHzOf nu s.cfg))
      edgeBin := s.bufs.edgeBin.write 0
        ((List.range (s.nfilt + 2)).map (fun i => BitVec.ofInt 64 (edgeBinOf nu s.cfg i)))
      fbHeight := s.bufs.fbHeight.write 0 ((List.range s.nfilt).map (heightOf nu s.cfg))
      fb := s.bufs.fb.write 0 (rowMajor s.nbins s.nfilt (fbValue nu s.cfg)) }
    status := { s.status with fbValid := true }
    res0 := BitVec.ofNat 64 s.nbins
    res1 := BitVec.ofNat 64 s.nfilt }

/-- FB_BUILD on given numerics (41_filterbank.md R168; 00_scope.md R7: "the model takes these numerics parameters
as arguments"). -/
def fbBuildOn (nu : Numerics) (s : State) : Host.Outcome State Fault Refusal :=
  runTotal (fbBuildChecks nu s) (fbBuildEffects nu) s

/-- FB_BUILD (41_filterbank.md R168). -/
def execFbBuild (s : State) : Host.Outcome State Fault Refusal := fbBuildOn numerics s

/-- The effects of MEL (41_filterbank.md R169). -/
def melEffects (nu : Numerics) (s : State) : State := { s with res0 := melOf nu s.argX }

/-- MEL (41_filterbank.md R169): no check beyond decoding. -/
def execMel (s : State) : Host.Outcome State Fault Refusal :=
  runTotal [] (melEffects numerics) s

/-- The effects of MELINV (41_filterbank.md R170). -/
def melInvEffects (nu : Numerics) (s : State) : State := { s with res0 := melInvOf nu s.argX }

/-- MELINV (41_filterbank.md R170): no check beyond decoding. -/
def execMelInv (s : State) : Host.Outcome State Fault Refusal :=
  runTotal [] (melInvEffects numerics) s

end Sys2Proof.Machine
end

