-- ==== Sys2Proof/Machine/Frame.lean ====
section
/-! DEFINITION. The frame windower (42_frame.md): window, frame placement, pre-emphasis, and the commands
WIN_BUILD, CTX_RESET, FRAME_COUNT, FRAME_FETCH, PREEMPH, WINDOW and FRAME_PREP. -/

namespace Sys2Proof.Machine

/-- w(M, n), the symmetric Hamming window (42_frame.md R203). -/
def windowValue (nu : Numerics) (m n : Nat) : F64 :=
  if m = 1 then cOne
  else fsub cHamA (fmul cHamB (nu.cos (fdiv (fmul cTwoPi (ofNat n)) (ofNat (m - 1)))))

/-- The frame-configuration checks in their order (42_frame.md R201). -/
def winBuildChecks (s : State) : List (Bool × CmdError) :=
  [ (decide (s.sampleRate = 0), ⟨.invalidConfiguration, 10, 0⟩),
    (decide (s.frameRate = 0), ⟨.invalidConfiguration, 11, 0⟩),
    (decide (s.frameLen = 0), ⟨.invalidConfiguration, 12, 0⟩),
    (decide (s.caps.maxFrame < s.frameLen), ⟨.capacityExceeded, 13, 0⟩),
    (decide (s.nfft < 2) || !isPowerOfTwo s.nfft, ⟨.invalidConfiguration, 14, 0⟩),
    (decide (s.caps.maxNfft < s.nfft), ⟨.capacityExceeded, 15, 0⟩),
    (decide (s.nfft < s.frameLen), ⟨.invalidConfiguration, 16, 0⟩),
    (!(fle posZero s.cfg.alpha && flt s.cfg.alpha cOne), ⟨.invalidConfiguration, 17, 0⟩) ]

/-- The effects of WIN_BUILD (42_frame.md R204). -/
def winBuildEffects (nu : Numerics) (s : State) : State :=
  { s with
    bufs := { s.bufs with
      win := s.bufs.win.write 0 ((List.range s.frameLen).map (windowValue nu s.frameLen)) }
    status := { s.status with winValid := true }
    res0 := BitVec.ofNat 64 s.frameLen }

/-- WIN_BUILD (42_frame.md R204). -/
def execWinBuild (s : State) : Host.Outcome State Fault Refusal :=
  runTotal (winBuildChecks s) (winBuildEffects numerics) s

/-- CTX_RESET (42_frame.md R206): PRIOR[c] <- +0.0. -/
def execCtxReset (c : Ctx) (s : State) : Host.Outcome State Fault Refusal :=
  runTotal [] (fun t => t.setPrior c posZero) s

/-- The signal checks 10 to 12 (42_frame.md R211), those FRAME_COUNT runs. -/
def signalChecks (s : State) : List (Bool × CmdError) :=
  [ (decide (s.sigSamples = 0), ⟨.invalidInput, 10, 0⟩),
    (decide (s.sampleRate = 0), ⟨.invalidInput, 11, 0⟩),
    (!s.status.winValid, ⟨.notBuilt, 12, 0⟩) ]

/-- The signal checks 10 to 13 (42_frame.md R211), those FRAME_FETCH and FRAME_PREP run. -/
def fetchChecks (s : State) : List (Bool × CmdError) :=
  signalChecks s ++ [(s.outOfDmem s.sigStart s.sigSamples, ⟨.addressRange, 13, 0⟩)]

/-- frameCount(L) (42_frame.md R202), where the quotient is finite. -/
def frameCountOf (fshift : F64) (len : Nat) : Option Nat :=
  let q := fdiv (ofNat len) fshift
  if isFinite q then some (floorInt q + 1).toNat else none

/-- start(i) (42_frame.md R202), where the product is finite. -/
def frameStart (fshift : F64) (i : Nat) : Option Nat :=
  let p := fmul (ofNat i) fshift
  if isFinite p then some (rha p).toNat else none

/-- The effects of FRAME_COUNT (42_frame.md R205). -/
def frameCountEffects (s : State) : Except Fault State :=
  match frameCountOf s.fshift s.sigSamples with
  | some n => .ok { s with res0 := saturate64 n }
  | none => .error .nonFiniteRounding

/-- FRAME_COUNT (42_frame.md R205). -/
def execFrameCount (s : State) : Host.Outcome State Fault Refusal :=
  runReading (signalChecks s) frameCountEffects s

/-- How many samples of the signal a frame starting at `start` holds: max(0, min(FRAME_LEN, L - s))
(42_frame.md R207). -/
def State.samplesAt (s : State) (start : Nat) : Nat := min s.frameLen (s.sigSamples - start)

/-- The effects of FRAME_FETCH (42_frame.md R207): the samples there are, then +0.0 up to FRAME_LEN. A NaN sample
is copied as the canonical NaN. -/
def fetchEffects (s : State) : Except Fault State :=
  match frameStart s.fshift s.frameIndex with
  | none => .error .nonFiniteRounding
  | some start =>
    match readRange .dmem s.dmem (s.sigStart + start) (s.samplesAt start) with
    | .error f => .error f
    | .ok samples =>
      .ok { s with
        bufs := { s.bufs with
          raw := s.bufs.raw.write 0
            (samples.map canonical ++ List.replicate (s.frameLen - s.samplesAt start) posZero) }
        status := { s.status with frameStage := .raw }
        res0 := saturate64 start
        res1 := saturate64 (s.samplesAt start) }

/-- FRAME_FETCH (42_frame.md R207). -/
def execFrameFetch (s : State) : Host.Outcome State Fault Refusal :=
  runReading (fetchChecks s) fetchEffects s

/-- The pre-emphasized samples of a raw frame, each against the one before it, the first against the prior `p`
(42_frame.md R208). -/
def preemphasize (alpha : F64) : F64 → List F64 → List F64
  | _, [] => []
  | p, x :: xs => fsub x (fmul alpha p) :: preemphasize alpha x xs

/-- The effects of PREEMPH (42_frame.md R208): COND, and PRIOR[c] <- the last entry of the raw frame. -/
def preemphEffects (c : Ctx) (s : State) : Except Fault State :=
  match readRange .raw s.bufs.raw 0 s.frameLen with
  | .error f => .error f
  | .ok raw =>
    match raw.getLast? with
    | none => .error .emptyFrame
    | some last =>
      .ok ({ s with
        bufs := { s.bufs with
          cond := s.bufs.cond.write 0 (preemphasize s.cfg.alpha (s.priorOf c) raw) }
        status := { s.status with frameStage := .cond } }.setPrior c (canonical last))

/-- PREEMPH (42_frame.md R208). -/
def execPreemph (c : Ctx) (s : State) : Host.Outcome State Fault Refusal :=
  runReading [(decide (s.status.frameStage ≠ .raw), ⟨.sequenceError, 10, 0⟩)] (preemphEffects c) s

/-- The effects of WINDOW (42_frame.md R209). -/
def windowEffects (s : State) : Except Fault State :=
  match readRange .cond s.bufs.cond 0 s.frameLen with
  | .error f => .error f
  | .ok cond =>
    match readRange .win s.bufs.win 0 s.frameLen with
    | .error f => .error f
    | .ok win =>
      .ok { s with
        bufs := { s.bufs with wnd := s.bufs.wnd.write 0 (List.zipWith fmul cond win) }
        status := { s.status with frameStage := .wnd } }

/-- WINDOW (42_frame.md R209). -/
def execWindow (s : State) : Host.Outcome State Fault Refusal :=
  runReading [(decide (s.status.frameStage ≠ .cond), ⟨.sequenceError, 10, 0⟩)] windowEffects s

/-- The effects of FRAME_PREP (42_frame.md R210): those of FRAME_FETCH, then PREEMPH, then WINDOW. -/
def framePrepEffects (c : Ctx) (s : State) : Except Fault State :=
  match fetchEffects s with
  | .error f => .error f
  | .ok t =>
    match preemphEffects c t with
    | .error f => .error f
    | .ok u => windowEffects u

/-- FRAME_PREP (42_frame.md R210). -/
def execFramePrep (c : Ctx) (s : State) : Host.Outcome State Fault Refusal :=
  runReading (fetchChecks s) (framePrepEffects c) s

end Sys2Proof.Machine
end

