-- ==== Sys2Proof/Machine/Spectral.lean ====
section
/-! DEFINITION. The log-power spectral analyzer (43_spectral.md): power spectrum, projection, energy floor and
logarithm, and the commands SPEC_POWER, SPEC_PROJECT and SPEC_LOGMEL. -/

namespace Sys2Proof.Machine

/-- The transform input of length `nfft`: the windowed frame, then +0.0 (43_spectral.md R241). -/
def zeroPad (nfft : Nat) (frame : List F64) : List F64 :=
  frame ++ List.replicate (nfft - frame.length) posZero

/-- P[b] of the transform input `x` of length `nfft` (43_spectral.md R242). -/
def powerAt (nu : Numerics) (nfft : Nat) (x : List F64) (b : Nat) : F64 :=
  fadd (fmul (nu.rdft nfft x b).1 (nu.rdft nfft x b).1) (fmul (nu.rdft nfft x b).2 (nu.rdft nfft x b).2)

/-- The effects of SPEC_POWER (43_spectral.md R246). FRAME_LEN <= NFFT wherever a run goes (R241); the samples
past NFFT have no place in the length-NFFT input. -/
def powerEffects (nu : Numerics) (s : State) : Except Fault State :=
  match readRange .wnd s.bufs.wnd 0 (min s.frameLen s.nfft) with
  | .error f => .error f
  | .ok frame =>
    .ok { s with
      bufs := { s.bufs with
        pwr := s.bufs.pwr.write 0
          ((List.range s.nbins).map (powerAt nu s.nfft (zeroPad s.nfft frame))) }
      status := { s.status with frameStage := .pwr } }

/-- Check 10 of 43_spectral.md R247: the stage a spectral command needs. -/
def stageCheck (s : State) (st : FrameStage) : Bool × CmdError :=
  (decide (s.status.frameStage ≠ st), ⟨.sequenceError, 10, 0⟩)

/-- Checks 11 and 12 of 43_spectral.md R247. -/
def projectChecks (s : State) : List (Bool × CmdError) :=
  [ (!s.status.fbValid, ⟨.notBuilt, 11, 0⟩),
    (s.outOfDmem s.dst s.nfilt, ⟨.addressRange, 12, 0⟩) ]

/-- SPEC_POWER (43_spectral.md R246). -/
def execSpecPower (s : State) : Host.Outcome State Fault Refusal :=
  runReading [stageCheck s .wnd] (powerEffects numerics) s

/-- E[j] of the power spectrum `p` and the words `fb` of the filter matrix (43_spectral.md R243). -/
def energyAt (p fb : List F64) (nbins nfilt j : Nat) : F64 :=
  fdot ((List.range nbins).map (fun b => (p.getD b posZero, fb.getD (b * nfilt + j) posZero)))

/-- C[j], the energy floor (43_spectral.md R243): a NaN energy is not clipped. -/
def clipEnergy (e : F64) : F64 :=
  if isNaN e then canonicalNaN else if flt e cFloorE then cFloorE else e

/-- The effects of SPEC_PROJECT (43_spectral.md R244): DMEM[DST + j] <- LM[j]. -/
def projectEffects (nu : Numerics) (s : State) : Except Fault State :=
  match readRange .pwr s.bufs.pwr 0 s.nbins with
  | .error f => .error f
  | .ok p =>
    match readRange .fb s.bufs.fb 0 (s.nbins * s.nfilt) with
    | .error f => .error f
    | .ok fb =>
      .ok (s.writeDmem s.dst
        ((List.range s.nfilt).map (fun j => nu.ln (clipEnergy (energyAt p fb s.nbins s.nfilt j)))))

/-- SPEC_PROJECT (43_spectral.md R244). -/
def execSpecProject (s : State) : Host.Outcome State Fault Refusal :=
  runReading (stageCheck s .pwr :: projectChecks s) (projectEffects numerics) s

/-- The effects of SPEC_LOGMEL (43_spectral.md R245): those of SPEC_POWER, then those of SPEC_PROJECT. -/
def logMelEffects (nu : Numerics) (s : State) : Except Fault State :=
  match powerEffects nu s with
  | .error f => .error f
  | .ok t => projectEffects nu t

/-- SPEC_LOGMEL (43_spectral.md R245): all its checks are made before any effect. -/
def execSpecLogMel (s : State) : Host.Outcome State Fault Refusal :=
  runReading (stageCheck s .wnd :: projectChecks s) (logMelEffects numerics) s

end Sys2Proof.Machine
end

