-- ==== Sys2Proof/Machine/Dispatch.lean ====
section
/-! DEFINITION. The one dispatch of the engine: Execute(d) of 40_control.md R140 for a decoded command, with its
completion. One arm for every command of 30_encoding.md R112. -/

namespace Sys2Proof.Machine

def exec (i : Instr) (s : State) : Host.Outcome State Fault Refusal :=
  match i with
  | .nop => Sys2Proof.Machine.execNop s
  | .fbBuild => Sys2Proof.Machine.execFbBuild s
  | .mel => Sys2Proof.Machine.execMel s
  | .melInv => Sys2Proof.Machine.execMelInv s
  | .winBuild => Sys2Proof.Machine.execWinBuild s
  | .ctxReset c => Sys2Proof.Machine.execCtxReset c s
  | .frameCount => Sys2Proof.Machine.execFrameCount s
  | .frameFetch => Sys2Proof.Machine.execFrameFetch s
  | .preemph c => Sys2Proof.Machine.execPreemph c s
  | .window => Sys2Proof.Machine.execWindow s
  | .framePrep c => Sys2Proof.Machine.execFramePrep c s
  | .specPower => Sys2Proof.Machine.execSpecPower s
  | .specProject => Sys2Proof.Machine.execSpecProject s
  | .specLogMel => Sys2Proof.Machine.execSpecLogMel s
  | .dctBasis orth => Sys2Proof.Machine.execDctBasis orth s
  | .dctOrth => Sys2Proof.Machine.execDctOrth s
  | .dct2 => Sys2Proof.Machine.execDct2 s
  | .idctOrth => Sys2Proof.Machine.execIdctOrth s
  | .dct3 => Sys2Proof.Machine.execDct3 s
  | .dctLegacy => Sys2Proof.Machine.execDctLegacy s

end Sys2Proof.Machine
end

