-- ==== Sys2Proof/Machine/Engine.lean ====
section
/-! DEFINITION. The engine's step (40_control.md R140) and the choice of the agent that moves next (20_memory.md
R93; 70_reset_and_hazards.md R380, R381). -/

namespace Sys2Proof.Machine

/-- The error of a word that does not decode: ILLEGAL_COMMAND with the check's number (30_encoding.md R114). -/
def illegalCommand (e : DecodeReject) : CmdError := ⟨.illegalCommand, e.check, 0⟩

/-- The engine's execution step on the pending word (40_control.md R140): decode checks, then the command. -/
def engineStep (s : State) : Host.Outcome State Fault Refusal :=
  match decode s.caps.numCtx s.cmd with
  | .error e => .next (s.errorComplete (illegalCommand e))
  | .ok i => exec i s

/-- Who moves next. -/
inductive Mover where
  /-- Nobody: the engine is IDLE and no input is there (70_reset_and_hazards.md R360). -/
  | idle
  /-- The engine executes the pending command. -/
  | engine
  /-- The input completes; `rest` is what stays to come. -/
  | input (t : HostInput) (rest : List HostInput)
  /-- An exempt read completes while the command is pending (20_memory.md R93). -/
  | exemptRead (t : HostInput) (rest : List HostInput)
deriving DecidableEq, Repr

/-- The agent that moves next. The reset line acts at once. While BUSY = 0 the host's next transaction completes.
While BUSY = 1 it is held (20_memory.md R93), but for an exempt read, which completes first as long as the open
latency of the command lasts (70_reset_and_hazards.md R380, log 7). -/
def State.mover (s : State) : Mover :=
  match s.inputs with
  | [] => if s.status.busy then .engine else .idle
  | t :: rest =>
    if t = .resetLine then .input t rest
    else if s.status.busy = false then .input t rest
    else if t.exempt s.caps = true ∧ s.engineDelay ≠ 0 then .exemptRead t rest
    else .engine

/-- One transition of MELFE and its host. -/
def agentStep (s : State) : Host.Outcome State Fault Refusal :=
  match s.mover with
  | .idle => .next s
  | .engine => engineStep s
  | .input t rest => completeInput t { s with inputs := rest }
  | .exemptRead t rest => completeInput t { s with inputs := rest, engineDelay := s.engineDelay - 1 }

/-- The state right after the command word `d` was issued, with nothing standing before the engine's step: the
issue of 40_control.md R141 with no further input (log 8). -/
def State.pending (s : State) (d : Word) : State :=
  { s.issue d with inputs := [], engineDelay := 0 }

end Sys2Proof.Machine
end

