-- ==== Sys2Proof/Machine/Step.lean ====
section
/-! DEFINITION. One step of the machine, and how a single command is placed for it. -/

namespace Sys2Proof.Machine

/-- One step: a host transaction completes, the reset line acts, the engine executes the pending command, or
nothing happens (40_control.md R140; 20_memory.md R93). -/
def step (s : State) : Host.Outcome State Fault Refusal := agentStep s

/-- `s` with the command word `w` of `nbits` bits pending, so that the next step executes it (log 8). -/
def State.withFetchWord (s : State) (nbits w : Nat) : State :=
  s.pending (BitVec.ofNat 64 (w % 2 ^ nbits))

end Sys2Proof.Machine
end

