-- ==== Sys2Proof/Machine/HostProgram.lean ====
section
/-! DEFINITION. The host's assembly language and its encoding as bus transactions (30_encoding.md R117 to R119), the
run of such a program against the machine, and the two facades as such runs (43_spectral.md R258, 44_dct.md R282). A host
program is not state of MELFE (10_state.md R75): it reaches the machine as inputs. -/

namespace Sys2Proof.Machine

/-- A target of a WR or RD line (30_encoding.md R117). -/
inductive AsmTarget where
  | reg (r : Reg)
  | word (sp : Space) (w : Nat)
deriving DecidableEq, Repr

/-- The byte address of a register (20_memory.md R86). -/
def Reg.address (r : Reg) : Nat :=
  match registerMap.find? (fun row => row.2 == r) with
  | some row => row.1
  | none => 0

/-- The byte address of word 0 of a window (20_memory.md R88). -/
def Space.base : Space → Nat
  | .edgeHz => 0x010000
  | .edgeBin => 0x018000
  | .fbHeight => 0x020000
  | .win => 0x040000
  | .raw => 0x048000
  | .cond => 0x050000
  | .wnd => 0x058000
  | .pwr => 0x060000
  | .dctm => 0x080000
  | .fb => 0x100000
  | .dmem => 0x800000

/-- The byte address of a target (30_encoding.md R119). DESIGN CHOICE: of a word index so large that base + 8w leaves
the 24-bit host address space the low 24 bits are taken; the spec gives such a target no address (log 20). -/
def AsmTarget.address : AsmTarget → HostAddr
  | .reg r => BitVec.ofNat 24 r.address
  | .word sp w => BitVec.ofNat 24 (sp.base + 8 * w)

/-- A line of host assembly (30_encoding.md R117, R118). -/
inductive AsmLine where
  | wr (t : AsmTarget) (value : Word)
  | rd (t : AsmTarget)
  | command (i : Instr)
  | wait
  | run (i : Instr)
  | expectOk
  | expectErr (code : ErrCode)
  | clear
  | args (a0 a1 a2 a3 a4 a5 : Word)
  | loadv (w : Nat) (values : List Word)
deriving DecidableEq, Repr

/-- One 8-byte host write (30_encoding.md R117). -/
def hostWr (t : AsmTarget) (v : Word) : HostInput := .write t.address 8 v

/-- One 8-byte host read (30_encoding.md R117). -/
def hostRd (t : AsmTarget) : HostInput := .read t.address 8

/-- The writes of LOADV: DMEM[w], DMEM[w+1], ... in that order (30_encoding.md R118). -/
def loadvInputs : Nat → List Word → List HostInput
  | _, [] => []
  | w, v :: vs => hostWr (.word .dmem w) v :: loadvInputs (w + 1) vs

/-- The bus transactions of a line (30_encoding.md R117 to R119). WAIT polls STATUS until BUSY reads 0; how many
polls that takes is the host's run, so it is the argument `polls` (log 13). -/
def AsmLine.encode (polls : Nat) : AsmLine → List HostInput
  | .wr t v => [hostWr t v]
  | .rd t => [hostRd t]
  | .command i => [hostWr (.reg .cmd) (Sys2Proof.encode i)]
  | .wait => List.replicate polls (hostRd (.reg .status))
  | .run i => hostWr (.reg .cmd) (Sys2Proof.encode i) :: List.replicate polls (hostRd (.reg .status))
  | .expectOk => [hostRd (.reg .status)]
  | .expectErr _ => [hostRd (.reg .status)]
  | .clear => [hostWr (.reg .status) 0x6#64]
  | .args a0 a1 a2 a3 a4 a5 =>
    [hostWr (.reg (.arg 0)) a0, hostWr (.reg (.arg 1)) a1, hostWr (.reg (.arg 2)) a2,
     hostWr (.reg (.arg 3)) a3, hostWr (.reg (.arg 4)) a4, hostWr (.reg (.arg 5)) a5]
  | .loadv w vs => loadvInputs w vs

/-- The lines that end with WAIT (30_encoding.md R118). -/
def AsmLine.waits : AsmLine → Bool
  | .wait => true
  | .run _ => true
  | .wr _ _ => false
  | .rd _ => false
  | .command _ => false
  | .expectOk => false
  | .expectErr _ => false
  | .clear => false
  | .args _ _ _ _ _ _ => false
  | .loadv _ _ => false

/-- What EXPECT_OK asserts of the STATUS word it read (30_encoding.md R118). -/
def expectOkHolds (status : Word) : Bool := status.getLsbD 1 && !status.getLsbD 2

/-- What EXPECT_ERR asserts of the STATUS word it read (30_encoding.md R118). -/
def expectErrHolds (code : ErrCode) (status : Word) : Bool :=
  status.getLsbD 2 && status.extractLsb' 8 8 == code.toBits

/-- The transactions of a program: those of its lines in order (30_encoding.md R119). -/
def asmInputs (polls : Nat) (prog : List AsmLine) : List HostInput := prog.flatMap (AsmLine.encode polls)

/-- One turn of the frame loop of extractLogMel, frame `i` of `nfilt` outputs to word `d` (43_spectral.md R258). DESIGN
CHOICE: of a number past 64 bits the low 64 are written (log 20). -/
def logMelFrame (c : Ctx) (d nfilt i : Nat) : List AsmLine :=
  [ .wr (.reg (.arg 5)) (BitVec.ofNat 64 i), .wr (.reg (.arg 1)) (BitVec.ofNat 64 (d + i * nfilt)),
    .run (.framePrep c), .run .specLogMel ]

/-- The opening of both facades (43_spectral.md R258): the signal of `len` samples at word `s`, context `c` reset, the
frame count; numbers past 64 bits as in `logMelFrame` (log 20). -/
def facadeOpening (c : Ctx) (s len : Nat) : List AsmLine :=
  [ .wr (.reg .sigBase) (BitVec.ofNat 64 s), .wr (.reg .sigLen) (BitVec.ofNat 64 len),
    .run (.ctxReset c), .run .frameCount ]

/-- The frame loop of a facade over `n` frames to word `d`, then the lines `tail n` (43_spectral.md R258). -/
def facadeFrames (c : Ctx) (d nfilt n : Nat) (tail : Nat → List AsmLine) : List AsmLine :=
  (List.range n).flatMap (logMelFrame c d nfilt) ++ tail n

/-- The lines of extractCepstra after the frame loop: the legacy transform of all frames from word `d` to word `e`
(44_dct.md R282); numbers past 64 bits as in `logMelFrame` (log 20). -/
def cepstraTail (d e n : Nat) : List AsmLine :=
  [ .args (BitVec.ofNat 64 d) (BitVec.ofNat 64 e) 0#64 0#64 (BitVec.ofNat 64 n) 0#64, .run .dctLegacy ]

/-! ### A host program against the machine -/

/-- One transaction put to the machine before what the host has still to come, with the machine stepped until it
completes: at once, or, where BUSY holds it, after the engine's step (20_memory.md R93). -/
def transact (t : HostInput) (s : State) : Host.Outcome State Fault Refusal :=
  match step { s with inputs := t :: s.inputs } with
  | .next u => if u.inputs = s.inputs then .next u else step u
  | .fault f => .fault f
  | .refused r => .refused r

/-- The data the host got with the last response (20_memory.md R90). -/
def State.readData (s : State) : Word :=
  match s.response with
  | some r => r.data
  | none => 0#64

/-- WAIT (30_encoding.md R118): STATUS is read until its bit 0 is 0, at most `more + 1` times. -/
def waitIdle : Nat → State → Host.Outcome State Fault Refusal
  | 0, s => transact (hostRd (.reg .status)) s
  | more + 1, s =>
    match transact (hostRd (.reg .status)) s with
    | .next t => if t.readData.getLsbD 0 then waitIdle more t else .next t
    | .fault f => .fault f
    | .refused r => .refused r

/-- The transactions of a list, one after the other. -/
def transactAll : List HostInput → State → Host.Outcome State Fault Refusal
  | [], s => .next s
  | t :: ts, s =>
    match transact t s with
    | .next u => transactAll ts u
    | .fault f => .fault f
    | .refused r => .refused r

/-- A line of host assembly, its transactions (30_encoding.md R118, R119) and then, for the two lines that end with
WAIT, as many STATUS reads as the pending command's latency can take: after them it is over (log 7). -/
def runLine (l : AsmLine) (s : State) : Host.Outcome State Fault Refusal :=
  match transactAll (l.encode 0) s with
  | .next t => if l.waits then waitIdle t.engineDelay t else .next t
  | .fault f => .fault f
  | .refused r => .refused r

/-- The lines of a program, one after the other (30_encoding.md R117). -/
def runLines : List AsmLine → State → Host.Outcome State Fault Refusal
  | [], s => .next s
  | l :: ls, s =>
    match runLine l s with
    | .next t => runLines ls t
    | .fault f => .fault f
    | .refused r => .refused r

/-- A facade of JR17 run against the machine (43_spectral.md R258): the opening, then RES0 is read into n, and the n
frames and the `tail` run, unless the STATUS word that FRAME_COUNT's WAIT ended with shows ERR: then the facade ends
there and no frame command runs. NFILT is the configuration's. -/
def runFacade (c : Ctx) (s len d : Nat) (tail : Nat → List AsmLine) (m : State) :
    Host.Outcome State Fault Refusal :=
  match runLines (facadeOpening c s len) m with
  | .next t =>
    match runLine (.rd (.reg .res0)) t with
    | .next u =>
      if t.readData.getLsbD 2 then .next u
      else runLines (facadeFrames c d m.nfilt u.readData.toNat tail) u
    | .fault f => .fault f
    | .refused r => .refused r
  | .fault f => .fault f
  | .refused r => .refused r

/-- extractLogMel (43_spectral.md R258): signal of `len` samples at word `s`, context `c`, output at word `d`. -/
def extractLogMel (c : Ctx) (s len d : Nat) (m : State) : Host.Outcome State Fault Refusal :=
  runFacade c s len d (fun _ => []) m

/-- extractCepstra (44_dct.md R282): the same, then the legacy transform of all frames to word `e`. -/
def extractCepstra (c : Ctx) (s len d e : Nat) (m : State) : Host.Outcome State Fault Refusal :=
  runFacade c s len d (cepstraTail d e) m

end Sys2Proof.Machine
end

