-- ==== Sys2Proof/Safety.lean ====
section
/-! DEFINITION. The terms in which claims speak of states and of the numerics: the invariant of a run, what the
valid flags, FRAME_STAGE and BASIS_TAG promise about the buffers (10_state.md R70 to R72; 44_dct.md R280), and the
accuracy target NUM_FAITHFUL (00_scope.md R7), which no definition of the machine uses. -/

namespace Sys2Proof.Machine

/-- The words below `n` of a memory are written. -/
abbrev Memory.writtenBelow (m : Memory) (n : Nat) : Prop := ∀ i < n, (m.read i).isSome = true

/-- The words of `m` from 0 on are `n` values of `f`. -/
abbrev Memory.holds (m : Memory) (n : Nat) (f : Nat → Word) : Prop := ∀ i < n, m.read i = some (f i)

/-- The frame stages at which RAW holds a frame (10_state.md R72). -/
def FrameStage.hasRaw : FrameStage → Bool
  | .empty => false
  | .raw => true
  | .cond => true
  | .wnd => true
  | .pwr => true

/-- The frame stages at which COND holds the pre-emphasized frame (10_state.md R72). -/
def FrameStage.hasCond : FrameStage → Bool
  | .empty => false
  | .raw => false
  | .cond => true
  | .wnd => true
  | .pwr => true

/-- The frame stages at which WND holds the windowed frame (10_state.md R72). -/
def FrameStage.hasWnd : FrameStage → Bool
  | .empty => false
  | .raw => false
  | .cond => false
  | .wnd => true
  | .pwr => true

/-- What every step keeps, from reset on. -/
structure State.Inv (s : State) : Prop where
  /-- The parameters of the instance are legal (00_scope.md R6). -/
  caps : s.caps.Legal
  /-- Every memory is in its canonical form. -/
  wf : ∀ sp, (s.space sp).wf
  /-- Every memory lies within its capacity (20_memory.md R81, R88). -/
  within : ∀ sp, (s.space sp).within (sp.capacity s.caps)
  /-- ERR_CODE is NONE exactly when ERR = 0 (10_state.md R36; 60_exceptions.md R321). -/
  errCode : s.status.err = false ↔ s.status.errCode = .none
  /-- ERR_INFO is zero while ERR = 0 (10_state.md R38). -/
  errInfo : s.status.err = false → s.errInfo = ⟨0#16, 0#32⟩
  /-- A pending command has neither DONE nor ERR (40_control.md R141; 70_reset_and_hazards.md R376). -/
  busy : s.status.busy = true → s.status.done = false ∧ s.status.err = false
  /-- FRAME_STAGE != EMPTY implies WIN_VALID = 1 (42_frame.md R212). -/
  stage : s.status.frameStage ≠ .empty → s.status.winValid = true
  /-- While WIN_VALID = 1 the frame configuration passes the checks of 42_frame.md R201 (10_state.md R71). -/
  winConfig : s.status.winValid = true → firstError (winBuildChecks s) = none
  /-- While FB_VALID = 1 the configuration passes the checks of 41_filterbank.md R167. -/
  fbConfig : s.status.fbValid = true → firstError (fbBuildChecks numerics s) = none
  /-- While WIN_VALID = 1 the window is written (10_state.md R71). -/
  winWritten : s.status.winValid = true → s.bufs.win.writtenBelow s.frameLen
  /-- While FB_VALID = 1 the filter matrix is written (10_state.md R70). -/
  fbWritten : s.status.fbValid = true → s.bufs.fb.writtenBelow (s.nbins * s.nfilt)
  /-- The raw frame is written at the stages that have it (10_state.md R72). -/
  rawWritten : s.status.frameStage.hasRaw = true → s.bufs.raw.writtenBelow s.frameLen
  /-- The pre-emphasized frame is written at the stages that have it (10_state.md R72). -/
  condWritten : s.status.frameStage.hasCond = true → s.bufs.cond.writtenBelow s.frameLen
  /-- The windowed frame is written at the stages that have it (10_state.md R72). -/
  wndWritten : s.status.frameStage.hasWnd = true → s.bufs.wnd.writtenBelow s.frameLen
  /-- The power spectrum is written at stage PWR (10_state.md R72). -/
  pwrWritten : s.status.frameStage = .pwr → s.bufs.pwr.writtenBelow s.nbins

/-- While FB_VALID = 1, the buffers of the builder hold the filter bank of the current configuration (10_state.md
R70; 41_filterbank.md R168). -/
def State.FilterBankCurrent (s : State) : Prop :=
  s.status.fbValid = true →
    s.bufs.edgeHz.holds (s.nfilt + 2) (edgeHzOf numerics s.cfg) ∧
    s.bufs.edgeBin.holds (s.nfilt + 2) (fun i => BitVec.ofInt 64 (edgeBinOf numerics s.cfg i)) ∧
    s.bufs.fbHeight.holds s.nfilt (heightOf numerics s.cfg) ∧
    (∀ b < s.nbins, ∀ j < s.nfilt,
      s.bufs.fb.read (b * s.nfilt + j) = some (fbValue numerics s.cfg b j))

/-- While WIN_VALID = 1, WIN holds the window of the current FRAME_LEN (10_state.md R71). -/
def State.WindowCurrent (s : State) : Prop :=
  s.status.winValid = true → s.bufs.win.holds s.frameLen (windowValue numerics s.frameLen)

/-- What FRAME_STAGE promises of the frame buffers (10_state.md R72): COND is RAW pre-emphasized from some prior, WND
is COND times WIN, PWR is the power spectrum of WND. -/
structure State.FrameCurrent (s : State) : Prop where
  cond : s.status.frameStage.hasCond = true → ∃ p raw, readRange .raw s.bufs.raw 0 s.frameLen = .ok raw ∧
    readRange .cond s.bufs.cond 0 s.frameLen = .ok (preemphasize s.cfg.alpha p raw)
  wnd : s.status.frameStage.hasWnd = true → ∃ cond win, readRange .cond s.bufs.cond 0 s.frameLen = .ok cond ∧
    readRange .win s.bufs.win 0 s.frameLen = .ok win ∧
    readRange .wnd s.bufs.wnd 0 s.frameLen = .ok (List.zipWith fmul cond win)
  pwr : s.status.frameStage = .pwr → ∃ frame, readRange .wnd s.bufs.wnd 0 s.frameLen = .ok frame ∧
    s.bufs.pwr.holds s.nbins (powerAt numerics s.nfft (zeroPad s.nfft frame))

/-- What DCTM must hold for a tag and a step: entry (r, c) of the basis BASIS_TAG names (10_state.md R68, R69;
44_dct.md R274 to R279). -/
def basisEntry (variant : BasisVariant) (orth : Bool) (cols : Nat) (step : F64) (r c : Nat) : F64 :=
  match variant with
  | .none => posZero
  | .generic => dctMatrix numerics step orth r c
  | .orth2 => dctMatrix numerics step true r c
  | .norm2 => dctMatrix numerics step false r c
  | .orth3 => dctMatrix numerics step true c r
  | .norm3 => dct3Matrix numerics step c r
  | .legacy => legacyMatrix numerics cols r c

/-- BASIS_STEP of a tag (10_state.md R69): the generic step is the operand's own. -/
def basisStepFits (t : BasisTag) (step : F64) : Prop :=
  match t.variant with
  | .none => step = posZero
  | .generic => isFinite step = true
  | .orth2 => step = fdiv cPi (ofNat t.rows.toNat)
  | .norm2 => step = fdiv cPi (ofNat t.rows.toNat)
  | .orth3 => step = fdiv cPi (ofNat t.cols.toNat)
  | .norm3 => step = fdiv cPi (ofNat t.cols.toNat)
  | .legacy => step = posZero

/-- BASIS_TAG.ORTH of a tag (10_state.md R68): 1 for ORTH2 and ORTH3, the command's bit for GENERIC, else 0. -/
def basisOrthFits (t : BasisTag) : Prop :=
  match t.variant with
  | .none => t.orth = false
  | .generic => True
  | .orth2 => t.orth = true
  | .norm2 => t.orth = false
  | .orth3 => t.orth = true
  | .norm3 => t.orth = false
  | .legacy => t.orth = false

/-- The basis cache rule (44_dct.md R280): DCTM holds exactly the matrix its BASIS_TAG and BASIS_STEP name. -/
def State.BasisCached (s : State) : Prop :=
  basisStepFits s.basisTag s.basisStep ∧ basisOrthFits s.basisTag ∧
  (s.basisTag.variant = .none → s.basisTag.rows = 0#16 ∧ s.basisTag.cols = 0#16) ∧
  ∀ r < s.basisTag.rows.toNat, ∀ c < s.basisTag.cols.toNat,
    s.bufs.dctm.read (r * s.basisTag.cols.toNat + c) =
      some (basisEntry s.basisTag.variant s.basisTag.orth s.basisTag.cols.toNat s.basisStep r c)

/-- The commands that write RES0 or RES1 (10_state.md R53). -/
def writesResults : Instr → Bool
  | .nop => false
  | .fbBuild => true
  | .mel => true
  | .melInv => true
  | .winBuild => true
  | .ctxReset _ => false
  | .frameCount => true
  | .frameFetch => true
  | .preemph _ => false
  | .window => false
  | .framePrep _ => true
  | .specPower => false
  | .specProject => false
  | .specLogMel => false
  | .dctBasis _ => false
  | .dctOrth => false
  | .dct2 => false
  | .idctOrth => false
  | .dct3 => false
  | .dctLegacy => false

/-- The six DCT commands, the only writers of DCTM, BASIS_TAG and BASIS_STEP (44_dct.md R280). -/
def writesBasis : Instr → Bool
  | .nop => false
  | .fbBuild => false
  | .mel => false
  | .melInv => false
  | .winBuild => false
  | .ctxReset _ => false
  | .frameCount => false
  | .frameFetch => false
  | .preemph _ => false
  | .window => false
  | .framePrep _ => false
  | .specPower => false
  | .specProject => false
  | .specLogMel => false
  | .dctBasis _ => true
  | .dctOrth => true
  | .dct2 => true
  | .idctOrth => true
  | .dct3 => true
  | .dctLegacy => true

/-- The DMEM words a command stores to, as a base and a count (20_memory.md R81): DST and NFILT for the two
projecting commands, DST and ROWS*K for the transforms, none for the others. -/
def dmemTarget (i : Instr) (s : State) : Nat × Nat :=
  match i with
  | .nop => (0, 0)
  | .fbBuild => (0, 0)
  | .mel => (0, 0)
  | .melInv => (0, 0)
  | .winBuild => (0, 0)
  | .ctxReset _ => (0, 0)
  | .frameCount => (0, 0)
  | .frameFetch => (0, 0)
  | .preemph _ => (0, 0)
  | .window => (0, 0)
  | .framePrep _ => (0, 0)
  | .specPower => (0, 0)
  | .specProject => (s.dst, s.nfilt)
  | .specLogMel => (s.dst, s.nfilt)
  | .dctBasis _ => (0, 0)
  | .dctOrth => (s.dst, s.rows * s.argK)
  | .dct2 => (s.dst, s.rows * s.argK)
  | .idctOrth => (s.dst, s.rows * s.argK)
  | .dct3 => (s.dst, s.rows * s.argK)
  | .dctLegacy => (s.dst, s.rows * s.ncep)

/-- The internal buffers a command writes (10_state.md R58 to R67). -/
def bufferTargets : Instr → List Space
  | .nop => []
  | .fbBuild => [.edgeHz, .edgeBin, .fbHeight, .fb]
  | .mel => []
  | .melInv => []
  | .winBuild => [.win]
  | .ctxReset _ => []
  | .frameCount => []
  | .frameFetch => [.raw]
  | .preemph _ => [.cond]
  | .window => [.wnd]
  | .framePrep _ => [.raw, .cond, .wnd]
  | .specPower => [.pwr]
  | .specProject => []
  | .specLogMel => [.pwr]
  | .dctBasis _ => [.dctm]
  | .dctOrth => [.dctm]
  | .dct2 => [.dctm]
  | .idctOrth => [.dctm]
  | .dct3 => [.dctm]
  | .dctLegacy => [.dctm]

/-- FRAME_STAGE after a command completes without error, where the command sets it (10_state.md R72). -/
def stageAfter : Instr → Option FrameStage
  | .nop => none
  | .fbBuild => none
  | .mel => none
  | .melInv => none
  | .winBuild => none
  | .ctxReset _ => none
  | .frameCount => none
  | .frameFetch => some .raw
  | .preemph _ => some .cond
  | .window => some .wnd
  | .framePrep _ => some .wnd
  | .specPower => some .pwr
  | .specProject => none
  | .specLogMel => some .pwr
  | .dctBasis _ => none
  | .dctOrth => none
  | .dct2 => none
  | .idctOrth => none
  | .dct3 => none
  | .dctLegacy => none

/-! ### Exact values and the accuracy of the numerics -/

/-- The rational value of a finite binary64 number. -/
def valueOf (a : F64) : ℚ := (units a : ℚ) / (unitsPerOne : ℚ)

/-- The real value of a finite binary64 number. -/
noncomputable def realOf (a : F64) : ℝ := ((valueOf a : ℚ) : ℝ)

/-- `r` is the nearest finite binary64 number to the exact value `v`, ties to even (00_scope.md R11): no finite number
lies nearer, and where another lies equally near, the last bit of `r` is 0. -/
def NearestToEven (r : F64) (v : ℝ) : Prop :=
  ∀ c : F64, isFinite c = true →
    |realOf r - v| ≤ |realOf c - v| ∧
    (|realOf r - v| = |realOf c - v| → realOf c ≠ realOf r → r.getLsbD 0 = false)

/-- `r` is what roundTiesToEven makes of the exact value `v` (00_scope.md R11): the nearest finite number below the
overflow bound 2^1024 - 2^970, infinity from there on, with the sign of `v` where that is not zero. -/
structure RoundsTo (r : F64) (v : ℝ) : Prop where
  notNaN : isNaN r = false
  nearest : isFinite r = true → |v| < 2 ^ 1024 - 2 ^ 970 ∧ NearestToEven r v
  overflow : isInf r = true → 2 ^ 1024 - 2 ^ 970 ≤ |v|
  sign : v ≠ 0 → (signOf r = true ↔ v < 0)

/-- One ulp at a binary64 number: the spacing of the numbers of its binade; at an infinity that of the topmost
binade. -/
noncomputable def ulpOf (a : F64) : ℝ := 2 ^ (min (exponentField a) 2046 - 1) / (unitsPerOne : ℝ)

/-- `r` lies within `tol` of the exact value `v`, an infinity standing for every value of its sign from 2^1024 on. A NaN
lies near no value (log 18). -/
structure Approximates (r : F64) (v tol : ℝ) : Prop where
  notNaN : isNaN r = false
  near : isFinite r = true → |realOf r - v| ≤ tol
  overflow : isInf r = true → 2 ^ 1024 ≤ (if signOf r = true then -v else v) + tol

/-- `f` is within 1 ulp of `ideal` at every finite operand in `dom`. DESIGN CHOICE: the ulp is the one at the computed
result `f x`; 00_scope.md R7 does not say whether it is measured there or at the ideal value (log 18). -/
def FaithfulOn (dom : F64 → Prop) (f : F64 → F64) (ideal : ℝ → ℝ) : Prop :=
  ∀ x, dom x → isFinite x = true → Approximates (f x) (ideal (realOf x)) (ulpOf (f x))

/-- The real part of bin `b` of the ideal DFT of the `len` samples `x` (00_scope.md R7). -/
noncomputable def idealRe (len : Nat) (x : List F64) (b : Nat) : ℝ :=
  ∑ n ∈ Finset.range len, realOf (x.getD n posZero) * Real.cos (2 * Real.pi * n * b / len)

/-- The imaginary part of bin `b` of the ideal DFT of the `len` samples `x` (00_scope.md R7). -/
noncomputable def idealIm (len : Nat) (x : List F64) (b : Nat) : ℝ :=
  -∑ n ∈ Finset.range len, realOf (x.getD n posZero) * Real.sin (2 * Real.pi * n * b / len)

/-- The sum of the magnitudes of the first `len` samples. -/
noncomputable def absSum (len : Nat) (x : List F64) : ℝ :=
  ∑ n ∈ Finset.range len, |realOf (x.getD n posZero)|

/-- How far a bin of NUM_FAITHFUL may lie from its ideal value: 2^-40 times the sum of the magnitudes (00_scope.md
R7). -/
noncomputable def binTolerance (len : Nat) (x : List F64) : ℝ := absSum len x / 2 ^ 40

/-- The distance of a bin with finite parts from a complex value. -/
noncomputable def binDistance (z : F64 × F64) (vre vim : ℝ) : ℝ :=
  Real.sqrt ((realOf z.1 - vre) ^ 2 + (realOf z.2 - vim) ^ 2)

/-- The bin `z` lies within `tol` of a complex value. DESIGN CHOICE: as a distance in the complex plane,
which R7 does not say (log 18). -/
structure BinWithin (z : F64 × F64) (vre vim tol : ℝ) : Prop where
  re : Approximates z.1 vre tol
  im : Approximates z.2 vim tol
  distance : isFinite z.1 = true → isFinite z.2 = true → binDistance z vre vim ≤ tol

/-- The scalar functions are within 1 ulp of their ideal values (00_scope.md R7). -/
structure ScalarsFaithful (nu : Numerics) : Prop where
  log10 : FaithfulOn (fun x => flt posZero x = true) nu.log10 (Real.logb 10)
  pow10 : FaithfulOn (fun _ => True) nu.pow10 (fun x => (10 : ℝ) ^ x)
  ln : FaithfulOn (fun x => flt posZero x = true) nu.ln Real.log
  cos : FaithfulOn (fun _ => True) nu.cos Real.cos

/-- NUM_FAITHFUL as 00_scope.md R7 states it: each scalar function within 1 ulp of its ideal value, each DFT bin within
2^-40 times the sum of the magnitudes of its ideal value. No rule depends on it. No numerics meet it at every frame of
the smallest subnormals, where no binary64 number lies so near (`not_numFaithful`), so a claim that needs accuracy
assumes the weaker `NumAttainable`, which this implies. -/
structure NumFaithful (nu : Numerics) : Prop extends ScalarsFaithful nu where
  rdft : ∀ len x b, x.length = len → b ≤ len / 2 → (∀ a ∈ x, isFinite a = true) →
    BinWithin (nu.rdft len x b) (idealRe len x b) (idealIm len x b) (binTolerance len x)

/-- NUM_FAITHFUL as far as binary64 can meet it: the same, and at a bin where no pair of binary64 numbers lies within
R7's bound, the distance is at most that of any such pair. DESIGN CHOICE for those bins alone (log 18). -/
structure NumAttainable (nu : Numerics) : Prop extends ScalarsFaithful nu where
  rdft : ∀ len x b, x.length = len → b ≤ len / 2 → (∀ a ∈ x, isFinite a = true) →
    ∀ z : F64 × F64, isFinite z.1 = true → isFinite z.2 = true →
      BinWithin (nu.rdft len x b) (idealRe len x b) (idealIm len x b)
        (max (binTolerance len x) (binDistance z (idealRe len x b) (idealIm len x b)))

/-- NUM_REF, the reference numerics (00_scope.md R7): within the contract, and at every finite operand the ideal real
value rounded once; a DFT bin is its ideal real and imaginary part, each rounded once. What R7 leaves open of it stays
open: the sign of a bin part that is exactly zero, and the values at infinite operands beyond the contract. -/
structure NumReference (nu : Numerics) : Prop where
  conforms : nu.Conforms
  log10 : ∀ x, flt posZero x = true → isFinite x = true → RoundsTo (nu.log10 x) (Real.logb 10 (realOf x))
  pow10 : ∀ x, isFinite x = true → RoundsTo (nu.pow10 x) ((10 : ℝ) ^ realOf x)
  ln : ∀ x, flt posZero x = true → isFinite x = true → RoundsTo (nu.ln x) (Real.log (realOf x))
  cos : ∀ x, isFinite x = true → RoundsTo (nu.cos x) (Real.cos (realOf x))
  rdft : ∀ len x b, x.length = len → b ≤ len / 2 → (∀ a ∈ x, isFinite a = true) →
    RoundsTo (nu.rdft len x b).1 (idealRe len x b) ∧ RoundsTo (nu.rdft len x b).2 (idealIm len x b)

end Sys2Proof.Machine
end

