-- ==== Sys2Proof/Certificates/Slice0/Obligations.lean ====
section
/-! DEFINITION. The statements for the provers, from the numbered rules of spec/. A statement about an instruction
gives the whole next state: what it names changes as said, and everything else is the state before. -/

open Sys2Proof Sys2Proof.Machine

/-! ### Decoding and encoding -/

/-- 30_encoding.md R110, R112: words written out from the opcode map decode to the commands they stand for. -/
def Obligations.OpcodeMapWordsDecode : Prop :=
  decode 4 0x0000000000000000#64 = .ok .nop ∧
  decode 4 0x0000000000000010#64 = .ok .fbBuild ∧
  decode 4 0x0000000000000020#64 = .ok .winBuild ∧
  decode 4 0x0000000000000226#64 = .ok (.framePrep 2#2) ∧
  decode 4 0x0000000000000321#64 = .ok (.ctxReset 3#2) ∧
  decode 4 0x0000000000000031#64 = .ok .specProject ∧
  decode 4 0x0000000000010040#64 = .ok (.dctBasis true) ∧
  decode 4 0x0000000000000045#64 = .ok .dctLegacy

/-- 30_encoding.md R110 to R112: every well-formed command is what its own word decodes to, with every context and
ORTH value. -/
def Obligations.DecodeOfEncode : Prop :=
  ∀ (numCtx : Nat) (i : Instr), i.wellFormed numCtx = true → decode numCtx (encode i) = .ok i

/-- 30_encoding.md R112, R115: a word that decodes is the word of that command and of no other, so no word has a
second reading and no reserved bit is dropped. -/
def Obligations.EncodeOfDecode : Prop :=
  ∀ (numCtx : Nat) (d : Word) (i : Instr), decode numCtx d = .ok i →
    encode i = d ∧ i.wellFormed numCtx = true ∧ ∀ j, encode j = d → j = i

/-- 30_encoding.md R114, with the bits of the pending word as numbers: the first check that fails ends the command
with ILLEGAL_COMMAND and that check's number; a word that passes all six is one command's, and that runs. -/
def Obligations.DecodeChecksInOrder : Prop :=
  ∀ s : State, s.mover = .engine →
    let d := s.cmd.toNat
    let opcode := d % 256
    let ctx := d / 2 ^ 8 % 4
    let usesCtx := opcode ∈ [0x21, 0x24, 0x26]
    let fails : Nat → Prop := fun k =>
      (k = 1 ∧ d / 2 ^ 32 ≠ 0) ∨
      (k = 2 ∧ opcode ∉ [0x00, 0x10, 0x11, 0x12, 0x20, 0x21, 0x22, 0x23, 0x24, 0x25, 0x26, 0x30, 0x31, 0x32,
        0x40, 0x41, 0x42, 0x43, 0x44, 0x45]) ∨
      (k = 3 ∧ (d / 2 ^ 10 % 2 ^ 6 ≠ 0 ∨ d / 2 ^ 17 % 2 ^ 15 ≠ 0)) ∨
      (k = 4 ∧ ctx ≠ 0 ∧ ¬ usesCtx) ∨
      (k = 5 ∧ usesCtx ∧ s.caps.numCtx ≤ ctx) ∨
      (k = 6 ∧ d / 2 ^ 16 % 2 ≠ 0 ∧ opcode ≠ 0x40)
    (∀ k, fails k → (∀ j < k, ¬ fails j) →
      step s = .next (s.errorComplete ⟨.illegalCommand, k, 0⟩)) ∧
    ((∀ k, ¬ fails k) → ∃ i : Instr, encode i = s.cmd ∧ (∀ j, encode j = s.cmd → j = i) ∧ step s = exec i s)

/-! ### The step -/

/-- 40_control.md R140: the engine's step on a pending word that decodes is that command's execution. The engine is
the one to move when BUSY = 1 and the next input is neither the reset line nor an exempt read that completes
first. -/
def Obligations.StepRunsDecodedCommand : Prop :=
  ∀ (s : State) (i : Instr), s.status.busy = true →
    (∀ t rest, s.inputs = t :: rest → t ≠ .resetLine ∧ (t.exempt s.caps = false ∨ s.engineDelay = 0)) →
    decode s.caps.numCtx s.cmd = .ok i → step s = exec i s

/-- 20_memory.md R93: while BUSY = 1 a transaction is held by the engine's step and completes right after it against
the state that step left; the reads of ID, the CAP registers, STATUS and CTRL, and no others, may complete at once
and change nothing (the response and the two input fields are the model's own, logs 6 and 7). Such a read returns the
register's value (R91): the constant ID, a parameter, IRQ_EN, or the STATUS word with BUSY = 1, in which DONE, ERR and
ERR_CODE are zero (70_reset_and_hazards.md R376). That a misaligned, odd-size or unmapped transaction
is not exempt and is held too is the model's choice, DEDUCED in log 9: R93 does not say it of them. -/
def Obligations.TransactionsHeldWhileBusy : Prop :=
  ∀ (s : State) (t : HostInput) (rest : List HostInput),
    s.status.busy = true → s.inputs = t :: rest → t ≠ .resetLine →
    let number : Nat → Word := BitVec.ofNat 64
    let errCode := match s.status.errCode with
      | .none => 0
      | .invalidConfiguration => 1
      | .invalidInput => 2
      | .illegalCommand => 3
      | .addressRange => 4
      | .capacityExceeded => 5
      | .notBuilt => 6
      | .sequenceError => 7
    let stage := match s.status.frameStage with
      | .empty => 0
      | .raw => 1
      | .cond => 2
      | .wnd => 3
      | .pwr => 4
    (t.exempt s.caps = true ↔ ∃ a : HostAddr, t = .read a 8 ∧
      a.toNat ∈ [0x000, 0x008, 0x010, 0x018, 0x020, 0x028, 0x030, 0x040, 0x048]) ∧
    (t.exempt s.caps = false → step s = engineStep s ∧
      ∀ u, step s = .next u → u.inputs = t :: rest ∧ u.status.busy = false ∧
        step u = completeInput t { u with inputs := rest }) ∧
    (t.exempt s.caps = true → s.engineDelay ≠ 0 →
      ∃ v : Word, step s = .next { s with
        inputs := rest, engineDelay := s.engineDelay - 1, response := some (.okayRead v) } ∧
      (∀ row ∈ [(0x000, 0x4D454C4645000007#64), (0x008, number s.caps.dmemWords), (0x010, number s.caps.maxNfft),
          (0x018, number s.caps.maxFilt), (0x020, number s.caps.maxFrame), (0x028, number s.caps.maxDct),
          (0x030, number s.caps.numCtx), (0x040, number s.irqEn.toNat),
          (0x048, number (1 + 2 * s.status.done.toNat + 4 * s.status.err.toNat + 16 * s.status.fbValid.toNat +
            32 * s.status.winValid.toNat + 2 ^ 8 * errCode + 2 ^ 16 * stage + 2 ^ 24 * s.status.lastOp.toNat))],
        t = .read (BitVec.ofNat 24 row.1) 8 → v = row.2) ∧
      (t = .read 0x000048#24 8 → s.Inv → v.toNat % 8 = 1 ∧ v.toNat / 2 ^ 8 % 2 ^ 8 = 0))

/-- 70_reset_and_hazards.md R381 (with the model's latency count, log 7): a pending command is over after at most as
many steps as exempt reads may still come first, and one; it ends, or it stops at the model's fault. -/
def Obligations.PendingCommandEnds : Prop :=
  ∀ s : State, s.status.busy = true →
    ∃ k, k ≤ s.engineDelay + 1 ∧
      ((∃ f, Sys2Proof.core.run k s = .fault f) ∨
       (∃ t : State, Sys2Proof.core.run k s = .next t ∧ t.status.busy = false))

/-- 10_state.md R33, R34: no step changes the parameters of the instance, and ID and the CAP registers read as the
constants and the parameters in every state. -/
def Obligations.InstanceNeverChanges : Prop :=
  (∀ s t : State, step s = .next t → t.caps = s.caps) ∧
  ∀ s : State, s.caps.Legal →
    s.readReg .id = 0x4D454C4645000007#64 ∧
    (s.readReg (.cap .dmemWords)).toNat = s.caps.dmemWords ∧
    (s.readReg (.cap .maxNfft)).toNat = s.caps.maxNfft ∧
    (s.readReg (.cap .maxFilt)).toNat = s.caps.maxFilt ∧
    (s.readReg (.cap .maxFrame)).toNat = s.caps.maxFrame ∧
    (s.readReg (.cap .maxDct)).toNat = s.caps.maxDct ∧
    (s.readReg (.cap .numCtx)).toNat = s.caps.numCtx

/-! ### What every command leaves alone -/

/-- 60_exceptions.md R322, with the codes of R321: error completion with (code, check, index) sets DONE and ERR, clears
BUSY, writes ERR_CODE with the code's number and ERR_INFO with (index << 16) | check, and changes nothing else; and an
engine step that ends with an error, of decoding or of the command, is the error completion of an Err(code, check,
index): decode checks 1 to 6 with ILLEGAL_COMMAND, command checks 10 to 21 with another code, an index with checks 19 to
21 alone. Which check that is, the statements about each list of checks say (R324). -/
def Obligations.ErrorCompletionIsPrecise : Prop :=
  (∀ (s : State) (check index : Nat), check < 2 ^ 16 → index < 2 ^ 32 →
    ∀ row ∈ [(ErrCode.invalidConfiguration, 1), (.invalidInput, 2), (.illegalCommand, 3), (.addressRange, 4),
        (.capacityExceeded, 5), (.notBuilt, 6), (.sequenceError, 7)],
      let t := s.errorComplete ⟨row.1, check, index⟩
      t = { s with
        status := { s.status with done := true, err := true, errCode := row.1, busy := false }
        errInfo := t.errInfo } ∧
      t.status.word.toNat % 8 = 6 ∧ t.status.word.toNat / 2 ^ 8 % 2 ^ 8 = row.2 ∧
      t.errInfo.word.toNat = index * 2 ^ 16 + check) ∧
  (∀ s t : State, s.caps.Legal → s.mover = .engine → s.status.err = false → step s = .next t → t.status.err = true →
    ∃ (code : ErrCode) (check index : Nat), code ≠ .none ∧ index < 2 ^ 32 ∧
      t = s.errorComplete ⟨code, check, index⟩ ∧
      (if code = .illegalCommand then 1 ≤ check ∧ check ≤ 6 else 10 ≤ check ∧ check ≤ 21) ∧
      (index ≠ 0 → check ∈ [19, 20, 21]))

/-- 40_control.md R140: every command that answers completes: DONE is set and BUSY cleared; without an error ERR,
ERR_CODE and ERR_INFO stay as the issue left them. -/
def Obligations.CommandSetsDoneClearsBusy : Prop :=
  ∀ (i : Instr) (s t : State), exec i s = .next t →
    t.status.done = true ∧ t.status.busy = false ∧
    (t.status.err = false → t.status.errCode = s.status.errCode ∧ t.errInfo = s.errInfo)

/-- 10_state.md R52 and 40_control.md R140: no command changes an ARG or CFG register, the signal descriptor, CMD,
LAST_OP, CTRL, the instance, or the model's own fields. -/
def Obligations.CommandLeavesOperands : Prop :=
  ∀ (i : Instr) (s t : State), exec i s = .next t →
    t.args = s.args ∧ t.cfg = s.cfg ∧ t.sigBase = s.sigBase ∧ t.sigLen = s.sigLen ∧ t.cmd = s.cmd ∧
    t.status.lastOp = s.status.lastOp ∧ t.irqEn = s.irqEn ∧ t.caps = s.caps ∧ t.inputs = s.inputs ∧
    t.response = s.response ∧ t.engineDelay = s.engineDelay ∧ t.issueCount = s.issueCount

/-- 10_state.md R53, R57, R68, R69; 44_dct.md R280: RES0 and RES1 are written only by the commands that name them,
PRIOR[c] only by CTX_RESET, PREEMPH and FRAME_PREP on context c, BASIS_TAG and BASIS_STEP only by the DCT
commands. -/
def Obligations.SpecialRegisterWriters : Prop :=
  ∀ (i : Instr) (s t : State), exec i s = .next t →
    (writesResults i = false → t.res0 = s.res0 ∧ t.res1 = s.res1) ∧
    (∀ c, i.ctx? ≠ some c → t.priorOf c = s.priorOf c) ∧
    (writesBasis i = false → t.basisTag = s.basisTag ∧ t.basisStep = s.basisStep)

/-- 10_state.md R58 to R67 and 20_memory.md R81: an internal buffer changes only under the commands that write it,
and a DMEM word only inside the range the command stores to (DST and NFILT words for SPEC_PROJECT and SPEC_LOGMEL,
DST and ROWS*K words for the transforms). -/
def Obligations.MemoryFrame : Prop :=
  ∀ (i : Instr) (s t : State), exec i s = .next t →
    (∀ sp, sp ≠ .dmem → sp ∉ bufferTargets i → t.space sp = s.space sp) ∧
    (∀ a, (a < (dmemTarget i s).1 ∨ (dmemTarget i s).1 + (dmemTarget i s).2 ≤ a) →
      t.peek .dmem a = s.peek .dmem a)

/-- 10_state.md R70, R71, R72: only FB_BUILD sets FB_VALID, only WIN_BUILD sets WIN_VALID, and FRAME_STAGE moves only
as the frame and spectral commands say; a command that ends with an error moves none of them. -/
def Obligations.ValidFlagsAndStageMoves : Prop :=
  ∀ (i : Instr) (s t : State), s.status.err = false → exec i s = .next t →
    (t.status.err = true → t.status.fbValid = s.status.fbValid ∧ t.status.winValid = s.status.winValid ∧
      t.status.frameStage = s.status.frameStage) ∧
    (t.status.err = false →
      t.status.fbValid = (s.status.fbValid || decide (i = .fbBuild)) ∧
      t.status.winValid = (s.status.winValid || decide (i = .winBuild)) ∧
      t.status.frameStage = (stageAfter i).getD s.status.frameStage)

/-! ### Invariants -/

/-- 70_reset_and_hazards.md R360, R362: the reset state of every legal instance meets the invariant of every run, and
what the flags and the tag promise holds in it. -/
def Obligations.ResetMeetsInvariant : Prop :=
  State.reset.Inv ∧
  ∀ caps : Caps, caps.Legal →
    (State.powerOn caps).Inv ∧ (State.powerOn caps).FilterBankCurrent ∧ (State.powerOn caps).WindowCurrent ∧
    (State.powerOn caps).FrameCurrent ∧ (State.powerOn caps).BasisCached

/-- Every step keeps the invariant: canonical memories within their capacities, ERR_CODE and ERR_INFO in step with
ERR, FRAME_STAGE off EMPTY only with WIN_VALID (42_frame.md R212), valid flags only with a configuration that
passes its checks, and the words the flags and the stage promise written (10_state.md R70 to R72). -/
def Obligations.StepKeepsInvariant : Prop :=
  ∀ s t : State, s.Inv → step s = .next t → t.Inv

/-- 60_exceptions.md R328 with 10_state.md R70 to R72: in a state that meets the invariant, the engine's step faults
only at a DMEM word that nothing has written. No buffer is read unwritten, and nothing undefined is rounded. -/
def Obligations.EngineFaultsOnlyOnUnwrittenDmem : Prop :=
  ∀ (s : State) (f : Fault), s.Inv → s.mover = .engine → step s = .fault f →
    ∃ a, a < s.caps.dmemWords ∧ f = .readUnwritten .dmem a ∧ s.peek .dmem a = none

/-- 10_state.md R70: while FB_VALID = 1 the builder's buffers hold the filter bank of the current configuration,
after every step. -/
def Obligations.FilterBankStaysCurrent : Prop :=
  ∀ s t : State, s.Inv → s.FilterBankCurrent → step s = .next t → t.FilterBankCurrent

/-- 10_state.md R71, R72: while WIN_VALID = 1 WIN holds the window of the current FRAME_LEN, and the frame buffers hold
what FRAME_STAGE says, after every step. -/
def Obligations.WindowAndFrameStayCurrent : Prop :=
  ∀ s t : State, s.Inv → s.WindowCurrent → s.FrameCurrent → step s = .next t → t.WindowCurrent ∧ t.FrameCurrent

/-- 44_dct.md R280: after every step DCTM holds exactly the matrix BASIS_TAG and BASIS_STEP name. -/
def Obligations.BasisCacheStaysExact : Prop :=
  ∀ s t : State, s.Inv → s.BasisCached → step s = .next t → t.BasisCached

/-- 42_frame.md R213: a command that does not name context c neither changes PRIOR[c] nor depends on it: two runs that
differ in PRIOR[c] alone do the same and differ in PRIOR[c] alone afterwards; and after CTX_RESET of c they do not
differ at all. -/
def Obligations.ContextsAreIsolated : Prop :=
  (∀ (i : Instr) (s : State) (c : Ctx) (v : F64), i.ctx? ≠ some c →
    (∀ t, exec i s = .next t → exec i (s.setPrior c v) = .next (t.setPrior c v)) ∧
    (∀ f, exec i s = .fault f → exec i (s.setPrior c v) = .fault f)) ∧
  (∀ (s : State) (c : Ctx) (v : F64), exec (.ctxReset c) (s.setPrior c v) = exec (.ctxReset c) s)

/-! ### The host's transactions -/

/-- 40_control.md R141: a write of d to CMD issues the command d, and changes nothing else (the response, the inputs
and the latency fields are the model's own, logs 6 and 7); while BUSY = 1 it is held. -/
def Obligations.CmdWriteIssuesCommand : Prop :=
  ∀ (s : State) (d : Word) (rest : List HostInput), s.inputs = .write 0x000050#24 8 d :: rest →
    (s.status.busy = false → ∃ t, step s = .next t ∧
      t = { s with
        cmd := d
        status := { s.status with
          lastOp := BitVec.ofNat 8 (d.toNat % 256), done := false, err := false, errCode := .none, busy := true }
        errInfo := ⟨0#16, 0#32⟩
        inputs := rest, response := some .okayWrite,
        engineDelay := t.engineDelay, issueCount := t.issueCount }) ∧
    (s.status.busy = true → ∀ t, step s = .next t → t.inputs = s.inputs)

/-- 20_memory.md R85: a transaction whose address is not a multiple of 8 or whose size is not 8 bytes gets a bus ERROR
and has no effect. -/
def Obligations.MisalignedOrOddSizeGetsError : Prop :=
  ∀ (s : State) (a : HostAddr) (size : Nat) (d : Word) (t : HostInput) (rest : List HostInput),
    s.status.busy = false → s.inputs = t :: rest → t = .read a size ∨ t = .write a size d →
    a.toNat % 8 ≠ 0 ∨ size ≠ 8 →
    step s = .next { s with inputs := rest, response := some .error }

/-- 20_memory.md R86, R88, R90: the mapped addresses of a legal instance are the registers' offsets, PRIOR[c] below
NUM_CTX, and the words of each window below its capacity; a transaction to any other address gets a bus ERROR with
data 0 and has no effect. -/
def Obligations.UnmappedGetsError : Prop :=
  ∀ (s : State) (a : HostAddr), s.caps.Legal → a.toNat % 8 = 0 →
    let mapped :=
      a.toNat ≤ 0x030 ∨ (0x040 ≤ a.toNat ∧ a.toNat ≤ 0x098) ∨ (0x100 ≤ a.toNat ∧ a.toNat ≤ 0x158) ∨
      (0x180 ≤ a.toNat ∧ a.toNat ≤ 0x198) ∨
      (0x1A0 ≤ a.toNat ∧ a.toNat < 0x1A0 + 8 * s.caps.numCtx) ∨
      ∃ w ∈ [(0x010000, s.caps.maxFilt + 2), (0x018000, s.caps.maxFilt + 2), (0x020000, s.caps.maxFilt),
          (0x040000, s.caps.maxFrame), (0x048000, s.caps.maxFrame), (0x050000, s.caps.maxFrame),
          (0x058000, s.caps.maxFrame), (0x060000, s.caps.maxNfft / 2 + 1),
          (0x080000, s.caps.maxDct * s.caps.maxDct), (0x100000, (s.caps.maxNfft / 2 + 1) * s.caps.maxFilt),
          (0x800000, s.caps.dmemWords)],
        w.1 ≤ a.toNat ∧ a.toNat < w.1 + 8 * w.2
    (mapped → locate s.caps a 8 ≠ none) ∧
    (¬ mapped → ∀ (t : HostInput) (d : Word) (rest : List HostInput),
      s.status.busy = false → s.inputs = t :: rest → t = .read a 8 ∨ t = .write a 8 d →
      ∃ r, step s = .next { s with inputs := rest, response := some r } ∧ r = .error ∧ r.data = 0#64)

/-- 20_memory.md R91, R88 and 60_exceptions.md R328: a host read of a word of each window, at the window's base and 8
bytes a word, returns the stored word and changes nothing; of an unwritten word it faults. R86, R91 and the rules of
10_state.md: a read of a register's offset returns that register's value, its fields in their places and reserved bits
zero, the derived ones computed by R49 to R51, and changes nothing. -/
def Obligations.WindowReadReturnsWord : Prop :=
  (∀ row ∈ [(Space.edgeHz, 0x010000), (.edgeBin, 0x018000), (.fbHeight, 0x020000), (.win, 0x040000), (.raw, 0x048000),
      (.cond, 0x050000), (.wnd, 0x058000), (.pwr, 0x060000), (.dctm, 0x080000), (.fb, 0x100000), (.dmem, 0x800000)],
    ∀ (s : State) (w : Nat) (rest : List HostInput), s.caps.Legal → s.status.busy = false →
      w < row.1.capacity s.caps → s.inputs = .read (BitVec.ofNat 24 (row.2 + 8 * w)) 8 :: rest →
      (∀ v, s.peek row.1 w = some v →
        step s = .next { s with inputs := rest, response := some (.okayRead v) }) ∧
      (s.peek row.1 w = none → step s = .fault (.readUnwritten row.1 w))) ∧
  (∀ (s : State) (rest : List HostInput), s.status.busy = false →
    let number : Nat → Word := BitVec.ofNat 64
    let sampleRate := ofNat s.cfg.sampleRate.toNat
    let dur := fmul s.cfg.frameDur sampleRate
    let frameLen :=
      if isFinite dur = true ∧ fle 0#64 dur = true ∧ flt dur 0x41F0000000000000#64 = true then (floorInt dur).toNat
      else 0
    let errCode := match s.status.errCode with
      | .none => 0
      | .invalidConfiguration => 1
      | .invalidInput => 2
      | .illegalCommand => 3
      | .addressRange => 4
      | .capacityExceeded => 5
      | .notBuilt => 6
      | .sequenceError => 7
    let stage := match s.status.frameStage with
      | .empty => 0
      | .raw => 1
      | .cond => 2
      | .wnd => 3
      | .pwr => 4
    let variant := match s.basisTag.variant with
      | .none => 0
      | .generic => 1
      | .orth2 => 2
      | .norm2 => 3
      | .orth3 => 4
      | .norm3 => 5
      | .legacy => 6
    let answers (a : Nat) (v : Word) : Prop := s.inputs = .read (BitVec.ofNat 24 a) 8 :: rest →
      step s = .next { s with inputs := rest, response := some (.okayRead v) }
    (∀ row ∈ [(0x000, 0x4D454C4645000007#64), (0x008, number s.caps.dmemWords), (0x010, number s.caps.maxNfft),
        (0x018, number s.caps.maxFilt), (0x020, number s.caps.maxFrame), (0x028, number s.caps.maxDct),
        (0x030, number s.caps.numCtx), (0x040, number s.irqEn.toNat),
        (0x048, number (2 * s.status.done.toNat + 4 * s.status.err.toNat + 16 * s.status.fbValid.toNat +
          32 * s.status.winValid.toNat + 2 ^ 8 * errCode + 2 ^ 16 * stage + 2 ^ 24 * s.status.lastOp.toNat)),
        (0x050, s.cmd), (0x058, number (s.errInfo.index.toNat * 2 ^ 16 + s.errInfo.check.toNat)),
        (0x060, s.args[0]), (0x068, s.args[1]), (0x070, s.args[2]), (0x078, s.args[3]), (0x080, s.args[4]),
        (0x088, s.args[5]), (0x090, s.res0), (0x098, s.res1), (0x100, number s.cfg.sampleRate.toNat),
        (0x108, number s.cfg.frameRate.toNat), (0x110, s.cfg.frameDur), (0x118, number s.cfg.nfft.toNat),
        (0x120, number s.cfg.nfilt.toNat), (0x128, number s.cfg.ncep.toNat), (0x130, s.cfg.lowerFreq),
        (0x138, s.cfg.upperFreq), (0x140, s.cfg.alpha), (0x148, number frameLen),
        (0x150, fdiv sampleRate (ofNat s.cfg.frameRate.toNat)), (0x158, fdiv sampleRate (ofNat s.cfg.nfft.toNat)),
        (0x180, s.sigBase), (0x188, s.sigLen),
        (0x190, number (variant + 16 * s.basisTag.orth.toNat + 2 ^ 16 * s.basisTag.rows.toNat +
          2 ^ 32 * s.basisTag.cols.toNat)),
        (0x198, s.basisStep)], answers row.1 row.2) ∧
    (∀ c : Fin 4, c.val < s.caps.numCtx → answers (0x1A0 + 8 * c.val) s.prior[c]))

/-- 20_memory.md R92: a host write to a DMEM word stores the data there and changes no other word; a write to a word of
any other window is ignored. Both get OKAY. -/
def Obligations.WindowWriteStoresOnlyDmem : Prop :=
  ∀ (s : State) (sp : Space) (w : Nat) (d : Word) (rest : List HostInput), s.caps.Legal →
    s.status.busy = false → w < sp.capacity s.caps → s.inputs = hostWr (.word sp w) d :: rest →
    ∃ t, step s = .next t ∧
      t = { s with dmem := t.dmem, inputs := rest, response := some .okayWrite } ∧
      (∀ a, t.peek .dmem a = if sp = .dmem ∧ a = w then some d else s.peek .dmem a)

/-- 10_state.md R36: a write of d to STATUS clears DONE with bit 1, and ERR, ERR_CODE and ERR_INFO with bit 2, and has
no other effect. -/
def Obligations.StatusWriteOneClears : Prop :=
  ∀ (s : State) (d : Word) (rest : List HostInput), s.status.busy = false →
    s.inputs = .write 0x000048#24 8 d :: rest →
    ∃ t, step s = .next t ∧
      t = { s with
        status := { s.status with
          done := s.status.done && !d.getLsbD 1
          err := s.status.err && !d.getLsbD 2
          errCode := if d.getLsbD 2 then .none else s.status.errCode }
        errInfo := if d.getLsbD 2 then ⟨0#16, 0#32⟩ else s.errInfo
        inputs := rest, response := some .okayWrite }

/-- 10_state.md R74: the flags each configuration write clears, row by row, whatever the value; writes to the derived
registers, SIG_BASE, SIG_LEN and the ARG registers change no flag. -/
def Obligations.CfgWriteClearsFlags : Prop :=
  (∀ row ∈ [(0x100, true, true, true), (0x108, false, true, true), (0x110, false, true, true),
      (0x118, true, true, true), (0x120, true, false, false), (0x128, false, false, false),
      (0x130, true, false, false), (0x138, true, false, false), (0x140, false, true, true)],
    ∀ (s : State) (d : Word) (rest : List HostInput), s.status.busy = false →
      s.inputs = .write (BitVec.ofNat 24 row.1) 8 d :: rest →
      ∃ t, step s = .next t ∧
        t = { s with
          cfg := t.cfg
          status := { s.status with
            fbValid := if row.2.1 then false else s.status.fbValid
            winValid := if row.2.2.1 then false else s.status.winValid
            frameStage := if row.2.2.2 then .empty else s.status.frameStage }
          inputs := rest, response := some .okayWrite }) ∧
  (∀ a ∈ [0x148, 0x150, 0x158, 0x180, 0x188, 0x060, 0x068, 0x070, 0x078, 0x080, 0x088],
    ∀ (s : State) (d : Word) (rest : List HostInput), s.status.busy = false →
      s.inputs = .write (BitVec.ofNat 24 a) 8 d :: rest →
      ∃ t, step s = .next t ∧ t.status = s.status)

/-- 10_state.md R40 to R48: a configuration register reads back what was written, a u32 one its low 32 bits, and no
other configuration register changes. 20_memory.md R86, R92: a write of d to ARG0 to ARG5, SIG_BASE or SIG_LEN stores d
there and changes nothing else; a write to a read-only register (ID, CAP, ERR_INFO, RES0, RES1, the derived registers,
BASIS_TAG, BASIS_STEP, PRIOR) gets OKAY and is ignored. 10_state.md R35: a write of d to CTRL with bit 1 = 0 puts bit 0
of d into IRQ_EN, a 0 as well as a 1, and changes nothing else. -/
def Obligations.CfgWriteReadsBack : Prop :=
  ∀ (s : State) (d : Word) (rest : List HostInput), s.status.busy = false →
    let written (a : Nat) : Prop := s.inputs = .write (BitVec.ofNat 24 a) 8 d :: rest
    (∀ row ∈ [(0x100, CfgReg.sampleRate), (0x108, .frameRate), (0x110, .frameDur), (0x118, .nfft), (0x120, .nfilt),
        (0x128, .ncep), (0x130, .lowerFreq), (0x138, .upperFreq), (0x140, .alpha)],
      written row.1 → ∃ t, step s = .next t ∧
        t.readReg (.cfg row.2) =
          (if row.2 ∈ [CfgReg.sampleRate, .frameRate, .nfft, .nfilt, .ncep] then BitVec.ofNat 64 (d.toNat % 2 ^ 32)
           else d) ∧
        ∀ r, r ≠ row.2 → t.readReg (.cfg r) = s.readReg (.cfg r)) ∧
    (∀ k : Fin 6, written (0x060 + 8 * k.val) → ∃ t, step s = .next t ∧
      t = { s with args := t.args, inputs := rest, response := some .okayWrite } ∧
      ∀ j : Fin 6, t.args[j] = if j = k then d else s.args[j]) ∧
    (written 0x040 → d.getLsbD 1 = false →
      step s = .next { s with irqEn := d.getLsbD 0, inputs := rest, response := some .okayWrite }) ∧
    (written 0x180 → step s = .next { s with sigBase := d, inputs := rest, response := some .okayWrite }) ∧
    (written 0x188 → step s = .next { s with sigLen := d, inputs := rest, response := some .okayWrite }) ∧
    (∀ a ∈ [0x000, 0x008, 0x010, 0x018, 0x020, 0x028, 0x030, 0x058, 0x090, 0x098, 0x148, 0x150, 0x158, 0x190, 0x198],
      written a → step s = .next { s with inputs := rest, response := some .okayWrite }) ∧
    (∀ c : Fin 4, c.val < s.caps.numCtx → written (0x1A0 + 8 * c.val) →
      step s = .next { s with inputs := rest, response := some .okayWrite })

/-- 70_reset_and_hazards.md R361: a completed write to CTRL with bit 1 = 1 puts every register of the table of R362 at
its reset value, whatever bit 0 is, makes every internal buffer word unwritten and keeps DMEM; while BUSY = 1 it is
held. R360: a pulse of the reset line does the same and makes every DMEM word unwritten too; irq is low and nothing is
pending. That the pulse acts as soon as it is the next input, a command pending or not, is the model's choice (log 6). -/
def Obligations.SoftResetRestoresRegisters : Prop :=
  ∀ (s : State) (rest : List HostInput),
    let registersReset (t : State) : Prop := ∀ row ∈ [
      (Reg.ctrl, 0#64), (.status, 0#64), (.cmd, 0#64), (.errInfo, 0#64), (.arg 0, 0#64), (.arg 1, 0#64),
      (.arg 2, 0#64), (.arg 3, 0#64), (.arg 4, 0#64), (.arg 5, 0#64), (.res0, 0#64), (.res1, 0#64),
      (.cfg .sampleRate, 16000#64), (.cfg .frameRate, 160#64), (.cfg .frameDur, 0x3F9A36E2EB1C432D#64),
      (.cfg .nfft, 512#64), (.cfg .nfilt, 40#64), (.cfg .ncep, 13#64),
      (.cfg .lowerFreq, 0x4060AAAA64C2F838#64), (.cfg .upperFreq, 0x40BAC77F62B6AE7D#64),
      (.cfg .alpha, 0x3FEF0A3D70A3D70A#64), (.frameLen, 409#64), (.fshift, 0x4059000000000000#64),
      (.dfreq, 0x403F400000000000#64), (.sigBase, 0#64), (.sigLen, 0#64), (.basisTag, 0#64), (.basisStep, 0#64),
      (.prior 0#2, 0#64), (.prior 1#2, 0#64), (.prior 2#2, 0#64), (.prior 3#2, 0#64)],
      t.readReg row.1 = row.2
    (∀ d : Word, d.getLsbD 1 = true → s.inputs = .write 0x000040#24 8 d :: rest →
      (s.status.busy = true → ∀ t, step s = .next t → t.inputs = s.inputs) ∧
      (s.status.busy = false → ∃ t, step s = .next t ∧ registersReset t ∧
        (∀ sp i, t.peek sp i = if sp = .dmem then s.peek .dmem i else none) ∧ t.caps = s.caps)) ∧
    (s.inputs = .resetLine :: rest → ∃ t, step s = .next t ∧ registersReset t ∧
      (∀ sp i, t.peek sp i = none) ∧ t.caps = s.caps ∧ t.irq = false ∧ t.inputs = rest)

/-- 70_reset_and_hazards.md R362: what every register reads after power-on reset of the default instance, the derived
ones among them (409, 100.0, 31.25); every word is unwritten and irq is low. -/
def Obligations.ResetRegisterValues : Prop :=
  (∀ row ∈ [(Reg.id, 0x4D454C4645000007#64), (.cap .dmemWords, 65536#64), (.cap .maxNfft, 2048#64),
      (.cap .maxFilt, 64#64), (.cap .maxFrame, 2048#64), (.cap .maxDct, 64#64), (.cap .numCtx, 4#64),
      (.ctrl, 0#64), (.status, 0#64), (.cmd, 0#64), (.errInfo, 0#64), (.arg 0, 0#64), (.arg 1, 0#64),
      (.arg 2, 0#64), (.arg 3, 0#64), (.arg 4, 0#64), (.arg 5, 0#64), (.res0, 0#64), (.res1, 0#64),
      (.cfg .sampleRate, 16000#64), (.cfg .frameRate, 160#64), (.cfg .frameDur, 0x3F9A36E2EB1C432D#64),
      (.cfg .nfft, 512#64), (.cfg .nfilt, 40#64), (.cfg .ncep, 13#64),
      (.cfg .lowerFreq, 0x4060AAAA64C2F838#64), (.cfg .upperFreq, 0x40BAC77F62B6AE7D#64),
      (.cfg .alpha, 0x3FEF0A3D70A3D70A#64), (.frameLen, 409#64), (.fshift, 0x4059000000000000#64),
      (.dfreq, 0x403F400000000000#64), (.sigBase, 0#64), (.sigLen, 0#64), (.basisTag, 0#64), (.basisStep, 0#64),
      (.prior 0#2, 0#64), (.prior 1#2, 0#64), (.prior 2#2, 0#64), (.prior 3#2, 0#64)],
    State.reset.readReg row.1 = row.2) ∧
  (∀ sp i, State.reset.peek sp i = none) ∧ State.reset.irq = false

/-- 60_exceptions.md R330: irq is IRQ_EN and DONE; a command's completion raises it exactly when IRQ_EN = 1; and once
high it falls only in a step that completes a write of 1 to STATUS bit 1, a command issue, a write to CTRL (0 to
IRQ_EN, or the soft reset), or the reset line. Setting IRQ_EN while DONE = 1 raises it at once. -/
def Obligations.InterruptFollowsDone : Prop :=
  (∀ s : State, s.irq = true ↔ s.irqEn = true ∧ s.status.done = true) ∧
  (∀ (i : Instr) (s t : State), exec i s = .next t → t.irq = s.irqEn) ∧
  (∀ s t : State, s.irq = true → s.status.busy = false → step s = .next t → t.irq = false →
    ∃ rest, s.inputs = .resetLine :: rest ∨
      (∃ d : Word, s.inputs = .write 0x000048#24 8 d :: rest ∧ d.getLsbD 1 = true) ∨
      (∃ d : Word, s.inputs = .write 0x000050#24 8 d :: rest) ∨
      (∃ d : Word, s.inputs = .write 0x000040#24 8 d :: rest ∧ (d.getLsbD 0 = false ∨ d.getLsbD 1 = true))) ∧
  (∀ (s : State) (rest : List HostInput), s.status.busy = false → s.status.done = true →
    s.inputs = .write 0x000040#24 8 1#64 :: rest → ∃ t, step s = .next t ∧ t.irq = true)

/-! ### Control and filter bank -/

/-- 40_control.md R142: NOP completes and changes nothing else; its word with CTX = 1 fails check 4 and with ORTH = 1
check 6; run from STATUS = 0 it leaves STATUS = 0x2. -/
def Obligations.NopCompletes : Prop :=
  (∀ s : State, exec .nop s = .next { s with status := { s.status with done := true, busy := false } }) ∧
  (∀ numCtx, decode numCtx 0#64 = .ok .nop ∧ decode numCtx 0x00000100#64 = .error .ctxNotTaken ∧
    decode numCtx 0x00010000#64 = .error .orthNotTaken) ∧
  (∀ s t : State, s.status.word = 0#64 → exec .nop s = .next t → t.status.word = 0x2#64)

/-- 41_filterbank.md R161, R162, R169, R170: MEL and MELINV complete on every operand with RES0 the formula's value,
one operator to one primitive, and change nothing else. -/
def Obligations.MelAndInverseResults : Prop :=
  ∀ s : State, let x : F64 := s.args[5]
    exec .mel s = .next { s with
      res0 := fmul 0x40A4460000000000#64
        (numerics.log10 (fadd 0x3FF0000000000000#64 (fdiv x 0x4085E00000000000#64)))
      status := { s.status with done := true, busy := false } } ∧
    exec .melInv s = .next { s with
      res0 := fmul 0x4085E00000000000#64
        (fsub (numerics.pow10 (fdiv x 0x40A4460000000000#64)) 0x3FF0000000000000#64)
      status := { s.status with done := true, busy := false } }

/-- 41_filterbank.md R161, R162, R169, R170: mel(+0.0) = +0.0, mel(-700.0) = -inf, mel(f) = NaN for every f below
-700.0, mel(+inf) = +inf, melinv(+0.0) = +0.0, and a NaN of any encoding gives the canonical NaN in both, for every
conforming numerics. A large X gives +inf in melinv: from 801855.0 = 309 * 2595 on, where the bound is the model's choice
(log 19). -/
def Obligations.MelCornerCases : Prop :=
  melOf numerics 0x0000000000000000#64 = 0x0000000000000000#64 ∧
  melOf numerics 0xC085E00000000000#64 = 0xFFF0000000000000#64 ∧
  (∀ f : F64, flt f 0xC085E00000000000#64 = true → melOf numerics f = 0x7FF8000000000000#64) ∧
  melOf numerics 0x7FF0000000000000#64 = 0x7FF0000000000000#64 ∧
  melInvOf numerics 0x0000000000000000#64 = 0x0000000000000000#64 ∧
  (∀ x : F64, isNaN x = true →
    melOf numerics x = 0x7FF8000000000000#64 ∧ melInvOf numerics x = 0x7FF8000000000000#64) ∧
  ∀ x : F64, fle 0x4128787E00000000#64 x = true → melInvOf numerics x = 0x7FF0000000000000#64

/-- 41_filterbank.md R167 for every numerics nu (at nu = numerics this is the machine's FB_BUILD): the first check that
fails ends FB_BUILD with its error and number; for checks 19 to 21, over the edges that nu gives, ERR_INFO.INDEX is the
smallest edge or filter at which the check fails. Where all hold FB_BUILD completes. -/
def Obligations.FbBuildConfigurationChecks : Prop :=
  (∀ s : State, exec .fbBuild s = fbBuildOn numerics s) ∧
  ∀ (nu : Numerics) (s : State),
    let bad (code : ErrCode) (k index : Nat) := fbBuildOn nu s = .next (s.errorComplete ⟨code, k, index⟩)
    let sr := s.cfg.sampleRate.toNat
    let nfft := s.cfg.nfft.toNat
    let nfilt := s.cfg.nfilt.toNat
    let one : F64 := 0x3FF0000000000000#64
    let c2595 : F64 := 0x40A4460000000000#64
    let c700 : F64 := 0x4085E00000000000#64
    let mel : F64 → F64 := fun f => fmul c2595 (nu.log10 (fadd one (fdiv f c700)))
    let melmin := mel s.cfg.lowerFreq
    let dmel := fdiv (fsub (mel s.cfg.upperFreq) melmin) (ofNat (nfilt + 1))
    let edge : Nat → F64 := fun i =>
      fmul c700 (fsub (nu.pow10 (fdiv (fadd melmin (fmul dmel (ofNat i))) c2595)) one)
    let q : Nat → F64 := fun i => fdiv (edge i) (fdiv (ofNat sr) (ofNat nfft))
    let bin : Nat → Int := fun i => rha (q i)
    let outside (i : Nat) : Prop := isFinite (q i) = false ∨ bin i < 0 ∨ (nfft / 2 : Nat) < bin i
    let disordered (j : Nat) : Prop := bin (j + 1) < bin j ∨ bin (j + 2) < bin (j + 1)
    let flat (j : Nat) : Prop := bin j = bin (j + 2)
    let first (p : Nat → Prop) (n i : Nat) : Prop := i < n ∧ p i ∧ ∀ k < i, ¬ p k
    if sr = 0 then bad .invalidConfiguration 10 0
    else if nfft < 2 ∨ (∀ k < 32, nfft ≠ 2 ^ k) then bad .invalidConfiguration 11 0
    else if s.caps.maxNfft < nfft then bad .capacityExceeded 12 0
    else if nfilt = 0 then bad .invalidConfiguration 13 0
    else if s.caps.maxFilt < nfilt then bad .capacityExceeded 14 0
    else if isFinite s.cfg.lowerFreq = false ∨ isFinite s.cfg.upperFreq = false then bad .invalidConfiguration 15 0
    else if flt (fdiv (ofNat sr) 0x4000000000000000#64) s.cfg.upperFreq = true then bad .invalidConfiguration 16 0
    else if flt s.cfg.lowerFreq 0#64 = true then bad .invalidConfiguration 17 0
    else if flt s.cfg.lowerFreq s.cfg.upperFreq = false then bad .invalidConfiguration 18 0
    else
      (∀ i, first outside (nfilt + 2) i → bad .invalidConfiguration 19 i) ∧
      ((∀ i < nfilt + 2, ¬ outside i) →
        (∀ j, first disordered nfilt j → bad .invalidConfiguration 20 j) ∧
        ((∀ j < nfilt, ¬ disordered j) →
          (∀ j, first flat nfilt j → bad .invalidConfiguration 21 j) ∧
          ((∀ j < nfilt, ¬ flat j) →
            ∃ t, fbBuildOn nu s = .next t ∧ t.status.fbValid = true ∧ t.status.err = s.status.err)))

/-- 41_filterbank.md R163 to R168 for every numerics nu (00_scope.md R7: the model takes them as arguments; at
nu = numerics this is the machine's FB_BUILD): where the configuration passes the checks of R167, FB_BUILD completes
with the edges, bins, heights and triangles in their buffers, RES0 = NBINS, RES1 = NFILT and FB_VALID = 1, and nothing
else changed. The numerics decide the edge bins, so which configurations pass checks 19 to 21 is theirs (log 2). -/
def Obligations.FbBuildWritesFilterBank : Prop :=
  ∀ (nu : Numerics) (s : State),
    let sr := ofNat s.cfg.sampleRate.toNat
    let nfft := s.cfg.nfft.toNat
    let nfilt := s.cfg.nfilt.toNat
    let one : F64 := 0x3FF0000000000000#64
    let c2595 : F64 := 0x40A4460000000000#64
    let c700 : F64 := 0x4085E00000000000#64
    let dfreq := fdiv sr (ofNat nfft)
    let mel : F64 → F64 := fun f => fmul c2595 (nu.log10 (fadd one (fdiv f c700)))
    let melmin := mel s.cfg.lowerFreq
    let dmel := fdiv (fsub (mel s.cfg.upperFreq) melmin) (ofNat (nfilt + 1))
    let edge : Nat → F64 := fun i =>
      fmul c700 (fsub (nu.pow10 (fdiv (fadd melmin (fmul dmel (ofNat i))) c2595)) one)
    let bin : Nat → Int := fun i => rha (fdiv (edge i) dfreq)
    let height : Nat → F64 := fun j => fdiv 0x4000000000000000#64 (fmul (ofInt (bin (j + 2) - bin j)) dfreq)
    let value : Nat → Nat → F64 := fun b j =>
      let l := bin j
      let c := bin (j + 1)
      let r := bin (j + 2)
      if l < b ∧ b < c then fmul (ofInt (b - l)) (fdiv (height j) (ofInt (c - l)))
      else if (b : Int) = c then height j
      else if c < b ∧ b < r then fmul (ofInt (b - r)) (fdiv (height j) (ofInt (c - r)))
      else 0#64
    s.cfg.sampleRate.toNat ≠ 0 → 2 ≤ nfft → (∃ k, nfft = 2 ^ k) → nfft ≤ s.caps.maxNfft →
    1 ≤ nfilt → nfilt ≤ s.caps.maxFilt → isFinite s.cfg.lowerFreq = true → isFinite s.cfg.upperFreq = true →
    flt (fdiv sr 0x4000000000000000#64) s.cfg.upperFreq = false → flt s.cfg.lowerFreq 0#64 = false →
    flt s.cfg.lowerFreq s.cfg.upperFreq = true →
    (∀ i < nfilt + 2, isFinite (fdiv (edge i) dfreq) = true ∧ 0 ≤ bin i ∧ bin i ≤ (nfft / 2 : Nat)) →
    (∀ j < nfilt, bin j ≤ bin (j + 1) ∧ bin (j + 1) ≤ bin (j + 2)) →
    (∀ j < nfilt, bin j ≠ bin (j + 2)) →
    ∃ t, fbBuildOn nu s = .next t ∧ (nu = numerics → exec .fbBuild s = .next t) ∧
      t = { s with
        bufs := { s.bufs with
          edgeHz := t.bufs.edgeHz, edgeBin := t.bufs.edgeBin, fbHeight := t.bufs.fbHeight, fb := t.bufs.fb }
        status := { s.status with done := true, busy := false, fbValid := true }
        res0 := BitVec.ofNat 64 (nfft / 2 + 1)
        res1 := BitVec.ofNat 64 nfilt } ∧
      (∀ i, t.peek .edgeHz i = if i < nfilt + 2 then some (edge i) else s.peek .edgeHz i) ∧
      (∀ i, t.peek .edgeBin i =
        if i < nfilt + 2 then some (BitVec.ofNat 64 (bin i).toNat) else s.peek .edgeBin i) ∧
      (∀ j, t.peek .fbHeight j = if j < nfilt then some (height j) else s.peek .fbHeight j) ∧
      (∀ b < nfft / 2 + 1, ∀ j < nfilt, t.peek .fb (b * nfilt + j) = some (value b j)) ∧
      (∀ i, (nfft / 2 + 1) * nfilt ≤ i → t.peek .fb i = s.peek .fb i)

/-! ### Frame windower -/

/-- 42_frame.md R206: CTX_RESET of an existing context sets PRIOR[c] to +0.0 and nothing else; of one that does not
exist its word fails check 5. -/
def Obligations.CtxResetClearsPrior : Prop :=
  (∀ (s : State) (c : Ctx), ∃ t, exec (.ctxReset c) s = .next t ∧
    t = { s with prior := t.prior, status := { s.status with done := true, busy := false } } ∧
    ∀ c', t.priorOf c' = if c' = c then 0#64 else s.priorOf c') ∧
  (∀ (numCtx : Nat) (c : Ctx),
    decode numCtx (BitVec.ofNat 64 (0x21 + c.toNat * 256)) =
      if c.toNat < numCtx then .ok (.ctxReset c) else .error .ctxOutOfRange)

/-- 42_frame.md R201: the frame-configuration checks of WIN_BUILD in their order, each with its error; where all hold
it completes with WIN_VALID = 1. -/
def Obligations.WinBuildChecksInOrder : Prop :=
  ∀ s : State,
    let bad (code : ErrCode) (k : Nat) := exec .winBuild s = .next (s.errorComplete ⟨code, k, 0⟩)
    let nfft := s.cfg.nfft.toNat
    if s.cfg.sampleRate.toNat = 0 then bad .invalidConfiguration 10
    else if s.cfg.frameRate.toNat = 0 then bad .invalidConfiguration 11
    else if s.frameLen = 0 then bad .invalidConfiguration 12
    else if s.caps.maxFrame < s.frameLen then bad .capacityExceeded 13
    else if nfft < 2 ∨ (∀ k < 32, nfft ≠ 2 ^ k) then bad .invalidConfiguration 14
    else if s.caps.maxNfft < nfft then bad .capacityExceeded 15
    else if nfft < s.frameLen then bad .invalidConfiguration 16
    else if ¬ (fle 0#64 s.cfg.alpha = true ∧ flt s.cfg.alpha 0x3FF0000000000000#64 = true) then
      bad .invalidConfiguration 17
    else ∃ t, exec .winBuild s = .next t ∧ t.status.winValid = true ∧ t.status.err = s.status.err

/-- 42_frame.md R203, R204: where the frame configuration is legal WIN_BUILD writes the Hamming window of FRAME_LEN, sets
WIN_VALID and RES0 = FRAME_LEN, and changes nothing else. -/
def Obligations.WinBuildWritesWindow : Prop :=
  ∀ s : State, let len := s.frameLen
    s.cfg.sampleRate.toNat ≠ 0 → s.cfg.frameRate.toNat ≠ 0 → len ≠ 0 → len ≤ s.caps.maxFrame →
    2 ≤ s.cfg.nfft.toNat → (∃ k, s.cfg.nfft.toNat = 2 ^ k) → s.cfg.nfft.toNat ≤ s.caps.maxNfft →
    len ≤ s.cfg.nfft.toNat → fle 0#64 s.cfg.alpha = true → flt s.cfg.alpha 0x3FF0000000000000#64 = true →
    ∃ t, exec .winBuild s = .next t ∧
      t = { s with
        bufs := { s.bufs with win := t.bufs.win }
        status := { s.status with done := true, busy := false, winValid := true }
        res0 := BitVec.ofNat 64 len } ∧
      ∀ n, t.peek .win n =
        if n < len then
          some (if len = 1 then 0x3FF0000000000000#64
            else fsub 0x3FE147AE147AE148#64 (fmul 0x3FDD70A3D70A3D71#64
              (numerics.cos (fdiv (fmul 0x401921FB54442D18#64 (ofNat n)) (ofNat (len - 1))))))
        else s.peek .win n

/-- 42_frame.md R211: the signal checks of FRAME_COUNT, FRAME_FETCH and FRAME_PREP in their order, each with its
error; FRAME_COUNT makes no range check. 43_spectral.md R258, 44_dct.md R282: so a facade run on an empty signal, or with
sample rate 0, ends at FRAME_COUNT with INVALID_INPUT, and no frame command runs: buffers, DMEM, FRAME_STAGE, RES0 and
every PRIOR but the one it reset stay (what the host does with the error is DEDUCED, log 13). -/
def Obligations.SignalChecksInOrder : Prop :=
  (∀ (s : State) (i : Instr), i = .frameCount ∨ i = .frameFetch ∨ (∃ c, i = .framePrep c) →
    let bad (code : ErrCode) (k : Nat) := exec i s = .next (s.errorComplete ⟨code, k, 0⟩)
    if s.sigLen.toNat = 0 then bad .invalidInput 10
    else if s.cfg.sampleRate.toNat = 0 then bad .invalidInput 11
    else if s.status.winValid = false then bad .notBuilt 12
    else if i ≠ .frameCount ∧ s.caps.dmemWords < s.sigBase.toNat + s.sigLen.toNat then bad .addressRange 13
    else ∀ t, exec i s = .next t → t.status.err = s.status.err) ∧
  (∀ (m : State) (c : Ctx) (base len d e : Nat), m.status.busy = false →
    len = 0 ∨ m.cfg.sampleRate.toNat = 0 →
    ∀ facade ∈ [extractLogMel c base len d m, extractCepstra c base len d e m],
      ∃ t, facade = .next t ∧ t.status.errCode = .invalidInput ∧ t.status.frameStage = m.status.frameStage ∧
        t.bufs = m.bufs ∧ t.dmem = m.dmem ∧ t.res0 = m.res0 ∧ ∀ c', c' ≠ c → t.priorOf c' = m.priorOf c')

/-- 42_frame.md R202: with sample rate and frame rate at least 1, FSHIFT is finite, every frame index of 64 bits has a
start, and every signal length of 64 bits a frame count. -/
def Obligations.FramePlacementDefined : Prop :=
  ∀ c : Cfg, 1 ≤ c.sampleRate.toNat → 1 ≤ c.frameRate.toNat →
    isFinite c.fshift = true ∧
    (∀ i < 2 ^ 64, isFinite (fmul (ofNat i) c.fshift) = true ∧
      frameStart c.fshift i = some (rha (fmul (ofNat i) c.fshift)).toNat) ∧
    (∀ len < 2 ^ 64, isFinite (fdiv (ofNat len) c.fshift) = true ∧
      frameCountOf c.fshift len = some (floorInt (fdiv (ofNat len) c.fshift) + 1).toNat)

/-- 42_frame.md R202, R205: with a signal and a built window FRAME_COUNT completes with RES0 = min(floor(L/FSHIFT) + 1,
2^64 - 1) and changes nothing else. -/
def Obligations.FrameCountResult : Prop :=
  ∀ s : State, s.sigLen.toNat ≠ 0 → s.cfg.sampleRate.toNat ≠ 0 → s.cfg.frameRate.toNat ≠ 0 →
    s.status.winValid = true →
    let fshift := fdiv (ofNat s.cfg.sampleRate.toNat) (ofNat s.cfg.frameRate.toNat)
    exec .frameCount s = .next { s with
      res0 := BitVec.ofNat 64 (min (floorInt (fdiv (ofNat s.sigLen.toNat) fshift) + 1).toNat (2 ^ 64 - 1))
      status := { s.status with done := true, busy := false } }

/-- 42_frame.md R202, R207: FRAME_FETCH places the frame at start(i) = rha(i*FSHIFT), copies the samples the signal has
there (a NaN as the canonical NaN, log 14), pads with +0.0 to FRAME_LEN, sets RES0, RES1 and FRAME_STAGE, and changes nothing
else. -/
def Obligations.FrameFetchFillsRaw : Prop :=
  ∀ s : State,
    let len := s.sigLen.toNat
    let fshift := fdiv (ofNat s.cfg.sampleRate.toNat) (ofNat s.cfg.frameRate.toNat)
    let start := (rha (fmul (ofNat s.args[5].toNat) fshift)).toNat
    len ≠ 0 → s.cfg.sampleRate.toNat ≠ 0 → s.cfg.frameRate.toNat ≠ 0 → s.status.winValid = true →
    s.sigBase.toNat + len ≤ s.caps.dmemWords →
    (∀ n < s.frameLen, start + n < len → (s.peek .dmem (s.sigBase.toNat + start + n)).isSome = true) →
    ∃ t, exec .frameFetch s = .next t ∧
      t = { s with
        bufs := { s.bufs with raw := t.bufs.raw }
        status := { s.status with done := true, busy := false, frameStage := .raw }
        res0 := BitVec.ofNat 64 (min start (2 ^ 64 - 1))
        res1 := BitVec.ofNat 64 (min s.frameLen (len - start)) } ∧
      ∀ n, t.peek .raw n =
        if n < s.frameLen then
          if start + n < len then (s.peek .dmem (s.sigBase.toNat + start + n)).map canonical else some 0#64
        else s.peek .raw n

/-- 42_frame.md R208: PREEMPH at stage RAW writes COND[0] = RAW[0] - ALPHA*PRIOR[c] and COND[n] = RAW[n] -
ALPHA*RAW[n-1], moves the last raw sample to PRIOR[c] and the stage to COND, and changes nothing else; at any other
stage it fails with SEQUENCE_ERROR, check 10. That a NaN sample moves to PRIOR[c] as the canonical NaN is DEDUCED from
00_scope.md R12 (log 14). -/
def Obligations.PreemphConditionsFrame : Prop :=
  ∀ (s : State) (c : Ctx) (raw : Nat → F64),
    (s.status.frameStage ≠ .raw → exec (.preemph c) s = .next (s.errorComplete ⟨.sequenceError, 10, 0⟩)) ∧
    (s.status.frameStage = .raw → s.frameLen ≠ 0 → (∀ n < s.frameLen, s.peek .raw n = some (raw n)) →
      ∃ t, exec (.preemph c) s = .next t ∧
        t = { s with
          bufs := { s.bufs with cond := t.bufs.cond }
          prior := t.prior
          status := { s.status with done := true, busy := false, frameStage := .cond } } ∧
        (∀ c', t.priorOf c' = if c' = c then canonical (raw (s.frameLen - 1)) else s.priorOf c') ∧
        ∀ n, t.peek .cond n =
          if n < s.frameLen then
            some (fsub (raw n) (fmul s.cfg.alpha (if n = 0 then s.priorOf c else raw (n - 1))))
          else s.peek .cond n)

/-- 42_frame.md R209: WINDOW at stage COND writes WND[n] = COND[n]*WIN[n], moves the stage to WND and changes nothing
else; at any other stage it fails with SEQUENCE_ERROR, check 10. -/
def Obligations.WindowMultipliesFrame : Prop :=
  ∀ (s : State) (cond win : Nat → F64),
    (s.status.frameStage ≠ .cond → exec .window s = .next (s.errorComplete ⟨.sequenceError, 10, 0⟩)) ∧
    (s.status.frameStage = .cond → (∀ n < s.frameLen, s.peek .cond n = some (cond n)) →
      (∀ n < s.frameLen, s.peek .win n = some (win n)) →
      ∃ t, exec .window s = .next t ∧
        t = { s with
          bufs := { s.bufs with wnd := t.bufs.wnd }
          status := { s.status with done := true, busy := false, frameStage := .wnd } } ∧
        ∀ n, t.peek .wnd n = if n < s.frameLen then some (fmul (cond n) (win n)) else s.peek .wnd n)

/-- 42_frame.md R210: where FRAME_FETCH would complete, the window is written and the frame has samples, FRAME_PREP
completes in one step with exactly the state that FRAME_FETCH, PREEMPH on the same context and WINDOW leave one after
the other. -/
def Obligations.FramePrepIsFetchPreemphWindow : Prop :=
  ∀ (s : State) (c : Ctx),
    let len := s.sigLen.toNat
    let fshift := fdiv (ofNat s.cfg.sampleRate.toNat) (ofNat s.cfg.frameRate.toNat)
    let start := (rha (fmul (ofNat s.args[5].toNat) fshift)).toNat
    len ≠ 0 → s.cfg.sampleRate.toNat ≠ 0 → s.cfg.frameRate.toNat ≠ 0 → s.status.winValid = true →
    s.sigBase.toNat + len ≤ s.caps.dmemWords → s.frameLen ≠ 0 →
    (∀ n < s.frameLen, start + n < len → (s.peek .dmem (s.sigBase.toNat + start + n)).isSome = true) →
    (∀ n < s.frameLen, (s.peek .win n).isSome = true) →
    ∃ t₁ t₂ t₃, exec .frameFetch s = .next t₁ ∧ exec (.preemph c) t₁ = .next t₂ ∧ exec .window t₂ = .next t₃ ∧
      exec (.framePrep c) s = .next t₃ ∧ t₃.status.frameStage = .wnd ∧ t₃.status.err = s.status.err

/-! ### Spectral analyzer -/

/-- 43_spectral.md R247: the spectral checks in their order, each with its error. -/
def Obligations.SpectralChecksInOrder : Prop :=
  ∀ (s : State) (i : Instr), i = .specPower ∨ i = .specProject ∨ i = .specLogMel →
    let bad (code : ErrCode) (k : Nat) := exec i s = .next (s.errorComplete ⟨code, k, 0⟩)
    if (i = .specProject ∧ s.status.frameStage ≠ .pwr) ∨ (i ≠ .specProject ∧ s.status.frameStage ≠ .wnd) then
      bad .sequenceError 10
    else if i ≠ .specPower ∧ s.status.fbValid = false then bad .notBuilt 11
    else if i ≠ .specPower ∧ s.caps.dmemWords < s.args[1].toNat + s.cfg.nfilt.toNat then bad .addressRange 12
    else ∀ t, exec i s = .next t → t.status.err = s.status.err

/-- 43_spectral.md R241, R242, R246: SPEC_POWER at stage WND transforms the windowed frame, padded with +0.0 to NFFT,
writes PWR[b] = re^2 + im^2 for the NFFT/2 + 1 bins, moves the stage to PWR and changes nothing else. A frame of zeros
gives +0.0 in every bin under any numerics that meet NUM_FAITHFUL as far as binary64 can (`NumAttainable`, which R7's own
target implies: log 18); at such a frame R7's bound is zero. -/
def Obligations.SpecPowerWritesSpectrum : Prop :=
  ∀ (s : State) (wnd : Nat → F64),
    let nfft := s.cfg.nfft.toNat
    let x := (List.range nfft).map (fun n => if n < s.frameLen then wnd n else 0#64)
    s.status.frameStage = .wnd → s.frameLen ≤ nfft → (∀ n < s.frameLen, s.peek .wnd n = some (wnd n)) →
    (∃ t, exec .specPower s = .next t ∧
      t = { s with
        bufs := { s.bufs with pwr := t.bufs.pwr }
        status := { s.status with done := true, busy := false, frameStage := .pwr } } ∧
      ∀ b, t.peek .pwr b =
        if b < nfft / 2 + 1 then
          some (fadd (fmul (numerics.rdft nfft x b).1 (numerics.rdft nfft x b).1)
            (fmul (numerics.rdft nfft x b).2 (numerics.rdft nfft x b).2))
        else s.peek .pwr b) ∧
    (∀ nu : Numerics, NumAttainable nu → (∀ n < s.frameLen, isZero (wnd n) = true) →
      ∀ b < nfft / 2 + 1, fadd (fmul (nu.rdft nfft x b).1 (nu.rdft nfft x b).1)
        (fmul (nu.rdft nfft x b).2 (nu.rdft nfft x b).2) = 0#64)

/-- 43_spectral.md R243, R244: SPEC_PROJECT at stage PWR with a built filter bank and a destination inside DMEM writes
LM[j], the logarithm of the floored energy, to DMEM[DST + j], and changes nothing else. R251: no LM[j] is -inf. R252: a
spectrum of zeros gives the logarithm of the floor for every filter whose matrix entries are finite. -/
def Obligations.SpecProjectWritesLogMel : Prop :=
  ∀ (s : State) (pwr fb : Nat → F64),
    let nbins := s.cfg.nfft.toNat / 2 + 1
    let nfilt := s.cfg.nfilt.toNat
    let dst := s.args[1].toNat
    let energy : Nat → F64 := fun j =>
      (List.range nbins).foldl (fun acc b => fadd acc (fmul (pwr b) (fb (b * nfilt + j)))) 0#64
    let clipped : Nat → F64 := fun j =>
      if isNaN (energy j) then 0x7FF8000000000000#64
      else if flt (energy j) 0x3EE4F8B588E368F1#64 then 0x3EE4F8B588E368F1#64 else energy j
    s.status.frameStage = .pwr → s.status.fbValid = true → dst + nfilt ≤ s.caps.dmemWords →
    (∀ b < nbins, s.peek .pwr b = some (pwr b)) → (∀ k < nbins * nfilt, s.peek .fb k = some (fb k)) →
    (∃ t, exec .specProject s = .next t ∧
      t = { s with dmem := t.dmem, status := { s.status with done := true, busy := false } } ∧
      ∀ a, t.peek .dmem a =
        if dst ≤ a ∧ a < dst + nfilt then some (numerics.ln (clipped (a - dst))) else s.peek .dmem a) ∧
    (∀ j < nfilt, numerics.ln (clipped j) ≠ 0xFFF0000000000000#64) ∧
    (∀ j < nfilt, (∀ b < nbins, pwr b = 0#64 ∧ isFinite (fb (b * nfilt + j)) = true) →
      clipped j = 0x3EE4F8B588E368F1#64)

/-- 43_spectral.md R245: where SPEC_POWER would complete, the filter bank is built and the destination lies in DMEM,
SPEC_LOGMEL completes in one step with exactly the state that SPEC_POWER and then SPEC_PROJECT leave. -/
def Obligations.SpecLogMelIsPowerThenProject : Prop :=
  ∀ s : State,
    s.status.frameStage = .wnd → s.status.fbValid = true → s.frameLen ≤ s.cfg.nfft.toNat →
    s.args[1].toNat + s.cfg.nfilt.toNat ≤ s.caps.dmemWords →
    (∀ n < s.frameLen, (s.peek .wnd n).isSome = true) →
    (∀ k < (s.cfg.nfft.toNat / 2 + 1) * s.cfg.nfilt.toNat, (s.peek .fb k).isSome = true) →
    ∃ t₁ t₂, exec .specPower s = .next t₁ ∧ exec .specProject t₁ = .next t₂ ∧
      exec .specLogMel s = .next t₂ ∧ t₂.status.frameStage = .pwr ∧ t₂.status.err = s.status.err

/-! ### DCT engine -/

/-- 44_dct.md R272: the DCT checks in their order, each with its error, for all six commands; DCT_LEGACY takes N and K
from CFG_NFILT and CFG_NCEP. -/
def Obligations.DctChecksInOrder : Prop :=
  ∀ (s : State) (i : Instr),
    i ∈ [.dctBasis false, .dctBasis true, .dctOrth, .dct2, .idctOrth, .dct3, .dctLegacy] →
    let bad (code : ErrCode) (k : Nat) := exec i s = .next (s.errorComplete ⟨code, k, 0⟩)
    let basis := i ∈ [Instr.dctBasis false, .dctBasis true]
    let n := if i = .dctLegacy then s.cfg.nfilt.toNat else s.args[2].toNat
    let k := if i = .dctLegacy then s.cfg.ncep.toNat else s.args[3].toNat
    if n = 0 ∨ k = 0 then bad .invalidConfiguration 10
    else if s.caps.maxDct < n ∨ s.caps.maxDct < k then bad .capacityExceeded 11
    else if basis ∧ isFinite s.args[5] = false then bad .invalidConfiguration 12
    else if ¬ basis ∧ s.caps.dmemWords < s.args[0].toNat + s.args[4].toNat * n then bad .addressRange 13
    else if ¬ basis ∧ s.caps.dmemWords < s.args[1].toNat + s.args[4].toNat * k then bad .addressRange 14
    else ∀ t, exec i s = .next t → t.status.err = s.status.err

/-- 44_dct.md R271, R274: DCT_BASIS with sizes in range and a finite step writes the cosine basis to DCTM, its first
column over SQRT2 with ORTH, sets BASIS_TAG and BASIS_STEP and changes nothing else. Where x * (a + 1/2) overflows, that
column 0 holds what R271's formula gives (NaN) and not the 1.0 of its prose is the model's choice (log 21). -/
def Obligations.DctBasisWritesMatrix : Prop :=
  ∀ (s : State) (o : Bool),
    let n := s.args[2].toNat
    let k := s.args[3].toNat
    let x : F64 := s.args[5]
    n ≠ 0 → k ≠ 0 → n ≤ s.caps.maxDct → k ≤ s.caps.maxDct → isFinite x = true →
    ∃ t, exec (.dctBasis o) s = .next t ∧
      t = { s with
        bufs := { s.bufs with dctm := t.bufs.dctm }
        basisTag := ⟨.generic, o, BitVec.ofNat 16 n, BitVec.ofNat 16 k⟩
        basisStep := x
        status := { s.status with done := true, busy := false } } ∧
      (∀ a < n, ∀ b < k, t.peek .dctm (a * k + b) =
        some (let g := numerics.cos (fmul (fmul x (fadd (ofNat a) 0x3FE0000000000000#64)) (ofNat b))
          if o = true ∧ b = 0 then fdiv g 0x3FF6A09E667F3BCD#64 else g)) ∧
      ∀ j, n * k ≤ j → t.peek .dctm j = s.peek .dctm j

/-- 44_dct.md R273, R275, R276: DCT_ORTH and DCT2 with sizes in range, both ranges inside DMEM and every input word
written: each output is the dot product of an input row (as it was before the command) with a basis column, times the
scale; DCTM, BASIS_TAG and BASIS_STEP name the basis, and nothing else changes. -/
def Obligations.ForwardTransformResults : Prop :=
  ∀ (s : State) (orth : Bool) (input : Nat → F64),
    let src := s.args[0].toNat
    let dst := s.args[1].toNat
    let n := s.args[2].toNat
    let k := s.args[3].toNat
    let rows := s.args[4].toNat
    let step := fdiv 0x400921FB54442D18#64 (ofNat n)
    let basis : Nat → Nat → F64 := fun a b =>
      let g := numerics.cos (fmul (fmul step (fadd (ofNat a) 0x3FE0000000000000#64)) (ofNat b))
      if orth = true ∧ b = 0 then fdiv g 0x3FF6A09E667F3BCD#64 else g
    let scale := if orth then fsqrt (fdiv 0x4000000000000000#64 (ofNat n)) else fdiv 0x4000000000000000#64 (ofNat n)
    n ≠ 0 → k ≠ 0 → n ≤ s.caps.maxDct → k ≤ s.caps.maxDct →
    src + rows * n ≤ s.caps.dmemWords → dst + rows * k ≤ s.caps.dmemWords →
    (∀ j < rows * n, s.peek .dmem (src + j) = some (input j)) →
    ∃ t, exec (if orth then .dctOrth else .dct2) s = .next t ∧
      t = { s with
        bufs := { s.bufs with dctm := t.bufs.dctm }
        basisTag := ⟨if orth then .orth2 else .norm2, orth, BitVec.ofNat 16 n, BitVec.ofNat 16 k⟩
        basisStep := step
        dmem := t.dmem
        status := { s.status with done := true, busy := false } } ∧
      (∀ a < n, ∀ b < k, t.peek .dctm (a * k + b) = some (basis a b)) ∧
      (∀ j, n * k ≤ j → t.peek .dctm j = s.peek .dctm j) ∧
      (∀ m < rows, ∀ b < k, t.peek .dmem (dst + (m * k + b)) =
        some (fmul ((List.range n).foldl (fun acc a => fadd acc (fmul (input (m * n + a)) (basis a b))) 0#64)
          scale)) ∧
      (∀ a, (a < dst ∨ dst + rows * k ≤ a) → t.peek .dmem a = s.peek .dmem a)

/-- 44_dct.md R273, R277: IDCT_ORTH with sizes in range, both ranges inside DMEM and every input word written: the stored
basis is the transpose of dctMatrix(K, N, PI/K, 1), each output a dot product times sqrt(2/K); nothing else changes. -/
def Obligations.InverseOrthogonalResults : Prop :=
  ∀ (s : State) (input : Nat → F64),
    let src := s.args[0].toNat
    let dst := s.args[1].toNat
    let n := s.args[2].toNat
    let k := s.args[3].toNat
    let rows := s.args[4].toNat
    let step := fdiv 0x400921FB54442D18#64 (ofNat k)
    let basis : Nat → Nat → F64 := fun a b =>
      let g := numerics.cos (fmul (fmul step (fadd (ofNat b) 0x3FE0000000000000#64)) (ofNat a))
      if a = 0 then fdiv g 0x3FF6A09E667F3BCD#64 else g
    n ≠ 0 → k ≠ 0 → n ≤ s.caps.maxDct → k ≤ s.caps.maxDct →
    src + rows * n ≤ s.caps.dmemWords → dst + rows * k ≤ s.caps.dmemWords →
    (∀ j < rows * n, s.peek .dmem (src + j) = some (input j)) →
    ∃ t, exec .idctOrth s = .next t ∧
      t = { s with
        bufs := { s.bufs with dctm := t.bufs.dctm }
        basisTag := ⟨.orth3, true, BitVec.ofNat 16 n, BitVec.ofNat 16 k⟩
        basisStep := step
        dmem := t.dmem
        status := { s.status with done := true, busy := false } } ∧
      (∀ a < n, ∀ b < k, t.peek .dctm (a * k + b) = some (basis a b)) ∧
      (∀ j, n * k ≤ j → t.peek .dctm j = s.peek .dctm j) ∧
      (∀ m < rows, ∀ b < k, t.peek .dmem (dst + (m * k + b)) =
        some (fmul ((List.range n).foldl (fun acc a => fadd acc (fmul (input (m * n + a)) (basis a b))) 0#64)
          (fsqrt (fdiv 0x4000000000000000#64 (ofNat k))))) ∧
      (∀ a, (a < dst ∨ dst + rows * k ≤ a) → t.peek .dmem a = s.peek .dmem a)

/-- 44_dct.md R273, R278: DCT3 with sizes in range, both ranges inside DMEM and every input word written: the stored
basis is the transpose of dctMatrix(K, N, PI/K, 0) with its first column times 0.5, each output a dot product; nothing
else changes. -/
def Obligations.InverseUnorthogonalResults : Prop :=
  ∀ (s : State) (input : Nat → F64),
    let src := s.args[0].toNat
    let dst := s.args[1].toNat
    let n := s.args[2].toNat
    let k := s.args[3].toNat
    let rows := s.args[4].toNat
    let step := fdiv 0x400921FB54442D18#64 (ofNat k)
    let basis : Nat → Nat → F64 := fun a b =>
      let g := numerics.cos (fmul (fmul step (fadd (ofNat b) 0x3FE0000000000000#64)) (ofNat a))
      if a = 0 then fmul g 0x3FE0000000000000#64 else g
    n ≠ 0 → k ≠ 0 → n ≤ s.caps.maxDct → k ≤ s.caps.maxDct →
    src + rows * n ≤ s.caps.dmemWords → dst + rows * k ≤ s.caps.dmemWords →
    (∀ j < rows * n, s.peek .dmem (src + j) = some (input j)) →
    ∃ t, exec .dct3 s = .next t ∧
      t = { s with
        bufs := { s.bufs with dctm := t.bufs.dctm }
        basisTag := ⟨.norm3, false, BitVec.ofNat 16 n, BitVec.ofNat 16 k⟩
        basisStep := step
        dmem := t.dmem
        status := { s.status with done := true, busy := false } } ∧
      (∀ a < n, ∀ b < k, t.peek .dctm (a * k + b) = some (basis a b)) ∧
      (∀ j, n * k ≤ j → t.peek .dctm j = s.peek .dctm j) ∧
      (∀ m < rows, ∀ b < k, t.peek .dmem (dst + (m * k + b)) =
        some ((List.range n).foldl (fun acc a => fadd acc (fmul (input (m * n + a)) (basis a b))) 0#64)) ∧
      (∀ a, (a < dst ∨ dst + rows * k ≤ a) → t.peek .dmem a = s.peek .dmem a)

/-- 44_dct.md R273, R279: DCT_LEGACY takes N = CFG_NFILT and K = CFG_NCEP, stores the K x N legacy basis with row 0 times
0.5, and writes for each row the dot products over N; nothing else changes. -/
def Obligations.LegacyTransformResults : Prop :=
  ∀ (s : State) (input : Nat → F64),
    let src := s.args[0].toNat
    let dst := s.args[1].toNat
    let n := s.cfg.nfilt.toNat
    let k := s.cfg.ncep.toNat
    let rows := s.args[4].toNat
    let basis : Nat → Nat → F64 := fun i j =>
      let g := numerics.cos (fmul (fdiv (fmul 0x400921FB54442D18#64 (ofNat i)) (ofNat n))
        (fadd (ofNat j) 0x3FE0000000000000#64))
      if i = 0 then fmul g 0x3FE0000000000000#64 else g
    n ≠ 0 → k ≠ 0 → n ≤ s.caps.maxDct → k ≤ s.caps.maxDct →
    src + rows * n ≤ s.caps.dmemWords → dst + rows * k ≤ s.caps.dmemWords →
    (∀ j < rows * n, s.peek .dmem (src + j) = some (input j)) →
    ∃ t, exec .dctLegacy s = .next t ∧
      t = { s with
        bufs := { s.bufs with dctm := t.bufs.dctm }
        basisTag := ⟨.legacy, false, BitVec.ofNat 16 k, BitVec.ofNat 16 n⟩
        basisStep := 0#64
        dmem := t.dmem
        status := { s.status with done := true, busy := false } } ∧
      (∀ i < k, ∀ j < n, t.peek .dctm (i * n + j) = some (basis i j)) ∧
      (∀ j, k * n ≤ j → t.peek .dctm j = s.peek .dctm j) ∧
      (∀ m < rows, ∀ i < k, t.peek .dmem (dst + (m * k + i)) =
        some (fdiv ((List.range n).foldl (fun acc j => fadd acc (fmul (input (m * n + j)) (basis i j))) 0#64)
          (ofNat n))) ∧
      (∀ a, (a < dst ∨ dst + rows * k ≤ a) → t.peek .dmem a = s.peek .dmem a)

/-! ### Arithmetic -/

/-- 00_scope.md R12: every NaN an operation or a numerics function produces or passes on is the canonical NaN, and a NaN
operand propagates as it; a copied value that is no NaN keeps its bits. -/
def Obligations.EveryNaNIsCanonical : Prop :=
  (∀ a b : F64, ∀ r ∈ [fadd a b, fsub a b, fmul a b, fdiv a b, fsqrt a, numerics.log10 a, numerics.pow10 a,
      numerics.ln a, numerics.cos a, canonical a], isNaN r = true → r = 0x7FF8000000000000#64) ∧
  (∀ a b : F64, isNaN a = true ∨ isNaN b = true →
    ∀ r ∈ [fadd a b, fsub a b, fmul a b, fdiv a b], r = 0x7FF8000000000000#64) ∧
  (∀ a : F64, isNaN a = true → ∀ r ∈ [fsqrt a, numerics.log10 a, numerics.pow10 a, numerics.ln a, numerics.cos a],
    r = 0x7FF8000000000000#64) ∧
  (∀ (len : Nat) (x : List F64) (b : Nat), ∀ r ∈ [(numerics.rdft len x b).1, (numerics.rdft len x b).2],
    isNaN r = true → r = 0x7FF8000000000000#64) ∧
  (∀ a : F64, isNaN a = false → canonical a = a)

/-- 00_scope.md R13: floor(x) is the greatest integer not above x, and rha(x) rounds to nearest with halves away from
zero, on the exact value of a finite x. R14: the three comparisons are false with a NaN operand, follow the exact values
of finite operands (so -0.0 equals +0.0), and have the infinities at the two ends; isNaN and isFinite by the fields of
the encoding. -/
def Obligations.IntegerRoundingIsExact : Prop :=
  (∀ x : F64, isFinite x = true →
    floorInt x = ⌊valueOf x⌋ ∧
    (0 ≤ valueOf x → rha x = ⌊valueOf x + 1 / 2⌋) ∧
    (valueOf x < 0 → rha x = -⌊-valueOf x + 1 / 2⌋)) ∧
  (∀ a b : F64, isNaN a = true ∨ isNaN b = true → flt a b = false ∧ fle a b = false ∧ feq a b = false) ∧
  (∀ a b : F64, isFinite a = true → isFinite b = true →
    (flt a b = true ↔ valueOf a < valueOf b) ∧ (fle a b = true ↔ valueOf a ≤ valueOf b) ∧
    (feq a b = true ↔ valueOf a = valueOf b)) ∧
  (∀ a : F64, isNaN a = false →
    let posInf : F64 := 0x7FF0000000000000#64
    let negInf : F64 := 0xFFF0000000000000#64
    (flt a posInf = true ↔ a ≠ posInf) ∧ fle a posInf = true ∧ (feq a posInf = true ↔ a = posInf) ∧
    flt posInf a = false ∧ (fle posInf a = true ↔ a = posInf) ∧ (feq posInf a = true ↔ a = posInf) ∧
    (flt negInf a = true ↔ a ≠ negInf) ∧ fle negInf a = true ∧ (feq negInf a = true ↔ a = negInf) ∧
    flt a negInf = false ∧ (fle a negInf = true ↔ a = negInf) ∧ (feq a negInf = true ↔ a = negInf)) ∧
  (∀ a : F64, let exponent := a.toNat / 2 ^ 52 % 2 ^ 11
    (isNaN a = true ↔ exponent = 2047 ∧ a.toNat % 2 ^ 52 ≠ 0) ∧ (isFinite a = true ↔ exponent ≠ 2047))

/-- 00_scope.md R11, R10: sum, difference, product, quotient, square root and the conversion of an integer round once, to
nearest, ties to even, and overflow to a correctly signed infinity from 2^1024 - 2^970 on; and the cases without an
exact value: infinities, division by zero, exact zeros with their signs, the root of a negative value. -/
def Obligations.ArithmeticRoundsToNearest : Prop :=
  let nan : F64 := 0x7FF8000000000000#64
  let inf (negative : Bool) : F64 := if negative then 0xFFF0000000000000#64 else 0x7FF0000000000000#64
  let zero (negative : Bool) : F64 := if negative then 0x8000000000000000#64 else 0x0000000000000000#64
  (∀ a b : F64, isFinite a = true → isFinite b = true →
    RoundsTo (fadd a b) (realOf a + realOf b) ∧ RoundsTo (fsub a b) (realOf a - realOf b) ∧
    RoundsTo (fmul a b) (realOf a * realOf b) ∧ (isZero b = false → RoundsTo (fdiv a b) (realOf a / realOf b)) ∧
    (realOf a + realOf b = 0 → fadd a b = zero (signOf a && signOf b)) ∧
    (realOf a = realOf b → fsub a b = zero (signOf a && !signOf b)) ∧
    (isZero a = true ∨ isZero b = true → fmul a b = zero (signOf a ^^ signOf b)) ∧
    (isZero b = true → fdiv a b = if isZero a then nan else inf (signOf a ^^ signOf b)) ∧
    (isZero a = true → isZero b = false → fdiv a b = zero (signOf a ^^ signOf b))) ∧
  (∀ n : Int, RoundsTo (ofInt n) n) ∧
  (∀ a : F64, isFinite a = true → 0 ≤ realOf a → RoundsTo (fsqrt a) (Real.sqrt (realOf a))) ∧
  (∀ a b : F64, isInf a = true → isNaN b = false →
    fadd a b = (if isInf b = true ∧ signOf a ≠ signOf b then nan else inf (signOf a)) ∧
    fadd b a = (if isInf b = true ∧ signOf a ≠ signOf b then nan else inf (signOf a)) ∧
    fsub a b = (if isInf b = true ∧ signOf a = signOf b then nan else inf (signOf a)) ∧
    fsub b a = (if isInf b = true ∧ signOf a = signOf b then nan else inf (!signOf a)) ∧
    fmul a b = (if isZero b then nan else inf (signOf a ^^ signOf b)) ∧
    fmul b a = (if isZero b then nan else inf (signOf a ^^ signOf b)) ∧
    fdiv a b = (if isInf b then nan else inf (signOf a ^^ signOf b)) ∧
    (isFinite b = true → fdiv b a = zero (signOf a ^^ signOf b))) ∧
  (∀ a : F64, isZero a = true → fsqrt a = a) ∧ fsqrt (inf false) = inf false ∧
  (∀ a : F64, isNaN a = false → isZero a = false → signOf a = true → fsqrt a = nan)
end

