-- ==== Sys2Proof/Laws/Memory.lean ====
section
/-! SUPPORT. What the memory operations do, said once: reading after a write, the canonical form and the capacity
they keep, what a range read answers, and the words of a row-major matrix. -/

namespace Sys2Proof.Machine

@[simp] theorem Memory.read_nil (i : Nat) : Memory.read [] i = none := rfl

theorem Memory.read_cons (a : Nat) (v : Word) (m : Memory) (i : Nat) :
    Memory.read ((a, v) :: m) i = if a = i then some v else m.read i := rfl

theorem Memory.read_append (m₁ m₂ : Memory) (i : Nat) :
    Memory.read (m₁ ++ m₂) i = (m₁.read i).or (m₂.read i) := by
  induction m₁ with
  | nil => simp
  | cons p rest ih =>
    obtain ⟨a, v⟩ := p
    simp only [List.cons_append, Memory.read_cons, ih]
    split <;> simp

theorem Memory.read_filter (p : Nat → Bool) (m : Memory) (i : Nat) :
    Memory.read (m.filter (fun c => p c.1)) i = if p i then m.read i else none := by
  induction m with
  | nil => simp
  | cons c rest ih =>
    obtain ⟨a, v⟩ := c
    by_cases hp : p a = true
    · simp only [List.filter_cons, hp, if_true, Memory.read_cons, ih]
      by_cases ha : a = i
      · subst ha; simp [hp]
      · simp [ha]
    · have hf : p a = false := by simpa using hp
      simp only [List.filter_cons, hf, Bool.false_eq_true, if_false, Memory.read_cons]
      rw [ih]
      by_cases ha : a = i
      · subst ha; simp [hf]
      · simp [ha]

theorem Memory.read_block (base : Nat) (vals : List Word) (i : Nat) :
    (Memory.block base vals).read i = if base ≤ i then vals[i - base]? else none := by
  induction vals generalizing base with
  | nil => simp [Memory.block]
  | cons v vs ih =>
    simp only [Memory.block, Memory.read_cons, ih]
    rcases Nat.lt_trichotomy base i with h | h | h
    · have e : i - base = (i - (base + 1)) + 1 := by omega
      simp [show base ≠ i by omega, show base + 1 ≤ i by omega, show base ≤ i by omega, e]
    · subst h; simp
    · simp [show base ≠ i by omega, show ¬ base + 1 ≤ i by omega, show ¬ base ≤ i by omega]

/-- Reading after a write: inside the stored words the new value, outside them the old one. -/
theorem Memory.read_write (m : Memory) (base : Nat) (vals : List Word) (i : Nat) :
    (m.write base vals).read i =
      if base ≤ i ∧ i < base + vals.length then vals[i - base]? else m.read i := by
  simp only [Memory.write, Memory.read_append, Memory.read_block,
    Memory.read_filter (fun a => decide (a < base)),
    Memory.read_filter (fun a => decide (base + vals.length ≤ a)), decide_eq_true_eq]
  rcases Nat.lt_or_ge i base with h | h
  · simp [h, show ¬ base ≤ i by omega, show ¬ base + vals.length ≤ i by omega]
  · rcases Nat.lt_or_ge i (base + vals.length) with h2 | h2
    · have : i - base < vals.length := by omega
      simp [h, h2, show ¬ i < base by omega, show ¬ base + vals.length ≤ i by omega, this]
    · simp [h, show ¬ i < base by omega, h2, show ¬ i < base + vals.length by omega,
        List.getElem?_eq_none (show vals.length ≤ i - base by omega)]

theorem Memory.read_write_outside (m : Memory) (base : Nat) (vals : List Word) (i : Nat)
    (h : i < base ∨ base + vals.length ≤ i) : (m.write base vals).read i = m.read i := by
  rw [Memory.read_write, if_neg (by omega)]

theorem Memory.read_write_inside (m : Memory) (base : Nat) (vals : List Word) (k : Nat) (h : k < vals.length) :
    (m.write base vals).read (base + k) = some vals[k] := by
  rw [Memory.read_write, if_pos (by omega)]
  simp [h]

theorem Memory.block_bounds {base : Nat} {vals : List Word} {p : Nat × Word} (h : p ∈ Memory.block base vals) :
    base ≤ p.1 ∧ p.1 < base + vals.length := by
  induction vals generalizing base with
  | nil => simp [Memory.block] at h
  | cons v vs ih =>
    simp only [Memory.block, List.mem_cons] at h
    rcases h with rfl | h
    · simp
    · have := ih h
      simp only [List.length_cons]
      omega

theorem Memory.block_wf (base : Nat) (vals : List Word) : (Memory.block base vals).wf := by
  induction vals generalizing base with
  | nil => exact List.Pairwise.nil
  | cons v vs ih =>
    refine List.pairwise_cons.mpr ⟨fun p hp => ?_, ih (base + 1)⟩
    have := Memory.block_bounds hp
    show base < p.1
    omega

/-- A write keeps the canonical form. -/
theorem Memory.write_wf {m : Memory} (h : m.wf) (base : Nat) (vals : List Word) : (m.write base vals).wf := by
  unfold Memory.write
  refine List.pairwise_append.mpr ⟨List.pairwise_append.mpr ⟨h.filter _, Memory.block_wf base vals, ?_⟩,
    h.filter _, ?_⟩
  · intro a ha b hb
    have h1 := (List.mem_filter.mp ha).2
    have h2 := Memory.block_bounds hb
    simp only [decide_eq_true_eq] at h1
    omega
  · intro a ha b hb
    have h2 := (List.mem_filter.mp hb).2
    simp only [decide_eq_true_eq] at h2
    rcases List.mem_append.mp ha with ha | ha
    · have h1 := (List.mem_filter.mp ha).2
      simp only [decide_eq_true_eq] at h1
      omega
    · have h1 := Memory.block_bounds ha
      omega

/-- A write within the capacity keeps a memory within it. -/
theorem Memory.write_within {cap : Nat} {m : Memory} (h : m.within cap) {base : Nat} {vals : List Word}
    (hb : base + vals.length ≤ cap ∨ vals = []) : (m.write base vals).within cap := by
  intro p hp
  simp only [Memory.write, List.mem_append, List.mem_filter] at hp
  rcases hp with (⟨hp, -⟩ | hp) | ⟨hp, -⟩
  · exact h p hp
  · have := Memory.block_bounds hp
    rcases hb with hb | rfl
    · omega
    · simp [Memory.block] at hp
  · exact h p hp

/-- Two canonical memories that read alike everywhere are equal. -/
theorem Memory.ext_of_wf {m₁ m₂ : Memory} (h₁ : m₁.wf) (h₂ : m₂.wf) (h : ∀ i, m₁.read i = m₂.read i) :
    m₁ = m₂ := by
  have none_below : ∀ {m : Memory} {k : Nat}, (∀ p ∈ m, k < p.1) → ∀ i ≤ k, m.read i = none := by
    intro m k hm i hi
    induction m with
    | nil => rfl
    | cons p rest ih =>
      obtain ⟨a, v⟩ := p
      have := hm (a, v) (by simp)
      rw [Memory.read_cons, if_neg (by simp at this; omega)]
      exact ih (fun q hq => hm q (by simp [hq]))
  induction m₁ generalizing m₂ with
  | nil =>
    cases m₂ with
    | nil => rfl
    | cons q rest => obtain ⟨b, w⟩ := q; have := h b; simp [Memory.read_cons] at this
  | cons p rest ih =>
    obtain ⟨a, v⟩ := p
    obtain ⟨ha, hr⟩ := List.pairwise_cons.mp h₁
    cases m₂ with
    | nil => have := h a; simp [Memory.read_cons] at this
    | cons q rest₂ =>
      obtain ⟨b, w⟩ := q
      obtain ⟨hb, hr₂⟩ := List.pairwise_cons.mp h₂
      have hab : a = b := by
        by_contra hne
        rcases Nat.lt_or_ge a b with hlt | hge
        · have := h a
          rw [Memory.read_cons, if_pos rfl, Memory.read_cons, if_neg (by omega),
            none_below hb a (by simp; omega)] at this
          simp at this
        · have := h b
          rw [Memory.read_cons, if_neg (by omega), none_below ha b (by simp; omega),
            Memory.read_cons, if_pos rfl] at this
          simp at this
      subst hab
      have hv : v = w := by have := h a; simpa [Memory.read_cons] using this
      subst hv
      have : rest = rest₂ := by
        refine ih hr hr₂ (fun i => ?_)
        by_cases hi : a = i
        · subst hi
          rw [none_below ha a (le_refl _), none_below hb a (le_refl _)]
        · have := h i
          rwa [Memory.read_cons, if_neg hi, Memory.read_cons, if_neg hi] at this
      rw [this]

/-! ### Range reads -/

theorem readWord_ok_iff (sp : Space) (m : Memory) (i : Nat) (v : Word) :
    readWord sp m i = .ok v ↔ m.read i = some v := by
  unfold readWord
  cases m.read i <;> simp

/-- A range read answers exactly the words of the range, all of them written. -/
theorem readRange_ok_iff (sp : Space) (m : Memory) (base n : Nat) (vs : List Word) :
    readRange sp m base n = .ok vs ↔ vs.length = n ∧ ∀ i, i < n → m.read (base + i) = vs[i]? := by
  induction n generalizing base vs with
  | zero =>
    simp only [readRange, Except.ok.injEq]
    constructor
    · rintro rfl; simp
    · rintro ⟨h, -⟩; exact (List.eq_nil_of_length_eq_zero h).symm
  | succ n ih =>
    unfold readRange readWord
    cases hr : m.read base with
    | none =>
      simp only [reduceCtorEq, false_iff]
      rintro ⟨hl, h⟩
      have := h 0 (by omega)
      rw [Nat.add_zero, hr, List.getElem?_eq_getElem (by omega)] at this
      simp at this
    | some v =>
      simp only
      cases hr2 : readRange sp m (base + 1) n with
      | error f =>
        simp only [reduceCtorEq, false_iff]
        rintro ⟨hl, h⟩
        have : readRange sp m (base + 1) n = .ok vs.tail := by
          refine (ih (base + 1) vs.tail).mpr ⟨by simp [hl], fun i hi => ?_⟩
          have := h (i + 1) (by omega)
          rw [show base + 1 + i = base + (i + 1) by omega, this]
          simp
        rw [hr2] at this
        simp at this
      | ok ws =>
        have hw := (ih (base + 1) ws).mp hr2
        simp only [Except.ok.injEq]
        constructor
        · rintro rfl
          refine ⟨by simp [hw.1], fun i hi => ?_⟩
          cases i with
          | zero => simp [hr]
          | succ i =>
            have := hw.2 i (by omega)
            rw [show base + (i + 1) = base + 1 + i by omega, this]
            simp
        · rintro ⟨hl, h⟩
          refine List.ext_getElem? (fun i => ?_)
          cases i with
          | zero => have := h 0 (by omega); rw [Nat.add_zero, hr] at this; simpa using this
          | succ i =>
            rcases Nat.lt_or_ge i n with hi | hi
            · have h1 := h (i + 1) (by omega)
              have h2 := hw.2 i hi
              rw [show base + (i + 1) = base + 1 + i by omega, h2] at h1
              simpa using h1
            · rw [List.getElem?_eq_none (by simp; omega), List.getElem?_eq_none (by omega)]

/-- A range read faults only at a word of the range that is unwritten. -/
theorem readRange_error {sp : Space} {m : Memory} {base n : Nat} {f : Fault}
    (h : readRange sp m base n = .error f) :
    ∃ i, i < n ∧ f = .readUnwritten sp (base + i) ∧ m.read (base + i) = none := by
  induction n generalizing base f with
  | zero => simp [readRange] at h
  | succ n ih =>
    unfold readRange readWord at h
    cases hr : m.read base with
    | none =>
      rw [hr] at h
      simp only [Except.error.injEq] at h
      exact ⟨0, by omega, h.symm, hr⟩
    | some v =>
      rw [hr] at h
      simp only at h
      cases hr2 : readRange sp m (base + 1) n with
      | ok ws => rw [hr2] at h; simp at h
      | error g =>
        rw [hr2] at h
        simp only [Except.error.injEq] at h
        obtain ⟨i, hi, hf, hn⟩ := ih hr2
        refine ⟨i + 1, by omega, ?_, ?_⟩
        · rw [← h, hf, show base + 1 + i = base + (i + 1) by omega]
        · rw [show base + (i + 1) = base + 1 + i by omega]; exact hn

/-- Where every word of the range is written, a range read answers. -/
theorem readRange_of_written {sp : Space} {m : Memory} {base n : Nat}
    (h : ∀ i, i < n → (m.read (base + i)).isSome = true) : ∃ vs, readRange sp m base n = .ok vs := by
  cases hr : readRange sp m base n with
  | ok vs => exact ⟨vs, rfl⟩
  | error f =>
    obtain ⟨i, hi, -, hn⟩ := readRange_error hr
    have := h i hi
    rw [hn] at this
    simp at this

/-- A range read depends on the words of the range only. -/
theorem readRange_congr {sp : Space} {m₁ m₂ : Memory} {base n : Nat}
    (h : ∀ i, i < n → m₁.read (base + i) = m₂.read (base + i)) :
    readRange sp m₁ base n = readRange sp m₂ base n := by
  induction n generalizing base with
  | zero => rfl
  | succ n ih =>
    have h0 := h 0 (by omega)
    rw [Nat.add_zero] at h0
    have h1 : readRange sp m₁ (base + 1) n = readRange sp m₂ (base + 1) n := by
      refine ih (fun i hi => ?_)
      have := h (i + 1) (by omega)
      rwa [show base + (i + 1) = base + 1 + i by omega] at this
    unfold readRange readWord
    rw [h0, h1]

/-! ### Row-major words -/

/-- A range whose words are the values of `f` reads as those values. -/
theorem readRange_of_values {sp : Space} {m : Memory} {base n : Nat} {f : Nat → Word}
    (h : ∀ i < n, m.read (base + i) = some (f i)) : readRange sp m base n = .ok ((List.range n).map f) := by
  rw [readRange_ok_iff]
  refine ⟨by simp, fun i hi => ?_⟩
  rw [h i hi]
  simp [hi]

/-- The words after `n` values of `f` are stored from `base` on. -/
theorem Memory.read_write_values (m : Memory) (base n : Nat) (f : Nat → Word) (i : Nat) :
    (m.write base ((List.range n).map f)).read i =
      if base ≤ i ∧ i < base + n then some (f (i - base)) else m.read i := by
  rw [Memory.read_write]
  simp only [List.length_map, List.length_range]
  split
  · rw [List.getElem?_map, List.getElem?_range (by omega)]
    rfl
  · rfl

theorem rowMajor_succ (rows cols : Nat) (f : Nat → Nat → F64) :
    rowMajor (rows + 1) cols f = rowMajor rows cols f ++ (List.range cols).map (fun c => f rows c) := by
  simp [rowMajor, List.range_succ]

@[simp] theorem rowMajor_length (rows cols : Nat) (f : Nat → Nat → F64) :
    (rowMajor rows cols f).length = rows * cols := by
  induction rows with
  | zero => simp [rowMajor]
  | succ r ih => rw [rowMajor_succ, List.length_append, ih]; simp [Nat.succ_mul]

/-- Entry (r, c) of a row-major matrix is word r*C + c (00_scope.md R17). -/
theorem rowMajor_getElem? (rows cols : Nat) (f : Nat → Nat → F64) {r c : Nat} (hr : r < rows) (hc : c < cols) :
    (rowMajor rows cols f)[r * cols + c]? = some (f r c) := by
  induction rows with
  | zero => omega
  | succ n ih =>
    rw [rowMajor_succ]
    rcases Nat.lt_or_ge r n with h | h
    · have hlt : r * cols + c < n * cols := by
        calc r * cols + c < r * cols + cols := by omega
          _ = (r + 1) * cols := by rw [Nat.succ_mul]
          _ ≤ n * cols := Nat.mul_le_mul_right _ h
      rw [List.getElem?_append_left (by rw [rowMajor_length]; exact hlt)]
      exact ih h
    · have : r = n := by omega
      subst this
      rw [List.getElem?_append_right (by rw [rowMajor_length]; omega), rowMajor_length]
      simp [hc]

/-- Entry (r, c) of a matrix stored from `base` on. -/
theorem Memory.read_write_rowMajor (m : Memory) (base rows cols : Nat) (f : Nat → Nat → F64) {r c : Nat}
    (hr : r < rows) (hc : c < cols) :
    (m.write base (rowMajor rows cols f)).read (base + (r * cols + c)) = some (f r c) := by
  have hb : r * cols + c < rows * cols := by
    have : (r + 1) * cols ≤ rows * cols := Nat.mul_le_mul_right _ hr
    rw [Nat.add_mul, Nat.one_mul] at this
    omega
  rw [Memory.read_write, rowMajor_length, if_pos (by omega), Nat.add_sub_cancel_left]
  exact rowMajor_getElem? rows cols f hr hc

end Sys2Proof.Machine
end

