-- ==== Sys2Proof/Laws/Bus.lean ====
section
/-! SUPPORT. The address map, said once: what is at a register's address, at a window word's address, and at an
address that is neither (20_memory.md R85 to R90). -/

namespace Sys2Proof.Machine

/-- A register that exists is at its own address. -/
theorem locate_register (caps : Caps) (r : Reg) (h : r.mapped caps = true) :
    locate caps (AsmTarget.reg r).address 8 = some (.reg r) := by
  cases r with
  | cap c => cases c <;> rfl
  | cfg c => cases c <;> rfl
  | arg k => fin_cases k <;> rfl
  | prior c =>
    have hc : ∀ c : Ctx, c = 0#2 ∨ c = 1#2 ∨ c = 2#2 ∨ c = 3#2 := by decide
    have hn : c.toNat < caps.numCtx := by simpa [Reg.mapped] using h
    rcases hc c with rfl | rfl | rfl | rfl
    all_goals
      simp only [locate, registerAt, registerMap, AsmTarget.address, Reg.address]
      simp [Reg.mapped]
      simp at hn
      omega
  | _ => rfl

/-- The capacity of every window fits its place in the map (00_scope.md R6, 20_memory.md R88). -/
theorem Space.capacity_le (caps : Caps) (h : caps.Legal) (sp : Space) :
    sp.capacity caps ≤ (match sp with
      | .fb => 524288
      | .dctm => 65536
      | .dmem => 1048576
      | _ => 4096) := by
  obtain ⟨⟨_, hd⟩, ⟨_, _, _, hn⟩, ⟨_, hf⟩, ⟨_, hm⟩, ⟨_, hk⟩, _, hfb⟩ := h
  cases sp <;> simp only [Space.capacity] <;> try omega
  exact Nat.mul_le_mul hk hk

/-- Word w of a window is at its base plus 8w (20_memory.md R88). -/
theorem locate_word (caps : Caps) (h : caps.Legal) (sp : Space) (w : Nat) (hw : w < sp.capacity caps) :
    locate caps (AsmTarget.word sp w).address 8 = some (.word sp w) := by
  have hc := Space.capacity_le caps h sp
  have ha : ∀ b, b + 8 * w < 2 ^ 24 → (BitVec.ofNat 24 (b + 8 * w)).toNat = b + 8 * w := by
    intro b hb
    rw [BitVec.toNat_ofNat, Nat.mod_eq_of_lt hb]
  have key : ∀ b, b % 8 = 0 → 4096 ≤ b → b + 8 * w < 2 ^ 24 → windowAt caps (b + 8 * w) = some (.word sp w) →
      locate caps (BitVec.ofNat 24 (b + 8 * w)) 8 = some (.word sp w) := by
    intro b h8 h4 hb hwin
    unfold locate
    rw [ha b hb, if_neg (by omega), if_neg (by omega), hwin]
  have win : ∀ (b e : Nat) (k : Nat), windowMap = windowMap.take k ++ (b, e, sp) :: windowMap.drop (k + 1) →
      b + 8 * w ≤ e → (∀ row ∈ windowMap.take k, row.2.1 < b) → windowAt caps (b + 8 * w) = some (.word sp w) := by
    intro b e k hsplit he hbefore
    have hf : windowMap.find? (fun row => decide (row.1 ≤ b + 8 * w) && decide (b + 8 * w ≤ row.2.1)) =
        some (b, e, sp) := by
      rw [List.find?_eq_some_iff_append]
      refine ⟨by simp [he], _, _, hsplit, ?_⟩
      intro row hrow
      have := hbefore row hrow
      simp only [Bool.not_eq_true', Bool.and_eq_false_iff, decide_eq_false_iff_not]
      omega
    unfold windowAt
    rw [hf]
    have hq : (b + 8 * w - b) / 8 = w := by omega
    simp only [hq, if_pos hw]
  have place : ∀ (b e : Nat) (k : Nat), windowMap = windowMap.take k ++ (b, e, sp) :: windowMap.drop (k + 1) →
      (∀ row ∈ windowMap.take k, row.2.1 < b) → b % 8 = 0 → 4096 ≤ b → e < 2 ^ 24 → b + 8 * w ≤ e →
      locate caps (BitVec.ofNat 24 (b + 8 * w)) 8 = some (.word sp w) :=
    fun b e k hsplit hbefore h8 h4 he hw' =>
      key b h8 h4 (lt_of_le_of_lt hw' he) (win b e k hsplit hw' hbefore)
  cases sp <;> simp only at hc
  · exact place 0x010000 0x017FFF 0 rfl (by decide) (by decide) (by decide) (by decide) (by omega)
  · exact place 0x018000 0x01FFFF 1 rfl (by decide) (by decide) (by decide) (by decide) (by omega)
  · exact place 0x020000 0x027FFF 2 rfl (by decide) (by decide) (by decide) (by decide) (by omega)
  · exact place 0x040000 0x047FFF 3 rfl (by decide) (by decide) (by decide) (by decide) (by omega)
  · exact place 0x048000 0x04FFFF 4 rfl (by decide) (by decide) (by decide) (by decide) (by omega)
  · exact place 0x050000 0x057FFF 5 rfl (by decide) (by decide) (by decide) (by decide) (by omega)
  · exact place 0x058000 0x05FFFF 6 rfl (by decide) (by decide) (by decide) (by decide) (by omega)
  · exact place 0x060000 0x067FFF 7 rfl (by decide) (by decide) (by decide) (by decide) (by omega)
  · exact place 0x080000 0x0FFFFF 8 rfl (by decide) (by decide) (by decide) (by decide) (by omega)
  · exact place 0x100000 0x4FFFFF 9 rfl (by decide) (by decide) (by decide) (by decide) (by omega)
  · exact place 0x800000 0xFFFFFF 10 rfl (by decide) (by decide) (by decide) (by decide) (by omega)

/-- Where a location is found, it is a register of the map at its address, or a word of a window at its address. -/
theorem of_locate {caps : Caps} {a : HostAddr} {size : Nat} {loc : Location} (h : locate caps a size = some loc) :
    a.toNat % 8 = 0 ∧ size = 8 ∧
    ((∃ r, loc = .reg r ∧ (a.toNat, r) ∈ registerMap ∧ r.mapped caps = true) ∨
     ∃ row ∈ windowMap, ∃ w, loc = .word row.2.2 w ∧ w < row.2.2.capacity caps ∧ a.toNat = row.1 + 8 * w) := by
  unfold locate at h
  split_ifs at h with h1 h2
  all_goals rw [not_or, not_not, not_not] at h1
  · refine ⟨h1.1, h1.2, .inl ?_⟩
    simp only [Option.map_eq_some_iff] at h
    obtain ⟨r, hr, rfl⟩ := h
    unfold registerAt at hr
    split at hr
    · rename_i row hrow
      have hm := List.mem_of_find?_eq_some hrow
      have hn := List.find?_some hrow
      simp only [beq_iff_eq] at hn
      split_ifs at hr with hmap
      simp only [Option.some.injEq] at hr
      subst hr
      exact ⟨_, rfl, by rw [← hn]; exact hm, hmap⟩
    · cases hr
  · refine ⟨h1.1, h1.2, .inr ?_⟩
    unfold windowAt at h
    split at h
    · rename_i row hrow
      have hm := List.mem_of_find?_eq_some hrow
      have hn := List.find?_some hrow
      split_ifs at h with hcap
      simp only [Option.some.injEq] at h
      subst h
      refine ⟨row, hm, _, rfl, hcap, ?_⟩
      simp only [Bool.and_eq_true, decide_eq_true_eq] at hn
      have h8 : ∀ row ∈ windowMap, row.1 % 8 = 0 := by decide
      have := h8 row hm
      omega
    · cases h

end Sys2Proof.Machine
end

