-- ==== Sys2Proof/Laws/Decode.lean ====
section
/-! SUPPORT. Decoding, said once: which words decode and to what, which check rejects a word, and a word as its
fields. -/

namespace Sys2Proof

/-- A word decodes exactly when it passes the six checks of 30_encoding.md R114. -/
theorem decode_ok_iff (numCtx : Nat) (d : Word) (i : Instr) :
    decode numCtx d = .ok i ↔
      highWordField d = 0#32 ∧ ∃ op, opcodeAt (opcodeField d) = some op ∧
        reservedLowField d = 0#6 ∧ reservedHighField d = 0#15 ∧
        (op.usesCtx = false → ctxField d = 0#2) ∧ (op.usesCtx = true → (ctxField d).toNat < numCtx) ∧
        (op.usesOrth = false → orthField d = false) ∧ i = op.withFields (ctxField d) (orthField d) := by
  unfold decode
  by_cases h1 : highWordField d = 0#32
  · rw [if_neg (by simp [h1])]
    cases h2 : opcodeAt (opcodeField d) with
    | none => simp
    | some op =>
      by_cases h3 : reservedLowField d ≠ 0#6 ∨ reservedHighField d ≠ 0#15
      · simp only [if_pos h3, reduceCtorEq, false_iff, not_and, not_exists]
        intro _ op' ho r1 r2
        rcases h3 with h | h <;> contradiction
      · simp only [if_neg h3]
        rw [not_or, not_not, not_not] at h3
        by_cases h4 : ctxField d ≠ 0#2 ∧ op.usesCtx = false
        · simp only [if_pos h4, reduceCtorEq, false_iff, not_and, not_exists]
          intro _ op' ho _ _ hc
          cases ho
          exact absurd (hc h4.2) h4.1
        · simp only [if_neg h4]
          by_cases h5 : op.usesCtx = true ∧ numCtx ≤ (ctxField d).toNat
          · simp only [if_pos h5, reduceCtorEq, false_iff, not_and, not_exists]
            intro _ op' ho _ _ _ hc
            cases ho
            exact absurd (hc h5.1) (by omega)
          · simp only [if_neg h5]
            by_cases h6 : orthField d = true ∧ op.usesOrth = false
            · simp only [if_pos h6, reduceCtorEq, false_iff, not_and, not_exists]
              intro _ op' ho _ _ _ _ hc
              cases ho
              rw [hc h6.2] at h6
              exact absurd h6.1 (by decide)
            · simp only [if_neg h6, Except.ok.injEq]
              constructor
              · intro hi
                refine ⟨h1, op, rfl, h3.1, h3.2, fun hc => ?_, fun hc => ?_, fun hc => ?_, hi.symm⟩
                · by_contra hne
                  exact h4 ⟨hne, hc⟩
                · by_contra hne
                  exact h5 ⟨hc, by omega⟩
                · by_contra hne
                  exact h6 ⟨by simpa using hne, hc⟩
              · rintro ⟨_, op', ho, _, _, _, _, _, hi⟩
                cases ho
                exact hi.symm
  · simp [h1]

/-- A word as its fields (30_encoding.md R110). -/
theorem word_toNat (d : Word) :
    d.toNat = (highWordField d).toNat * 2 ^ 32 + (reservedHighField d).toNat * 2 ^ 17 +
      (orthField d).toNat * 2 ^ 16 + (reservedLowField d).toNat * 2 ^ 10 + (ctxField d).toNat * 2 ^ 8 +
      (opcodeField d).toNat := by
  have ho : (orthField d).toNat = d.toNat / 2 ^ 16 % 2 := by
    rw [orthField, ← BitVec.testBit_toNat, Nat.testBit_eq_decide_div_mod_eq]
    rcases Nat.mod_two_eq_zero_or_one (d.toNat / 2 ^ 16) with h | h <;> (rw [h]; rfl)
  simp only [ho, highWordField, reservedHighField, reservedLowField, ctxField, opcodeField,
    BitVec.extractLsb'_toNat, Nat.shiftRight_eq_div_pow]
  have := d.isLt
  omega

theorem ctx_cases (c : Ctx) : c = 0#2 ∨ c = 1#2 ∨ c = 2#2 ∨ c = 3#2 := by
  revert c
  decide

/-- A command's word as a number (30_encoding.md R112). -/
theorem encode_toNat (i : Instr) :
    (encode i).toNat = i.opcode.toNat + (i.ctx?.getD 0#2).toNat * 2 ^ 8 + i.orthBit.toNat * 2 ^ 16 := by
  cases i with
  | ctxReset c => rcases ctx_cases c with rfl | rfl | rfl | rfl <;> rfl
  | preemph c => rcases ctx_cases c with rfl | rfl | rfl | rfl <;> rfl
  | framePrep c => rcases ctx_cases c with rfl | rfl | rfl | rfl <;> rfl
  | dctBasis o => cases o <;> rfl
  | _ => rfl

/-- The opcode table gives each command its own opcode byte back (30_encoding.md R112). -/
theorem opcode_of_opcodeAt {b : BitVec 8} {op : Opcode} (h : opcodeAt b = some op) (c : Ctx) (o : Bool) :
    (op.withFields c o).opcode = b := by
  unfold opcodeAt opcodeTable at h
  simp only [List.find?_cons] at h
  repeat' split at h
  all_goals first | (simp at h; done) | skip
  all_goals
    rename_i hb
    simp only [Option.map_some, Option.some.injEq] at h
    subst h
    simp only [beq_iff_eq] at hb
    rw [← hb]
    rfl

end Sys2Proof
end

