-- ==== Sys2Proof/Laws/Ops.lean ====
section
/-! SUPPORT. What running a command can do, said once: the first failing check, the two ways a command completes,
and the one way it faults. -/

namespace Sys2Proof.Machine

@[simp] theorem firstError_nil : firstError [] = none := rfl

theorem firstError_cons (b : Bool) (e : CmdError) (rest : List (Bool × CmdError)) :
    firstError ((b, e) :: rest) = if b then some e else firstError rest := rfl

/-- No error: every check of the list holds. -/
theorem firstError_none_iff (checks : List (Bool × CmdError)) :
    firstError checks = none ↔ ∀ c ∈ checks, c.1 = false := by
  induction checks with
  | nil => simp
  | cons c rest ih =>
    obtain ⟨b, e⟩ := c
    cases b <;> simp [firstError_cons, ih]

/-- The error is that of the first check that fails: all before it hold (60_exceptions.md R324). -/
theorem firstError_some {checks : List (Bool × CmdError)} {e : CmdError} (h : firstError checks = some e) :
    ∃ before after, checks = before ++ (true, e) :: after ∧ ∀ c ∈ before, c.1 = false := by
  induction checks with
  | nil => simp at h
  | cons c rest ih =>
    obtain ⟨b, e'⟩ := c
    cases b with
    | true =>
      simp only [firstError_cons, if_true, Option.some.injEq] at h
      exact ⟨[], rest, by simp [h], by simp⟩
    | false =>
      simp only [firstError_cons, Bool.false_eq_true, if_false] at h
      obtain ⟨before, after, hc, hb⟩ := ih h
      exact ⟨(false, e') :: before, after, by simp [hc], by simpa using hb⟩

theorem firstError_append (xs ys : List (Bool × CmdError)) :
    firstError (xs ++ ys) = (firstError xs).or (firstError ys) := by
  induction xs with
  | nil => simp
  | cons c rest ih =>
    obtain ⟨b, e⟩ := c
    cases b <;> simp [firstError_cons, ih]

theorem runTotal_ok {checks : List (Bool × CmdError)} (eff : State → State) (s : State)
    (h : firstError checks = none) : runTotal checks eff s = .next (eff s).complete := by
  simp [runTotal, h]

theorem runTotal_error {checks : List (Bool × CmdError)} (eff : State → State) (s : State) {e : CmdError}
    (h : firstError checks = some e) : runTotal checks eff s = .next (s.errorComplete e) := by
  simp [runTotal, h]

/-- A check that fails ends the command with its error (60_exceptions.md R324). -/
theorem runTotal_cons_true {b : Bool} {e : CmdError} {rest : List (Bool × CmdError)} {eff : State → State}
    {s : State} (h : b = true) : runTotal ((b, e) :: rest) eff s = .next (s.errorComplete e) := by
  subst h
  rfl

/-- A check that holds leaves the rest. -/
theorem runTotal_cons_false {b : Bool} {e : CmdError} {rest : List (Bool × CmdError)} {eff : State → State}
    {s : State} (h : b = false) : runTotal ((b, e) :: rest) eff s = runTotal rest eff s := by
  subst h
  rfl

theorem runReading_cons_true {b : Bool} {e : CmdError} {rest : List (Bool × CmdError)}
    {eff : State → Except Fault State} {s : State} (h : b = true) :
    runReading ((b, e) :: rest) eff s = .next (s.errorComplete e) := by
  subst h
  rfl

theorem runReading_cons_false {b : Bool} {e : CmdError} {rest : List (Bool × CmdError)}
    {eff : State → Except Fault State} {s : State} (h : b = false) :
    runReading ((b, e) :: rest) eff s = runReading rest eff s := by
  subst h
  rfl

/-- All a command without reads can do: complete with its first error, or complete with its effects. -/
theorem runTotal_cases {checks : List (Bool × CmdError)} {eff : State → State} {s t : State}
    (h : runTotal checks eff s = .next t) :
    (∃ e, firstError checks = some e ∧ t = s.errorComplete e) ∨
    (firstError checks = none ∧ t = (eff s).complete) := by
  unfold runTotal at h
  cases hc : firstError checks with
  | none =>
    rw [hc] at h
    simp only [Host.Outcome.next.injEq] at h
    exact .inr ⟨rfl, h.symm⟩
  | some e =>
    rw [hc] at h
    simp only [Host.Outcome.next.injEq] at h
    exact .inl ⟨e, rfl, h.symm⟩

theorem runTotal_no_fault {checks : List (Bool × CmdError)} {eff : State → State} {s : State} {f : Fault} :
    runTotal checks eff s ≠ .fault f := by
  simp [runTotal]

theorem runReading_ok {checks : List (Bool × CmdError)} {eff : State → Except Fault State} {s t : State}
    (h : firstError checks = none) (ht : eff s = .ok t) : runReading checks eff s = .next t.complete := by
  simp [runReading, h, ht]

theorem runReading_error {checks : List (Bool × CmdError)} (eff : State → Except Fault State) (s : State)
    {e : CmdError} (h : firstError checks = some e) :
    runReading checks eff s = .next (s.errorComplete e) := by
  simp [runReading, h]

/-- All a command that reads can do where it answers a next state. -/
theorem runReading_cases {checks : List (Bool × CmdError)} {eff : State → Except Fault State} {s t : State}
    (h : runReading checks eff s = .next t) :
    (∃ e, firstError checks = some e ∧ t = s.errorComplete e) ∨
    (firstError checks = none ∧ ∃ u, eff s = .ok u ∧ t = u.complete) := by
  unfold runReading at h
  cases hc : firstError checks with
  | some e =>
    rw [hc] at h
    simp only [Host.Outcome.next.injEq] at h
    exact .inl ⟨e, rfl, h.symm⟩
  | none =>
    rw [hc] at h
    cases hu : eff s with
    | error f => rw [hu] at h; simp at h
    | ok u =>
      rw [hu] at h
      simp only [Host.Outcome.next.injEq] at h
      exact .inr ⟨rfl, u, rfl, h.symm⟩

/-- A command faults only where its effects read an unwritten word. -/
theorem runReading_fault {checks : List (Bool × CmdError)} {eff : State → Except Fault State} {s : State}
    {f : Fault} (h : runReading checks eff s = .fault f) : firstError checks = none ∧ eff s = .error f := by
  unfold runReading at h
  cases hc : firstError checks with
  | some e => rw [hc] at h; simp at h
  | none =>
    rw [hc] at h
    cases hu : eff s with
    | ok u => rw [hu] at h; simp at h
    | error g =>
      rw [hu] at h
      simp only [Host.Outcome.fault.injEq] at h
      exact ⟨rfl, by rw [h]⟩

theorem runReading_no_refusal {checks : List (Bool × CmdError)} {eff : State → Except Fault State} {s : State}
    {r : Refusal} : runReading checks eff s ≠ .refused r := by
  unfold runReading
  cases firstError checks with
  | some e => simp
  | none => cases eff s <;> simp

@[simp] theorem State.priorOf_setPrior_self (s : State) (c : Ctx) (v : F64) : (s.setPrior c v).priorOf c = v := by
  simp [State.priorOf, State.setPrior]

/-- Writing one PRIOR leaves the others. -/
theorem State.priorOf_setPrior_other (s : State) {c c' : Ctx} (v : F64) (h : c' ≠ c) :
    (s.setPrior c v).priorOf c' = s.priorOf c' := by
  have : c.toNat ≠ c'.toNat := fun e => h (BitVec.eq_of_toNat_eq e.symm)
  simp [State.priorOf, State.setPrior, this]

end Sys2Proof.Machine
end

