-- ==== Sys2Proof/Laws/Exec.lean ====
section
/-! SUPPORT. What the effects of each reading command can do, said once: where they answer, what they read and which
state they leave; where they stop, which word was unwritten. -/

namespace Sys2Proof.Machine

/-- FRAME_COUNT's effects (42_frame.md R205). -/
theorem frameCountEffects_ok {s t : State} (h : frameCountEffects s = .ok t) :
    ∃ n, frameCountOf s.fshift s.sigSamples = some n ∧ t = { s with res0 := saturate64 n } := by
  unfold frameCountEffects at h
  split at h
  · exact ⟨_, ‹_›, (by simpa using h.symm)⟩
  · cases h

theorem frameCountEffects_of {s : State} {n : Nat} (h : frameCountOf s.fshift s.sigSamples = some n) :
    frameCountEffects s = .ok { s with res0 := saturate64 n } := by
  unfold frameCountEffects
  rw [h]

theorem frameCountEffects_error {s : State} {f : Fault} (h : frameCountEffects s = .error f) :
    f = .nonFiniteRounding ∧ frameCountOf s.fshift s.sigSamples = none := by
  unfold frameCountEffects at h
  split at h
  · cases h
  · exact ⟨by simpa using h.symm, ‹_›⟩

/-- FRAME_FETCH's effects (42_frame.md R207). -/
theorem fetchEffects_ok {s t : State} (h : fetchEffects s = .ok t) :
    ∃ start samples, frameStart s.fshift s.frameIndex = some start ∧
      readRange .dmem s.dmem (s.sigStart + start) (s.samplesAt start) = .ok samples ∧
      t = { s with
        bufs := { s.bufs with
          raw := s.bufs.raw.write 0
            (samples.map canonical ++ List.replicate (s.frameLen - s.samplesAt start) posZero) }
        status := { s.status with frameStage := .raw }
        res0 := saturate64 start
        res1 := saturate64 (s.samplesAt start) } := by
  unfold fetchEffects at h
  split at h
  · cases h
  · split at h
    · cases h
    · exact ⟨_, _, ‹_›, ‹_›, (by simpa using h.symm)⟩

theorem fetchEffects_of {s : State} {start : Nat} {samples : List Word}
    (hs : frameStart s.fshift s.frameIndex = some start)
    (hr : readRange .dmem s.dmem (s.sigStart + start) (s.samplesAt start) = .ok samples) :
    fetchEffects s = .ok { s with
      bufs := { s.bufs with
        raw := s.bufs.raw.write 0
          (samples.map canonical ++ List.replicate (s.frameLen - s.samplesAt start) posZero) }
      status := { s.status with frameStage := .raw }
      res0 := saturate64 start
      res1 := saturate64 (s.samplesAt start) } := by
  unfold fetchEffects
  rw [hs]
  simp only [hr]

theorem fetchEffects_error {s : State} {f : Fault} (h : fetchEffects s = .error f) :
    (f = .nonFiniteRounding ∧ frameStart s.fshift s.frameIndex = none) ∨
    ∃ start i, frameStart s.fshift s.frameIndex = some start ∧ i < s.samplesAt start ∧
      f = .readUnwritten .dmem (s.sigStart + start + i) ∧ s.dmem.read (s.sigStart + start + i) = none := by
  unfold fetchEffects at h
  split at h
  · exact .inl ⟨by simpa using h.symm, ‹_›⟩
  · split at h
    · rename_i start hs _ g hg
      obtain ⟨i, hi, hf, hn⟩ := readRange_error hg
      refine .inr ⟨start, i, hs, hi, ?_, hn⟩
      rw [← hf]
      simpa using h.symm
    · cases h

@[simp] theorem preemphasize_length (alpha p : F64) (xs : List F64) :
    (preemphasize alpha p xs).length = xs.length := by
  induction xs generalizing p with
  | nil => rfl
  | cons x xs ih => simp [preemphasize, ih]

/-- Entry n of the pre-emphasized frame (42_frame.md R208). -/
theorem preemphasize_getElem? (alpha p : F64) (xs : List F64) (n : Nat) :
    (preemphasize alpha p xs)[n]? =
      xs[n]?.map (fun x => fsub x (fmul alpha (if n = 0 then p else xs.getD (n - 1) posZero))) := by
  induction xs generalizing p n with
  | nil => simp [preemphasize]
  | cons x xs ih =>
    cases n with
    | zero => simp [preemphasize]
    | succ n =>
      simp only [preemphasize, List.getElem?_cons_succ, ih]
      cases n with
      | zero => simp
      | succ n => simp

/-- PREEMPH's effects (42_frame.md R208). -/
theorem preemphEffects_ok {c : Ctx} {s t : State} (h : preemphEffects c s = .ok t) :
    ∃ raw last, readRange .raw s.bufs.raw 0 s.frameLen = .ok raw ∧ raw.getLast? = some last ∧
      t = { s with
        bufs := { s.bufs with
          cond := s.bufs.cond.write 0 (preemphasize s.cfg.alpha (s.priorOf c) raw) }
        status := { s.status with frameStage := .cond } }.setPrior c (canonical last) := by
  unfold preemphEffects at h
  split at h
  · cases h
  · split at h
    · cases h
    · exact ⟨_, _, ‹_›, ‹_›, (by simpa using h.symm)⟩

theorem preemphEffects_of {c : Ctx} {s : State} {raw : List Word} {last : Word}
    (hr : readRange .raw s.bufs.raw 0 s.frameLen = .ok raw) (hl : raw.getLast? = some last) :
    preemphEffects c s = .ok ({ s with
        bufs := { s.bufs with
          cond := s.bufs.cond.write 0 (preemphasize s.cfg.alpha (s.priorOf c) raw) }
        status := { s.status with frameStage := .cond } }.setPrior c (canonical last)) := by
  unfold preemphEffects
  rw [hr]
  simp only [hl]

theorem preemphEffects_error {c : Ctx} {s : State} {f : Fault} (h : preemphEffects c s = .error f) :
    (f = .emptyFrame ∧ s.frameLen = 0) ∨
    ∃ i, i < s.frameLen ∧ f = .readUnwritten .raw i ∧ s.bufs.raw.read i = none := by
  unfold preemphEffects at h
  split at h
  · rename_i g hg
    obtain ⟨i, hi, hf, hn⟩ := readRange_error hg
    simp only [Nat.zero_add] at hf hn
    exact .inr ⟨i, hi, by rw [← hf]; simpa using h.symm, hn⟩
  · split at h
    · rename_i raw hraw _ hl
      refine .inl ⟨by simpa using h.symm, ?_⟩
      have := ((readRange_ok_iff _ _ _ _ _).mp hraw).1
      rw [List.getLast?_eq_none_iff] at hl
      rw [← this, hl]
      rfl
    · cases h

/-- WINDOW's effects (42_frame.md R209). -/
theorem windowEffects_ok {s t : State} (h : windowEffects s = .ok t) :
    ∃ cond win, readRange .cond s.bufs.cond 0 s.frameLen = .ok cond ∧
      readRange .win s.bufs.win 0 s.frameLen = .ok win ∧
      t = { s with
        bufs := { s.bufs with wnd := s.bufs.wnd.write 0 (List.zipWith fmul cond win) }
        status := { s.status with frameStage := .wnd } } := by
  unfold windowEffects at h
  split at h
  · cases h
  · split at h
    · cases h
    · exact ⟨_, _, ‹_›, ‹_›, (by simpa using h.symm)⟩

theorem windowEffects_of {s : State} {cond win : List Word}
    (hc : readRange .cond s.bufs.cond 0 s.frameLen = .ok cond)
    (hw : readRange .win s.bufs.win 0 s.frameLen = .ok win) :
    windowEffects s = .ok { s with
      bufs := { s.bufs with wnd := s.bufs.wnd.write 0 (List.zipWith fmul cond win) }
      status := { s.status with frameStage := .wnd } } := by
  unfold windowEffects
  rw [hc]
  simp only [hw]

theorem windowEffects_error {s : State} {f : Fault} (h : windowEffects s = .error f) :
    (∃ i, i < s.frameLen ∧ f = .readUnwritten .cond i ∧ s.bufs.cond.read i = none) ∨
    ∃ i, i < s.frameLen ∧ f = .readUnwritten .win i ∧ s.bufs.win.read i = none := by
  unfold windowEffects at h
  split at h
  · rename_i g hg
    obtain ⟨i, hi, hf, hn⟩ := readRange_error hg
    simp only [Nat.zero_add] at hf hn
    exact .inl ⟨i, hi, by rw [← hf]; simpa using h.symm, hn⟩
  · split at h
    · rename_i g hg
      obtain ⟨i, hi, hf, hn⟩ := readRange_error hg
      simp only [Nat.zero_add] at hf hn
      exact .inr ⟨i, hi, by rw [← hf]; simpa using h.symm, hn⟩
    · cases h

/-- FRAME_PREP's effects: the three in a row (42_frame.md R210). -/
theorem framePrepEffects_ok {c : Ctx} {s t : State} (h : framePrepEffects c s = .ok t) :
    ∃ u v, fetchEffects s = .ok u ∧ preemphEffects c u = .ok v ∧ windowEffects v = .ok t := by
  unfold framePrepEffects at h
  split at h
  · cases h
  · split at h
    · cases h
    · exact ⟨_, _, ‹_›, ‹_›, h⟩

theorem framePrepEffects_of {c : Ctx} {s u v t : State} (hf : fetchEffects s = .ok u)
    (hp : preemphEffects c u = .ok v) (hw : windowEffects v = .ok t) : framePrepEffects c s = .ok t := by
  unfold framePrepEffects
  rw [hf]
  simp only [hp, hw]

theorem framePrepEffects_error {c : Ctx} {s : State} {f : Fault} (h : framePrepEffects c s = .error f) :
    fetchEffects s = .error f ∨
    (∃ u, fetchEffects s = .ok u ∧ preemphEffects c u = .error f) ∨
    ∃ u v, fetchEffects s = .ok u ∧ preemphEffects c u = .ok v ∧ windowEffects v = .error f := by
  unfold framePrepEffects at h
  split at h
  · rename_i g hg
    exact .inl (by rw [hg]; simpa using h)
  · rename_i u hu
    split at h
    · rename_i g hg
      exact .inr (.inl ⟨u, hu, by rw [hg]; simpa using h⟩)
    · exact .inr (.inr ⟨u, _, hu, ‹_›, h⟩)

/-- SPEC_POWER's effects (43_spectral.md R246). -/
theorem powerEffects_ok {nu : Numerics} {s t : State} (h : powerEffects nu s = .ok t) :
    ∃ frame, readRange .wnd s.bufs.wnd 0 (min s.frameLen s.nfft) = .ok frame ∧
      t = { s with
        bufs := { s.bufs with
          pwr := s.bufs.pwr.write 0
            ((List.range s.nbins).map (powerAt nu s.nfft (zeroPad s.nfft frame))) }
        status := { s.status with frameStage := .pwr } } := by
  unfold powerEffects at h
  split at h
  · cases h
  · exact ⟨_, ‹_›, (by simpa using h.symm)⟩

theorem powerEffects_of {nu : Numerics} {s : State} {frame : List Word}
    (hr : readRange .wnd s.bufs.wnd 0 (min s.frameLen s.nfft) = .ok frame) :
    powerEffects nu s = .ok { s with
      bufs := { s.bufs with
        pwr := s.bufs.pwr.write 0
          ((List.range s.nbins).map (powerAt nu s.nfft (zeroPad s.nfft frame))) }
      status := { s.status with frameStage := .pwr } } := by
  unfold powerEffects
  rw [hr]

theorem powerEffects_error {nu : Numerics} {s : State} {f : Fault} (h : powerEffects nu s = .error f) :
    ∃ i, i < s.frameLen ∧ f = .readUnwritten .wnd i ∧ s.bufs.wnd.read i = none := by
  unfold powerEffects at h
  split at h
  · rename_i g hg
    obtain ⟨i, hi, hf, hn⟩ := readRange_error hg
    simp only [Nat.zero_add] at hf hn
    exact ⟨i, by omega, by rw [← hf]; simpa using h.symm, hn⟩
  · cases h

/-- SPEC_PROJECT's effects (43_spectral.md R244). -/
theorem projectEffects_ok {nu : Numerics} {s t : State} (h : projectEffects nu s = .ok t) :
    ∃ p fb, readRange .pwr s.bufs.pwr 0 s.nbins = .ok p ∧
      readRange .fb s.bufs.fb 0 (s.nbins * s.nfilt) = .ok fb ∧
      t = s.writeDmem s.dst
        ((List.range s.nfilt).map (fun j => nu.ln (clipEnergy (energyAt p fb s.nbins s.nfilt j)))) := by
  unfold projectEffects at h
  split at h
  · cases h
  · split at h
    · cases h
    · exact ⟨_, _, ‹_›, ‹_›, (by simpa using h.symm)⟩

theorem projectEffects_of {nu : Numerics} {s : State} {p fb : List Word}
    (hp : readRange .pwr s.bufs.pwr 0 s.nbins = .ok p)
    (hf : readRange .fb s.bufs.fb 0 (s.nbins * s.nfilt) = .ok fb) :
    projectEffects nu s = .ok (s.writeDmem s.dst
      ((List.range s.nfilt).map (fun j => nu.ln (clipEnergy (energyAt p fb s.nbins s.nfilt j))))) := by
  unfold projectEffects
  rw [hp]
  simp only [hf]

theorem projectEffects_error {nu : Numerics} {s : State} {f : Fault} (h : projectEffects nu s = .error f) :
    (∃ i, i < s.nbins ∧ f = .readUnwritten .pwr i ∧ s.bufs.pwr.read i = none) ∨
    ∃ i, i < s.nbins * s.nfilt ∧ f = .readUnwritten .fb i ∧ s.bufs.fb.read i = none := by
  unfold projectEffects at h
  split at h
  · rename_i g hg
    obtain ⟨i, hi, hf, hn⟩ := readRange_error hg
    simp only [Nat.zero_add] at hf hn
    exact .inl ⟨i, hi, by rw [← hf]; simpa using h.symm, hn⟩
  · split at h
    · rename_i g hg
      obtain ⟨i, hi, hf, hn⟩ := readRange_error hg
      simp only [Nat.zero_add] at hf hn
      exact .inr ⟨i, hi, by rw [← hf]; simpa using h.symm, hn⟩
    · cases h

/-- SPEC_LOGMEL's effects: the two in a row (43_spectral.md R245). -/
theorem logMelEffects_ok {nu : Numerics} {s t : State} (h : logMelEffects nu s = .ok t) :
    ∃ u, powerEffects nu s = .ok u ∧ projectEffects nu u = .ok t := by
  unfold logMelEffects at h
  split at h
  · cases h
  · exact ⟨_, ‹_›, h⟩

theorem logMelEffects_of {nu : Numerics} {s u t : State} (hp : powerEffects nu s = .ok u)
    (hj : projectEffects nu u = .ok t) : logMelEffects nu s = .ok t := by
  unfold logMelEffects
  rw [hp]
  exact hj

theorem logMelEffects_error {nu : Numerics} {s : State} {f : Fault} (h : logMelEffects nu s = .error f) :
    powerEffects nu s = .error f ∨ ∃ u, powerEffects nu s = .ok u ∧ projectEffects nu u = .error f := by
  unfold logMelEffects at h
  split at h
  · rename_i g hg
    exact .inl (by rw [hg]; simpa using h)
  · exact .inr ⟨_, ‹_›, h⟩

/-- Batch application (44_dct.md R273). -/
theorem applyBatch_ok {s t : State} {n k : Nat} {f : List F64 → Nat → F64} (h : applyBatch s n k f = .ok t) :
    ∃ input, readRange .dmem s.dmem s.src (s.rows * n) = .ok input ∧
      t = s.writeDmem s.dst (rowMajor s.rows k (fun m j => f (batchRow input n m) j)) := by
  unfold applyBatch at h
  split at h
  · cases h
  · exact ⟨_, ‹_›, (by simpa using h.symm)⟩

theorem applyBatch_of {s : State} {n k : Nat} {f : List F64 → Nat → F64} {input : List Word}
    (hr : readRange .dmem s.dmem s.src (s.rows * n) = .ok input) :
    applyBatch s n k f = .ok (s.writeDmem s.dst (rowMajor s.rows k (fun m j => f (batchRow input n m) j))) := by
  unfold applyBatch
  rw [hr]

theorem applyBatch_error {s : State} {n k : Nat} {f : List F64 → Nat → F64} {g : Fault}
    (h : applyBatch s n k f = .error g) :
    ∃ i, i < s.rows * n ∧ g = .readUnwritten .dmem (s.src + i) ∧ s.dmem.read (s.src + i) = none := by
  unfold applyBatch at h
  split at h
  · rename_i e he
    obtain ⟨i, hi, hf, hn⟩ := readRange_error he
    exact ⟨i, hi, by rw [← hf]; simpa using h.symm, hn⟩
  · cases h

/-- Entry a of row m of a batch (00_scope.md R17). -/
theorem batchRow_getElem? (input : List F64) (n m a : Nat) (ha : a < n) :
    (batchRow input n m)[a]? = input[m * n + a]? := by
  simp [batchRow, ha, List.getElem?_drop]

theorem batchRow_length (input : List F64) (n m : Nat) (h : (m + 1) * n ≤ input.length) :
    (batchRow input n m).length = n := by
  simp only [batchRow, List.length_take, List.length_drop]
  rw [Nat.add_mul, Nat.one_mul] at h
  omega

/-- A dot product as one sum in ascending order from +0.0 (00_scope.md R15). -/
theorem fdot_range (n : Nat) (v w : Nat → F64) :
    fdot ((List.range n).map (fun a => (v a, w a))) =
      (List.range n).foldl (fun acc a => fadd acc (fmul (v a) (w a))) posZero := by
  simp [fdot, List.foldl_map]

/-- fdot of a row with a vector, entry by entry (00_scope.md R15). -/
theorem dotRow_eq (row : List F64) (v w : Nat → F64) (h : ∀ a < row.length, row[a]? = some (v a)) :
    dotRow row w = (List.range row.length).foldl (fun acc a => fadd acc (fmul (v a) (w a))) posZero := by
  have : row = (List.range row.length).map v := by
    refine List.ext_getElem? (fun a => ?_)
    by_cases ha : a < row.length
    · rw [h a ha]
      simp [ha]
    · rw [List.getElem?_eq_none (by omega), List.getElem?_eq_none (by simp; omega)]
  rw [← fdot_range, dotRow]
  congr 1
  conv_lhs => rw [this]
  simp only [List.length_map, List.length_range]
  rw [List.zip_map_left, List.zip_map_right]
  simp [List.zip_eq_zipWith]

end Sys2Proof.Machine
end

