-- ==== Sys2Proof/Laws/State.lean ====
section
/-! SUPPORT. One lemma for each field of State under each named update of it, each true by rfl: no later proof
unfolds a record update. Generated from the list of fields. -/

namespace Sys2Proof.Machine

/-! ### writeDmem -/

@[simp] theorem State.writeDmem_caps (s : State) (base : Nat) (vals : List Word) :
    (s.writeDmem base vals).caps = s.caps := rfl

@[simp] theorem State.writeDmem_irqEn (s : State) (base : Nat) (vals : List Word) :
    (s.writeDmem base vals).irqEn = s.irqEn := rfl

@[simp] theorem State.writeDmem_status (s : State) (base : Nat) (vals : List Word) :
    (s.writeDmem base vals).status = s.status := rfl

@[simp] theorem State.writeDmem_cmd (s : State) (base : Nat) (vals : List Word) :
    (s.writeDmem base vals).cmd = s.cmd := rfl

@[simp] theorem State.writeDmem_errInfo (s : State) (base : Nat) (vals : List Word) :
    (s.writeDmem base vals).errInfo = s.errInfo := rfl

@[simp] theorem State.writeDmem_cfg (s : State) (base : Nat) (vals : List Word) :
    (s.writeDmem base vals).cfg = s.cfg := rfl

@[simp] theorem State.writeDmem_args (s : State) (base : Nat) (vals : List Word) :
    (s.writeDmem base vals).args = s.args := rfl

@[simp] theorem State.writeDmem_res0 (s : State) (base : Nat) (vals : List Word) :
    (s.writeDmem base vals).res0 = s.res0 := rfl

@[simp] theorem State.writeDmem_res1 (s : State) (base : Nat) (vals : List Word) :
    (s.writeDmem base vals).res1 = s.res1 := rfl

@[simp] theorem State.writeDmem_sigBase (s : State) (base : Nat) (vals : List Word) :
    (s.writeDmem base vals).sigBase = s.sigBase := rfl

@[simp] theorem State.writeDmem_sigLen (s : State) (base : Nat) (vals : List Word) :
    (s.writeDmem base vals).sigLen = s.sigLen := rfl

@[simp] theorem State.writeDmem_prior (s : State) (base : Nat) (vals : List Word) :
    (s.writeDmem base vals).prior = s.prior := rfl

@[simp] theorem State.writeDmem_basisTag (s : State) (base : Nat) (vals : List Word) :
    (s.writeDmem base vals).basisTag = s.basisTag := rfl

@[simp] theorem State.writeDmem_basisStep (s : State) (base : Nat) (vals : List Word) :
    (s.writeDmem base vals).basisStep = s.basisStep := rfl

@[simp] theorem State.writeDmem_bufs (s : State) (base : Nat) (vals : List Word) :
    (s.writeDmem base vals).bufs = s.bufs := rfl

@[simp] theorem State.writeDmem_dmem (s : State) (base : Nat) (vals : List Word) :
    (s.writeDmem base vals).dmem = s.dmem.write base vals := rfl

@[simp] theorem State.writeDmem_inputs (s : State) (base : Nat) (vals : List Word) :
    (s.writeDmem base vals).inputs = s.inputs := rfl

@[simp] theorem State.writeDmem_response (s : State) (base : Nat) (vals : List Word) :
    (s.writeDmem base vals).response = s.response := rfl

@[simp] theorem State.writeDmem_engineDelay (s : State) (base : Nat) (vals : List Word) :
    (s.writeDmem base vals).engineDelay = s.engineDelay := rfl

@[simp] theorem State.writeDmem_issueCount (s : State) (base : Nat) (vals : List Word) :
    (s.writeDmem base vals).issueCount = s.issueCount := rfl

/-! ### setPrior -/

@[simp] theorem State.setPrior_caps (s : State) (c : Ctx) (v : F64) :
    (s.setPrior c v).caps = s.caps := rfl

@[simp] theorem State.setPrior_irqEn (s : State) (c : Ctx) (v : F64) :
    (s.setPrior c v).irqEn = s.irqEn := rfl

@[simp] theorem State.setPrior_status (s : State) (c : Ctx) (v : F64) :
    (s.setPrior c v).status = s.status := rfl

@[simp] theorem State.setPrior_cmd (s : State) (c : Ctx) (v : F64) :
    (s.setPrior c v).cmd = s.cmd := rfl

@[simp] theorem State.setPrior_errInfo (s : State) (c : Ctx) (v : F64) :
    (s.setPrior c v).errInfo = s.errInfo := rfl

@[simp] theorem State.setPrior_cfg (s : State) (c : Ctx) (v : F64) :
    (s.setPrior c v).cfg = s.cfg := rfl

@[simp] theorem State.setPrior_args (s : State) (c : Ctx) (v : F64) :
    (s.setPrior c v).args = s.args := rfl

@[simp] theorem State.setPrior_res0 (s : State) (c : Ctx) (v : F64) :
    (s.setPrior c v).res0 = s.res0 := rfl

@[simp] theorem State.setPrior_res1 (s : State) (c : Ctx) (v : F64) :
    (s.setPrior c v).res1 = s.res1 := rfl

@[simp] theorem State.setPrior_sigBase (s : State) (c : Ctx) (v : F64) :
    (s.setPrior c v).sigBase = s.sigBase := rfl

@[simp] theorem State.setPrior_sigLen (s : State) (c : Ctx) (v : F64) :
    (s.setPrior c v).sigLen = s.sigLen := rfl

@[simp] theorem State.setPrior_prior (s : State) (c : Ctx) (v : F64) :
    (s.setPrior c v).prior = s.prior.set c.toNat v c.isLt := rfl

@[simp] theorem State.setPrior_basisTag (s : State) (c : Ctx) (v : F64) :
    (s.setPrior c v).basisTag = s.basisTag := rfl

@[simp] theorem State.setPrior_basisStep (s : State) (c : Ctx) (v : F64) :
    (s.setPrior c v).basisStep = s.basisStep := rfl

@[simp] theorem State.setPrior_bufs (s : State) (c : Ctx) (v : F64) :
    (s.setPrior c v).bufs = s.bufs := rfl

@[simp] theorem State.setPrior_dmem (s : State) (c : Ctx) (v : F64) :
    (s.setPrior c v).dmem = s.dmem := rfl

@[simp] theorem State.setPrior_inputs (s : State) (c : Ctx) (v : F64) :
    (s.setPrior c v).inputs = s.inputs := rfl

@[simp] theorem State.setPrior_response (s : State) (c : Ctx) (v : F64) :
    (s.setPrior c v).response = s.response := rfl

@[simp] theorem State.setPrior_engineDelay (s : State) (c : Ctx) (v : F64) :
    (s.setPrior c v).engineDelay = s.engineDelay := rfl

@[simp] theorem State.setPrior_issueCount (s : State) (c : Ctx) (v : F64) :
    (s.setPrior c v).issueCount = s.issueCount := rfl

/-! ### complete -/

@[simp] theorem State.complete_caps (s : State) :
    s.complete.caps = s.caps := rfl

@[simp] theorem State.complete_irqEn (s : State) :
    s.complete.irqEn = s.irqEn := rfl

@[simp] theorem State.complete_status (s : State) :
    s.complete.status = { s.status with done := true, busy := false } := rfl

@[simp] theorem State.complete_cmd (s : State) :
    s.complete.cmd = s.cmd := rfl

@[simp] theorem State.complete_errInfo (s : State) :
    s.complete.errInfo = s.errInfo := rfl

@[simp] theorem State.complete_cfg (s : State) :
    s.complete.cfg = s.cfg := rfl

@[simp] theorem State.complete_args (s : State) :
    s.complete.args = s.args := rfl

@[simp] theorem State.complete_res0 (s : State) :
    s.complete.res0 = s.res0 := rfl

@[simp] theorem State.complete_res1 (s : State) :
    s.complete.res1 = s.res1 := rfl

@[simp] theorem State.complete_sigBase (s : State) :
    s.complete.sigBase = s.sigBase := rfl

@[simp] theorem State.complete_sigLen (s : State) :
    s.complete.sigLen = s.sigLen := rfl

@[simp] theorem State.complete_prior (s : State) :
    s.complete.prior = s.prior := rfl

@[simp] theorem State.complete_basisTag (s : State) :
    s.complete.basisTag = s.basisTag := rfl

@[simp] theorem State.complete_basisStep (s : State) :
    s.complete.basisStep = s.basisStep := rfl

@[simp] theorem State.complete_bufs (s : State) :
    s.complete.bufs = s.bufs := rfl

@[simp] theorem State.complete_dmem (s : State) :
    s.complete.dmem = s.dmem := rfl

@[simp] theorem State.complete_inputs (s : State) :
    s.complete.inputs = s.inputs := rfl

@[simp] theorem State.complete_response (s : State) :
    s.complete.response = s.response := rfl

@[simp] theorem State.complete_engineDelay (s : State) :
    s.complete.engineDelay = s.engineDelay := rfl

@[simp] theorem State.complete_issueCount (s : State) :
    s.complete.issueCount = s.issueCount := rfl

/-! ### errorComplete -/

@[simp] theorem State.errorComplete_caps (s : State) (e : CmdError) :
    (s.errorComplete e).caps = s.caps := rfl

@[simp] theorem State.errorComplete_irqEn (s : State) (e : CmdError) :
    (s.errorComplete e).irqEn = s.irqEn := rfl

@[simp] theorem State.errorComplete_status (s : State) (e : CmdError) :
    (s.errorComplete e).status = { s.status with done := true, err := true, errCode := e.code, busy := false } := rfl

@[simp] theorem State.errorComplete_cmd (s : State) (e : CmdError) :
    (s.errorComplete e).cmd = s.cmd := rfl

@[simp] theorem State.errorComplete_errInfo (s : State) (e : CmdError) :
    (s.errorComplete e).errInfo = ⟨BitVec.ofNat 16 e.check, BitVec.ofNat 32 e.index⟩ := rfl

@[simp] theorem State.errorComplete_cfg (s : State) (e : CmdError) :
    (s.errorComplete e).cfg = s.cfg := rfl

@[simp] theorem State.errorComplete_args (s : State) (e : CmdError) :
    (s.errorComplete e).args = s.args := rfl

@[simp] theorem State.errorComplete_res0 (s : State) (e : CmdError) :
    (s.errorComplete e).res0 = s.res0 := rfl

@[simp] theorem State.errorComplete_res1 (s : State) (e : CmdError) :
    (s.errorComplete e).res1 = s.res1 := rfl

@[simp] theorem State.errorComplete_sigBase (s : State) (e : CmdError) :
    (s.errorComplete e).sigBase = s.sigBase := rfl

@[simp] theorem State.errorComplete_sigLen (s : State) (e : CmdError) :
    (s.errorComplete e).sigLen = s.sigLen := rfl

@[simp] theorem State.errorComplete_prior (s : State) (e : CmdError) :
    (s.errorComplete e).prior = s.prior := rfl

@[simp] theorem State.errorComplete_basisTag (s : State) (e : CmdError) :
    (s.errorComplete e).basisTag = s.basisTag := rfl

@[simp] theorem State.errorComplete_basisStep (s : State) (e : CmdError) :
    (s.errorComplete e).basisStep = s.basisStep := rfl

@[simp] theorem State.errorComplete_bufs (s : State) (e : CmdError) :
    (s.errorComplete e).bufs = s.bufs := rfl

@[simp] theorem State.errorComplete_dmem (s : State) (e : CmdError) :
    (s.errorComplete e).dmem = s.dmem := rfl

@[simp] theorem State.errorComplete_inputs (s : State) (e : CmdError) :
    (s.errorComplete e).inputs = s.inputs := rfl

@[simp] theorem State.errorComplete_response (s : State) (e : CmdError) :
    (s.errorComplete e).response = s.response := rfl

@[simp] theorem State.errorComplete_engineDelay (s : State) (e : CmdError) :
    (s.errorComplete e).engineDelay = s.engineDelay := rfl

@[simp] theorem State.errorComplete_issueCount (s : State) (e : CmdError) :
    (s.errorComplete e).issueCount = s.issueCount := rfl

/-! ### clearErr -/

@[simp] theorem State.clearErr_caps (s : State) :
    s.clearErr.caps = s.caps := rfl

@[simp] theorem State.clearErr_irqEn (s : State) :
    s.clearErr.irqEn = s.irqEn := rfl

@[simp] theorem State.clearErr_status (s : State) :
    s.clearErr.status = { s.status with err := false, errCode := .none } := rfl

@[simp] theorem State.clearErr_cmd (s : State) :
    s.clearErr.cmd = s.cmd := rfl

@[simp] theorem State.clearErr_errInfo (s : State) :
    s.clearErr.errInfo = ⟨0#16, 0#32⟩ := rfl

@[simp] theorem State.clearErr_cfg (s : State) :
    s.clearErr.cfg = s.cfg := rfl

@[simp] theorem State.clearErr_args (s : State) :
    s.clearErr.args = s.args := rfl

@[simp] theorem State.clearErr_res0 (s : State) :
    s.clearErr.res0 = s.res0 := rfl

@[simp] theorem State.clearErr_res1 (s : State) :
    s.clearErr.res1 = s.res1 := rfl

@[simp] theorem State.clearErr_sigBase (s : State) :
    s.clearErr.sigBase = s.sigBase := rfl

@[simp] theorem State.clearErr_sigLen (s : State) :
    s.clearErr.sigLen = s.sigLen := rfl

@[simp] theorem State.clearErr_prior (s : State) :
    s.clearErr.prior = s.prior := rfl

@[simp] theorem State.clearErr_basisTag (s : State) :
    s.clearErr.basisTag = s.basisTag := rfl

@[simp] theorem State.clearErr_basisStep (s : State) :
    s.clearErr.basisStep = s.basisStep := rfl

@[simp] theorem State.clearErr_bufs (s : State) :
    s.clearErr.bufs = s.bufs := rfl

@[simp] theorem State.clearErr_dmem (s : State) :
    s.clearErr.dmem = s.dmem := rfl

@[simp] theorem State.clearErr_inputs (s : State) :
    s.clearErr.inputs = s.inputs := rfl

@[simp] theorem State.clearErr_response (s : State) :
    s.clearErr.response = s.response := rfl

@[simp] theorem State.clearErr_engineDelay (s : State) :
    s.clearErr.engineDelay = s.engineDelay := rfl

@[simp] theorem State.clearErr_issueCount (s : State) :
    s.clearErr.issueCount = s.issueCount := rfl

/-! ### clearDone -/

@[simp] theorem State.clearDone_caps (s : State) :
    s.clearDone.caps = s.caps := rfl

@[simp] theorem State.clearDone_irqEn (s : State) :
    s.clearDone.irqEn = s.irqEn := rfl

@[simp] theorem State.clearDone_status (s : State) :
    s.clearDone.status = { s.status with done := false } := rfl

@[simp] theorem State.clearDone_cmd (s : State) :
    s.clearDone.cmd = s.cmd := rfl

@[simp] theorem State.clearDone_errInfo (s : State) :
    s.clearDone.errInfo = s.errInfo := rfl

@[simp] theorem State.clearDone_cfg (s : State) :
    s.clearDone.cfg = s.cfg := rfl

@[simp] theorem State.clearDone_args (s : State) :
    s.clearDone.args = s.args := rfl

@[simp] theorem State.clearDone_res0 (s : State) :
    s.clearDone.res0 = s.res0 := rfl

@[simp] theorem State.clearDone_res1 (s : State) :
    s.clearDone.res1 = s.res1 := rfl

@[simp] theorem State.clearDone_sigBase (s : State) :
    s.clearDone.sigBase = s.sigBase := rfl

@[simp] theorem State.clearDone_sigLen (s : State) :
    s.clearDone.sigLen = s.sigLen := rfl

@[simp] theorem State.clearDone_prior (s : State) :
    s.clearDone.prior = s.prior := rfl

@[simp] theorem State.clearDone_basisTag (s : State) :
    s.clearDone.basisTag = s.basisTag := rfl

@[simp] theorem State.clearDone_basisStep (s : State) :
    s.clearDone.basisStep = s.basisStep := rfl

@[simp] theorem State.clearDone_bufs (s : State) :
    s.clearDone.bufs = s.bufs := rfl

@[simp] theorem State.clearDone_dmem (s : State) :
    s.clearDone.dmem = s.dmem := rfl

@[simp] theorem State.clearDone_inputs (s : State) :
    s.clearDone.inputs = s.inputs := rfl

@[simp] theorem State.clearDone_response (s : State) :
    s.clearDone.response = s.response := rfl

@[simp] theorem State.clearDone_engineDelay (s : State) :
    s.clearDone.engineDelay = s.engineDelay := rfl

@[simp] theorem State.clearDone_issueCount (s : State) :
    s.clearDone.issueCount = s.issueCount := rfl

/-! ### issue -/

@[simp] theorem State.issue_caps (s : State) (d : Word) :
    (s.issue d).caps = s.caps := rfl

@[simp] theorem State.issue_irqEn (s : State) (d : Word) :
    (s.issue d).irqEn = s.irqEn := rfl

@[simp] theorem State.issue_status (s : State) (d : Word) :
    (s.issue d).status = { s.status with
      lastOp := d.extractLsb' 0 8, done := false, err := false, errCode := .none, busy := true } := rfl

@[simp] theorem State.issue_cmd (s : State) (d : Word) :
    (s.issue d).cmd = d := rfl

@[simp] theorem State.issue_errInfo (s : State) (d : Word) :
    (s.issue d).errInfo = ⟨0#16, 0#32⟩ := rfl

@[simp] theorem State.issue_cfg (s : State) (d : Word) :
    (s.issue d).cfg = s.cfg := rfl

@[simp] theorem State.issue_args (s : State) (d : Word) :
    (s.issue d).args = s.args := rfl

@[simp] theorem State.issue_res0 (s : State) (d : Word) :
    (s.issue d).res0 = s.res0 := rfl

@[simp] theorem State.issue_res1 (s : State) (d : Word) :
    (s.issue d).res1 = s.res1 := rfl

@[simp] theorem State.issue_sigBase (s : State) (d : Word) :
    (s.issue d).sigBase = s.sigBase := rfl

@[simp] theorem State.issue_sigLen (s : State) (d : Word) :
    (s.issue d).sigLen = s.sigLen := rfl

@[simp] theorem State.issue_prior (s : State) (d : Word) :
    (s.issue d).prior = s.prior := rfl

@[simp] theorem State.issue_basisTag (s : State) (d : Word) :
    (s.issue d).basisTag = s.basisTag := rfl

@[simp] theorem State.issue_basisStep (s : State) (d : Word) :
    (s.issue d).basisStep = s.basisStep := rfl

@[simp] theorem State.issue_bufs (s : State) (d : Word) :
    (s.issue d).bufs = s.bufs := rfl

@[simp] theorem State.issue_dmem (s : State) (d : Word) :
    (s.issue d).dmem = s.dmem := rfl

@[simp] theorem State.issue_inputs (s : State) (d : Word) :
    (s.issue d).inputs = s.inputs := rfl

@[simp] theorem State.issue_response (s : State) (d : Word) :
    (s.issue d).response = s.response := rfl

@[simp] theorem State.issue_engineDelay (s : State) (d : Word) :
    (s.issue d).engineDelay = Config.commandLatency d s.issueCount := rfl

@[simp] theorem State.issue_issueCount (s : State) (d : Word) :
    (s.issue d).issueCount = s.issueCount + 1 := rfl

/-! ### softReset -/

@[simp] theorem State.softReset_caps (s : State) :
    s.softReset.caps = s.caps := rfl

@[simp] theorem State.softReset_irqEn (s : State) :
    s.softReset.irqEn = false := rfl

@[simp] theorem State.softReset_status (s : State) :
    s.softReset.status = Status.reset := rfl

@[simp] theorem State.softReset_cmd (s : State) :
    s.softReset.cmd = 0#64 := rfl

@[simp] theorem State.softReset_errInfo (s : State) :
    s.softReset.errInfo = ⟨0#16, 0#32⟩ := rfl

@[simp] theorem State.softReset_cfg (s : State) :
    s.softReset.cfg = Cfg.reset := rfl

@[simp] theorem State.softReset_args (s : State) :
    s.softReset.args = #v[0#64, 0#64, 0#64, 0#64, 0#64, 0#64] := rfl

@[simp] theorem State.softReset_res0 (s : State) :
    s.softReset.res0 = 0#64 := rfl

@[simp] theorem State.softReset_res1 (s : State) :
    s.softReset.res1 = 0#64 := rfl

@[simp] theorem State.softReset_sigBase (s : State) :
    s.softReset.sigBase = 0#64 := rfl

@[simp] theorem State.softReset_sigLen (s : State) :
    s.softReset.sigLen = 0#64 := rfl

@[simp] theorem State.softReset_prior (s : State) :
    s.softReset.prior = #v[0#64, 0#64, 0#64, 0#64] := rfl

@[simp] theorem State.softReset_basisTag (s : State) :
    s.softReset.basisTag = BasisTag.reset := rfl

@[simp] theorem State.softReset_basisStep (s : State) :
    s.softReset.basisStep = 0#64 := rfl

@[simp] theorem State.softReset_bufs (s : State) :
    s.softReset.bufs = Buffers.unwritten := rfl

@[simp] theorem State.softReset_dmem (s : State) :
    s.softReset.dmem = s.dmem := rfl

@[simp] theorem State.softReset_inputs (s : State) :
    s.softReset.inputs = s.inputs := rfl

@[simp] theorem State.softReset_response (s : State) :
    s.softReset.response = s.response := rfl

@[simp] theorem State.softReset_engineDelay (s : State) :
    s.softReset.engineDelay = 0 := rfl

@[simp] theorem State.softReset_issueCount (s : State) :
    s.softReset.issueCount = s.issueCount := rfl

/-! ### powerOnReset -/

@[simp] theorem State.powerOnReset_caps (s : State) :
    s.powerOnReset.caps = s.caps := rfl

@[simp] theorem State.powerOnReset_irqEn (s : State) :
    s.powerOnReset.irqEn = false := rfl

@[simp] theorem State.powerOnReset_status (s : State) :
    s.powerOnReset.status = Status.reset := rfl

@[simp] theorem State.powerOnReset_cmd (s : State) :
    s.powerOnReset.cmd = 0#64 := rfl

@[simp] theorem State.powerOnReset_errInfo (s : State) :
    s.powerOnReset.errInfo = ⟨0#16, 0#32⟩ := rfl

@[simp] theorem State.powerOnReset_cfg (s : State) :
    s.powerOnReset.cfg = Cfg.reset := rfl

@[simp] theorem State.powerOnReset_args (s : State) :
    s.powerOnReset.args = #v[0#64, 0#64, 0#64, 0#64, 0#64, 0#64] := rfl

@[simp] theorem State.powerOnReset_res0 (s : State) :
    s.powerOnReset.res0 = 0#64 := rfl

@[simp] theorem State.powerOnReset_res1 (s : State) :
    s.powerOnReset.res1 = 0#64 := rfl

@[simp] theorem State.powerOnReset_sigBase (s : State) :
    s.powerOnReset.sigBase = 0#64 := rfl

@[simp] theorem State.powerOnReset_sigLen (s : State) :
    s.powerOnReset.sigLen = 0#64 := rfl

@[simp] theorem State.powerOnReset_prior (s : State) :
    s.powerOnReset.prior = #v[0#64, 0#64, 0#64, 0#64] := rfl

@[simp] theorem State.powerOnReset_basisTag (s : State) :
    s.powerOnReset.basisTag = BasisTag.reset := rfl

@[simp] theorem State.powerOnReset_basisStep (s : State) :
    s.powerOnReset.basisStep = 0#64 := rfl

@[simp] theorem State.powerOnReset_bufs (s : State) :
    s.powerOnReset.bufs = Buffers.unwritten := rfl

@[simp] theorem State.powerOnReset_dmem (s : State) :
    s.powerOnReset.dmem = [] := rfl

@[simp] theorem State.powerOnReset_inputs (s : State) :
    s.powerOnReset.inputs = s.inputs := rfl

@[simp] theorem State.powerOnReset_response (s : State) :
    s.powerOnReset.response = s.response := rfl

@[simp] theorem State.powerOnReset_engineDelay (s : State) :
    s.powerOnReset.engineDelay = 0 := rfl

@[simp] theorem State.powerOnReset_issueCount (s : State) :
    s.powerOnReset.issueCount = s.issueCount := rfl

/-! ### writeCfg -/

@[simp] theorem State.writeCfg_caps (s : State) (r : CfgReg) (d : Word) :
    (s.writeCfg r d).caps = s.caps := rfl

@[simp] theorem State.writeCfg_irqEn (s : State) (r : CfgReg) (d : Word) :
    (s.writeCfg r d).irqEn = s.irqEn := rfl

@[simp] theorem State.writeCfg_status (s : State) (r : CfgReg) (d : Word) :
    (s.writeCfg r d).status = s.status.afterCfgWrite r := rfl

@[simp] theorem State.writeCfg_cmd (s : State) (r : CfgReg) (d : Word) :
    (s.writeCfg r d).cmd = s.cmd := rfl

@[simp] theorem State.writeCfg_errInfo (s : State) (r : CfgReg) (d : Word) :
    (s.writeCfg r d).errInfo = s.errInfo := rfl

@[simp] theorem State.writeCfg_cfg (s : State) (r : CfgReg) (d : Word) :
    (s.writeCfg r d).cfg = s.cfg.store d r := rfl

@[simp] theorem State.writeCfg_args (s : State) (r : CfgReg) (d : Word) :
    (s.writeCfg r d).args = s.args := rfl

@[simp] theorem State.writeCfg_res0 (s : State) (r : CfgReg) (d : Word) :
    (s.writeCfg r d).res0 = s.res0 := rfl

@[simp] theorem State.writeCfg_res1 (s : State) (r : CfgReg) (d : Word) :
    (s.writeCfg r d).res1 = s.res1 := rfl

@[simp] theorem State.writeCfg_sigBase (s : State) (r : CfgReg) (d : Word) :
    (s.writeCfg r d).sigBase = s.sigBase := rfl

@[simp] theorem State.writeCfg_sigLen (s : State) (r : CfgReg) (d : Word) :
    (s.writeCfg r d).sigLen = s.sigLen := rfl

@[simp] theorem State.writeCfg_prior (s : State) (r : CfgReg) (d : Word) :
    (s.writeCfg r d).prior = s.prior := rfl

@[simp] theorem State.writeCfg_basisTag (s : State) (r : CfgReg) (d : Word) :
    (s.writeCfg r d).basisTag = s.basisTag := rfl

@[simp] theorem State.writeCfg_basisStep (s : State) (r : CfgReg) (d : Word) :
    (s.writeCfg r d).basisStep = s.basisStep := rfl

@[simp] theorem State.writeCfg_bufs (s : State) (r : CfgReg) (d : Word) :
    (s.writeCfg r d).bufs = s.bufs := rfl

@[simp] theorem State.writeCfg_dmem (s : State) (r : CfgReg) (d : Word) :
    (s.writeCfg r d).dmem = s.dmem := rfl

@[simp] theorem State.writeCfg_inputs (s : State) (r : CfgReg) (d : Word) :
    (s.writeCfg r d).inputs = s.inputs := rfl

@[simp] theorem State.writeCfg_response (s : State) (r : CfgReg) (d : Word) :
    (s.writeCfg r d).response = s.response := rfl

@[simp] theorem State.writeCfg_engineDelay (s : State) (r : CfgReg) (d : Word) :
    (s.writeCfg r d).engineDelay = s.engineDelay := rfl

@[simp] theorem State.writeCfg_issueCount (s : State) (r : CfgReg) (d : Word) :
    (s.writeCfg r d).issueCount = s.issueCount := rfl

/-! ### setBasis -/

@[simp] theorem State.setBasis_caps (s : State) (v : BasisVariant) (o : Bool) (m n : Nat) (x : F64) (f : Nat → Nat → F64) :
    (s.setBasis v o m n x f).caps = s.caps := rfl

@[simp] theorem State.setBasis_irqEn (s : State) (v : BasisVariant) (o : Bool) (m n : Nat) (x : F64) (f : Nat → Nat → F64) :
    (s.setBasis v o m n x f).irqEn = s.irqEn := rfl

@[simp] theorem State.setBasis_status (s : State) (v : BasisVariant) (o : Bool) (m n : Nat) (x : F64) (f : Nat → Nat → F64) :
    (s.setBasis v o m n x f).status = s.status := rfl

@[simp] theorem State.setBasis_cmd (s : State) (v : BasisVariant) (o : Bool) (m n : Nat) (x : F64) (f : Nat → Nat → F64) :
    (s.setBasis v o m n x f).cmd = s.cmd := rfl

@[simp] theorem State.setBasis_errInfo (s : State) (v : BasisVariant) (o : Bool) (m n : Nat) (x : F64) (f : Nat → Nat → F64) :
    (s.setBasis v o m n x f).errInfo = s.errInfo := rfl

@[simp] theorem State.setBasis_cfg (s : State) (v : BasisVariant) (o : Bool) (m n : Nat) (x : F64) (f : Nat → Nat → F64) :
    (s.setBasis v o m n x f).cfg = s.cfg := rfl

@[simp] theorem State.setBasis_args (s : State) (v : BasisVariant) (o : Bool) (m n : Nat) (x : F64) (f : Nat → Nat → F64) :
    (s.setBasis v o m n x f).args = s.args := rfl

@[simp] theorem State.setBasis_res0 (s : State) (v : BasisVariant) (o : Bool) (m n : Nat) (x : F64) (f : Nat → Nat → F64) :
    (s.setBasis v o m n x f).res0 = s.res0 := rfl

@[simp] theorem State.setBasis_res1 (s : State) (v : BasisVariant) (o : Bool) (m n : Nat) (x : F64) (f : Nat → Nat → F64) :
    (s.setBasis v o m n x f).res1 = s.res1 := rfl

@[simp] theorem State.setBasis_sigBase (s : State) (v : BasisVariant) (o : Bool) (m n : Nat) (x : F64) (f : Nat → Nat → F64) :
    (s.setBasis v o m n x f).sigBase = s.sigBase := rfl

@[simp] theorem State.setBasis_sigLen (s : State) (v : BasisVariant) (o : Bool) (m n : Nat) (x : F64) (f : Nat → Nat → F64) :
    (s.setBasis v o m n x f).sigLen = s.sigLen := rfl

@[simp] theorem State.setBasis_prior (s : State) (v : BasisVariant) (o : Bool) (m n : Nat) (x : F64) (f : Nat → Nat → F64) :
    (s.setBasis v o m n x f).prior = s.prior := rfl

@[simp] theorem State.setBasis_basisTag (s : State) (v : BasisVariant) (o : Bool) (m n : Nat) (x : F64) (f : Nat → Nat → F64) :
    (s.setBasis v o m n x f).basisTag = ⟨v, o, BitVec.ofNat 16 m, BitVec.ofNat 16 n⟩ := rfl

@[simp] theorem State.setBasis_basisStep (s : State) (v : BasisVariant) (o : Bool) (m n : Nat) (x : F64) (f : Nat → Nat → F64) :
    (s.setBasis v o m n x f).basisStep = x := rfl

@[simp] theorem State.setBasis_bufs (s : State) (v : BasisVariant) (o : Bool) (m n : Nat) (x : F64) (f : Nat → Nat → F64) :
    (s.setBasis v o m n x f).bufs = { s.bufs with dctm := s.bufs.dctm.write 0 (rowMajor m n f) } := rfl

@[simp] theorem State.setBasis_dmem (s : State) (v : BasisVariant) (o : Bool) (m n : Nat) (x : F64) (f : Nat → Nat → F64) :
    (s.setBasis v o m n x f).dmem = s.dmem := rfl

@[simp] theorem State.setBasis_inputs (s : State) (v : BasisVariant) (o : Bool) (m n : Nat) (x : F64) (f : Nat → Nat → F64) :
    (s.setBasis v o m n x f).inputs = s.inputs := rfl

@[simp] theorem State.setBasis_response (s : State) (v : BasisVariant) (o : Bool) (m n : Nat) (x : F64) (f : Nat → Nat → F64) :
    (s.setBasis v o m n x f).response = s.response := rfl

@[simp] theorem State.setBasis_engineDelay (s : State) (v : BasisVariant) (o : Bool) (m n : Nat) (x : F64) (f : Nat → Nat → F64) :
    (s.setBasis v o m n x f).engineDelay = s.engineDelay := rfl

@[simp] theorem State.setBasis_issueCount (s : State) (v : BasisVariant) (o : Bool) (m n : Nat) (x : F64) (f : Nat → Nat → F64) :
    (s.setBasis v o m n x f).issueCount = s.issueCount := rfl

/-! ### pending -/

@[simp] theorem State.pending_caps (s : State) (d : Word) :
    (s.pending d).caps = s.caps := rfl

@[simp] theorem State.pending_irqEn (s : State) (d : Word) :
    (s.pending d).irqEn = s.irqEn := rfl

@[simp] theorem State.pending_status (s : State) (d : Word) :
    (s.pending d).status = { s.status with
      lastOp := d.extractLsb' 0 8, done := false, err := false, errCode := .none, busy := true } := rfl

@[simp] theorem State.pending_cmd (s : State) (d : Word) :
    (s.pending d).cmd = d := rfl

@[simp] theorem State.pending_errInfo (s : State) (d : Word) :
    (s.pending d).errInfo = ⟨0#16, 0#32⟩ := rfl

@[simp] theorem State.pending_cfg (s : State) (d : Word) :
    (s.pending d).cfg = s.cfg := rfl

@[simp] theorem State.pending_args (s : State) (d : Word) :
    (s.pending d).args = s.args := rfl

@[simp] theorem State.pending_res0 (s : State) (d : Word) :
    (s.pending d).res0 = s.res0 := rfl

@[simp] theorem State.pending_res1 (s : State) (d : Word) :
    (s.pending d).res1 = s.res1 := rfl

@[simp] theorem State.pending_sigBase (s : State) (d : Word) :
    (s.pending d).sigBase = s.sigBase := rfl

@[simp] theorem State.pending_sigLen (s : State) (d : Word) :
    (s.pending d).sigLen = s.sigLen := rfl

@[simp] theorem State.pending_prior (s : State) (d : Word) :
    (s.pending d).prior = s.prior := rfl

@[simp] theorem State.pending_basisTag (s : State) (d : Word) :
    (s.pending d).basisTag = s.basisTag := rfl

@[simp] theorem State.pending_basisStep (s : State) (d : Word) :
    (s.pending d).basisStep = s.basisStep := rfl

@[simp] theorem State.pending_bufs (s : State) (d : Word) :
    (s.pending d).bufs = s.bufs := rfl

@[simp] theorem State.pending_dmem (s : State) (d : Word) :
    (s.pending d).dmem = s.dmem := rfl

@[simp] theorem State.pending_inputs (s : State) (d : Word) :
    (s.pending d).inputs = [] := rfl

@[simp] theorem State.pending_response (s : State) (d : Word) :
    (s.pending d).response = s.response := rfl

@[simp] theorem State.pending_engineDelay (s : State) (d : Word) :
    (s.pending d).engineDelay = 0 := rfl

@[simp] theorem State.pending_issueCount (s : State) (d : Word) :
    (s.pending d).issueCount = s.issueCount + 1 := rfl

end Sys2Proof.Machine
end

