-- ==== Sys2Proof/Laws/Effects.lean ====
section
/-! SUPPORT. Every command as checks and effects: `exec` runs the checks of a command and then its effects, and one
lemma says what each command's effects are and what all effects leave alone. -/

namespace Sys2Proof.Machine

/-- The checks of a command's own, in order (those after decoding, 30_encoding.md R114). -/
def checksOf (i : Instr) (s : State) : List (Bool × CmdError) :=
  match i with
  | .nop => []
  | .fbBuild => fbBuildChecks numerics s
  | .mel => []
  | .melInv => []
  | .winBuild => winBuildChecks s
  | .ctxReset _ => []
  | .frameCount => signalChecks s
  | .frameFetch => fetchChecks s
  | .preemph _ => [(decide (s.status.frameStage ≠ .raw), ⟨.sequenceError, 10, 0⟩)]
  | .window => [(decide (s.status.frameStage ≠ .cond), ⟨.sequenceError, 10, 0⟩)]
  | .framePrep _ => fetchChecks s
  | .specPower => [stageCheck s .wnd]
  | .specProject => stageCheck s .pwr :: projectChecks s
  | .specLogMel => stageCheck s .wnd :: projectChecks s
  | .dctBasis _ => dctBasisChecks s
  | .dctOrth => transformChecks s s.argN s.argK
  | .dct2 => transformChecks s s.argN s.argK
  | .idctOrth => transformChecks s s.argN s.argK
  | .dct3 => transformChecks s s.argN s.argK
  | .dctLegacy => transformChecks s s.nfilt s.ncep

/-- The effects of a command, before its completion. -/
def effectsOf (i : Instr) (s : State) : Except Fault State :=
  match i with
  | .nop => .ok s
  | .fbBuild => .ok (fbBuildEffects numerics s)
  | .mel => .ok (melEffects numerics s)
  | .melInv => .ok (melInvEffects numerics s)
  | .winBuild => .ok (winBuildEffects numerics s)
  | .ctxReset c => .ok (s.setPrior c posZero)
  | .frameCount => frameCountEffects s
  | .frameFetch => fetchEffects s
  | .preemph c => preemphEffects c s
  | .window => windowEffects s
  | .framePrep c => framePrepEffects c s
  | .specPower => powerEffects numerics s
  | .specProject => projectEffects numerics s
  | .specLogMel => logMelEffects numerics s
  | .dctBasis o => .ok (dctBasisEffects numerics o s)
  | .dctOrth => dctOrthEffects numerics s
  | .dct2 => dct2Effects numerics s
  | .idctOrth => idctOrthEffects numerics s
  | .dct3 => dct3Effects numerics s
  | .dctLegacy => dctLegacyEffects numerics s

theorem runTotal_eq_runReading (checks : List (Bool × CmdError)) (eff : State → State) (s : State) :
    runTotal checks eff s = runReading checks (fun u => .ok (eff u)) s := by
  unfold runTotal runReading
  cases firstError checks <;> rfl

/-- Every command is its checks, then its effects, then completion (60_exceptions.md R323). -/
theorem exec_eq_run (i : Instr) (s : State) : exec i s = runReading (checksOf i s) (effectsOf i) s := by
  cases i with
  | nop => exact runTotal_eq_runReading [] (fun s => s) s
  | fbBuild => exact runTotal_eq_runReading _ _ _
  | mel => exact runTotal_eq_runReading [] (melEffects numerics) s
  | melInv => exact runTotal_eq_runReading [] (melInvEffects numerics) s
  | winBuild => exact runTotal_eq_runReading _ _ _
  | ctxReset c => exact runTotal_eq_runReading [] (fun t => t.setPrior c posZero) s
  | dctBasis o => exact runTotal_eq_runReading _ _ _
  | frameCount => rfl
  | frameFetch => rfl
  | preemph c => rfl
  | window => rfl
  | framePrep c => rfl
  | specPower => rfl
  | specProject => rfl
  | specLogMel => rfl
  | dctOrth => rfl
  | dct2 => rfl
  | idctOrth => rfl
  | dct3 => rfl
  | dctLegacy => rfl

/-- All a command that answers can do. -/
theorem exec_cases {i : Instr} {s t : State} (h : exec i s = .next t) :
    (∃ e, firstError (checksOf i s) = some e ∧ t = s.errorComplete e) ∨
    (firstError (checksOf i s) = none ∧ ∃ u, effectsOf i s = .ok u ∧ t = u.complete) := by
  rw [exec_eq_run] at h
  exact runReading_cases h

theorem exec_of_effects {i : Instr} {s u : State} (hc : firstError (checksOf i s) = none)
    (hu : effectsOf i s = .ok u) : exec i s = .next u.complete := by
  rw [exec_eq_run]
  exact runReading_ok hc hu

theorem exec_of_error {i : Instr} {s : State} {e : CmdError} (h : firstError (checksOf i s) = some e) :
    exec i s = .next (s.errorComplete e) := by
  rw [exec_eq_run]
  exact runReading_error _ _ h

theorem exec_fault {i : Instr} {s : State} {f : Fault} (h : exec i s = .fault f) :
    firstError (checksOf i s) = none ∧ effectsOf i s = .error f := by
  rw [exec_eq_run] at h
  exact runReading_fault h

theorem exec_of_fault {i : Instr} {s : State} {f : Fault} (hc : firstError (checksOf i s) = none)
    (hf : effectsOf i s = .error f) : exec i s = .fault f := by
  rw [exec_eq_run]
  simp only [runReading, hc, hf]

/-- No command is refused. -/
theorem exec_not_refused (i : Instr) (s : State) (r : Refusal) : exec i s ≠ .refused r := by
  rw [exec_eq_run]
  exact runReading_no_refusal

/-- The basis with its tag and step, then the batch (44_dct.md R275 to R279). -/
theorem applyBatch_setBasis_of {s : State} {input : List Word} (v : BasisVariant) (o : Bool)
    (rows cols n k : Nat) (step : F64) (entry : Nat → Nat → F64) (f : List F64 → Nat → F64)
    (h : readRange .dmem s.dmem s.src (s.rows * n) = .ok input) :
    applyBatch (s.setBasis v o rows cols step entry) n k f = .ok { s with
      bufs := { s.bufs with dctm := s.bufs.dctm.write 0 (rowMajor rows cols entry) }
      basisTag := ⟨v, o, BitVec.ofNat 16 rows, BitVec.ofNat 16 cols⟩
      basisStep := step
      dmem := s.dmem.write s.dst (rowMajor s.rows k (fun m j => f (batchRow input n m) j)) } := by
  rw [applyBatch_of (s := s.setBasis v o rows cols step entry) (input := input) h]
  rfl

theorem applyBatch_setBasis_error {s : State} {v : BasisVariant} {o : Bool} {rows cols n k : Nat} {step : F64}
    {entry : Nat → Nat → F64} {f : List F64 → Nat → F64} {g : Fault}
    (h : applyBatch (s.setBasis v o rows cols step entry) n k f = .error g) :
    ∃ i, i < s.rows * n ∧ g = .readUnwritten .dmem (s.src + i) ∧ s.dmem.read (s.src + i) = none :=
  applyBatch_error (s := s.setBasis v o rows cols step entry) h

/-- The effects of DCT_ORTH where every input word is written (44_dct.md R275). -/
theorem dctOrthEffects_ok {nu : Numerics} {s t : State} (h : dctOrthEffects nu s = .ok t) :
    ∃ input, readRange .dmem s.dmem s.src (s.rows * s.argN) = .ok input ∧
      t = { s with
        bufs := { s.bufs with dctm := s.bufs.dctm.write 0 (rowMajor s.argN s.argK (dctMatrix nu (fdiv cPi (ofNat s.argN)) true)) }
        basisTag := ⟨.orth2, true, BitVec.ofNat 16 s.argN, BitVec.ofNat 16 s.argK⟩
        basisStep := (fdiv cPi (ofNat s.argN))
        dmem := s.dmem.write s.dst (rowMajor s.rows s.argK (fun m j =>
          fmul (dotRow (batchRow input s.argN m) (fun n => dctMatrix nu (fdiv cPi (ofNat s.argN)) true n j))
            (fsqrt (fdiv cTwo (ofNat s.argN))))) } := by
  simp only [dctOrthEffects] at h
  obtain ⟨input, hr, ht⟩ := applyBatch_ok h
  exact ⟨input, hr, ht⟩

theorem dctOrthEffects_of {nu : Numerics} {s : State} {input : List Word}
    (h : readRange .dmem s.dmem s.src (s.rows * s.argN) = .ok input) :
    dctOrthEffects nu s = .ok { s with
        bufs := { s.bufs with dctm := s.bufs.dctm.write 0 (rowMajor s.argN s.argK (dctMatrix nu (fdiv cPi (ofNat s.argN)) true)) }
        basisTag := ⟨.orth2, true, BitVec.ofNat 16 s.argN, BitVec.ofNat 16 s.argK⟩
        basisStep := (fdiv cPi (ofNat s.argN))
        dmem := s.dmem.write s.dst (rowMajor s.rows s.argK (fun m j =>
          fmul (dotRow (batchRow input s.argN m) (fun n => dctMatrix nu (fdiv cPi (ofNat s.argN)) true n j))
            (fsqrt (fdiv cTwo (ofNat s.argN))))) } := by
  simp only [dctOrthEffects]
  exact applyBatch_setBasis_of _ _ _ _ _ _ _ _ _ h

theorem dctOrthEffects_error {nu : Numerics} {s : State} {f : Fault} (h : dctOrthEffects nu s = .error f) :
    ∃ i, i < s.rows * s.argN ∧ f = .readUnwritten .dmem (s.src + i) ∧ s.dmem.read (s.src + i) = none := by
  simp only [dctOrthEffects] at h
  exact applyBatch_setBasis_error h

/-- The effects of DCT2 where every input word is written (44_dct.md R276). -/
theorem dct2Effects_ok {nu : Numerics} {s t : State} (h : dct2Effects nu s = .ok t) :
    ∃ input, readRange .dmem s.dmem s.src (s.rows * s.argN) = .ok input ∧
      t = { s with
        bufs := { s.bufs with dctm := s.bufs.dctm.write 0 (rowMajor s.argN s.argK (dctMatrix nu (fdiv cPi (ofNat s.argN)) false)) }
        basisTag := ⟨.norm2, false, BitVec.ofNat 16 s.argN, BitVec.ofNat 16 s.argK⟩
        basisStep := (fdiv cPi (ofNat s.argN))
        dmem := s.dmem.write s.dst (rowMajor s.rows s.argK (fun m j =>
          fmul (dotRow (batchRow input s.argN m) (fun n => dctMatrix nu (fdiv cPi (ofNat s.argN)) false n j))
            (fdiv cTwo (ofNat s.argN)))) } := by
  simp only [dct2Effects] at h
  obtain ⟨input, hr, ht⟩ := applyBatch_ok h
  exact ⟨input, hr, ht⟩

theorem dct2Effects_of {nu : Numerics} {s : State} {input : List Word}
    (h : readRange .dmem s.dmem s.src (s.rows * s.argN) = .ok input) :
    dct2Effects nu s = .ok { s with
        bufs := { s.bufs with dctm := s.bufs.dctm.write 0 (rowMajor s.argN s.argK (dctMatrix nu (fdiv cPi (ofNat s.argN)) false)) }
        basisTag := ⟨.norm2, false, BitVec.ofNat 16 s.argN, BitVec.ofNat 16 s.argK⟩
        basisStep := (fdiv cPi (ofNat s.argN))
        dmem := s.dmem.write s.dst (rowMajor s.rows s.argK (fun m j =>
          fmul (dotRow (batchRow input s.argN m) (fun n => dctMatrix nu (fdiv cPi (ofNat s.argN)) false n j))
            (fdiv cTwo (ofNat s.argN)))) } := by
  simp only [dct2Effects]
  exact applyBatch_setBasis_of _ _ _ _ _ _ _ _ _ h

theorem dct2Effects_error {nu : Numerics} {s : State} {f : Fault} (h : dct2Effects nu s = .error f) :
    ∃ i, i < s.rows * s.argN ∧ f = .readUnwritten .dmem (s.src + i) ∧ s.dmem.read (s.src + i) = none := by
  simp only [dct2Effects] at h
  exact applyBatch_setBasis_error h

/-- The effects of IDCT_ORTH where every input word is written (44_dct.md R277). -/
theorem idctOrthEffects_ok {nu : Numerics} {s t : State} (h : idctOrthEffects nu s = .ok t) :
    ∃ input, readRange .dmem s.dmem s.src (s.rows * s.argN) = .ok input ∧
      t = { s with
        bufs := { s.bufs with dctm := s.bufs.dctm.write 0 (rowMajor s.argN s.argK (fun n k => dctMatrix nu (fdiv cPi (ofNat s.argK)) true k n)) }
        basisTag := ⟨.orth3, true, BitVec.ofNat 16 s.argN, BitVec.ofNat 16 s.argK⟩
        basisStep := (fdiv cPi (ofNat s.argK))
        dmem := s.dmem.write s.dst (rowMajor s.rows s.argK (fun m j =>
          fmul (dotRow (batchRow input s.argN m) (fun n => dctMatrix nu (fdiv cPi (ofNat s.argK)) true j n))
            (fsqrt (fdiv cTwo (ofNat s.argK))))) } := by
  simp only [idctOrthEffects] at h
  obtain ⟨input, hr, ht⟩ := applyBatch_ok h
  exact ⟨input, hr, ht⟩

theorem idctOrthEffects_of {nu : Numerics} {s : State} {input : List Word}
    (h : readRange .dmem s.dmem s.src (s.rows * s.argN) = .ok input) :
    idctOrthEffects nu s = .ok { s with
        bufs := { s.bufs with dctm := s.bufs.dctm.write 0 (rowMajor s.argN s.argK (fun n k => dctMatrix nu (fdiv cPi (ofNat s.argK)) true k n)) }
        basisTag := ⟨.orth3, true, BitVec.ofNat 16 s.argN, BitVec.ofNat 16 s.argK⟩
        basisStep := (fdiv cPi (ofNat s.argK))
        dmem := s.dmem.write s.dst (rowMajor s.rows s.argK (fun m j =>
          fmul (dotRow (batchRow input s.argN m) (fun n => dctMatrix nu (fdiv cPi (ofNat s.argK)) true j n))
            (fsqrt (fdiv cTwo (ofNat s.argK))))) } := by
  simp only [idctOrthEffects]
  exact applyBatch_setBasis_of _ _ _ _ _ _ _ _ _ h

theorem idctOrthEffects_error {nu : Numerics} {s : State} {f : Fault} (h : idctOrthEffects nu s = .error f) :
    ∃ i, i < s.rows * s.argN ∧ f = .readUnwritten .dmem (s.src + i) ∧ s.dmem.read (s.src + i) = none := by
  simp only [idctOrthEffects] at h
  exact applyBatch_setBasis_error h

/-- The effects of DCT3 where every input word is written (44_dct.md R278). -/
theorem dct3Effects_ok {nu : Numerics} {s t : State} (h : dct3Effects nu s = .ok t) :
    ∃ input, readRange .dmem s.dmem s.src (s.rows * s.argN) = .ok input ∧
      t = { s with
        bufs := { s.bufs with dctm := s.bufs.dctm.write 0 (rowMajor s.argN s.argK (fun n k => dct3Matrix nu (fdiv cPi (ofNat s.argK)) k n)) }
        basisTag := ⟨.norm3, false, BitVec.ofNat 16 s.argN, BitVec.ofNat 16 s.argK⟩
        basisStep := (fdiv cPi (ofNat s.argK))
        dmem := s.dmem.write s.dst (rowMajor s.rows s.argK (fun m j =>
          dotRow (batchRow input s.argN m) (fun n => dct3Matrix nu (fdiv cPi (ofNat s.argK)) j n))) } := by
  simp only [dct3Effects] at h
  obtain ⟨input, hr, ht⟩ := applyBatch_ok h
  exact ⟨input, hr, ht⟩

theorem dct3Effects_of {nu : Numerics} {s : State} {input : List Word}
    (h : readRange .dmem s.dmem s.src (s.rows * s.argN) = .ok input) :
    dct3Effects nu s = .ok { s with
        bufs := { s.bufs with dctm := s.bufs.dctm.write 0 (rowMajor s.argN s.argK (fun n k => dct3Matrix nu (fdiv cPi (ofNat s.argK)) k n)) }
        basisTag := ⟨.norm3, false, BitVec.ofNat 16 s.argN, BitVec.ofNat 16 s.argK⟩
        basisStep := (fdiv cPi (ofNat s.argK))
        dmem := s.dmem.write s.dst (rowMajor s.rows s.argK (fun m j =>
          dotRow (batchRow input s.argN m) (fun n => dct3Matrix nu (fdiv cPi (ofNat s.argK)) j n))) } := by
  simp only [dct3Effects]
  exact applyBatch_setBasis_of _ _ _ _ _ _ _ _ _ h

theorem dct3Effects_error {nu : Numerics} {s : State} {f : Fault} (h : dct3Effects nu s = .error f) :
    ∃ i, i < s.rows * s.argN ∧ f = .readUnwritten .dmem (s.src + i) ∧ s.dmem.read (s.src + i) = none := by
  simp only [dct3Effects] at h
  exact applyBatch_setBasis_error h

/-- The effects of DCT_LEGACY where every input word is written (44_dct.md R279). -/
theorem dctLegacyEffects_ok {nu : Numerics} {s t : State} (h : dctLegacyEffects nu s = .ok t) :
    ∃ input, readRange .dmem s.dmem s.src (s.rows * s.nfilt) = .ok input ∧
      t = { s with
        bufs := { s.bufs with dctm := s.bufs.dctm.write 0 (rowMajor s.ncep s.nfilt (legacyMatrix nu s.nfilt)) }
        basisTag := ⟨.legacy, false, BitVec.ofNat 16 s.ncep, BitVec.ofNat 16 s.nfilt⟩
        basisStep := posZero
        dmem := s.dmem.write s.dst (rowMajor s.rows s.ncep (fun m j =>
          fdiv (dotRow (batchRow input s.nfilt m) (legacyMatrix nu s.nfilt j)) (ofNat s.nfilt))) } := by
  simp only [dctLegacyEffects] at h
  obtain ⟨input, hr, ht⟩ := applyBatch_ok h
  exact ⟨input, hr, ht⟩

theorem dctLegacyEffects_of {nu : Numerics} {s : State} {input : List Word}
    (h : readRange .dmem s.dmem s.src (s.rows * s.nfilt) = .ok input) :
    dctLegacyEffects nu s = .ok { s with
        bufs := { s.bufs with dctm := s.bufs.dctm.write 0 (rowMajor s.ncep s.nfilt (legacyMatrix nu s.nfilt)) }
        basisTag := ⟨.legacy, false, BitVec.ofNat 16 s.ncep, BitVec.ofNat 16 s.nfilt⟩
        basisStep := posZero
        dmem := s.dmem.write s.dst (rowMajor s.rows s.ncep (fun m j =>
          fdiv (dotRow (batchRow input s.nfilt m) (legacyMatrix nu s.nfilt j)) (ofNat s.nfilt))) } := by
  simp only [dctLegacyEffects]
  exact applyBatch_setBasis_of _ _ _ _ _ _ _ _ _ h

theorem dctLegacyEffects_error {nu : Numerics} {s : State} {f : Fault} (h : dctLegacyEffects nu s = .error f) :
    ∃ i, i < s.rows * s.nfilt ∧ f = .readUnwritten .dmem (s.src + i) ∧ s.dmem.read (s.src + i) = none := by
  simp only [dctLegacyEffects] at h
  exact applyBatch_setBasis_error h

/-- What the effects of every command leave alone: the operands, the error state, BUSY, DONE, LAST_OP, the instance
and the model's own fields. -/
theorem effectsOf_frame {i : Instr} {s t : State} (h : effectsOf i s = .ok t) :
    t.caps = s.caps ∧ t.irqEn = s.irqEn ∧ t.cmd = s.cmd ∧ t.errInfo = s.errInfo ∧ t.cfg = s.cfg ∧
    t.args = s.args ∧ t.sigBase = s.sigBase ∧ t.sigLen = s.sigLen ∧ t.inputs = s.inputs ∧
    t.response = s.response ∧ t.engineDelay = s.engineDelay ∧ t.issueCount = s.issueCount ∧
    t.status.busy = s.status.busy ∧ t.status.done = s.status.done ∧ t.status.err = s.status.err ∧
    t.status.errCode = s.status.errCode ∧ t.status.lastOp = s.status.lastOp := by
  cases i with
  | nop => cases h; simp
  | fbBuild => cases h; simp [fbBuildEffects]
  | mel => cases h; simp [melEffects]
  | melInv => cases h; simp [melInvEffects]
  | winBuild => cases h; simp [winBuildEffects]
  | ctxReset c => cases h; simp
  | dctBasis o => cases h; simp [dctBasisEffects]
  | frameCount => obtain ⟨_, _, rfl⟩ := frameCountEffects_ok h; simp
  | frameFetch => obtain ⟨_, _, _, _, rfl⟩ := fetchEffects_ok h; simp
  | preemph c => obtain ⟨_, _, _, _, rfl⟩ := preemphEffects_ok h; simp
  | window => obtain ⟨_, _, _, _, rfl⟩ := windowEffects_ok h; simp
  | framePrep c =>
    obtain ⟨u, v, h1, h2, h3⟩ := framePrepEffects_ok h
    obtain ⟨_, _, _, _, rfl⟩ := fetchEffects_ok h1
    obtain ⟨_, _, _, _, rfl⟩ := preemphEffects_ok h2
    obtain ⟨_, _, _, _, rfl⟩ := windowEffects_ok h3
    simp
  | specPower => obtain ⟨_, _, rfl⟩ := powerEffects_ok h; simp
  | specProject => obtain ⟨_, _, _, _, rfl⟩ := projectEffects_ok h; simp
  | specLogMel =>
    obtain ⟨u, h1, h2⟩ := logMelEffects_ok h
    obtain ⟨_, _, rfl⟩ := powerEffects_ok h1
    obtain ⟨_, _, _, _, rfl⟩ := projectEffects_ok h2
    simp
  | dctOrth => obtain ⟨_, _, rfl⟩ := dctOrthEffects_ok h; simp
  | dct2 => obtain ⟨_, _, rfl⟩ := dct2Effects_ok h; simp
  | idctOrth => obtain ⟨_, _, rfl⟩ := idctOrthEffects_ok h; simp
  | dct3 => obtain ⟨_, _, rfl⟩ := dct3Effects_ok h; simp
  | dctLegacy => obtain ⟨_, _, rfl⟩ := dctLegacyEffects_ok h; simp

end Sys2Proof.Machine
end

