-- ==== Sys2Proof/Laws/Flags.lean ====
section
/-! SUPPORT. The status words as numbers: each field at its place. -/

namespace Sys2Proof.Machine

theorem toNat_append_add {n m : Nat} (x : BitVec n) (y : BitVec m) :
    (x ++ y).toNat = x.toNat * 2 ^ m + y.toNat := by
  rw [BitVec.toNat_append, ← Nat.shiftLeft_add_eq_or_of_lt y.isLt, Nat.shiftLeft_eq]

/-- STATUS as a number, field by field (10_state.md R36). -/
theorem Status.word_toNat (t : Status) :
    t.word.toNat = t.busy.toNat + t.done.toNat * 2 ^ 1 + t.err.toNat * 2 ^ 2 + t.fbValid.toNat * 2 ^ 4 +
      t.winValid.toNat * 2 ^ 5 + t.errCode.toBits.toNat * 2 ^ 8 + t.frameStage.toBits.toNat * 2 ^ 16 +
      t.lastOp.toNat * 2 ^ 24 := by
  unfold Status.word
  simp only [toNat_append_add, BitVec.toNat_ofBool]
  simp
  omega

/-- ERR_INFO as a number (10_state.md R38). -/
theorem ErrInfo.word_toNat (e : ErrInfo) : e.word.toNat = e.index.toNat * 2 ^ 16 + e.check.toNat := by
  unfold ErrInfo.word
  simp only [toNat_append_add]
  simp

/-- BASIS_TAG as a number, field by field (10_state.md R68). -/
theorem BasisTag.word_toNat (t : BasisTag) :
    t.word.toNat = t.variant.toBits.toNat + t.orth.toNat * 2 ^ 4 + t.rows.toNat * 2 ^ 16 +
      t.cols.toNat * 2 ^ 32 := by
  unfold BasisTag.word
  simp only [toNat_append_add, BitVec.toNat_ofBool]
  simp
  omega

/-- STATUS is zero only with every field at its reset value (10_state.md R36). -/
theorem Status.word_eq_zero_iff (t : Status) : t.word = 0#64 ↔ t = Status.reset := by
  constructor
  · intro h
    have hn := t.word_toNat
    rw [h] at hn
    obtain ⟨b, d, e, f, w, c, g, l⟩ := t
    have hl : l.toNat = 0 := by simp at hn; omega
    have hl' : l = 0#8 := BitVec.eq_of_toNat_eq (by simpa using hl)
    subst hl'
    cases b <;> cases d <;> cases e <;> cases f <;> cases w <;> simp at hn <;> try omega
    cases c <;> cases g <;> first | rfl | simp [ErrCode.toBits, FrameStage.toBits] at hn
  · rintro rfl
    decide

end Sys2Proof.Machine
end

