-- ==== Sys2Proof/Laws/Float.lean ====
section
/-! SUPPORT. The shape of binary64 results: the parts of a packed value, the bounds of the rounding function, and
which results are finite or NaN. -/

namespace Sys2Proof.Machine

theorem roundMagnitude_le (n d : Nat) : roundMagnitude n d ≤ infMagnitude := by
  simp only [roundMagnitude]
  exact Nat.min_le_right _ _

@[simp] theorem roundMagnitude_zero (d : Nat) : roundMagnitude 0 d = 0 := by
  simp [roundMagnitude]

theorem infMagnitude_lt : infMagnitude < 2 ^ 63 := by decide

theorem toNat_packSign (neg : Bool) {mag : Nat} (h : mag < 2 ^ 63) :
    (packSign neg mag).toNat = (if neg then 2 ^ 63 else 0) + mag := by
  unfold packSign
  rw [BitVec.toNat_ofNat]
  refine Nat.mod_eq_of_lt ?_
  cases neg <;> simp <;> omega

theorem magnitudeBits_packSign (neg : Bool) {mag : Nat} (h : mag < 2 ^ 63) :
    magnitudeBits (packSign neg mag) = mag := by
  unfold magnitudeBits
  rw [toNat_packSign neg h]
  cases neg <;> simp <;> omega

theorem signOf_packSign (neg : Bool) {mag : Nat} (h : mag < 2 ^ 63) : signOf (packSign neg mag) = neg := by
  unfold signOf
  rw [← BitVec.testBit_toNat, toNat_packSign neg h, Nat.testBit_eq_decide_div_mod_eq]
  cases neg with
  | false =>
    have : (0 + mag) / 2 ^ 63 = 0 := by omega
    simp only [Bool.false_eq_true, if_false, this]
    decide
  | true =>
    have : (2 ^ 63 + mag) / 2 ^ 63 = 1 := by omega
    simp only [if_true, this]
    decide

/-- A packed value is a NaN only past infinity. -/
theorem isNaN_packSign (neg : Bool) {mag : Nat} (h : mag ≤ infMagnitude) : isNaN (packSign neg mag) = false := by
  have : mag < 2 ^ 63 := lt_of_le_of_lt h infMagnitude_lt
  simp only [isNaN, magnitudeBits_packSign neg this, decide_eq_false_iff_not]
  omega

@[simp] theorem isNaN_canonicalNaN : isNaN canonicalNaN = true := by decide

theorem isFinite_iff_not (a : F64) : isFinite a = true ↔ isNaN a = false ∧ isInf a = false := by
  simp only [isFinite, isNaN, isInf, decide_eq_true_eq, decide_eq_false_iff_not]
  omega

theorem canonical_of_isNaN {a : F64} (h : isNaN a = true) : canonical a = canonicalNaN := by
  simp [canonical, h]

theorem canonical_of_not_isNaN {a : F64} (h : isNaN a = false) : canonical a = a := by
  simp [canonical, h]

/-- What passes through `canonical` is a NaN only as the canonical one (00_scope.md R12). -/
theorem eq_canonicalNaN_of_isNaN_canonical {a : F64} (h : isNaN (canonical a) = true) :
    canonical a = canonicalNaN := by
  cases ha : isNaN a with
  | true => exact canonical_of_isNaN ha
  | false => rw [canonical_of_not_isNaN ha, ha] at h; simp at h

@[simp] theorem canonical_canonical (a : F64) : canonical (canonical a) = canonical a := by
  cases ha : isNaN a with
  | true => rw [canonical_of_isNaN ha]; decide
  | false => rw [canonical_of_not_isNaN ha, canonical_of_not_isNaN ha]

/-- The number of units of 2^-1074 that a magnitude encoding stands for. -/
def magnitudeValue (m : Nat) : Nat :=
  if m / 2 ^ 52 = 0 then m % 2 ^ 52 else (2 ^ 52 + m % 2 ^ 52) * 2 ^ (m / 2 ^ 52 - 1)

theorem magnitudeUnits_eq (a : F64) : magnitudeUnits a = magnitudeValue (magnitudeBits a) := by
  unfold magnitudeUnits magnitudeValue exponentField fractionField
  have : magnitudeBits a % 2 ^ 52 = a.toNat % 2 ^ 52 := by
    unfold magnitudeBits
    omega
  rw [this]

/-- An encoding of the binade of grid 2^shift is its significand times the grid, also at the binade's end. -/
theorem magnitudeValue_binade {shift r : Nat} (hr : r ≤ 2 ^ 53) (h : shift = 0 ∨ 2 ^ 52 ≤ r) :
    magnitudeValue (2 ^ 52 * shift + r) = r * 2 ^ shift := by
  unfold magnitudeValue
  rcases Nat.lt_or_ge r (2 ^ 52) with h1 | h1
  · have hs : shift = 0 := by omega
    subst hs
    rw [if_pos (by omega)]
    omega
  · rcases Nat.lt_or_ge r (2 ^ 53) with h2 | h2
    · have e : (2 ^ 52 * shift + r) / 2 ^ 52 = shift + 1 := by omega
      have f : (2 ^ 52 * shift + r) % 2 ^ 52 = r - 2 ^ 52 := by omega
      rw [e, f, if_neg (by omega), Nat.add_sub_cancel, Nat.add_sub_cancel' h1]
    · have hr' : r = 2 ^ 53 := by omega
      subst hr'
      have e : (2 ^ 52 * shift + 2 ^ 53) / 2 ^ 52 = shift + 2 := by omega
      have f : (2 ^ 52 * shift + 2 ^ 53) % 2 ^ 52 = 0 := by omega
      rw [e, f, if_neg (by omega), show shift + 2 - 1 = shift + 1 by omega, Nat.pow_succ]
      ring

/-- Encodings and magnitudes rise together. -/
theorem magnitudeValue_strictMono : StrictMono magnitudeValue := by
  refine strictMono_nat_of_lt_succ (fun m => ?_)
  rcases Nat.lt_or_ge m (2 ^ 53) with h | h
  · have h1 := magnitudeValue_binade (shift := 0) (r := m) (by omega) (.inl rfl)
    have h2 := magnitudeValue_binade (shift := 0) (r := m + 1) (by omega) (.inl rfl)
    simp only [Nat.mul_zero, Nat.zero_add, Nat.pow_zero, Nat.mul_one] at h1 h2
    omega
  · obtain ⟨sh, r, hm, hlo, hhi⟩ : ∃ sh r, m = 2 ^ 52 * sh + r ∧ 2 ^ 52 ≤ r ∧ r < 2 ^ 53 :=
      ⟨m / 2 ^ 52 - 1, m % 2 ^ 52 + 2 ^ 52, by omega, by omega, by omega⟩
    have h1 := magnitudeValue_binade (shift := sh) (r := r) (by omega) (.inr hlo)
    have h2 := magnitudeValue_binade (shift := sh) (r := r + 1) (by omega) (.inr (by omega))
    rw [hm, Nat.add_assoc, h1, h2]
    exact Nat.mul_lt_mul_of_pos_right (by omega) (Nat.pow_pos (by omega))

/-- The order of the comparisons (00_scope.md R14) is the order of the exact values. -/
theorem units_lt_iff (a b : F64) : units a < units b ↔ orderKey a < orderKey b := by
  unfold units orderKey
  rw [magnitudeUnits_eq, magnitudeUnits_eq]
  have hz : magnitudeValue 0 = 0 := by decide
  have h0 : ∀ n, magnitudeValue n = 0 ↔ n = 0 := fun n => by
    rw [← hz]
    exact magnitudeValue_strictMono.injective.eq_iff
  have h1 := magnitudeValue_strictMono.lt_iff_lt (a := magnitudeBits a) (b := magnitudeBits b)
  have h2 := magnitudeValue_strictMono.lt_iff_lt (a := magnitudeBits b) (b := magnitudeBits a)
  have h3 := h0 (magnitudeBits a)
  have h4 := h0 (magnitudeBits b)
  split <;> split <;> omega

/-- Two numbers have one exact value exactly when the comparisons put them in one place. -/
theorem units_eq_iff (a b : F64) : units a = units b ↔ orderKey a = orderKey b := by
  have h1 := units_lt_iff a b
  have h2 := units_lt_iff b a
  omega

/-- The rounding function takes the nearer of the two grid points around n/d, the even one where both are equally
near: `m` and `m + 1` grid steps, `m` the floor, and past the largest finite magnitude it is infinity. -/
theorem roundMagnitude_grid (n : Nat) {d : Nat} (hd : 0 < d) :
    ∃ shift m k, (shift = 0 ∨ 2 ^ 52 ≤ m) ∧ m < 2 ^ 53 ∧
      m * 2 ^ shift * d ≤ n ∧ n < (m + 1) * 2 ^ shift * d ∧
      roundMagnitude n d = min (2 ^ 52 * shift + k) infMagnitude ∧
      ((k = m ∧ n - m * 2 ^ shift * d ≤ (m + 1) * 2 ^ shift * d - n ∧
          (n - m * 2 ^ shift * d = (m + 1) * 2 ^ shift * d - n → m % 2 = 0)) ∨
       (k = m + 1 ∧ (m + 1) * 2 ^ shift * d - n ≤ n - m * 2 ^ shift * d ∧
          (n - m * 2 ^ shift * d = (m + 1) * 2 ^ shift * d - n → m % 2 = 1))) := by
  simp only [roundMagnitude]
  set q := n / d with hq
  set sh := q.log2 - 52 with hsh
  set grid := d * 2 ^ sh with hgrid
  have hg : 0 < grid := Nat.mul_pos hd (Nat.pow_pos (by omega))
  have hmq : n / grid = q / 2 ^ sh := by rw [hgrid, ← Nat.div_div_eq_div_mul]
  have hm : n / grid < 2 ^ 53 ∧ (sh = 0 ∨ 2 ^ 52 ≤ n / grid) := by
    rw [hmq]
    rcases Nat.eq_zero_or_pos q with h0 | hpos
    · rw [h0] at hsh ⊢
      simp at hsh
      simp [hsh]
    · have hlt : q < 2 ^ (q.log2 + 1) := (Nat.log2_lt (by omega)).mp (Nat.lt_succ_self _)
      have hge : 2 ^ q.log2 ≤ q := Nat.log2_self_le (by omega)
      constructor
      · refine Nat.div_lt_of_lt_mul ?_
        rw [← pow_add]
        exact lt_of_lt_of_le hlt (Nat.pow_le_pow_right (by omega) (by omega))
      · rcases Nat.eq_zero_or_pos sh with h1 | h1
        · exact .inl h1
        · right
          rw [Nat.le_div_iff_mul_le (Nat.pow_pos (by omega)), ← pow_add]
          exact le_trans (Nat.pow_le_pow_right (by omega) (by omega)) hge
  have hdiv : grid * (n / grid) + n % grid = n := Nat.div_add_mod n grid
  have hmod : n % grid < grid := Nat.mod_lt n hg
  set m := n / grid with hmdef
  have e1 : m * 2 ^ sh * d = grid * m := by rw [hgrid]; ring
  have e2 : (m + 1) * 2 ^ sh * d = grid * m + grid := by rw [hgrid]; ring
  refine ⟨sh, m, _, hm.2, hm.1, by omega, by omega, rfl, ?_⟩
  rw [e1, e2]
  by_cases hup : grid < 2 * (n % grid) ∨ 2 * (n % grid) = grid ∧ m % 2 = 1
  · rw [if_pos hup]
    exact .inr ⟨rfl, by omega, by omega⟩
  · rw [if_neg hup]
    exact .inl ⟨rfl, by omega, by omega⟩

/-- A magnitude not above n/d units is not above the rounded one. -/
theorem le_roundMagnitude {n d : Nat} (hd : 0 < d) {c : Nat} (hc : c ≤ infMagnitude)
    (h : magnitudeValue c * d ≤ n) : c ≤ roundMagnitude n d := by
  obtain ⟨sh, m, k, hs, hm, _, hhi, hr, hk⟩ := roundMagnitude_grid n hd
  have v1 : magnitudeValue (2 ^ 52 * sh + (m + 1)) = (m + 1) * 2 ^ sh :=
    magnitudeValue_binade (by omega) (by omega)
  have h1 : c < 2 ^ 52 * sh + (m + 1) := by
    by_contra hn
    have := Nat.mul_le_mul_right d (magnitudeValue_strictMono.monotone (Nat.le_of_not_lt hn))
    rw [v1] at this
    omega
  rw [hr]
  refine le_min ?_ hc
  rcases hk with ⟨rfl, _⟩ | ⟨rfl, _⟩ <;> omega

/-- A magnitude not below n/d units is not below the rounded one. -/
theorem roundMagnitude_le_of_le {n d : Nat} (hd : 0 < d) {c : Nat} (h : n ≤ magnitudeValue c * d) :
    roundMagnitude n d ≤ c := by
  obtain ⟨sh, m, k, hs, hm, hlo, _, hr, hk⟩ := roundMagnitude_grid n hd
  have v0 : magnitudeValue (2 ^ 52 * sh + m) = m * 2 ^ sh := magnitudeValue_binade (by omega) hs
  have h0 : 2 ^ 52 * sh + m ≤ c := by
    by_contra hn
    have h1 := magnitudeValue_strictMono (Nat.lt_of_not_le hn)
    rw [v0] at h1
    have := Nat.mul_lt_mul_of_pos_right h1 hd
    omega
  rw [hr]
  refine le_trans (Nat.min_le_left _ _) ?_
  rcases hk with ⟨rfl, _⟩ | ⟨rfl, h1, _⟩
  · exact h0
  · rcases Nat.lt_or_ge (2 ^ 52 * sh + m) c with h2 | h2
    · omega
    · have : 2 ^ 52 * sh + m = c := by omega
      rw [← this, v0] at h
      have := Nat.mul_lt_mul_of_pos_right (Nat.mul_lt_mul_of_pos_right (Nat.lt_succ_self m)
        (Nat.pow_pos (n := sh) (show 0 < 2 by omega))) hd
      simp only [Nat.succ_eq_add_one] at this
      omega

/-- roundTiesToEven rounds to nearest (00_scope.md R11): no magnitude lies nearer to n/d units than the rounded one,
and where another lies equally near, the rounded one is even. -/
theorem roundMagnitude_nearest {n d : Nat} (hd : 0 < d) (hf : roundMagnitude n d < infMagnitude) (c : Nat) :
    |(magnitudeValue (roundMagnitude n d) * d : Int) - n| ≤ |(magnitudeValue c * d : Int) - n| ∧
    (|(magnitudeValue (roundMagnitude n d) * d : Int) - n| = |(magnitudeValue c * d : Int) - n| →
      c ≠ roundMagnitude n d → roundMagnitude n d % 2 = 0) := by
  obtain ⟨sh, m, k, hs, hm, hlo, hhi, hr, h⟩ := roundMagnitude_grid n hd
  rw [hr] at hf
  have hr' : roundMagnitude n d = 2 ^ 52 * sh + k := by
    rw [hr]
    exact Nat.min_eq_left (by omega)
  have v0 : magnitudeValue (2 ^ 52 * sh + m) = m * 2 ^ sh := magnitudeValue_binade (by omega) hs
  have v1 : magnitudeValue (2 ^ 52 * sh + (m + 1)) = (m + 1) * 2 ^ sh :=
    magnitudeValue_binade (by omega) (by omega)
  have hc : (c ≠ 2 ^ 52 * sh + m → magnitudeValue c * d < m * 2 ^ sh * d ∨ c = 2 ^ 52 * sh + (m + 1) ∨
      (m + 1) * 2 ^ sh * d < magnitudeValue c * d) := by
    intro hne
    rcases Nat.lt_trichotomy c (2 ^ 52 * sh + (m + 1)) with h1 | h1 | h1
    · left
      rw [← v0]
      exact Nat.mul_lt_mul_of_pos_right (magnitudeValue_strictMono (by omega)) hd
    · exact .inr (.inl h1)
    · right
      right
      rw [← v1]
      exact Nat.mul_lt_mul_of_pos_right (magnitudeValue_strictMono h1) hd
  have c0 : c = 2 ^ 52 * sh + m → magnitudeValue c * d = m * 2 ^ sh * d := fun e => by rw [e, v0]
  have c1 : c = 2 ^ 52 * sh + (m + 1) → magnitudeValue c * d = (m + 1) * 2 ^ sh * d := fun e => by rw [e, v1]
  have cast : ∀ x : Nat, (magnitudeValue x * d : Int) = ((magnitudeValue x * d : Nat) : Int) := fun x => by push_cast; rfl
  have vk : magnitudeValue (roundMagnitude n d) * d = k * 2 ^ sh * d := by
    rw [hr']
    rcases h with ⟨rfl, _⟩ | ⟨rfl, _⟩
    · rw [v0]
    · rw [v1]
  rw [cast, cast, vk, hr']
  generalize magnitudeValue c * d = C at *
  rcases h with ⟨rfl, h⟩ | ⟨rfl, h⟩
  · generalize k * 2 ^ sh * d = A at *
    generalize (k + 1) * 2 ^ sh * d = B at *
    have h1 := abs_cases ((A : Int) - n)
    have h2 := abs_cases ((C : Int) - n)
    by_cases hne : c = 2 ^ 52 * sh + k
    · have := c0 hne
      omega
    · rcases hc hne with h3 | h3 | h3
      · omega
      · have := c1 h3
        omega
      · omega
  · generalize m * 2 ^ sh * d = A at *
    generalize (m + 1) * 2 ^ sh * d = B at *
    have h1 := abs_cases ((B : Int) - n)
    have h2 := abs_cases ((C : Int) - n)
    by_cases hne : c = 2 ^ 52 * sh + m
    · have := c0 hne
      omega
    · rcases hc hne with h3 | h3 | h3
      · omega
      · have := c1 h3
        omega
      · omega

end Sys2Proof.Machine
end

