-- ==== Sys2Proof/Laws/Step.lean ====
section
/-! SUPPORT. What one step can do, said once: who moves, what a completed input leaves, and how a command ends. -/

namespace Sys2Proof.Machine

theorem mover_eq_engine_iff (s : State) :
    s.mover = .engine ↔ s.status.busy = true ∧ ∀ t rest, s.inputs = t :: rest →
      t ≠ .resetLine ∧ (t.exempt s.caps = false ∨ s.engineDelay = 0) := by
  unfold State.mover
  cases hi : s.inputs with
  | nil => cases s.status.busy <;> simp
  | cons t rest =>
    simp only [List.cons.injEq, and_imp]
    by_cases h1 : t = .resetLine
    · simp only [if_pos h1, reduceCtorEq, false_iff, not_and]
      exact fun _ h => (h t rest rfl rfl).1 h1
    · simp only [if_neg h1]
      cases hb : s.status.busy with
      | false => simp
      | true =>
        simp only [Bool.true_eq_false, if_false, true_and]
        by_cases h2 : t.exempt s.caps = true ∧ s.engineDelay ≠ 0
        · simp only [if_pos h2, reduceCtorEq, false_iff]
          intro h
          rcases (h t rest rfl rfl).2 with h3 | h3
          · rw [h2.1] at h3
            cases h3
          · exact h2.2 h3
        · simp only [if_neg h2, true_iff]
          rintro t' rest' rfl rfl
          refine ⟨h1, ?_⟩
          cases ht : t.exempt s.caps with
          | false => exact .inl rfl
          | true =>
            right
            by_contra hne
            exact h2 ⟨ht, hne⟩

theorem step_engine {s : State} (h : s.mover = .engine) : step s = engineStep s := by
  simp only [step, agentStep, h]

theorem step_idle {s : State} (h : s.mover = .idle) : step s = .next s := by
  simp only [step, agentStep, h]

theorem step_input {s : State} {t : HostInput} {rest : List HostInput} (h : s.mover = .input t rest) :
    step s = completeInput t { s with inputs := rest } := by
  simp only [step, agentStep, h]

theorem step_exemptRead {s : State} {t : HostInput} {rest : List HostInput} (h : s.mover = .exemptRead t rest) :
    step s = completeInput t { s with inputs := rest, engineDelay := s.engineDelay - 1 } := by
  simp only [step, agentStep, h]

/-- The next input completes where the engine is idle. -/
theorem mover_of_idle_engine {s : State} {t : HostInput} {rest : List HostInput} (hb : s.status.busy = false)
    (hi : s.inputs = t :: rest) : s.mover = .input t rest := by
  unfold State.mover
  rw [hi]
  by_cases h : t = .resetLine <;> simp [h, hb]

theorem mover_resetLine {s : State} {rest : List HostInput} (hi : s.inputs = .resetLine :: rest) :
    s.mover = .input .resetLine rest := by
  unfold State.mover
  rw [hi]
  simp

theorem step_of_idle_engine {s : State} {t : HostInput} {rest : List HostInput} (hb : s.status.busy = false)
    (hi : s.inputs = t :: rest) : step s = completeInput t { s with inputs := rest } :=
  step_input (mover_of_idle_engine hb hi)

/-- An input completes only where it is the reset line or the engine is idle. -/
theorem of_mover_input {s : State} {t : HostInput} {rest : List HostInput} (h : s.mover = .input t rest) :
    s.inputs = t :: rest ∧ (t = .resetLine ∨ s.status.busy = false) := by
  unfold State.mover at h
  cases hi : s.inputs with
  | nil =>
    rw [hi] at h
    cases hb : s.status.busy <;> simp [hb] at h
  | cons t' rest' =>
    rw [hi] at h
    simp only at h
    split_ifs at h with h1 h2 h3
    · cases h
      exact ⟨rfl, .inl h1⟩
    · cases h
      exact ⟨rfl, .inr h2⟩

theorem of_mover_exemptRead {s : State} {t : HostInput} {rest : List HostInput}
    (h : s.mover = .exemptRead t rest) :
    s.inputs = t :: rest ∧ s.status.busy = true ∧ t ≠ .resetLine ∧ t.exempt s.caps = true ∧
      s.engineDelay ≠ 0 := by
  unfold State.mover at h
  cases hi : s.inputs with
  | nil =>
    rw [hi] at h
    cases hb : s.status.busy <;> simp [hb] at h
  | cons t' rest' =>
    rw [hi] at h
    simp only at h
    split_ifs at h with h1 h2 h3
    · cases h
      exact ⟨rfl, by simpa using h2, h1, h3.1, h3.2⟩

theorem of_mover_idle {s : State} (h : s.mover = .idle) : s.inputs = [] ∧ s.status.busy = false := by
  unfold State.mover at h
  cases hi : s.inputs with
  | nil =>
    rw [hi] at h
    cases hb : s.status.busy with
    | false => exact ⟨rfl, rfl⟩
    | true => simp [hb] at h
  | cons t' rest' =>
    rw [hi] at h
    simp only at h
    split_ifs at h

/-- All a step that answers can do. -/
theorem step_cases {s t : State} (h : step s = .next t) :
    (s.mover = .idle ∧ t = s) ∨
    (s.mover = .engine ∧ engineStep s = .next t) ∨
    (∃ i rest, s.mover = .input i rest ∧ completeInput i { s with inputs := rest } = .next t) ∨
    (∃ i rest, s.mover = .exemptRead i rest ∧
      completeInput i { s with inputs := rest, engineDelay := s.engineDelay - 1 } = .next t) := by
  cases hm : s.mover with
  | idle =>
    rw [step_idle hm] at h
    exact .inl ⟨rfl, (Host.Outcome.next.inj h).symm⟩
  | engine => exact .inr (.inl ⟨rfl, by rw [← step_engine hm]; exact h⟩)
  | input i rest => exact .inr (.inr (.inl ⟨i, rest, rfl, by rw [← step_input hm]; exact h⟩))
  | exemptRead i rest => exact .inr (.inr (.inr ⟨i, rest, rfl, by rw [← step_exemptRead hm]; exact h⟩))

/-- All a completed input that answers can do. -/
theorem completeInput_cases {i : HostInput} {s t : State} (h : completeInput i s = .next t) :
    (i = .resetLine ∧ t = s.powerOnReset) ∨
    (∃ r, t = { s with response := some r } ∧ i ≠ .resetLine) ∨
    (∃ a size d loc, i = .write a size d ∧ locate s.caps a size = some loc ∧
      t = { s.writeLocation d loc with response := some .okayWrite }) := by
  unfold completeInput at h
  cases i with
  | resetLine => exact .inl ⟨rfl, (Host.Outcome.next.inj h).symm⟩
  | read a size =>
    simp only at h
    split at h
    · exact .inr (.inl ⟨_, (Host.Outcome.next.inj h).symm, by simp⟩)
    · split at h
      · exact .inr (.inl ⟨_, (Host.Outcome.next.inj h).symm, by simp⟩)
      · cases h
  | write a size d =>
    simp only at h
    split at h
    · exact .inr (.inl ⟨_, (Host.Outcome.next.inj h).symm, by simp⟩)
    · exact .inr (.inr ⟨a, size, d, _, rfl, ‹_›, (Host.Outcome.next.inj h).symm⟩)

/-- A completed read changes nothing but the response. -/
theorem completeInput_read {a : HostAddr} {size : Nat} {s t : State}
    (h : completeInput (.read a size) s = .next t) : ∃ r, t = { s with response := some r } := by
  rcases completeInput_cases h with ⟨h, _⟩ | ⟨r, h, _⟩ | ⟨_, _, _, _, h, _⟩
  · cases h
  · exact ⟨r, h⟩
  · cases h

/-- An exempt input is a read of one of its registers (20_memory.md R93). -/
theorem exempt_iff (caps : Caps) (t : HostInput) :
    t.exempt caps = true ↔ ∃ a size r, t = .read a size ∧ locate caps a size = some (.reg r) ∧
      r.exempt = true := by
  cases t with
  | resetLine => simp [HostInput.exempt]
  | write a size d => simp [HostInput.exempt]
  | read a size =>
    simp only [HostInput.exempt, HostInput.read.injEq]
    constructor
    · intro h
      split at h
      · exact ⟨a, size, _, ⟨rfl, rfl⟩, ‹_›, h⟩
      · cases h
    · rintro ⟨a', size', r, ⟨rfl, rfl⟩, hl, hr⟩
      rw [hl]
      exact hr

/-- A read of a located register completes with its value. -/
theorem completeInput_read_reg {s : State} {a : HostAddr} {size : Nat} {r : Reg}
    (h : locate s.caps a size = some (.reg r)) :
    completeInput (.read a size) s = .next { s with response := some (.okayRead (s.readReg r)) } := by
  simp only [completeInput, h, State.readLocation]

/-- A write to a located place completes. -/
theorem completeInput_write {s : State} {a : HostAddr} {size : Nat} {d : Word} {loc : Location}
    (h : locate s.caps a size = some loc) :
    completeInput (.write a size d) s =
      .next { s.writeLocation d loc with response := some .okayWrite } := by
  simp only [completeInput, h]

theorem engineStep_of_decode {s : State} {i : Instr} (h : decode s.caps.numCtx s.cmd = .ok i) :
    engineStep s = exec i s := by
  simp only [engineStep, h]

theorem engineStep_of_reject {s : State} {e : DecodeReject} (h : decode s.caps.numCtx s.cmd = .error e) :
    engineStep s = .next (s.errorComplete (illegalCommand e)) := by
  simp only [engineStep, h]

/-- All the engine's step can do where it answers. -/
theorem engineStep_cases {s t : State} (h : engineStep s = .next t) :
    (∃ e, decode s.caps.numCtx s.cmd = .error e ∧ t = s.errorComplete (illegalCommand e)) ∨
    ∃ i, decode s.caps.numCtx s.cmd = .ok i ∧ exec i s = .next t := by
  cases hd : decode s.caps.numCtx s.cmd with
  | error e =>
    rw [engineStep_of_reject hd] at h
    exact .inl ⟨e, rfl, (Host.Outcome.next.inj h).symm⟩
  | ok i =>
    rw [engineStep_of_decode hd] at h
    exact .inr ⟨i, rfl, h⟩

/-- A run of k + 1 steps is its first step, then k steps. -/
theorem core_run_succ (k : Nat) {s t : State} (h : step s = .next t) :
    Sys2Proof.core.run (k + 1) s = Sys2Proof.core.run k t := by
  have h' : Sys2Proof.core.step s = .next t := h
  simp only [Host.Core.run]
  rw [h']

theorem core_run_one (s : State) : Sys2Proof.core.run 1 s = step s := by
  have h' : Sys2Proof.core.step s = step s := rfl
  simp only [Host.Core.run]
  rw [h']
  cases step s <;> rfl

/-- A write changes no parameter of the instance. -/
theorem State.writeLocation_caps (s : State) (d : Word) (l : Location) : (s.writeLocation d l).caps = s.caps := by
  cases l with
  | word sp w => cases sp <;> rfl
  | reg r =>
    cases r with
    | ctrl =>
      simp only [State.writeLocation, State.writeReg, State.writeCtrl]
      split_ifs <;> rfl
    | status =>
      simp only [State.writeLocation, State.writeReg, State.writeStatus]
      split_ifs <;> rfl
    | _ => rfl

end Sys2Proof.Machine
end

