-- ==== Sys2Proof/Laws/HostProgram.lean ====
section
/-! SUPPORT. What a transaction, a WAIT and a list of lines of a host program do, said once. -/

namespace Sys2Proof.Machine

theorem writeLocation_inputs (s : State) (d : Word) (loc : Location) : (s.writeLocation d loc).inputs = s.inputs := by
  cases loc with
  | word sp w => cases sp <;> rfl
  | reg r =>
    cases r <;> simp only [State.writeLocation, State.writeReg, State.writeCtrl, State.writeStatus] <;>
      (try split) <;> (try split) <;> rfl

/-- A completed input takes nothing from the inputs that remain. -/
theorem completeInput_inputs {i : HostInput} {s t : State} (h : completeInput i s = .next t) :
    t.inputs = s.inputs := by
  rcases completeInput_cases h with ⟨_, rfl⟩ | ⟨r, rfl, _⟩ | ⟨_, _, _, _, _, _, rfl⟩
  · rfl
  · rfl
  · exact writeLocation_inputs _ _ _

/-- On an idle machine a transaction completes at once (20_memory.md R91, R92). -/
theorem transact_idle {t : HostInput} {s u : State} (hb : s.status.busy = false) (h : completeInput t s = .next u) :
    transact t s = .next u := by
  have hs : step { s with inputs := t :: s.inputs } = .next u := by
    rw [step_of_idle_engine (s := { s with inputs := t :: s.inputs }) (t := t) (rest := s.inputs) hb rfl]
    exact h
  simp only [transact, hs, if_pos (completeInput_inputs h)]

/-- A held transaction completes right after the engine's step, against the state that step left (20_memory.md R93). -/
theorem transact_held {t : HostInput} {s u v : State} (hb : s.status.busy = true) (hr : t ≠ .resetLine)
    (hx : t.exempt s.caps = false ∨ s.engineDelay = 0)
    (he : engineStep { s with inputs := t :: s.inputs } = .next u) (hu : u.inputs = t :: s.inputs)
    (hub : u.status.busy = false) (hv : completeInput t { u with inputs := s.inputs } = .next v) :
    transact t s = .next v := by
  have hm : ({ s with inputs := t :: s.inputs } : State).mover = .engine := by
    rw [mover_eq_engine_iff]
    refine ⟨hb, fun t' rest' h => ?_⟩
    simp only [List.cons.injEq] at h
    obtain ⟨rfl, rfl⟩ := h
    exact ⟨hr, hx⟩
  have hne : ¬ u.inputs = s.inputs := by
    rw [hu]
    exact List.cons_ne_self _ _
  simp only [transact, step_engine hm, he, if_neg hne]
  rw [step_of_idle_engine hub hu]
  exact hv

/-- The STATUS read of WAIT. -/
abbrev statusRead : HostInput := hostRd (.reg .status)

theorem completeInput_statusRead (s : State) :
    completeInput statusRead s = .next { s with response := some (.okayRead s.status.word) } := by
  have h : locate s.caps (AsmTarget.reg .status).address 8 = some (.reg .status) := locate_register _ _ rfl
  simp only [statusRead, hostRd, completeInput, h, State.readLocation, State.readReg]

theorem exempt_statusRead (caps : Caps) : statusRead.exempt caps = true := by
  have h : locate caps (AsmTarget.reg .status).address 8 = some (.reg .status) := locate_register _ _ rfl
  simp only [statusRead, hostRd, HostInput.exempt, h, Reg.exempt]

theorem statusWord_busy (t : Status) : t.word.getLsbD 0 = t.busy := by
  simp only [Status.word, BitVec.getLsbD_append, BitVec.getLsbD_ofBool]
  simp

/-- An exempt read completes before the engine's step while the latency lasts (log 7). -/
theorem transact_exempt {s : State} (hb : s.status.busy = true) (hd : s.engineDelay ≠ 0) :
    transact statusRead s =
      .next { s with engineDelay := s.engineDelay - 1, response := some (.okayRead s.status.word) } := by
  have hm : ({ s with inputs := statusRead :: s.inputs } : State).mover = .exemptRead statusRead s.inputs := by
    unfold State.mover
    simp only [hb, exempt_statusRead, true_and]
    rw [if_neg (by simp [hostRd]), if_neg (by simp), if_pos hd]
  simp only [transact, step_exemptRead hm, completeInput_statusRead, if_true]

/-- WAIT ends right after the pending command: with the state the command's step left, STATUS read from it. -/
theorem waitIdle_completes {P : State → Prop} (n : Nat) {s : State} (hn : s.engineDelay = n)
    (hb : s.status.busy = true)
    (he : ∀ y, ∃ u, engineStep { s with inputs := statusRead :: s.inputs, engineDelay := 0, response := y } = .next u ∧
      u.inputs = statusRead :: s.inputs ∧ u.status.busy = false ∧ P { u with inputs := s.inputs }) :
    ∃ u, P u ∧ u.status.busy = false ∧
      waitIdle n s = .next { u with response := some (.okayRead u.status.word) } := by
  induction n generalizing s with
  | zero =>
    obtain ⟨u, h1, h2, h3, h4⟩ := he s.response
    refine ⟨_, h4, h3, ?_⟩
    refine transact_held hb (by simp [hostRd]) (.inr hn) ?_ h2 h3 (completeInput_statusRead _)
    rw [← h1, ← hn]
  | succ n ih =>
    have hr := transact_exempt hb (by omega)
    obtain ⟨u, h1, h2, h3⟩ := ih (s := { s with
      engineDelay := s.engineDelay - 1, response := some (.okayRead s.status.word) }) (by simp [hn]) hb he
    refine ⟨u, h1, h2, ?_⟩
    simp only [waitIdle, hr, State.readData, BusResponse.data, statusWord_busy, hb, if_true]
    exact h3

/-- A line that issues a command and waits for it: the issue, then WAIT. -/
theorem runLine_run {P : State → Prop} (i : Instr) {s : State} (hb : s.status.busy = false)
    (he : ∀ y d n r, ∃ u, engineStep { s.issue (encode i) with
        inputs := y, engineDelay := d, issueCount := n, response := r } = .next u ∧
      u.inputs = y ∧ u.status.busy = false ∧ ∀ z, P { u with inputs := z }) :
    ∃ u, P u ∧ u.status.busy = false ∧
      runLine (.run i) s = .next { u with response := some (.okayRead u.status.word) } := by
  have hl : locate s.caps (AsmTarget.reg .cmd).address 8 = some (.reg .cmd) := locate_register _ _ rfl
  have hc := completeInput_write (d := encode i) hl
  have ht := transact_idle hb hc
  obtain ⟨u, h1, h2, h3⟩ := waitIdle_completes (P := P) _
    (s := { s.issue (encode i) with response := some .okayWrite }) rfl rfl (fun y => by
      obtain ⟨u, h1, h2, h3, h4⟩ := he (statusRead :: s.inputs) 0 (s.issue (encode i)).issueCount y
      exact ⟨u, h1, h2, h3, h4 _⟩)
  refine ⟨u, h1, h2, ?_⟩
  simp only [runLine, AsmLine.encode, List.replicate_zero, transactAll, hostWr, ht, AsmLine.waits, if_true]
  exact h3

end Sys2Proof.Machine
end

