-- ==== Sys2Proof/Laws/Numerics.lean ====
section
/-! SUPPORT. The numerics contract and the accuracy target: the wrappers change nothing that meets the contract, every
real value has a binary64 number it rounds to, rounding is within half an ulp, and NUM_REF exists and
meets NUM_FAITHFUL as far as binary64 can (00_scope.md R7), so that assuming either by name is no empty hypothesis. -/

namespace Sys2Proof.Machine

/-! ### The contract -/

theorem logContract_idem (raw : F64 → F64) : logContract (logContract raw) = logContract raw := by
  funext x
  unfold logContract
  split_ifs <;> simp

theorem pow10Contract_idem (raw : F64 → F64) : pow10Contract (pow10Contract raw) = pow10Contract raw := by
  funext x
  unfold pow10Contract
  split_ifs <;> simp

theorem cosContract_idem (raw : F64 → F64) : cosContract (cosContract raw) = cosContract raw := by
  funext x
  unfold cosContract
  split_ifs <;> simp

theorem rdftContract_idem (raw : Nat → List F64 → Nat → F64 × F64) :
    rdftContract (rdftContract raw) = rdftContract raw := by
  funext len x b
  unfold rdftContract
  split_ifs <;> simp

/-- A function that meets the contract of NUM_ln is left as it is. -/
theorem lnContract_of_allowed {raw : F64 → F64} {x : F64}
    (h : fle cFloorE x = true → logContract raw x ≠ infinity true) : lnContract raw x = logContract raw x := by
  simp only [lnContract]
  rw [if_neg (fun hx => h hx.1 hx.2)]

theorem lnContract_ne_negInf {raw : F64 → F64} {x : F64} (h : fle cFloorE x = true) :
    lnContract raw x ≠ infinity true := by
  simp only [lnContract, h, true_and]
  split_ifs with h1
  · decide
  · exact h1

theorem lnContract_idem (raw : F64 → F64) : lnContract (lnContract raw) = lnContract raw := by
  funext x
  have key : logContract (lnContract raw) x = lnContract raw x := by
    by_cases h : fle cFloorE x = true ∧ logContract raw x = infinity true
    · have e : lnContract raw x = packSign true (infMagnitude - 1) := by simp [lnContract, h]
      have hc : canonical (packSign true (infMagnitude - 1)) = packSign true (infMagnitude - 1) := by decide
      obtain ⟨h1, h2⟩ := h
      unfold logContract at h2 ⊢
      rw [e, hc]
      split_ifs at h2 ⊢ with a b c d f
      · exact absurd h2 (by decide)
      · exact absurd h2 (by decide)
      · subst c
        exact absurd h1 (by decide)
      · exact absurd h2 (by decide)
      · exact absurd h2 (by decide)
      · rfl
    · have e : lnContract raw x = logContract raw x :=
        lnContract_of_allowed (fun h1 h2 => h ⟨h1, h2⟩)
      rw [e]
      conv_rhs => rw [← logContract_idem]
      unfold logContract
      rw [e]
      unfold logContract
      rfl
  rw [lnContract_of_allowed (fun h => by rw [key]; exact lnContract_ne_negInf h), key]

/-- The wrappers leave what they made as it is. -/
theorem conforms_ofRaw (log10 pow10 ln cos : F64 → F64) (rdft : Nat → List F64 → Nat → F64 × F64) :
    (Numerics.ofRaw log10 pow10 ln cos rdft).Conforms := by
  simp only [Numerics.Conforms, Numerics.ofRaw, logContract_idem, pow10Contract_idem, lnContract_idem,
    cosContract_idem, rdftContract_idem]

/-- The machine's numerics meet the contract. -/
theorem numerics_conforms : numerics.Conforms := conforms_ofRaw _ _ _ _ _

/-! ### Exact values -/

theorem unitsPerOne_real : (unitsPerOne : ℝ) = 2 ^ 1074 := by
  have h : unitsPerOne = 2 ^ 1074 := by
    unfold unitsPerOne
    simp only [← pow_add]
  rw [h, Nat.cast_pow, Nat.cast_ofNat]

theorem unitsPerOne_pos : (0 : ℝ) < (unitsPerOne : ℝ) := by
  rw [unitsPerOne_real]
  positivity

/-- The real value of a magnitude encoding. -/
noncomputable def magnitudeReal (m : Nat) : ℝ := (magnitudeValue m : ℝ) / (unitsPerOne : ℝ)

theorem magnitudeReal_strictMono : StrictMono magnitudeReal := fun _ _ h =>
  div_lt_div_of_pos_right (by exact_mod_cast magnitudeValue_strictMono h) unitsPerOne_pos

@[simp] theorem magnitudeReal_zero : magnitudeReal 0 = 0 := by
  simp [magnitudeReal, magnitudeValue]

theorem magnitudeReal_nonneg (m : Nat) : 0 ≤ magnitudeReal m := by
  rw [← magnitudeReal_zero]
  exact magnitudeReal_strictMono.monotone (Nat.zero_le m)

theorem realOf_eq (a : F64) :
    realOf a = if signOf a = true then -magnitudeReal (magnitudeBits a) else magnitudeReal (magnitudeBits a) := by
  unfold realOf valueOf units magnitudeReal
  rw [magnitudeUnits_eq]
  split <;> push_cast <;> ring

theorem realOf_packSign (neg : Bool) {m : Nat} (h : m < 2 ^ 63) :
    realOf (packSign neg m) = if neg = true then -magnitudeReal m else magnitudeReal m := by
  rw [realOf_eq, signOf_packSign neg h, magnitudeBits_packSign neg h]

theorem abs_realOf (a : F64) : |realOf a| = magnitudeReal (magnitudeBits a) := by
  rw [realOf_eq]
  split
  · rw [abs_neg, abs_of_nonneg (magnitudeReal_nonneg _)]
  · rw [abs_of_nonneg (magnitudeReal_nonneg _)]

theorem lt_infMagnitude_of_isFinite {a : F64} (h : isFinite a = true) : magnitudeBits a < infMagnitude := by
  simpa [isFinite] using h

theorem isFinite_packSign (neg : Bool) {m : Nat} (h : m < infMagnitude) : isFinite (packSign neg m) = true := by
  simp only [isFinite, magnitudeBits_packSign neg (lt_trans h infMagnitude_lt), decide_eq_true_eq]
  exact h

/-- The distance between neighbouring magnitudes, in units. -/
theorem magnitudeValue_succ (m : Nat) : magnitudeValue (m + 1) = magnitudeValue m + 2 ^ (m / 2 ^ 52 - 1) := by
  rcases Nat.lt_or_ge m (2 ^ 52) with h | h
  · have h1 := magnitudeValue_binade (shift := 0) (r := m) (by omega) (.inl rfl)
    have h2 := magnitudeValue_binade (shift := 0) (r := m + 1) (by omega) (.inl rfl)
    simp only [Nat.mul_zero, Nat.zero_add, Nat.pow_zero, Nat.mul_one] at h1 h2
    rw [h1, h2, show m / 2 ^ 52 - 1 = 0 by omega, Nat.pow_zero]
  · obtain ⟨sh, r, hm, hlo, hhi⟩ : ∃ sh r, m = 2 ^ 52 * sh + r ∧ 2 ^ 52 ≤ r ∧ r < 2 ^ 53 :=
      ⟨m / 2 ^ 52 - 1, m % 2 ^ 52 + 2 ^ 52, by omega, by omega, by omega⟩
    have h1 := magnitudeValue_binade (shift := sh) (r := r) (by omega) (.inr hlo)
    have h2 := magnitudeValue_binade (shift := sh) (r := r + 1) (by omega) (.inr (by omega))
    have e : m / 2 ^ 52 - 1 = sh := by omega
    rw [e, hm, Nat.add_assoc, h1, h2]
    ring

/-- The value an infinity stands for is the next one past the finite magnitudes. -/
theorem magnitudeReal_inf : magnitudeReal infMagnitude = 2 ^ 1024 := by
  have h : infMagnitude = 2 ^ 52 * 2046 + 2 ^ 52 := by decide
  unfold magnitudeReal
  rw [h, magnitudeValue_binade (by omega) (.inr (le_refl _)), unitsPerOne_real]
  rw [Nat.cast_mul, Nat.cast_pow, Nat.cast_pow, Nat.cast_ofNat, div_eq_iff (by positivity), ← pow_add, ← pow_add]

theorem ulpOf_pos (a : F64) : 0 < ulpOf a := by
  unfold ulpOf
  exact div_pos (by positivity) unitsPerOne_pos

theorem exponentField_le_of_isFinite {a : F64} (h : isFinite a = true) : exponentField a ≤ 2046 := by
  have := lt_infMagnitude_of_isFinite h
  have hi : infMagnitude = 2047 * 2 ^ 52 := by decide
  unfold exponentField
  omega

/-- One ulp is the distance to the next magnitude. -/
theorem magnitudeReal_succ {a : F64} (h : isFinite a = true) :
    magnitudeReal (magnitudeBits a + 1) = magnitudeReal (magnitudeBits a) + ulpOf a := by
  unfold magnitudeReal ulpOf
  rw [magnitudeValue_succ, min_eq_left (exponentField_le_of_isFinite h)]
  unfold exponentField
  push_cast
  ring

/-- The topmost finite magnitude lies one ulp, 2^971, below 2^1024. -/
theorem ulpOf_top {a : F64} (h : 2046 ≤ exponentField a) : ulpOf a = 2 ^ 971 := by
  unfold ulpOf
  rw [min_eq_right h, unitsPerOne_real, div_eq_iff (by positivity), ← pow_add]

/-! ### Rounding of a real value -/

/-- `m` is the rounding of the non-negative value `w` among the magnitude encodings, infinity from the bound on. -/
structure MagnitudeRounds (m : Nat) (w : ℝ) : Prop where
  le : m ≤ infMagnitude
  nearest : m < infMagnitude → w < 2 ^ 1024 - 2 ^ 970 ∧ ∀ c < infMagnitude,
    |magnitudeReal m - w| ≤ |magnitudeReal c - w| ∧
    (|magnitudeReal m - w| = |magnitudeReal c - w| → c ≠ m → m % 2 = 0)
  overflow : m = infMagnitude → 2 ^ 1024 - 2 ^ 970 ≤ w

/-- A magnitude strictly between two equally distant ones lies nearer. -/
theorem nearer_between {a b k : Nat} {w : ℝ} (h1 : a < k) (h2 : k < b)
    (h : |magnitudeReal a - w| = |magnitudeReal b - w|) : |magnitudeReal k - w| < |magnitudeReal a - w| := by
  have ha := magnitudeReal_strictMono h1
  have hb := magnitudeReal_strictMono h2
  rcases abs_cases (magnitudeReal a - w) with h3 | h3 <;> rcases abs_cases (magnitudeReal b - w) with h4 | h4 <;>
    rcases abs_cases (magnitudeReal k - w) with h5 | h5 <;> linarith [h3.1, h3.2, h4.1, h4.2, h5.1, h5.2]

/-- Every non-negative value has its rounding. -/
theorem exists_magnitudeRounds {w : ℝ} : ∃ m, MagnitudeRounds m w := by
  by_cases hw : w < 2 ^ 1024 - 2 ^ 970
  · obtain ⟨m, hm, hmin⟩ := Finset.exists_min_image (Finset.range infMagnitude)
      (fun c => |magnitudeReal c - w|) ⟨0, Finset.mem_range.mpr (by decide)⟩
    rw [Finset.mem_range] at hm
    have hmin' : ∀ c < infMagnitude, |magnitudeReal m - w| ≤ |magnitudeReal c - w| :=
      fun c hc => hmin c (Finset.mem_range.mpr hc)
    by_cases he : ∃ e < infMagnitude, |magnitudeReal e - w| = |magnitudeReal m - w| ∧ e % 2 = 0
    · obtain ⟨e, hlt, heq, hev⟩ := he
      exact ⟨e, hlt.le, fun _ => ⟨hw, fun c hc => ⟨heq ▸ hmin' c hc, fun _ _ => hev⟩⟩,
        fun h => absurd hlt (by omega)⟩
    · push Not at he
      refine ⟨m, hm.le, fun _ => ⟨hw, fun c hc => ⟨hmin' c hc, fun heq hne => ?_⟩⟩,
        fun h => absurd hm (by omega)⟩
      exfalso
      have o1 := he m hm rfl
      have o2 := he c hc heq.symm
      rcases Nat.lt_or_gt_of_ne hne with h | h
      · have := nearer_between (a := c) (k := (m + c) / 2) (b := m) (by omega) (by omega) heq.symm
        have := hmin' ((m + c) / 2) (by omega)
        linarith
      · have := nearer_between (a := m) (k := (m + c) / 2) (b := c) (by omega) (by omega) heq
        have := hmin' ((m + c) / 2) (by omega)
        linarith
  · exact ⟨infMagnitude, le_refl _, fun h => absurd h (lt_irrefl _), fun _ => not_lt.mp hw⟩

theorem getLsbD_zero_packSign (neg : Bool) {m : Nat} (h : m < 2 ^ 63) (he : m % 2 = 0) :
    (packSign neg m).getLsbD 0 = false := by
  rw [← BitVec.testBit_toNat, toNat_packSign neg h, Nat.testBit_zero]
  cases neg <;> simp <;> omega

/-- The rounding of the magnitude, with the sign of the value, is the rounding of the value. -/
theorem roundsTo_packSign {m : Nat} {v : ℝ} (h : MagnitudeRounds m |v|) :
    RoundsTo (packSign (decide (v < 0)) m) v := by
  have hlt : m < 2 ^ 63 := lt_of_le_of_lt h.le infMagnitude_lt
  have hr : realOf (packSign (decide (v < 0)) m) = if v < 0 then -magnitudeReal m else magnitudeReal m := by
    rw [realOf_packSign _ hlt]
    simp
  have hdist : |realOf (packSign (decide (v < 0)) m) - v| = |magnitudeReal m - (|v|)| := by
    rw [hr]
    by_cases hv : v < 0
    · rw [if_pos hv, abs_of_neg hv, ← abs_neg]
      congr 1
      ring
    · rw [if_neg hv, abs_of_nonneg (not_lt.mp hv)]
  refine ⟨isNaN_packSign _ h.le, fun hf => ?_, fun hi => ?_, fun hv => ?_⟩
  · have hm : m < infMagnitude := by
      have := lt_infMagnitude_of_isFinite hf
      rwa [magnitudeBits_packSign _ hlt] at this
    refine ⟨(h.nearest hm).1, fun c hc => ?_⟩
    obtain ⟨h1, h2⟩ := (h.nearest hm).2 _ (lt_infMagnitude_of_isFinite hc)
    have h0 := ((h.nearest hm).2 0 (by decide)).1
    rw [magnitudeReal_zero, zero_sub, abs_neg, abs_abs] at h0
    have hx := magnitudeReal_nonneg (magnitudeBits c)
    have hxm := magnitudeReal_nonneg m
    have hc' : |realOf c - v| = |magnitudeReal (magnitudeBits c) - (|v|)| ∨
        |realOf c - v| = magnitudeReal (magnitudeBits c) + |v| := by
      rw [realOf_eq]
      by_cases hs : signOf c = true
      · rw [if_pos hs]
        by_cases hv : v < 0
        · left
          rw [abs_of_neg hv, ← abs_neg]
          congr 1
          ring
        · right
          rw [abs_of_nonneg (not_lt.mp hv), ← abs_neg, abs_of_nonneg] <;> linarith
      · rw [if_neg hs]
        by_cases hv : v < 0
        · right
          rw [abs_of_neg hv, abs_of_nonneg] <;> linarith
        · left
          rw [abs_of_nonneg (not_lt.mp hv)]
    have htri : |magnitudeReal (magnitudeBits c) - (|v|)| ≤ magnitudeReal (magnitudeBits c) + |v| := by
      rw [abs_le]
      constructor <;> linarith [abs_nonneg v]
    rw [hdist]
    refine ⟨by rcases hc' with e | e <;> rw [e] <;> linarith, fun heq hne => ?_⟩
    refine getLsbD_zero_packSign _ hlt ?_
    have heq' : |magnitudeReal m - (|v|)| = |magnitudeReal (magnitudeBits c) - (|v|)| := by
      rcases hc' with e | e <;> rw [e] at heq <;> linarith
    refine h2 heq' (fun hcm => hne ?_)
    rcases hc' with e | e
    · rw [hcm] at e
      have hcv : |realOf c| = |realOf (packSign (decide (v < 0)) m)| := by
        rw [abs_realOf, abs_realOf, magnitudeBits_packSign _ hlt, hcm]
      rcases abs_eq_abs.mp hcv with h3 | h3
      · exact h3
      · -- opposite values at the same distance: the value is zero or both are
        rw [h3]
        rw [h3, ← hdist] at e
        have h4 : |realOf (packSign (decide (v < 0)) m)| = magnitudeReal m := by
          rw [abs_realOf, magnitudeBits_packSign _ hlt]
        rcases abs_eq_abs.mp e with h5 | h5
        · linarith
        · have hv0 : v = 0 := by linarith
          rw [hv0, abs_zero, sub_zero, abs_of_nonneg hxm] at h0
          have : magnitudeReal m = 0 := le_antisymm h0 hxm
          rw [this, abs_eq_zero] at h4
          rw [h4]
          ring
    · rw [e, hcm] at heq
      have hz : magnitudeReal m = 0 := by
        rcases abs_cases (magnitudeReal m - (|v|)) with h5 | h5
        · have hv0 : |v| = 0 := by linarith [abs_nonneg v, h5.1]
          linarith
        · linarith [h5.1]
      have h6 : realOf c = 0 := by
        rw [← abs_eq_zero, abs_realOf, hcm, hz]
      have h7 : realOf (packSign (decide (v < 0)) m) = 0 := by
        rw [← abs_eq_zero, abs_realOf, magnitudeBits_packSign _ hlt, hz]
      rw [h6, h7]
  · refine h.overflow ?_
    simpa [isInf, magnitudeBits_packSign _ hlt] using hi
  · rw [signOf_packSign _ hlt, decide_eq_true_eq]

/-- Every real value has a binary64 number that it rounds to. -/
theorem exists_roundsTo (v : ℝ) : ∃ r, RoundsTo r v :=
  let ⟨_, h⟩ := exists_magnitudeRounds (w := |v|)
  ⟨_, roundsTo_packSign h⟩

/-! ### Rounding is within half an ulp -/

theorem magnitudeBits_fneg (a : F64) : magnitudeBits (fneg a) = magnitudeBits a := by
  unfold magnitudeBits fneg
  rw [← BitVec.toNat_setWidth, ← BitVec.toNat_setWidth]
  congr 1
  ext i hi
  simp only [BitVec.getElem_setWidth, BitVec.getLsbD_xor]
  have : (0x8000000000000000#64).getLsbD i = false := by
    interval_cases i <;> rfl
  rw [this, Bool.xor_false]

theorem signOf_fneg (a : F64) : signOf (fneg a) = !signOf a := by
  unfold signOf fneg
  rw [BitVec.getLsbD_xor, show (0x8000000000000000#64).getLsbD 63 = true from rfl, Bool.xor_true]

theorem realOf_fneg (a : F64) : realOf (fneg a) = -realOf a := by
  rw [realOf_eq, realOf_eq, magnitudeBits_fneg, signOf_fneg]
  cases signOf a <;> simp

theorem isFinite_fneg (a : F64) : isFinite (fneg a) = isFinite a := by
  simp only [isFinite, magnitudeBits_fneg]

theorem ulpOf_fneg (a : F64) : ulpOf (fneg a) = ulpOf a := by
  simp only [ulpOf, exponentField, magnitudeBits_fneg]

/-- Above a finite number lies another one within an ulp, or 2^1024 itself one ulp away. -/
theorem exists_above {r : F64} (h : isFinite r = true) :
    (∃ c, isFinite c = true ∧ realOf r < realOf c ∧ realOf c ≤ realOf r + ulpOf r) ∨
    (realOf r + ulpOf r = 2 ^ 1024 ∧ ulpOf r = 2 ^ 971) := by
  have hm := lt_infMagnitude_of_isFinite h
  by_cases hs : signOf r = true ∧ magnitudeBits r ≠ 0
  · left
    have hlt : magnitudeBits r - 1 < infMagnitude := by omega
    refine ⟨packSign true (magnitudeBits r - 1), isFinite_packSign _ hlt, ?_⟩
    have hgap : magnitudeValue (magnitudeBits r) ≤
        magnitudeValue (magnitudeBits r - 1) + 2 ^ (magnitudeBits r / 2 ^ 52 - 1) := by
      have e := magnitudeValue_succ (magnitudeBits r - 1)
      rw [show magnitudeBits r - 1 + 1 = magnitudeBits r by omega] at e
      rw [e]
      exact Nat.add_le_add_left (Nat.pow_le_pow_right (by omega) (by omega)) _
    have hreal : magnitudeReal (magnitudeBits r) ≤ magnitudeReal (magnitudeBits r - 1) + ulpOf r := by
      unfold magnitudeReal ulpOf
      rw [min_eq_left (exponentField_le_of_isFinite h), ← add_div]
      refine div_le_div_of_nonneg_right ?_ unitsPerOne_pos.le
      exact_mod_cast hgap
    have hmono := magnitudeReal_strictMono (show magnitudeBits r - 1 < magnitudeBits r by omega)
    rw [realOf_packSign _ (lt_trans hlt infMagnitude_lt), realOf_eq r, if_pos hs.1, if_pos rfl]
    constructor <;> linarith
  · have hr : realOf r = magnitudeReal (magnitudeBits r) := by
      rw [realOf_eq]
      by_cases h1 : signOf r = true
      · have h0 : magnitudeBits r = 0 := by
          by_contra hn
          exact hs ⟨h1, hn⟩
        rw [h0]
        simp
      · rw [if_neg h1]
    rw [hr, ← magnitudeReal_succ h]
    rcases Nat.lt_or_ge (magnitudeBits r + 1) infMagnitude with h1 | h1
    · left
      refine ⟨packSign false (magnitudeBits r + 1), isFinite_packSign _ h1, ?_⟩
      rw [realOf_packSign _ (lt_trans h1 infMagnitude_lt)]
      exact ⟨magnitudeReal_strictMono (Nat.lt_succ_self _), le_refl _⟩
    · right
      have e : magnitudeBits r + 1 = infMagnitude := by omega
      refine ⟨by rw [e, magnitudeReal_inf], ulpOf_top ?_⟩
      have hi : infMagnitude = 2047 * 2 ^ 52 := by decide
      unfold exponentField
      omega

/-- The negative of a rounding is the rounding of the negative. -/
theorem NearestToEven.fneg {r : F64} {v : ℝ} (h : NearestToEven r v) : NearestToEven (fneg r) (-v) := by
  intro c hc
  have hd : ∀ a : F64, |realOf (Machine.fneg a) - v| = |realOf a - -v| := fun a => by
    rw [realOf_fneg, ← abs_neg]
    congr 1
    ring
  obtain ⟨h1, h2⟩ := h (Machine.fneg c) (by rw [isFinite_fneg]; exact hc)
  have hr : |realOf (Machine.fneg r) - -v| = |realOf r - v| := by
    rw [realOf_fneg, ← abs_neg]
    congr 1
    ring
  rw [hd] at h1 h2
  rw [hr]
  refine ⟨h1, fun heq hne => ?_⟩
  have := h2 heq (by rw [realOf_fneg] at hne ⊢; intro e; exact hne (by linarith))
  unfold Machine.fneg
  rw [BitVec.getLsbD_xor, this]
  rfl

/-- The powers of two around the overflow bound, as multiples of one positive number. -/
theorem overflow_powers : ∃ t : ℝ, 0 < t ∧ (2 : ℝ) ^ 970 = t ∧ (2 : ℝ) ^ 971 = 2 * t ∧ (2 : ℝ) ^ 1024 = 2 ^ 54 * t :=
  ⟨2 ^ 970, by positivity, rfl, by rw [← pow_succ'], by rw [← pow_add]⟩

theorem overflow_bound_pos : (0 : ℝ) < 2 ^ 1024 - 2 ^ 970 := by
  obtain ⟨t, ht, e0, _, e2⟩ := overflow_powers
  rw [e0, e2]
  linarith only [ht]

/-- A nearest number is not more than half an ulp below the value. -/
theorem sub_le_half_ulp {r : F64} {v : ℝ} (hf : isFinite r = true) (hv : |v| < 2 ^ 1024 - 2 ^ 970)
    (h : NearestToEven r v) : v - realOf r ≤ ulpOf r / 2 := by
  have hu := ulpOf_pos r
  rcases exists_above hf with ⟨c, hc, h1, h2⟩ | ⟨h1, h2⟩
  · have h3 := (h c hc).1
    rcases abs_cases (realOf r - v) with h4 | h4 <;> rcases abs_cases (realOf c - v) with h5 | h5 <;>
      linarith [h4.1, h4.2, h5.1, h5.2]
  · obtain ⟨t, ht, e0, e1, e2⟩ := overflow_powers
    have h3 := (abs_lt.mp hv).2
    rw [h2, e1]
    rw [h2, e1, e2] at h1
    rw [e0, e2] at h3
    linarith only [h1, h3]

/-- Rounding is within half an ulp of the result. -/
theorem RoundsTo.half_ulp {r : F64} {v : ℝ} (h : RoundsTo r v) (hf : isFinite r = true) :
    |realOf r - v| ≤ ulpOf r / 2 := by
  obtain ⟨hv, hn⟩ := h.nearest hf
  have h1 := sub_le_half_ulp hf hv hn
  have h2 := sub_le_half_ulp (r := fneg r) (v := -v) (by rw [isFinite_fneg]; exact hf)
    (by rw [abs_neg]; exact hv) hn.fneg
  rw [realOf_fneg, ulpOf_fneg] at h2
  rw [abs_le]
  constructor <;> linarith

theorem ulpOf_of_isInf {r : F64} (h : isInf r = true) : ulpOf r = 2 ^ 971 := by
  refine ulpOf_top ?_
  have : magnitudeBits r = infMagnitude := by simpa [isInf] using h
  have hi : infMagnitude = 2047 * 2 ^ 52 := by decide
  unfold exponentField
  omega

/-- With the sign of the value, an infinite rounding stands on the value's own side. -/
theorem RoundsTo.overflow_signed {r : F64} {v : ℝ} (h : RoundsTo r v) (hi : isInf r = true) :
    2 ^ 1024 - 2 ^ 970 ≤ (if signOf r = true then -v else v) := by
  have h1 := h.overflow hi
  have hv : v ≠ 0 := by
    intro e
    rw [e, abs_zero] at h1
    exact absurd overflow_bound_pos (not_lt.mpr h1)
  have hs := h.sign hv
  by_cases hlt : v < 0
  · rw [if_pos (hs.mpr hlt)]
    rwa [abs_of_neg hlt] at h1
  · rw [if_neg (fun e => hlt (hs.mp e))]
    rwa [abs_of_nonneg (not_lt.mp hlt)] at h1

/-- What is rounded once lies within the ulp of the result. -/
theorem RoundsTo.approximates {r : F64} {v : ℝ} (h : RoundsTo r v) : Approximates r v (ulpOf r) := by
  refine ⟨h.notNaN, fun hf => le_trans (h.half_ulp hf) (by linarith [ulpOf_pos r]), fun hi => ?_⟩
  have h1 := h.overflow_signed hi
  obtain ⟨t, ht, e0, e1, e2⟩ := overflow_powers
  rw [e0, e2] at h1
  rw [ulpOf_of_isInf hi, e1, e2]
  linarith only [h1, ht]

/-- One ulp is at most 2^-52 of the number, or the spacing of the subnormals. -/
theorem ulpOf_le {r : F64} (h : isFinite r = true) : ulpOf r ≤ |realOf r| / 2 ^ 52 + 1 / (unitsPerOne : ℝ) := by
  have hU := unitsPerOne_pos
  rw [abs_realOf]
  unfold ulpOf magnitudeReal
  rw [min_eq_left (exponentField_le_of_isFinite h)]
  by_cases he : exponentField r = 0
  · rw [he]
    have : (0 : ℝ) ≤ (magnitudeValue (magnitudeBits r) : ℝ) / (unitsPerOne : ℝ) / 2 ^ 52 := by positivity
    norm_num at this ⊢
    linarith
  · have hv : 2 ^ (exponentField r - 1) * 2 ^ 52 ≤ magnitudeValue (magnitudeBits r) := by
      rw [← magnitudeUnits_eq]
      unfold magnitudeUnits
      rw [if_neg he, Nat.mul_comm]
      exact Nat.mul_le_mul_right _ (by omega)
    have hv' : (2 : ℝ) ^ (exponentField r - 1) * 2 ^ 52 ≤ (magnitudeValue (magnitudeBits r) : ℝ) := by
      exact_mod_cast hv
    have h1 : (2 : ℝ) ^ (exponentField r - 1) / (unitsPerOne : ℝ) ≤
        (magnitudeValue (magnitudeBits r) : ℝ) / (unitsPerOne : ℝ) / 2 ^ 52 := by
      rw [div_div, div_le_div_iff₀ hU (by positivity)]
      nlinarith
    have h2 : (0 : ℝ) < 1 / (unitsPerOne : ℝ) := by positivity
    linarith

/-- How far a rounded value lies from the exact one, in terms of the exact one. -/
theorem RoundsTo.abs_sub_le {r : F64} {v : ℝ} (h : RoundsTo r v) (hf : isFinite r = true) :
    |realOf r - v| ≤ |v| / 2 ^ 52 + 6 / 10 / (unitsPerOne : ℝ) := by
  have h1 := h.half_ulp hf
  have h2 := ulpOf_le hf
  have h3 : |realOf r| ≤ |v| + |realOf r - v| := by
    have := abs_add_le v (realOf r - v)
    rwa [add_sub_cancel] at this
  have hv := abs_nonneg v
  have hU : (0 : ℝ) < 1 / (unitsPerOne : ℝ) := by
    have := unitsPerOne_pos
    positivity
  have e : (6 : ℝ) / 10 / (unitsPerOne : ℝ) = 6 / 10 * (1 / (unitsPerOne : ℝ)) := by ring
  rw [e]
  generalize 1 / (unitsPerOne : ℝ) = u at *
  norm_num at h1 h2 ⊢
  linarith

/-! ### NUM_REF meets NUM_FAITHFUL as far as binary64 can, and exists -/

theorem abs_sum_mul_le {len : Nat} {x : List F64} {w : Nat → ℝ} (hw : ∀ n, |w n| ≤ 1) :
    |∑ n ∈ Finset.range len, realOf (x.getD n posZero) * w n| ≤ absSum len x := by
  refine le_trans (Finset.abs_sum_le_sum_abs _ _) (Finset.sum_le_sum (fun n _ => ?_))
  rw [abs_mul]
  exact mul_le_of_le_one_right (abs_nonneg _) (hw n)

theorem abs_idealRe_le (len : Nat) (x : List F64) (b : Nat) : |idealRe len x b| ≤ absSum len x :=
  abs_sum_mul_le (fun _ => Real.abs_cos_le_one _)

theorem abs_idealIm_le (len : Nat) (x : List F64) (b : Nat) : |idealIm len x b| ≤ absSum len x := by
  unfold idealIm
  rw [abs_neg]
  exact abs_sum_mul_le (fun _ => Real.abs_sin_le_one _)

theorem absSum_nonneg (len : Nat) (x : List F64) : 0 ≤ absSum len x :=
  Finset.sum_nonneg (fun _ _ => abs_nonneg _)

theorem binTolerance_nonneg (len : Nat) (x : List F64) : 0 ≤ binTolerance len x :=
  div_nonneg (absSum_nonneg len x) (by positivity)

/-- Each part of a finite bin is at most as far off as the bin. -/
theorem abs_sub_le_binDistance (z : F64 × F64) (re im : ℝ) :
    |realOf z.1 - re| ≤ binDistance z re im ∧ |realOf z.2 - im| ≤ binDistance z re im :=
  ⟨Real.abs_le_sqrt (le_add_of_nonneg_right (sq_nonneg _)), Real.abs_le_sqrt (le_add_of_nonneg_left (sq_nonneg _))⟩

/-- A part that is rounded once is approximated to any tolerance its finite error keeps to, R7's bound included. -/
theorem RoundsTo.part {r : F64} {v tol : ℝ} {len : Nat} {x : List F64} (h : RoundsTo r v) (hv : |v| ≤ absSum len x)
    (ht : binTolerance len x ≤ tol) (hf : isFinite r = true → |realOf r - v| ≤ tol) : Approximates r v tol where
  notNaN := h.notNaN
  near := hf
  overflow hi := by
    have h1 := h.overflow_signed hi
    have h3 := le_trans (h.overflow hi) hv
    obtain ⟨t, hp, e0, _, e2⟩ := overflow_powers
    rw [e0, e2] at h1 h3
    rw [e2]
    unfold binTolerance at ht
    generalize (if signOf r = true then -v else v) = w at *
    norm_num at h1 h3 ht ⊢
    linarith only [h1, h3, ht, hp]

/-- A bin whose parts are rounded once lies within every tolerance that R7's bound and its own distance keep to. -/
theorem BinWithin.of_roundsTo {z : F64 × F64} {len : Nat} {x : List F64} {b : Nat} {tol : ℝ}
    (h1 : RoundsTo z.1 (idealRe len x b)) (h2 : RoundsTo z.2 (idealIm len x b)) (ht : binTolerance len x ≤ tol)
    (e1 : isFinite z.1 = true → |realOf z.1 - idealRe len x b| ≤ tol)
    (e2 : isFinite z.2 = true → |realOf z.2 - idealIm len x b| ≤ tol)
    (hd : isFinite z.1 = true → isFinite z.2 = true → binDistance z (idealRe len x b) (idealIm len x b) ≤ tol) :
    BinWithin z (idealRe len x b) (idealIm len x b) tol where
  re := h1.part (abs_idealRe_le len x b) ht e1
  im := h2.part (abs_idealIm_le len x b) ht e2
  distance := hd

/-- No pair of finite binary64 numbers lies nearer than the one whose parts are rounded. -/
theorem binDistance_le {z c : F64 × F64} {re im : ℝ} (h1 : NearestToEven z.1 re) (h2 : NearestToEven z.2 im)
    (f1 : isFinite c.1 = true) (f2 : isFinite c.2 = true) : binDistance z re im ≤ binDistance c re im := by
  refine Real.sqrt_le_sqrt (add_le_add ?_ ?_)
  · exact sq_le_sq.mpr (h1 c.1 f1).1
  · exact sq_le_sq.mpr (h2 c.2 f2).1

theorem NumReference.scalars {nu : Numerics} (h : NumReference nu) : ScalarsFaithful nu where
  log10 x hd hf := (h.log10 x hd hf).approximates
  pow10 x _ hf := (h.pow10 x hf).approximates
  ln x hd hf := (h.ln x hd hf).approximates
  cos x _ hf := (h.cos x hf).approximates

/-- NUM_REF meets NUM_FAITHFUL as far as binary64 can. -/
theorem NumReference.attainable {nu : Numerics} (h : NumReference nu) : NumAttainable nu where
  toScalarsFaithful := h.scalars
  rdft len x b hl hb hx c f1 f2 := by
    obtain ⟨h1, h2⟩ := h.rdft len x b hl hb hx
    have hc := abs_sub_le_binDistance c (idealRe len x b) (idealIm len x b)
    refine .of_roundsTo h1 h2 (le_max_left _ _) (fun hf => ?_) (fun hf => ?_) (fun g1 g2 => ?_)
    · exact le_trans (((h1.nearest hf).2 c.1 f1).1.trans hc.1) (le_max_right _ _)
    · exact le_trans (((h2.nearest hf).2 c.2 f2).1.trans hc.2) (le_max_right _ _)
    · exact le_trans (binDistance_le (h1.nearest g1).2 (h2.nearest g2).2 f1 f2) (le_max_right _ _)

/-- NUM_REF meets R7's own bound at every frame whose magnitudes sum to 2^-1033 or more. -/
theorem NumReference.bin_within {nu : Numerics} (h : NumReference nu) {len : Nat} {x : List F64} {b : Nat}
    (hl : x.length = len) (hb : b ≤ len / 2) (hx : ∀ a ∈ x, isFinite a = true)
    (hs : 2 ^ 41 / (unitsPerOne : ℝ) ≤ absSum len x) :
    BinWithin (nu.rdft len x b) (idealRe len x b) (idealIm len x b) (binTolerance len x) := by
  obtain ⟨h1, h2⟩ := h.rdft len x b hl hb hx
  have part : ∀ {r : F64} {v : ℝ}, RoundsTo r v → |v| ≤ absSum len x → isFinite r = true →
      |realOf r - v| ≤ 7 / 10 * binTolerance len x := by
    intro r v hr hv hf
    have h3 := hr.abs_sub_le hf
    have h0 := absSum_nonneg len x
    have e : (6 : ℝ) / 10 / (unitsPerOne : ℝ) = 6 / 10 * (1 / (unitsPerOne : ℝ)) := by ring
    have e' : (2 : ℝ) ^ 41 / (unitsPerOne : ℝ) = 2 ^ 41 * (1 / (unitsPerOne : ℝ)) := by ring
    rw [e] at h3
    rw [e'] at hs
    unfold binTolerance
    generalize 1 / (unitsPerOne : ℝ) = u at *
    norm_num at h3 hs ⊢
    linarith
  have hn := binTolerance_nonneg len x
  have p1 := part h1 (abs_idealRe_le len x b)
  have p2 := part h2 (abs_idealIm_le len x b)
  refine .of_roundsTo h1 h2 le_rfl (fun hf => (p1 hf).trans (by linarith)) (fun hf => (p2 hf).trans (by linarith))
    (fun g1 g2 => Real.sqrt_le_iff.mpr ⟨hn, ?_⟩)
  have s1 := pow_le_pow_left₀ (abs_nonneg _) (p1 g1) 2
  have s2 := pow_le_pow_left₀ (abs_nonneg _) (p2 g2) 2
  rw [sq_abs] at s1 s2
  nlinarith [sq_nonneg (binTolerance len x)]

theorem Approximates.mono {r : F64} {v t u : ℝ} (h : Approximates r v t) (htu : t ≤ u) : Approximates r v u where
  notNaN := h.notNaN
  near hf := (h.near hf).trans htu
  overflow hi := (h.overflow hi).trans (by linarith)

/-- NUM_FAITHFUL to the letter of R7 implies it as far as binary64 can meet it. -/
theorem NumFaithful.attainable {nu : Numerics} (h : NumFaithful nu) : NumAttainable nu where
  toScalarsFaithful := h.toScalarsFaithful
  rdft len x b hl hb hx _ _ _ := by
    have hw := h.rdft len x b hl hb hx
    exact ⟨hw.re.mono (le_max_left _ _), hw.im.mono (le_max_left _ _),
      fun f1 f2 => (hw.distance f1 f2).trans (le_max_left _ _)⟩

/-- A finite number is its own rounding. -/
theorem roundsTo_self {r : F64} (hf : isFinite r = true) : RoundsTo r (realOf r) where
  notNaN := ((isFinite_iff_not r).mp hf).1
  nearest _ := by
    constructor
    · rw [abs_realOf]
      have h1 : magnitudeReal (magnitudeBits r) ≤ magnitudeReal (infMagnitude - 1) :=
        magnitudeReal_strictMono.monotone (by have := lt_infMagnitude_of_isFinite hf; omega)
      have h2 : magnitudeReal infMagnitude = magnitudeReal (infMagnitude - 1) + 2 ^ 971 := by
        have hm : infMagnitude - 1 < 2 ^ 63 := by decide
        have h3 := magnitudeReal_succ (isFinite_packSign false (m := infMagnitude - 1) (by decide))
        rw [magnitudeBits_packSign _ hm, show infMagnitude - 1 + 1 = infMagnitude from by decide, ulpOf_top (by
          unfold exponentField
          rw [magnitudeBits_packSign _ hm]
          decide)] at h3
        exact h3
      obtain ⟨t, ht, e0, e1, e2⟩ := overflow_powers
      rw [magnitudeReal_inf, e1, e2] at h2
      rw [e0, e2]
      linarith only [h1, h2, ht]
    · intro c _
      rw [sub_self, abs_zero]
      refine ⟨abs_nonneg _, fun h hne => absurd ?_ hne⟩
      have := abs_eq_zero.mp h.symm
      linarith
  overflow hi := by
    rw [((isFinite_iff_not r).mp hf).2] at hi
    exact absurd hi (by simp)
  sign hv := by
    have hp := magnitudeReal_nonneg (magnitudeBits r)
    rw [realOf_eq] at hv ⊢
    by_cases hs : signOf r = true
    · rw [if_pos hs] at hv ⊢
      simp only [hs, true_iff, Left.neg_neg_iff]
      exact lt_of_le_of_ne hp (fun e => hv (by rw [← e, neg_zero]))
    · rw [if_neg hs] at hv ⊢
      simp only [hs, Bool.false_eq_true, false_iff, not_lt]
      exact hp

/-- The rounding of a real value, one of the numbers it rounds to. -/
noncomputable def rounding (v : ℝ) : F64 := (exists_roundsTo v).choose

theorem rounding_spec (v : ℝ) : RoundsTo (rounding v) v := (exists_roundsTo v).choose_spec

theorem canonical_of_roundsTo {r : F64} {v : ℝ} (h : RoundsTo r v) : canonical r = r :=
  canonical_of_not_isNaN h.notNaN

theorem realOf_posZero : realOf posZero = 0 := by
  have := realOf_packSign false (m := 0) (by decide)
  simpa [packSign, posZero] using this

theorem realOf_of_isZero {x : F64} (h : isZero x = true) : realOf x = 0 := by
  have : magnitudeBits x = 0 := by simpa [isZero] using h
  rw [← abs_eq_zero, abs_realOf, this, magnitudeReal_zero]

theorem realOf_packSign_value (m : Nat) (h : m < 2 ^ 63) (k e : Nat) (hv : magnitudeValue m * 2 ^ e = k * 2 ^ 1074) :
    realOf (packSign false m) = (k : ℝ) / 2 ^ e := by
  rw [realOf_packSign _ h, if_neg (by simp), magnitudeReal, unitsPerOne_real,
    div_eq_div_iff (by positivity) (by positivity)]
  have h := congrArg (Nat.cast : ℕ → ℝ) hv
  simp only [Nat.cast_mul, Nat.cast_pow, Nat.cast_ofNat] at h
  exact h

theorem realOf_cOne : realOf cOne = 1 := by
  have h := realOf_packSign_value (1023 * 2 ^ 52) (by decide) 1 0 (by
    have := magnitudeValue_binade (shift := 1022) (r := 2 ^ 52) (by omega) (.inr (le_refl _))
    rw [show 1023 * 2 ^ 52 = 2 ^ 52 * 1022 + 2 ^ 52 by norm_num, this, ← pow_add, pow_zero,
      Nat.mul_one, Nat.one_mul])
  have e : packSign false (1023 * 2 ^ 52) = cOne := by decide
  rw [e] at h
  rw [h]
  norm_num

/-- Of two non-negative numbers in their order the values are in the same order. -/
theorem realOf_le_of_fle {a b : F64} (ha : signOf a = false) (ha0 : magnitudeBits a ≠ 0) (h : fle a b = true) :
    signOf b = false ∧ realOf a ≤ realOf b := by
  simp only [fle, Bool.and_eq_true, decide_eq_true_eq, orderKey, ha, Bool.false_eq_true, if_false] at h
  have hb : signOf b = false := by
    cases hs : signOf b with
    | false => rfl
    | true =>
      rw [hs] at h
      simp only [if_true] at h
      omega
  rw [hb] at h
  simp only [Bool.false_eq_true, if_false] at h
  refine ⟨hb, ?_⟩
  rw [realOf_eq, realOf_eq, ha, hb]
  simp only [Bool.false_eq_true, if_false]
  exact magnitudeReal_strictMono.monotone (by omega)

theorem overflow_of_large {x : F64} (h : fle cPow10Overflow x = true) :
    RoundsTo (infinity false) ((10 : ℝ) ^ realOf x) := by
  have h1 := (realOf_le_of_fle (by decide) (by decide) h).2
  have h309 : realOf cPow10Overflow = 309 := by
    have hb := realOf_packSign_value (2 ^ 52 * 1030 + 309 * 2 ^ 44) (by decide) 309 0 (by
      rw [magnitudeValue_binade (by norm_num) (.inr (by norm_num))]
      rw [Nat.mul_assoc, Nat.mul_assoc, ← pow_add, ← pow_add])
    have e : packSign false (2 ^ 52 * 1030 + 309 * 2 ^ 44) = cPow10Overflow := by decide
    rw [e] at hb
    rw [hb]
    norm_num
  rw [h309] at h1
  have hbig : (2 : ℝ) ^ 1024 ≤ (10 : ℝ) ^ realOf x := by
    refine le_trans ?_ (Real.rpow_le_rpow_of_exponent_le (by norm_num) h1)
    rw [show (309 : ℝ) = ((309 : ℕ) : ℝ) by norm_num, Real.rpow_natCast]
    have a1 : (2 : ℝ) ^ 1024 = ((2 : ℝ) ^ 10) ^ 102 * 2 ^ 4 := by rw [← pow_mul, ← pow_add]
    have a2 : (10 : ℝ) ^ 309 = ((10 : ℝ) ^ 3) ^ 102 * 10 ^ 3 := by rw [← pow_mul, ← pow_add]
    rw [a1, a2]
    have a3 : ((2 : ℝ) ^ 10) ^ 102 ≤ ((10 : ℝ) ^ 3) ^ 102 * 16 := by
      have : ((2 : ℝ) ^ 10) = (10 : ℝ) ^ 3 * (1024 / 1000) := by norm_num
      rw [this, mul_pow]
      refine mul_le_mul_of_nonneg_left ?_ (by positivity)
      norm_num
    have a4 : (0 : ℝ) < ((10 : ℝ) ^ 3) ^ 102 := by positivity
    generalize ((10 : ℝ) ^ 3) ^ 102 = p at *
    generalize ((2 : ℝ) ^ 10) ^ 102 = q at *
    norm_num
    linarith only [a3, a4]
  have hpos : (0 : ℝ) < (10 : ℝ) ^ realOf x := Real.rpow_pos_of_pos (by norm_num) _
  refine ⟨by decide, fun hf => absurd hf (by decide), fun _ => ?_, fun _ => ?_⟩
  · rw [abs_of_pos hpos]
    have : (0 : ℝ) < 2 ^ 970 := by positivity
    generalize (2 : ℝ) ^ 970 = t at *
    generalize (2 : ℝ) ^ 1024 = B at *
    linarith only [this, hbig]
  · rw [show signOf (infinity false) = false by decide]
    simp only [Bool.false_eq_true, false_iff, not_lt]
    exact hpos.le

theorem floorE_large : (1 : ℝ) / 2 ^ 17 ≤ realOf cFloorE := by
  have h1 : realOf (packSign false (2 ^ 52 * 1005 + 2 ^ 52)) = ((1 : ℕ) : ℝ) / 2 ^ 17 :=
    realOf_packSign_value _ (by decide) 1 17 (by
      rw [magnitudeValue_binade (by omega) (.inr (le_refl _)), ← pow_add, ← pow_add, Nat.one_mul])
  have h2 := (realOf_le_of_fle (a := packSign false (2 ^ 52 * 1005 + 2 ^ 52)) (b := cFloorE)
    (by decide) (by decide) (by decide)).2
  rw [h1] at h2
  simpa using h2

/-- From the energy floor up the logarithm is at least -17. -/
theorem log_floor_le {x : F64} (h : fle cFloorE x = true) : -17 ≤ Real.log (realOf x) := by
  have h2 := le_trans floorE_large (realOf_le_of_fle (by decide) (by decide) h).2
  have h3 : Real.log (1 / 2 ^ 17) ≤ Real.log (realOf x) := Real.log_le_log (by positivity) h2
  rw [one_div, Real.log_inv, Real.log_pow] at h3
  have h4 : Real.log 2 ≤ 1 := by
    have := Real.log_le_sub_one_of_pos (show (0 : ℝ) < 2 by norm_num)
    linarith
  push_cast at h3
  linarith

/-- Numerics that round the ideal value once wherever there is one, before the contract. -/
noncomputable def reference : Numerics :=
  Numerics.ofRaw (fun x => rounding (Real.logb 10 (realOf x))) (fun x => rounding ((10 : ℝ) ^ realOf x))
    (fun x => rounding (Real.log (realOf x))) (fun x => rounding (Real.cos (realOf x)))
    (fun len x b => (rounding (idealRe len x b), rounding (idealIm len x b)))

/-- What a logarithm of the contract makes of a function that rounds `f`, at a positive finite operand. -/
theorem logContract_rounding {f : ℝ → ℝ} (hf1 : f 1 = 0) {x : F64} (hd : flt posZero x = true)
    (hf : isFinite x = true) :
    RoundsTo (logContract (fun y => rounding (f (realOf y))) x) (f (realOf x)) := by
  have hn := (isFinite_iff_not x).mp hf
  have hs : flt x posZero = false := by
    simp only [flt, Bool.and_eq_true, decide_eq_true_eq, Bool.and_eq_false_iff, decide_eq_false_iff_not] at hd ⊢
    right
    omega
  have h0 : x ≠ posZero := by
    rintro rfl
    exact absurd hd (by decide)
  have hi : x ≠ infinity false := by
    rintro rfl
    exact absurd hf (by decide)
  unfold logContract
  rw [hn.1, hs, if_neg (by simp), if_neg (by simp), if_neg h0]
  by_cases h1 : x = cOne
  · rw [if_pos h1, h1, realOf_cOne, hf1]
    have := roundsTo_self (r := posZero) (by decide)
    rwa [realOf_posZero] at this
  · rw [if_neg h1, if_neg hi]
    have := rounding_spec (f (realOf x))
    rwa [canonical_of_roundsTo this]

/-- NUM_REF exists: assuming it, or NUM_FAITHFUL, by name is no empty hypothesis. -/
theorem reference_numReference : NumReference reference where
  conforms := conforms_ofRaw _ _ _ _ _
  log10 x hd hf := logContract_rounding (f := Real.logb 10) (by simp) hd hf
  pow10 x hf := by
    have hn := (isFinite_iff_not x).mp hf
    change RoundsTo (pow10Contract (fun y => rounding ((10 : ℝ) ^ realOf y)) x) _
    unfold pow10Contract
    rw [hn.1, if_neg (by simp)]
    split_ifs with h0 h1
    · rw [realOf_of_isZero h0, Real.rpow_zero, ← realOf_cOne]
      exact roundsTo_self (by decide)
    · exact overflow_of_large h1
    · rw [canonical_of_roundsTo (rounding_spec _)]
      exact rounding_spec _
  ln x hd hf := by
    change RoundsTo (lnContract _ x) _
    have h := logContract_rounding (f := Real.log) (by simp) hd hf
    rw [lnContract_of_allowed]
    · exact h
    · intro hx e
      rw [e] at h
      have h1 := h.overflow_signed (by decide)
      rw [if_pos (by decide)] at h1
      have hr := log_floor_le hx
      obtain ⟨t, ht, e0, _, e2⟩ := overflow_powers
      have h6 : (1 : ℝ) ≤ t := by
        rw [← e0]
        exact one_le_pow₀ (by norm_num)
      rw [e0, e2] at h1
      linarith only [h6, h1, hr]
  cos x hf := by
    have hn := (isFinite_iff_not x).mp hf
    change RoundsTo (cosContract (fun y => rounding (Real.cos (realOf y))) x) _
    unfold cosContract
    rw [hn.1, hn.2, if_neg (by simp)]
    split_ifs with h0
    · rw [realOf_of_isZero h0, Real.cos_zero, ← realOf_cOne]
      exact roundsTo_self (by decide)
    · rw [canonical_of_roundsTo (rounding_spec _)]
      exact rounding_spec _
  rdft len x b _ _ hx := by
    have hnan : x.any isNaN = false := by
      rw [List.any_eq_false]
      intro a ha
      rw [((isFinite_iff_not a).mp (hx a ha)).1]
      simp
    change RoundsTo (rdftContract _ len x b).1 _ ∧ RoundsTo (rdftContract _ len x b).2 _
    unfold rdftContract
    rw [hnan, if_neg (by simp)]
    simp only
    rw [canonical_of_roundsTo (rounding_spec _), canonical_of_roundsTo (rounding_spec _)]
    exact ⟨rounding_spec _, rounding_spec _⟩

/-- NUM_FAITHFUL can be met as far as binary64 can. -/
theorem reference_numAttainable : NumAttainable reference := reference_numReference.attainable

/-- The smallest subnormal, 2^-1074. -/
theorem realOf_one_unit : realOf 1#64 = 1 / (unitsPerOne : ℝ) := by
  have h : units 1#64 = 1 := by decide
  simp [realOf, valueOf, h]

/-- No numerics meet R7's bound to the letter: in bin 1 of the frame (0, 2^-1074, 0, 0, 0, 0, 0, 0) the ideal real part
lies between +0.0 and 2^-1074 and near neither. -/
theorem not_numFaithful (nu : Numerics) : ¬ NumFaithful nu := by
  intro h
  have hw := h.rdft 8 [0#64, 1#64, 0#64, 0#64, 0#64, 0#64, 0#64, 0#64] 1 rfl (by decide) (by
    intro a ha
    simp only [List.mem_cons, List.not_mem_nil, or_false] at ha
    rcases ha with rfl | rfl | rfl | rfl | rfl | rfl | rfl | rfl <;> decide)
  have h0 : realOf 0#64 = 0 := realOf_posZero
  have hU := unitsPerOne_pos
  have hre : idealRe 8 [0#64, 1#64, 0#64, 0#64, 0#64, 0#64, 0#64, 0#64] 1 = Real.sqrt 2 / 2 / (unitsPerOne : ℝ) := by
    have hc : Real.cos (2 * Real.pi / 8) = Real.sqrt 2 / 2 := by
      rw [← Real.cos_pi_div_four]
      congr 1
      ring
    simp [idealRe, Finset.sum_range_succ, h0, realOf_one_unit, hc]
    ring
  have hs : absSum 8 [0#64, 1#64, 0#64, 0#64, 0#64, 0#64, 0#64, 0#64] = 1 / (unitsPerOne : ℝ) := by
    simp [absSum, Finset.sum_range_succ, h0, realOf_one_unit]
  have hlo : (14 : ℝ) / 10 ≤ Real.sqrt 2 := Real.le_sqrt_of_sq_le (by norm_num)
  have hhi : Real.sqrt 2 ≤ 15 / 10 := Real.sqrt_le_iff.mpr ⟨by norm_num, by norm_num⟩
  have hr := hw.re
  rw [hre, binTolerance, hs] at hr
  generalize (nu.rdft 8 [0#64, 1#64, 0#64, 0#64, 0#64, 0#64, 0#64, 0#64] 1).1 = r at hr
  generalize Real.sqrt 2 = q at *
  cases hi : isInf r with
  | false =>
    have hd := hr.near ((isFinite_iff_not r).mpr ⟨hr.notNaN, hi⟩)
    have e : realOf r = (units r : ℝ) / (unitsPerOne : ℝ) := by simp [realOf, valueOf]
    rw [e, ← sub_div, abs_div, abs_of_pos hU, div_right_comm, div_le_div_iff_of_pos_right hU, abs_le] at hd
    norm_num at hd
    have k1 : (0 : ℝ) < units r := by linarith
    have k2 : (units r : ℝ) < 1 := by linarith
    have k1' : 0 < units r := by exact_mod_cast k1
    have k2' : units r < 1 := by exact_mod_cast k2
    omega
  | true =>
    have ho := hr.overflow hi
    have hu : 1 / (unitsPerOne : ℝ) ≤ 1 := by
      rw [unitsPerOne_real]
      exact div_le_one_of_le₀ (one_le_pow₀ one_le_two) (pow_nonneg zero_le_two _)
    have hu0 : 0 < 1 / (unitsPerOne : ℝ) := by positivity
    obtain ⟨t, _, e0, _, e2⟩ := overflow_powers
    have ht : (1 : ℝ) ≤ t := by
      rw [← e0]
      exact one_le_pow₀ (by norm_num)
    rw [e2] at ho
    have hq : q / 2 / (unitsPerOne : ℝ) = q / 2 * (1 / (unitsPerOne : ℝ)) := by ring
    rw [hq] at ho
    generalize 1 / (unitsPerOne : ℝ) = u at *
    have hb : |q / 2 * u| ≤ 1 := by
      rw [abs_of_nonneg (by nlinarith)]
      nlinarith
    have hb' := abs_le.mp hb
    norm_num at ho
    split at ho <;> linarith only [ho, hb'.1, hb'.2, ht, hu]

end Sys2Proof.Machine
end

