-- ==== Sys2Proof/Laws/PerInstr.lean ====
section
/-! SUPPORT. The statements made per instruction: one lemma per constructor of `Instr`. -/

namespace Sys2Proof.Laws

/-- The word of a command (30_encoding.md R110 to R112): its opcode byte is the table's, its CTX and ORTH fields are
the command's own, zero where it has none, and every reserved field is zero. -/
def EncodeReserved.Statement (i : Instr) : Prop :=
  opcodeField (encode i) = i.opcode ∧ ctxField (encode i) = i.ctx?.getD 0#2 ∧
  orthField (encode i) = i.orthBit ∧ reservedLowField (encode i) = 0#6 ∧
  reservedHighField (encode i) = 0#15 ∧ highWordField (encode i) = 0#32

theorem EncodeReserved.nop : EncodeReserved.Statement .nop := by
  unfold EncodeReserved.Statement
  decide

theorem EncodeReserved.fbBuild : EncodeReserved.Statement .fbBuild := by
  unfold EncodeReserved.Statement
  decide

theorem EncodeReserved.mel : EncodeReserved.Statement .mel := by
  unfold EncodeReserved.Statement
  decide

theorem EncodeReserved.melInv : EncodeReserved.Statement .melInv := by
  unfold EncodeReserved.Statement
  decide

theorem EncodeReserved.winBuild : EncodeReserved.Statement .winBuild := by
  unfold EncodeReserved.Statement
  decide

theorem EncodeReserved.ctxReset (c : Ctx) : EncodeReserved.Statement (.ctxReset c) := by
  unfold EncodeReserved.Statement
  rcases ctx_cases c with rfl | rfl | rfl | rfl <;> decide

theorem EncodeReserved.frameCount : EncodeReserved.Statement .frameCount := by
  unfold EncodeReserved.Statement
  decide

theorem EncodeReserved.frameFetch : EncodeReserved.Statement .frameFetch := by
  unfold EncodeReserved.Statement
  decide

theorem EncodeReserved.preemph (c : Ctx) : EncodeReserved.Statement (.preemph c) := by
  unfold EncodeReserved.Statement
  rcases ctx_cases c with rfl | rfl | rfl | rfl <;> decide

theorem EncodeReserved.window : EncodeReserved.Statement .window := by
  unfold EncodeReserved.Statement
  decide

theorem EncodeReserved.framePrep (c : Ctx) : EncodeReserved.Statement (.framePrep c) := by
  unfold EncodeReserved.Statement
  rcases ctx_cases c with rfl | rfl | rfl | rfl <;> decide

theorem EncodeReserved.specPower : EncodeReserved.Statement .specPower := by
  unfold EncodeReserved.Statement
  decide

theorem EncodeReserved.specProject : EncodeReserved.Statement .specProject := by
  unfold EncodeReserved.Statement
  decide

theorem EncodeReserved.specLogMel : EncodeReserved.Statement .specLogMel := by
  unfold EncodeReserved.Statement
  decide

theorem EncodeReserved.dctBasis (o : Bool) : EncodeReserved.Statement (.dctBasis o) := by
  unfold EncodeReserved.Statement
  cases o <;> decide

theorem EncodeReserved.dctOrth : EncodeReserved.Statement .dctOrth := by
  unfold EncodeReserved.Statement
  decide

theorem EncodeReserved.dct2 : EncodeReserved.Statement .dct2 := by
  unfold EncodeReserved.Statement
  decide

theorem EncodeReserved.idctOrth : EncodeReserved.Statement .idctOrth := by
  unfold EncodeReserved.Statement
  decide

theorem EncodeReserved.dct3 : EncodeReserved.Statement .dct3 := by
  unfold EncodeReserved.Statement
  decide

theorem EncodeReserved.dctLegacy : EncodeReserved.Statement .dctLegacy := by
  unfold EncodeReserved.Statement
  decide

end Sys2Proof.Laws
end

