-- ==== Sys2Proof/Tests/Slice0.lean ====
section
/-! SUPPORT. The model's own tests, with results from spec/ (mostly the vectors of 95_test_vectors.md, named by their
row), and a witness for the hypotheses of every obligation that has some. -/

namespace Sys2Proof.Tests

-- One theorem at a time: the kernel's evaluations below wait for one another, each on a thread of its own.
set_option Elab.async false

open Sys2Proof.Machine

/-! ### Fixtures -/

/-- The next state, where there is one. -/
def nextOf (o : Host.Outcome State Fault Refusal) : Option State :=
  match o with
  | .next s => some s
  | .fault _ => none
  | .refused _ => none

/-- The fault, where there is one. -/
def faultOf (o : Host.Outcome State Fault Refusal) : Option Fault :=
  match o with
  | .fault f => some f
  | .next _ => none
  | .refused _ => none

/-- STATUS and ERR_INFO after the outcome. -/
def statusAfter (o : Host.Outcome State Fault Refusal) : Option (Word × Word) :=
  (nextOf o).map (fun t => (t.status.word, t.errInfo.word))

/-- The words of a space from 0 on, after the outcome. -/
def wordsAfter (o : Host.Outcome State Fault Refusal) (sp : Space) (n : Nat) : Option (List (Option Word)) :=
  (nextOf o).map (fun t => (List.range n).map (t.peek sp))

/-- `s` with the word `w` pending, as the host's check places it. -/
def runWord (s : State) (w : Nat) : Host.Outcome State Fault Refusal := step (s.withFetchWord 64 w)

/-- Configuration T of 95_test_vectors.md. -/
def cfgT : Cfg where
  sampleRate := 16#32
  frameRate := 4#32
  frameDur := 0x3FE0000000000000#64
  nfft := 8#32
  nfilt := 2#32
  ncep := 2#32
  lowerFreq := 0x0000000000000000#64
  upperFreq := 0x4020000000000000#64
  alpha := 0x3FE0000000000000#64

/-- 1.0 to 10.0, the signal of 95_test_vectors.md section 4.3. -/
def signalT : List Word :=
  [0x3FF0000000000000#64, 0x4000000000000000#64, 0x4008000000000000#64, 0x4010000000000000#64,
   0x4014000000000000#64, 0x4018000000000000#64, 0x401C000000000000#64, 0x4020000000000000#64,
   0x4022000000000000#64, 0x4024000000000000#64]

/-- The window of configuration T, row F12b. -/
def windowT : List Word :=
  [0x3FB47AE147AE147C#64, 0x3FD03457817F43ED#64, 0x3FE48E35C82F9F09#64, 0x3FEE8AD1AA43F234#64,
   0x3FEE8AD1AA43F234#64, 0x3FE48E35C82F9F0A#64, 0x3FD03457817F43EF#64, 0x3FB47AE147AE147C#64]

/-- Configuration T with its window built and the signal in DMEM; ARG5 = `x`. -/
def stateT (x : Nat) : State :=
  { State.reset with
    cfg := cfgT
    sigLen := 10#64
    args := #v[0#64, 0#64, 0#64, 0#64, 0#64, BitVec.ofNat 64 x]
    status := { Status.reset with winValid := true }
    bufs := { Buffers.unwritten with win := Memory.block 0 windowT }
    dmem := Memory.block 0 signalT }

/-- A state of configuration T at a frame stage with `raw`, `cond` and `wnd` in the frame buffers. -/
def stageT (st : FrameStage) (raw cond wnd : List Word) : State :=
  { stateT 0 with
    status := { Status.reset with winValid := true, frameStage := st }
    bufs := { (stateT 0).bufs with
      raw := Memory.block 0 raw, cond := Memory.block 0 cond, wnd := Memory.block 0 wnd } }

/-- The reset state with the operands of a DCT command. -/
def dctState (src dst n k rows : Nat) (x : Word) (input : List Word) : State :=
  { State.reset with
    args := #v[BitVec.ofNat 64 src, BitVec.ofNat 64 dst, BitVec.ofNat 64 n, BitVec.ofNat 64 k,
      BitVec.ofNat 64 rows, x]
    dmem := Memory.block src input }

/-- An instance of two contexts. -/
def twoContexts : Caps := { Caps.default with numCtx := 2 }

/-! ### Well-formedness and decoding -/

theorem test_wellFormed_refuses_absent_context :
    Instr.wellFormed 2 (.ctxReset 2#2) = false ∧ Instr.wellFormed 3 (.preemph 3#2) = false ∧
    Instr.wellFormed 1 (.framePrep 1#2) = false ∧ Instr.wellFormed 4 (.framePrep 3#2) = true := by decide

theorem test_decode_control_and_filterbank :
    decode 4 0x00#64 = .ok .nop ∧ decode 4 0x10#64 = .ok .fbBuild ∧ decode 4 0x11#64 = .ok .mel ∧
    decode 4 0x12#64 = .ok .melInv := by decide

theorem test_decode_frame :
    decode 4 0x20#64 = .ok .winBuild ∧ decode 4 0x321#64 = .ok (.ctxReset 3#2) ∧
    decode 4 0x22#64 = .ok .frameCount ∧ decode 4 0x23#64 = .ok .frameFetch ∧
    decode 4 0x224#64 = .ok (.preemph 2#2) ∧ decode 4 0x25#64 = .ok .window ∧
    decode 4 0x126#64 = .ok (.framePrep 1#2) := by decide

theorem test_decode_spectral :
    decode 4 0x30#64 = .ok .specPower ∧ decode 4 0x31#64 = .ok .specProject ∧
    decode 4 0x32#64 = .ok .specLogMel := by decide

theorem test_decode_dct :
    decode 4 0x40#64 = .ok (.dctBasis false) ∧ decode 4 0x10040#64 = .ok (.dctBasis true) ∧
    decode 4 0x41#64 = .ok .dctOrth ∧ decode 4 0x42#64 = .ok .dct2 ∧ decode 4 0x43#64 = .ok .idctOrth ∧
    decode 4 0x44#64 = .ok .dct3 ∧ decode 4 0x45#64 = .ok .dctLegacy := by decide

/-- Rows K2 to K11: each check of 30_encoding.md R114 by name. -/
theorem test_decode_rejects_by_name :
    decode 4 0x100000000#64 = .error .highWordNonZero ∧ decode 4 0x13#64 = .error .unknownOpcode ∧
    decode 4 0xFF#64 = .error .unknownOpcode ∧ decode 4 0x410#64 = .error .reservedBits ∧
    decode 4 0x20040#64 = .error .reservedBits ∧ decode 4 0x100#64 = .error .ctxNotTaken ∧
    decode 2 0x224#64 = .error .ctxOutOfRange ∧ decode 4 0x10041#64 = .error .orthNotTaken := by decide

theorem test_decode_reports_first_check : decode 4 0x1000001FF#64 = .error .highWordNonZero := by decide

/-- What the host's table check reads: CTX and ORTH of the word are kept. -/
theorem test_decodeTableWord :
    decodeTableWord 64 0x326 = some (.framePrep 3#2) ∧ decodeTableWord 64 0x10040 = some (.dctBasis true) ∧
    decodeTableWord 64 0x10041 = none := by decide

/-- Rows K1 to K13: STATUS and ERR_INFO after the step on the word. -/
theorem test_step_decode_outcomes :
    (∀ row ∈ [(0x0, 0x2, 0x0), (0x100000000, 0x306, 0x1), (0x13, 0x13000306, 0x2), (0xFF, 0xFF000306, 0x2),
        (0x410, 0x10000306, 0x3), (0x20040, 0x40000306, 0x3), (0x100, 0x306, 0x4), (0x110, 0x10000306, 0x4),
        (0x10000, 0x306, 0x6), (0x10041, 0x41000306, 0x6), (0x324, 0x24000706, 0xA), (0x321, 0x21000002, 0x0)],
      statusAfter (runWord State.reset row.1) =
        some (BitVec.ofNat 64 row.2.1, BitVec.ofNat 64 row.2.2)) ∧
    statusAfter (runWord (State.powerOn twoContexts) 0x224) = some (0x24000306#64, 0x5#64) := by
  decide +kernel

/-! ### Arithmetic -/

/-- 00_scope.md R11 and R12: halves go to even, a carry moves into the exponent, an overflow is infinite, the smallest
subnormal halves to zero, and NaN payloads are dropped. -/
theorem test_arithmetic :
    fadd 0x3FF0000000000000#64 0x3CA0000000000000#64 = 0x3FF0000000000000#64 ∧
    fadd 0x3FF0000000000001#64 0x3CA0000000000000#64 = 0x3FF0000000000002#64 ∧
    fadd 0x7FEFFFFFFFFFFFFF#64 0x7C90000000000000#64 = 0x7FF0000000000000#64 ∧
    fsub 0x3FF0000000000000#64 0x3FF0000000000000#64 = 0x0000000000000000#64 ∧
    fmul 0x0000000000000001#64 0x3FE0000000000000#64 = 0x0000000000000000#64 ∧
    fmul 0x8000000000000000#64 0x7FF0000000000000#64 = 0x7FF8000000000000#64 ∧
    fdiv 0x3FF0000000000000#64 0x4008000000000000#64 = 0x3FD5555555555555#64 ∧
    fdiv 0xBFF0000000000000#64 0x0000000000000000#64 = 0xFFF0000000000000#64 ∧
    fsqrt 0x4000000000000000#64 = 0x3FF6A09E667F3BCD#64 ∧ fsqrt 0x8000000000000000#64 = 0x8000000000000000#64 ∧
    fadd 0xFFF0000000000001#64 0x3FF0000000000000#64 = 0x7FF8000000000000#64 ∧
    rha 0x4004000000000000#64 = 3 ∧ rha 0xC004000000000000#64 = -3 ∧ floorInt 0xC004000000000000#64 = -3 := by
  decide +kernel

/-- 00_scope.md R14: the zeros are equal, a NaN compares with nothing, and the order runs through zero. -/
theorem test_comparisons :
    feq 0x8000000000000000#64 0#64 = true ∧ flt 0x8000000000000000#64 0#64 = false ∧
    fle 0#64 0x8000000000000000#64 = true ∧ feq 0x7FF8000000000000#64 0x7FF8000000000000#64 = false ∧
    fle 0xFFF8000000000000#64 0#64 = false ∧ flt 0xC000000000000000#64 0xBFF0000000000000#64 = true ∧
    flt 0x8000000000000001#64 0x0000000000000001#64 = true ∧ flt 0x7FEFFFFFFFFFFFFF#64 0x7FF0000000000000#64 = true := by
  decide

/-- Row F9: halves away from zero, not to even. -/
theorem test_frameStart_halves :
    (List.range 5).map (frameStart 0x4004000000000000#64) = [some 0, some 3, some 5, some 8, some 10] := by
  decide +kernel

/-- Rows F11a to F11e. -/
theorem test_frameLen :
    Cfg.reset.frameLen = 409 ∧ cfgT.frameLen = 8 ∧
    ({ Cfg.reset with frameDur := 0x7FF8000000000000#64 } : Cfg).frameLen = 0 ∧
    ({ Cfg.reset with frameDur := 0xBFF0000000000000#64 } : Cfg).frameLen = 0 ∧
    ({ Cfg.reset with frameDur := 0x3FC999999999999A#64 } : Cfg).frameLen = 3200 := by decide +kernel

/-! ### Filter bank -/

/-- Numerics whose edges fall on the bins 0, `b1`, `b2`, 4 of configuration T: NUM_log10 is 1.0 off its exact cases, and
NUM_pow10 takes the mel edges (thirds of 1.0) to 1 + 2b/700. -/
def tableNumerics (b1 b2 : Nat) : Numerics :=
  Numerics.ofRaw (fun _ => cOne)
    (fun x => fadd cOne (fdiv (ofNat (2 * (if flt x 0x3FE0000000000000#64 then b1
      else if flt x 0x3FE8000000000000#64 then b2 else 4))) c700))
    (fun x => x) (fun x => x) (fun _ _ _ => (posZero, posZero))

/-- Rows B21 to B24: with the edge bins 0, 1, 3, 4 of configuration T, the heights, the triangles, RES0 and RES1. -/
theorem test_fbBuild_triangles :
    wordsAfter (fbBuildOn (tableNumerics 1 3) (stateT 0)) .edgeBin 4 =
      some [some 0#64, some 1#64, some 3#64, some 4#64] ∧
    wordsAfter (fbBuildOn (tableNumerics 1 3) (stateT 0)) .fb 10 =
      some [some 0#64, some 0#64, some 0x3FD5555555555555#64, some 0#64, some 0x3FC5555555555555#64,
        some 0x3FC5555555555555#64, some 0#64, some 0x3FD5555555555555#64, some 0#64, some 0#64] ∧
    (nextOf (fbBuildOn (tableNumerics 1 3) (stateT 0))).map (fun t => (t.res0, t.res1, t.status.fbValid)) =
      some (5#64, 2#64, true) := by decide +kernel

/-- A filter changed in the reset configuration. -/
def badFilterBank (c : Cfg) : State := { State.reset with cfg := c }

/-- Rows B29 to B38 and E11, and checks 20 and 21. -/
theorem test_fbBuild_errors :
    statusAfter (runWord (badFilterBank { Cfg.reset with sampleRate := 0#32 }) 0x10) = some (0x10000106#64, 0xA#64) ∧
    statusAfter (runWord (badFilterBank { Cfg.reset with nfft := 500#32 }) 0x10) = some (0x10000106#64, 0xB#64) ∧
    statusAfter (runWord (badFilterBank { Cfg.reset with nfft := 4096#32 }) 0x10) = some (0x10000506#64, 0xC#64) ∧
    statusAfter (runWord (badFilterBank { Cfg.reset with nfilt := 0#32 }) 0x10) = some (0x10000106#64, 0xD#64) ∧
    statusAfter (runWord (badFilterBank { Cfg.reset with nfilt := 65#32 }) 0x10) = some (0x10000506#64, 0xE#64) ∧
    statusAfter (runWord (badFilterBank { Cfg.reset with upperFreq := 0x7FF0000000000000#64 }) 0x10) =
      some (0x10000106#64, 0xF#64) ∧
    statusAfter (runWord (badFilterBank { Cfg.reset with upperFreq := 0x40BF408000000000#64 }) 0x10) =
      some (0x10000106#64, 0x10#64) ∧
    statusAfter (runWord (badFilterBank { Cfg.reset with lowerFreq := 0xBFF0000000000000#64 }) 0x10) =
      some (0x10000106#64, 0x11#64) ∧
    statusAfter (runWord (badFilterBank { Cfg.reset with lowerFreq := 0x40BB580000000000#64 }) 0x10) =
      some (0x10000106#64, 0x12#64) ∧
    statusAfter (fbBuildOn (tableNumerics 3 1) (stateT 0)) = some (0x126#64, 0x14#64) ∧
    statusAfter (fbBuildOn (tableNumerics 4 4) (stateT 0)) = some (0x126#64, 0x10015#64) := by decide +kernel

/-- Rows B3 and B8. -/
theorem test_mel_and_melInv_of_zero :
    (nextOf (runWord (stateT 0) 0x11)).map (·.res0) = some 0#64 ∧
    (nextOf (runWord (stateT 0) 0x12)).map (·.res0) = some 0#64 := by decide +kernel

/-- 41_filterbank.md R170: a large operand overflows to +inf, whatever the implementation's values (log 19). -/
theorem test_melInv_overflows :
    melInvOf (tableNumerics 1 3) 0x4128787E00000000#64 = 0x7FF0000000000000#64 ∧
    melInvOf (tableNumerics 1 3) 0x7FF0000000000000#64 = 0x7FF0000000000000#64 := by decide +kernel

/-! ### Frame windower -/

/-- Row F12e: a window of one sample is 1.0. -/
theorem test_winBuild_of_one_sample :
    (nextOf (runWord { stateT 0 with cfg := { cfgT with frameDur := 0x3FB0000000000000#64 } } 0x20)).map
      (fun t => (t.peek .win 0, t.res0, t.status.winValid)) = some (some 0x3FF0000000000000#64, 1#64, true) := by
  decide +kernel

/-- Rows F13a to F13h. -/
theorem test_winBuild_errors :
    statusAfter (runWord (badFilterBank { Cfg.reset with sampleRate := 0#32 }) 0x20) = some (0x20000106#64, 0xA#64) ∧
    statusAfter (runWord (badFilterBank { Cfg.reset with frameRate := 0#32 }) 0x20) = some (0x20000106#64, 0xB#64) ∧
    statusAfter (runWord (badFilterBank { Cfg.reset with frameDur := 0x7FF8000000000000#64 }) 0x20) =
      some (0x20000106#64, 0xC#64) ∧
    statusAfter (runWord (badFilterBank { Cfg.reset with frameDur := 0x3FC999999999999A#64 }) 0x20) =
      some (0x20000506#64, 0xD#64) ∧
    statusAfter (runWord (badFilterBank { Cfg.reset with nfft := 500#32 }) 0x20) = some (0x20000106#64, 0xE#64) ∧
    statusAfter (runWord (badFilterBank { Cfg.reset with nfft := 4096#32 }) 0x20) = some (0x20000506#64, 0xF#64) ∧
    statusAfter (runWord (badFilterBank { Cfg.reset with nfft := 256#32 }) 0x20) = some (0x20000106#64, 0x10#64) ∧
    statusAfter (runWord (badFilterBank { Cfg.reset with alpha := 0x3FF0000000000000#64 }) 0x20) =
      some (0x20000106#64, 0x11#64) := by decide +kernel

/-- Row F28. -/
theorem test_ctxReset :
    (nextOf (runWord { State.reset with prior := #v[1#64, 2#64, 3#64, 4#64] } 0x121)).map (·.prior) =
      some #v[1#64, 0#64, 3#64, 4#64] := by decide +kernel

/-- Rows F1 to F5, with a window. -/
theorem test_frameCount :
    ∀ row ∈ [(150, 2), (16000, 161), (16001, 161), (99, 1), (100, 2)],
      (nextOf (runWord { State.reset with
        sigLen := BitVec.ofNat 64 row.1, status := { Status.reset with winValid := true } } 0x22)).map (·.res0) =
        some (BitVec.ofNat 64 row.2) := by decide +kernel

/-- Rows F16 and F18. -/
theorem test_frameFetch :
    wordsAfter (runWord (stateT 1) 0x23) .raw 8 = some ((signalT.drop 4 ++ [0#64, 0#64]).map some) ∧
    (nextOf (runWord (stateT 1) 0x23)).map (fun t => (t.res0, t.res1, t.status.frameStage)) =
      some (4#64, 6#64, .raw) ∧
    wordsAfter (runWord (stateT 3) 0x23) .raw 8 = some (List.replicate 8 (some 0#64)) ∧
    (nextOf (runWord (stateT 3) 0x23)).map (fun t => (t.res0, t.res1)) = some (12#64, 0#64) := by decide +kernel

/-- Rows F24 to F27. -/
theorem test_signal_errors :
    statusAfter (runWord { stateT 0 with sigLen := 0#64 } 0x23) = some (0x23000226#64, 0xA#64) ∧
    statusAfter (runWord { stateT 0 with status := Status.reset } 0x23) = some (0x23000606#64, 0xC#64) ∧
    statusAfter (runWord { stateT 0 with sigBase := 65530#64 } 0x23) = some (0x23000426#64, 0xD#64) ∧
    (nextOf (runWord { stateT 0 with sigBase := 65530#64 } 0x22)).map (·.res0) = some 3#64 := by decide +kernel

/-- Rows F14 and F22. -/
theorem test_preemph :
    wordsAfter (runWord { stageT .raw (signalT.take 8) [] [] with
        prior := #v[0x4000000000000000#64, 0#64, 0#64, 0#64] } 0x24) .cond 8 =
      some [some 0#64, some 0x3FF8000000000000#64, some 0x4000000000000000#64, some 0x4004000000000000#64,
        some 0x4008000000000000#64, some 0x400C000000000000#64, some 0x4010000000000000#64,
        some 0x4012000000000000#64] ∧
    (nextOf (runWord (stageT .raw (signalT.take 8) [] []) 0x24)).map (fun t => t.priorOf 0#2) =
      some 0x4020000000000000#64 ∧
    statusAfter (runWord (stageT .cond [] (signalT.take 8) []) 0x24) = some (0x24020726#64, 0xA#64) := by
  decide +kernel

/-- Rows F21 and F23. -/
theorem test_window :
    wordsAfter (runWord (stageT .cond []
        [0x3FF0000000000000#64, 0x3FF8000000000000#64, 0x4000000000000000#64, 0x4004000000000000#64,
         0x4008000000000000#64, 0x400C000000000000#64, 0x4010000000000000#64, 0x4012000000000000#64] []) 0x25)
        .wnd 8 =
      some [some 0x3FB47AE147AE147C#64, some 0x3FD84E83423EE5E4#64, some 0x3FF48E35C82F9F09#64,
        some 0x400316C30A6A7760#64, some 0x4006E81D3FB2F5A7#64, some 0x4001FC6F0F29AB29#64,
        some 0x3FF03457817F43EF#64, some 0x3FD70A3D70A3D70C#64] ∧
    statusAfter (runWord (stageT .raw [] [] []) 0x25) = some (0x25010726#64, 0xA#64) := by decide +kernel

/-- FRAME_PREP of frame 0 ends with the window of row F21 on a zero prior. -/
theorem test_framePrep :
    wordsAfter (runWord (stateT 0) 0x326) .wnd 3 =
      some [some 0x3FB47AE147AE147C#64, some 0x3FD84E83423EE5E4#64, some 0x3FF48E35C82F9F09#64] ∧
    (nextOf (runWord (stateT 0) 0x326)).map (fun t => (t.priorOf 3#2, t.status.frameStage)) =
      some (0x4020000000000000#64, .wnd) := by decide +kernel

/-! ### Spectral analyzer -/

/-- Rows S6 and S7: a NaN sample makes every bin NaN, and the stage is checked. -/
theorem test_specPower :
    wordsAfter (runWord (stageT .wnd [] [] (0x7FF8000000000000#64 :: List.replicate 7 0#64)) 0x30) .pwr 5 =
      some (List.replicate 5 (some 0x7FF8000000000000#64)) ∧
    statusAfter (runWord (stageT .cond [] [] []) 0x30) = some (0x30020726#64, 0xA#64) := by decide +kernel

/-- Configuration T at stage PWR with `pwr` and the filter matrix of row B23 built; DST = `dst`. -/
def projectT (dst : Nat) (pwr : List Word) : State :=
  { stageT .pwr [] [] [] with
    args := #v[0#64, BitVec.ofNat 64 dst, 0#64, 0#64, 0#64, 0#64]
    status := { Status.reset with winValid := true, fbValid := true, frameStage := .pwr }
    bufs := { (stageT .pwr [] [] []).bufs with
      pwr := Memory.block 0 pwr
      fb := Memory.block 0 [0#64, 0#64, 0x3FF0000000000000#64, 0#64, 0#64, 0#64, 0#64, 0x3FF0000000000000#64, 0#64,
        0#64] } }

/-- Energies 1.0 and NaN: NUM_ln(1.0) is +0.0, and a NaN is not clipped (rows S6 and S12, 00_scope.md R7). -/
theorem test_specProject :
    (nextOf (runWord (projectT 100 [0#64, 0x3FF0000000000000#64, 0#64, 0#64, 0#64]) 0x31)).map
      (fun t => t.peek .dmem 100) = some (some 0#64) ∧
    (nextOf (runWord (projectT 65534 [0#64, 0#64, 0#64, 0xFFF8000000000001#64, 0#64]) 0x31)).map
      (fun t => t.peek .dmem 65535) = some (some 0x7FF8000000000000#64) ∧
    statusAfter (runWord (stageT .wnd [] [] []) 0x31) = some (0x31030726#64, 0xA#64) := by decide +kernel

/-- 43_spectral.md R251: no logarithm from FLOOR_E up is -inf, whatever the implementation's values; at +0.0 it is -inf
(00_scope.md R7). -/
theorem test_ln_from_floor_up :
    (∀ x ∈ [0x3EE4F8B588E368F1, 0x4000000000000000, 0x7FEFFFFFFFFFFFFF],
      lnContract (fun _ => 0xFFF0000000000000#64) (BitVec.ofNat 64 x) ≠ 0xFFF0000000000000#64) ∧
    lnContract (fun x => x) 0#64 = 0xFFF0000000000000#64 ∧
    lnContract (fun _ => 0x3FE62E42FEFA39EF#64) 0x4000000000000000#64 = 0x3FE62E42FEFA39EF#64 := by decide +kernel

/-- Rows S9 to S11: SPEC_LOGMEL makes all its checks before any effect. -/
theorem test_specLogMel :
    statusAfter (runWord (stageT .wnd [] [] (signalT.take 8)) 0x32) = some (0x32030626#64, 0xB#64) ∧
    statusAfter (runWord { projectT 65535 [] with
      status := { Status.reset with winValid := true, fbValid := true, frameStage := .wnd } } 0x32) =
      some (0x32030436#64, 0xC#64) ∧
    (nextOf (runWord { projectT 65534 [] with
      bufs := { (projectT 0 []).bufs with wnd := Memory.block 0 (List.replicate 8 0x7FF8000000000000#64) }
      status := { Status.reset with winValid := true, fbValid := true, frameStage := .wnd } } 0x32)).map
      (fun t => (t.peek .dmem 65534, t.peek .dmem 65535, t.status.frameStage)) =
      some (some 0x7FF8000000000000#64, some 0x7FF8000000000000#64, .pwr) := by decide +kernel

/-! ### DCT engine -/

/-- Row Q16. -/
theorem test_dctBasis :
    wordsAfter (runWord (dctState 0 0 2 3 0 0#64 []) 0x40) .dctm 6 =
      some (List.replicate 6 (some 0x3FF0000000000000#64)) ∧
    (nextOf (runWord (dctState 0 0 2 3 0 0#64 []) 0x40)).map (fun t => (t.basisTag.word, t.basisStep)) =
      some (0x0000000300020001#64, 0#64) := by decide +kernel

/-- 44_dct.md R271's formula where X * 0.5 is finite and X * 1.5 overflows: inf * 0 is NaN (log 21). -/
theorem test_dctBasis_overflow :
    wordsAfter (runWord (dctState 0 0 2 1 0 0x7FEFFFFFFFFFFFFF#64 []) 0x40) .dctm 2 =
      some [some 0x3FF0000000000000#64, some 0x7FF8000000000000#64] := by decide +kernel

/-- The one-element transforms of 95_test_vectors.md section 6, v = [5.0]. -/
theorem test_one_element_transforms :
    ∀ row ∈ [(0x41, 0x4014000000000000#64), (0x42, 0x4024000000000000#64), (0x43, 0x4014000000000000#64),
        (0x44, 0x4004000000000000#64)],
      (nextOf (runWord (dctState 3 9 1 1 1 0#64 [0x4014000000000000#64]) row.1)).map (fun t => t.peek .dmem 9) =
        some (some row.2) := by decide +kernel

theorem test_one_element_legacy :
    (nextOf (runWord { dctState 3 9 0 0 1 0#64 [0x4014000000000000#64] with
      cfg := { Cfg.reset with nfilt := 1#32, ncep := 1#32 } } 0x45)).map
      (fun t => (t.peek .dmem 9, t.basisTag.word)) = some (some 0x4004000000000000#64, 0x0000000100010006#64) := by
  decide +kernel

/-- Rows Q18 to Q25. -/
theorem test_dct_errors :
    statusAfter (runWord (dctState 0 0 0 4 1 0#64 []) 0x41) = some (0x41000106#64, 0xA#64) ∧
    statusAfter (runWord (dctState 0 0 65 4 1 0#64 []) 0x42) = some (0x42000506#64, 0xB#64) ∧
    statusAfter (runWord (dctState 0 0 2 2 0 0x7FF0000000000000#64 []) 0x40) = some (0x40000106#64, 0xC#64) ∧
    statusAfter (runWord (dctState 65533 0 4 4 1 0#64 []) 0x43) = some (0x43000406#64, 0xD#64) ∧
    statusAfter (runWord (dctState 0 65533 4 4 1 0#64 []) 0x44) = some (0x44000406#64, 0xE#64) ∧
    statusAfter (runWord (dctState 0 65530 0 0 1 0#64 []) 0x45) = some (0x45000406#64, 0xE#64) := by decide +kernel

/-- Row Q26, and the fault of an unwritten input (60_exceptions.md R328). -/
theorem test_dct_rows :
    (nextOf (runWord (dctState 0 0 4 4 0 0#64 []) 0x41)).map (fun t => (t.basisTag.word, t.dmem)) =
      some (0x0000000400040012#64, []) ∧
    faultOf (runWord (dctState 7 0 1 1 1 0#64 []) 0x42) = some (.readUnwritten .dmem 7) := by decide +kernel

/-! ### The host -/

/-- One transaction on an idle machine. -/
def oneTransaction (s : State) (t : HostInput) : Host.Outcome State Fault Refusal := step { s with inputs := [t] }

/-- Rows E7, E8, E9, K18, and the fault of row Z7. -/
theorem test_transactions :
    (nextOf (oneTransaction State.reset (.read 0x000004#24 8))).map (·.response) = some (some .error) ∧
    (nextOf (oneTransaction State.reset (.read 0x000038#24 8))).map (·.response) = some (some .error) ∧
    (nextOf (oneTransaction State.reset (.write 0x000000#24 8 0#64))).map (fun t => (t.response, t.readReg .id)) =
      some (some .okayWrite, 0x4D454C4645000007#64) ∧
    (nextOf (oneTransaction State.reset (.write 0x000050#24 8 0x100000000#64))).map (·.readReg .cmd) =
      some 0x100000000#64 ∧
    faultOf (oneTransaction State.reset (.read 0x800000#24 8)) = some (.readUnwritten .dmem 0) := by decide +kernel

/-- Rows K14 and K15. -/
theorem test_issue :
    (nextOf (oneTransaction { State.reset with
        status := { Status.reset with done := true, err := true, errCode := .invalidConfiguration, lastOp := 0x10#8 }
        errInfo := ⟨0x10#16, 0#32⟩ } (.write 0x000050#24 8 0x10#64))).map
      (fun t => (t.status.word, t.errInfo.word, t.cmd)) = some (0x10000001#64, 0#64, 0x10#64) ∧
    (nextOf (oneTransaction { State.reset with
        status := { Status.reset with done := true, fbValid := true, winValid := true, lastOp := 0x20#8 } }
        (.write 0x000050#24 8 0x22#64))).map (·.status.word) = some 0x22000031#64 := by decide +kernel

/-- Rows E2, E3, E4 and E6. -/
theorem test_interrupt :
    (nextOf (oneTransaction { State.reset with irqEn := true, status := { Status.reset with done := true } }
      (.write 0x000048#24 8 0x2#64))).map (fun t => (t.irq, t.status.done)) = some (false, false) ∧
    (nextOf (oneTransaction { State.reset with
        irqEn := true, status := { Status.reset with done := true, err := true, errCode := .notBuilt } }
      (.write 0x000048#24 8 0x4#64))).map (fun t => (t.irq, t.status.word)) = some (true, 0x2#64) ∧
    (nextOf (oneTransaction { State.reset with status := { Status.reset with done := true } }
      (.write 0x000040#24 8 0x1#64))).map (·.irq) = some true ∧
    (nextOf (oneTransaction { State.reset with irqEn := true, status := { Status.reset with done := true } }
      (.write 0x000040#24 8 0x0#64))).map (fun t => (t.irq, t.status.done)) = some (false, true) := by
  decide +kernel

/-- Host assembly (30_encoding.md R117 to R119): CLEAR writes 0x6 to STATUS, LOADV writes consecutive words. -/
theorem test_assembly :
    asmInputs 0 [.clear, .loadv 2 [5#64, 6#64], .run (.framePrep 1#2)] =
      [.write 0x000048#24 8 0x6#64, .write 0x800010#24 8 5#64, .write 0x800018#24 8 6#64,
       .write 0x000050#24 8 0x126#64] := by decide +kernel

/-! ### Witnesses: states and operands that meet the hypotheses of the obligations -/

theorem exists_next_of_isSome {o : Host.Outcome State Fault Refusal} (h : (nextOf o).isSome = true) :
    ∃ t, o = .next t := by
  cases o with
  | next s => exact ⟨s, rfl⟩
  | fault f => cases h
  | refused r => cases h

/-- `s` with the word `w` and the operands `args` pending, and the inputs `ins` to come. -/
def pendingAt (s : State) (w : Word) (args : Vector Word 6) (ins : List HostInput) (delay : Nat) : State :=
  { s with
    cmd := w, args := args, inputs := ins, engineDelay := delay
    status := { s.status with done := false, err := false, errCode := .none, busy := true }
    errInfo := ⟨0#16, 0#32⟩ }

/-- Operands SRC, DST, N = K = ROWS = 1 and X = 0. -/
def oneRow (src dst : Nat) : Vector Word 6 := #v[BitVec.ofNat 64 src, BitVec.ofNat 64 dst, 1#64, 1#64, 1#64, 0#64]

/-- Configuration T with frames of one sample and NFFT = 2. -/
def cfgOne : Cfg := { cfgT with frameDur := 0x3FB0000000000000#64, nfft := 2#32 }

/-- A one-sample frame of 2.0 at a stage, with its window 1.0, its pre-emphasis from +0.0 and its spectrum. -/
def framed (st : FrameStage) : State :=
  { State.reset with
    cfg := cfgOne
    sigLen := 1#64
    status := { Status.reset with winValid := true, frameStage := st }
    basisTag := ⟨.generic, true, 1#16, 1#16⟩
    bufs := { Buffers.unwritten with
      win := [(0, 0x3FF0000000000000#64)], raw := [(0, 0x4000000000000000#64)]
      cond := [(0, 0x4000000000000000#64)], wnd := [(0, 0x4000000000000000#64)]
      pwr := [(0, powerAt numerics 2 [0x4000000000000000#64, 0#64] 0),
        (1, powerAt numerics 2 [0x4000000000000000#64, 0#64] 1)]
      dctm := [(0, dctMatrix numerics posZero true 0 0)] }
    dmem := [(0, 0x4000000000000000#64)] }

theorem framed_inv (st : FrameStage) : (framed st).Inv where
  caps := by cases st <;> decide
  wf sp := by cases st <;> cases sp <;> decide
  within sp := by cases st <;> cases sp <;> decide
  errCode := by cases st <;> decide
  errInfo _ := rfl
  busy h := nomatch h
  stage _ := rfl
  winConfig _ := by cases st <;> decide +kernel
  fbConfig h := nomatch h
  winWritten _ := by cases st <;> decide +kernel
  fbWritten h := nomatch h
  rawWritten _ := by cases st <;> decide +kernel
  condWritten _ := by cases st <;> decide +kernel
  wndWritten _ := by cases st <;> decide +kernel
  pwrWritten _ := by cases st <;> decide +kernel

theorem pendingAt_inv {s : State} (h : s.Inv) (w : Word) (args : Vector Word 6) (ins : List HostInput) (delay : Nat) :
    (pendingAt s w args ins delay).Inv where
  caps := h.caps
  wf := h.wf
  within := h.within
  errCode := ⟨fun _ => rfl, fun _ => rfl⟩
  errInfo _ := rfl
  busy _ := ⟨rfl, rfl⟩
  stage := h.stage
  winConfig := h.winConfig
  fbConfig := h.fbConfig
  winWritten := h.winWritten
  fbWritten := h.fbWritten
  rawWritten := h.rawWritten
  condWritten := h.condWritten
  wndWritten := h.wndWritten
  pwrWritten := h.pwrWritten

/-- What FRAME_STAGE = WND promises holds of the one-sample frame, with the command word `w` pending. -/
theorem framed_current (w : Word) (args : Vector Word 6) :
    (pendingAt (framed .wnd) w args [] 0).WindowCurrent ∧ (pendingAt (framed .wnd) w args [] 0).FrameCurrent := by
  have hl : (framed .wnd).frameLen = 1 := by decide +kernel
  have hl' : (pendingAt (framed .wnd) w args [] 0).frameLen = 1 := hl
  refine ⟨fun _ => ?_, ⟨fun _ => ⟨0#64, [0x4000000000000000#64], ?_⟩,
    fun _ => ⟨[0x4000000000000000#64], [0x3FF0000000000000#64], ?_⟩, fun h => nomatch h⟩⟩
  · rw [hl']
    intro i hi
    obtain rfl : i = 0 := by omega
    rfl
  · rw [hl']
    refine ⟨rfl, congrArg Except.ok ?_⟩
    exact show [0x4000000000000000#64] = preemphasize cfgOne.alpha 0#64 [0x4000000000000000#64] by decide +kernel
  · rw [hl']
    exact ⟨rfl, rfl, congrArg Except.ok (by decide +kernel)⟩

/-- DCTM holds the 1 x 1 basis of a zero step that BASIS_TAG names. -/
theorem framed_basisCached (st : FrameStage) (w : Word) (args : Vector Word 6) :
    (pendingAt (framed st) w args [] 0).BasisCached := by
  have hf : basisStepFits (framed st).basisTag (framed st).basisStep := by cases st <;> exact rfl
  refine ⟨hf, trivial, fun h => (by cases h), fun r hr c hc => ?_⟩
  have hr' : r < 1 := hr
  have hc' : c < 1 := hc
  obtain rfl : r = 0 := by omega
  obtain rfl : c = 0 := by omega
  rfl

theorem witness_DecodeOfEncode :
    Instr.wellFormed 4 (.framePrep 3#2) = true ∧ Instr.wellFormed 1 (.ctxReset 0#2) = true ∧
    Instr.wellFormed 1 (.dctBasis true) = true := by decide

theorem witness_EncodeOfDecode :
    decode 4 0x326#64 = .ok (.framePrep 3#2) ∧ decode 1 0x21#64 = .ok (.ctxReset 0#2) ∧
    decode 1 0x10040#64 = .ok (.dctBasis true) := by decide

/-- One word for each of the six checks, failing it first, and two that pass all. -/
theorem witness_DecodeChecksInOrder :
    (∀ row ∈ [(0x1000001FF, some 1), (0x100000000, some 1), (0x46, some 2), (0x8410, some 3), (0x20040, some 3),
        (0x80000110, some 3), (0x310, some 4), (0x10100, some 4), (0x10221, some 5), (0x326, some 5),
        (0x10041, some 6), (0x126, none), (0x10040, none)],
      (pendingAt (State.powerOn twoContexts) (BitVec.ofNat 64 row.1) (oneRow 0 0) [] 0).mover = .engine ∧
      (match decode 2 (BitVec.ofNat 64 row.1) with
        | .error e => some e.check
        | .ok _ => none) = row.2) := by decide

/-- With no input, with a write first, and with an exempt read that no longer comes first. -/
theorem witness_StepRunsDecodedCommand :
    ∀ ins ∈ [[], [HostInput.write 0x000050#24 8 0#64], [.read 0x000048#24 8]],
      (pendingAt State.reset 0x30#64 (oneRow 0 0) ins 0).mover = .engine ∧
      decode 4 (pendingAt State.reset 0x30#64 (oneRow 0 0) ins 0).cmd = .ok .specPower := by decide

/-- A held write, a held read, exempt reads of each kind of register, and one with one still to come first. -/
theorem witness_TransactionsHeldWhileBusy :
    (HostInput.write 0x000060#24 8 5#64).exempt Caps.default = false ∧
    (HostInput.read 0x000098#24 8).exempt Caps.default = false ∧
    (∀ a ∈ [0x000, 0x008, 0x030, 0x040, 0x048], (HostInput.read (BitVec.ofNat 24 a) 8).exempt Caps.default = true) ∧
    (nextOf (step (pendingAt State.reset 0x0#64 (oneRow 0 0) [.write 0x000060#24 8 5#64] 0))).isSome = true ∧
    (pendingAt (framed .wnd) 0x30#64 (oneRow 0 0) [.read 0x000048#24 8] 1).status.busy = true ∧
    (pendingAt (framed .wnd) 0x30#64 (oneRow 0 0) [.read 0x000048#24 8] 1).engineDelay ≠ 0 ∧
    (pendingAt (framed .wnd) 0x30#64 (oneRow 0 0) [.read 0x000048#24 8] 1).Inv :=
  ⟨by decide, by decide, by decide, by decide, by decide, by decide, pendingAt_inv (framed_inv _) _ _ _ _⟩

theorem witness_PendingCommandEnds :
    (pendingAt State.reset 0x42#64 (oneRow 0 0) [.read 0x000048#24 8] 1).status.busy = true ∧
    faultOf (step (pendingAt State.reset 0x42#64 (oneRow 0 0) [] 0)) = some (.readUnwritten .dmem 0) := by decide

/-- The default instance and both ends of the ranges of 00_scope.md R6. -/
theorem witness_InstanceNeverChanges :
    Caps.default.Legal ∧ (⟨1, 2, 1, 1, 1, 1⟩ : Caps).Legal ∧ (⟨1048576, 256, 4064, 4096, 256, 4⟩ : Caps).Legal ∧
    (nextOf (step State.reset)).isSome = true := by decide

/-- An error of decoding and one of the command, and both ends of the fields of ERR_INFO. -/
theorem witness_ErrorCompletionIsPrecise :
    ∀ w ∈ [0x13, 0x30],
      (pendingAt State.reset (BitVec.ofNat 64 w) (oneRow 0 0) [] 0).caps.Legal ∧
      (pendingAt State.reset (BitVec.ofNat 64 w) (oneRow 0 0) [] 0).mover = .engine ∧
      (pendingAt State.reset (BitVec.ofNat 64 w) (oneRow 0 0) [] 0).status.err = false ∧
      (nextOf (step (pendingAt State.reset (BitVec.ofNat 64 w) (oneRow 0 0) [] 0))).map (·.status.err) = some true ∧
      0 < 2 ^ 16 ∧ 65535 < 2 ^ 16 ∧ 0 < 2 ^ 32 ∧ 4294967295 < 2 ^ 32 := by
  decide

/-- A command that completes and one that ends with an error (CommandSetsDoneClearsBusy, CommandLeavesOperands,
SpecialRegisterWriters, ValidFlagsAndStageMoves, InterruptFollowsDone). -/
theorem witness_CommandCompletions :
    (nextOf (exec (.ctxReset 0#2) (stateT 0))).map (fun t => (t.status.err, t.status.done)) = some (false, true) ∧
    (nextOf (exec .frameFetch State.reset)).map (fun t => (t.status.err, t.status.done)) = some (true, true) ∧
    Instr.ctx? (.ctxReset 0#2) ≠ some 3#2 ∧ writesResults (.ctxReset 0#2) = false ∧
    writesBasis (.ctxReset 0#2) = false ∧ (stateT 0).status.err = false := by decide +kernel

/-- A transform of one word to word 9, with the words at both edges of the stored range. -/
theorem witness_MemoryFrame :
    (nextOf (exec .dct2 (dctState 3 9 1 1 1 0#64 [0x4014000000000000#64]))).isSome = true ∧
    dmemTarget .dct2 (dctState 3 9 1 1 1 0#64 []) = (9, 1) ∧ 8 < (dmemTarget .dct2 (dctState 3 9 1 1 1 0#64 [])).1 ∧
    Space.win ∉ bufferTargets .dct2 ∧ Space.dctm ∈ bufferTargets .dct2 := by decide +kernel

theorem witness_ResetMeetsInvariant :
    (⟨1, 2, 1, 1, 1, 1⟩ : Caps).Legal ∧ (⟨65536, 8, 4094, 1, 1, 2⟩ : Caps).Legal := by decide

/-- Steps from states that meet the invariant and the promises: the engine on SPEC_POWER and on CTX_RESET, a CFG
write. -/
theorem witness_Invariants :
    ((pendingAt (framed .wnd) 0x30#64 (oneRow 0 0) [] 0).Inv ∧
      (∃ t, step (pendingAt (framed .wnd) 0x30#64 (oneRow 0 0) [] 0) = .next t ∧ t.status.frameStage = .pwr)) ∧
    ((framed .pwr).Inv ∧
      (nextOf (oneTransaction (framed .pwr) (.write 0x000118#24 8 4#64))).map (·.status.frameStage) = some .empty) := by
  refine ⟨⟨pendingAt_inv (framed_inv _) _ _ _ _, ?_⟩, framed_inv _, by decide +kernel⟩
  have h : (nextOf (step (pendingAt (framed .wnd) 0x30#64 (oneRow 0 0) [] 0))).map (·.status.frameStage) =
      some .pwr := by decide +kernel
  obtain ⟨t, ht⟩ := exists_next_of_isSome (o := step (pendingAt (framed .wnd) 0x30#64 (oneRow 0 0) [] 0))
    (by cases hn : nextOf (step (pendingAt (framed .wnd) 0x30#64 (oneRow 0 0) [] 0)) with
      | none => rw [hn] at h; cases h
      | some t => rfl)
  rw [ht] at h
  exact ⟨t, ht, Option.some.inj h⟩

/-- Unwritten inputs at DMEM word 1 and at the last DMEM word. -/
theorem witness_EngineFaultsOnlyOnUnwrittenDmem :
    ∀ a ∈ [1, 65535],
      (pendingAt (framed .wnd) 0x42#64 (oneRow a 0) [] 0).Inv ∧
      (pendingAt (framed .wnd) 0x42#64 (oneRow a 0) [] 0).mover = .engine ∧
      faultOf (step (pendingAt (framed .wnd) 0x42#64 (oneRow a 0) [] 0)) = some (.readUnwritten .dmem a) := by
  intro a ha
  refine ⟨pendingAt_inv (framed_inv _) _ _ _ _, rfl, ?_⟩
  revert a
  decide +kernel

/-- FilterBankStaysCurrent; a state with FB_VALID = 1 needs values of the free numerics (log 2). -/
theorem witness_FilterBankStaysCurrent :
    (pendingAt (framed .wnd) 0x10#64 (oneRow 0 0) [] 0).Inv ∧
    (pendingAt (framed .wnd) 0x10#64 (oneRow 0 0) [] 0).FilterBankCurrent ∧
    ∃ t, step (pendingAt (framed .wnd) 0x10#64 (oneRow 0 0) [] 0) = .next t :=
  ⟨pendingAt_inv (framed_inv _) _ _ _ _, fun h => (by cases h), exists_next_of_isSome (by decide +kernel)⟩

theorem witness_WindowAndFrameStayCurrent :
    (pendingAt (framed .wnd) 0x20#64 (oneRow 0 0) [] 0).Inv ∧
    (pendingAt (framed .wnd) 0x20#64 (oneRow 0 0) [] 0).WindowCurrent ∧
    (pendingAt (framed .wnd) 0x20#64 (oneRow 0 0) [] 0).FrameCurrent ∧
    (nextOf (step (pendingAt (framed .wnd) 0x20#64 (oneRow 0 0) [] 0))).map (·.status.err) = some false :=
  ⟨pendingAt_inv (framed_inv _) _ _ _ _, (framed_current _ _).1, (framed_current _ _).2, by decide +kernel⟩

theorem witness_BasisCacheStaysExact :
    (pendingAt (framed .wnd) 0x42#64 (oneRow 0 5) [] 0).Inv ∧
    (pendingAt (framed .wnd) 0x42#64 (oneRow 0 5) [] 0).BasisCached ∧
    (nextOf (step (pendingAt (framed .wnd) 0x42#64 (oneRow 0 5) [] 0))).map (·.status.err) = some false :=
  ⟨pendingAt_inv (framed_inv _) _ _ _ _, framed_basisCached _ _ _, by decide +kernel⟩

/-- A command without a context, one of another context, and one that faults. -/
theorem witness_ContextsAreIsolated :
    Instr.ctx? .frameCount ≠ some 0#2 ∧ Instr.ctx? (.preemph 1#2) ≠ some 0#2 ∧
    (nextOf (exec (.preemph 1#2) (stageT .raw (signalT.take 8) [] []))).isSome = true ∧
    faultOf (exec .dct2 (dctState 7 0 1 1 1 0#64 [])) = some (.readUnwritten .dmem 7) := by decide +kernel

theorem witness_CmdWriteIssuesCommand :
    (pendingAt State.reset 0x0#64 (oneRow 0 0) [.write 0x000050#24 8 0x30#64] 0).status.busy = true ∧
    (nextOf (step (pendingAt State.reset 0x0#64 (oneRow 0 0) [.write 0x000050#24 8 0x30#64] 0))).isSome = true ∧
    (nextOf (oneTransaction State.reset (.write 0x000050#24 8 0x30#64))).map (·.status.busy) = some true := by decide

theorem witness_MisalignedOrOddSizeGetsError :
    ∀ row ∈ [(0x000001#24, 8), (0x80000F#24, 8), (0x000050#24, 4), (0x000048#24, 0), (0x000050#24, 16)],
      (row.1.toNat % 8 ≠ 0 ∨ row.2 ≠ 8) ∧
      (nextOf (oneTransaction State.reset (.write row.1 row.2 1#64))).map (·.response) = some (some .error) := by decide

/-- Unmapped addresses next to mapped ones: the register holes, PRIOR[NUM_CTX], and the words past the windows. -/
theorem witness_UnmappedGetsError :
    (∀ a ∈ [0x038, 0x0A0, 0x0F8, 0x160, 0x1B0, 0x1000, 0x010210, 0x020200, 0x044000,
        0x062008, 0x088000, 0x180200, 0x7FFFF8, 0x880000, 0xFFFFF8],
      a % 8 = 0 ∧ locate twoContexts (BitVec.ofNat 24 a) 8 = none) ∧
    (∀ a ∈ [0x000, 0x030, 0x040, 0x098, 0x100, 0x158, 0x180, 0x198, 0x1A0, 0x1A8,
        0x010208, 0x018208, 0x0201F8, 0x043FF8, 0x04BFF8, 0x053FF8, 0x05BFF8, 0x062000,
        0x087FF8, 0x1801F8, 0x87FFF8],
      a % 8 = 0 ∧ (locate twoContexts (BitVec.ofNat 24 a) 8).isSome = true) ∧ twoContexts.Legal := by decide +kernel

/-- The first and the last word of windows, written and unwritten (WindowReadReturnsWord,
WindowWriteStoresOnlyDmem). -/
theorem witness_Windows :
    (0 < Space.win.capacity Caps.default ∧ (framed .wnd).peek .win 0 = some 0x3FF0000000000000#64) ∧
    (2047 < Space.win.capacity Caps.default ∧ (framed .wnd).peek .win 2047 = none) ∧
    (65535 < Space.dmem.capacity Caps.default ∧ (framed .wnd).peek .dmem 65535 = none) ∧
    (hostRd (.word .win 2047) = .read (BitVec.ofNat 24 (0x040000 + 8 * 2047)) 8 ∧
      hostWr (.word .dmem 65535) 7#64 = .write 0x87FFF8#24 8 7#64) ∧
    (framed .wnd).caps.Legal ∧ (framed .wnd).status.busy = false := by decide

/-- Idle states for the reads of registers at both ends of each part of the map, the last PRIOR among them
(WindowReadReturnsWord). -/
theorem witness_RegisterReads :
    (∀ a ∈ [0x000, 0x030, 0x040, 0x048, 0x058, 0x060, 0x098, 0x100, 0x158, 0x180, 0x190, 0x198, 0x1A0, 0x1B8],
      (nextOf (oneTransaction (framed .wnd) (.read (BitVec.ofNat 24 a) 8))).isSome = true) ∧
    (framed .wnd).status.busy = false ∧ 3 < (framed .wnd).caps.numCtx := by decide +kernel

/-- Idle states for the writes to STATUS, the configuration registers, the read-only registers and CTRL, a soft reset
that is held, and a pulse of the reset line, idle and with a command pending (StatusWriteOneClears,
CfgWriteClearsFlags, CfgWriteReadsBack, SoftResetRestoresRegisters). -/
theorem witness_RegisterWrites :
    (nextOf (oneTransaction (framed .wnd) (.write 0x000048#24 8 6#64))).isSome = true ∧
    (∀ a ∈ [0x100, 0x108, 0x110, 0x118, 0x120, 0x128, 0x130, 0x138, 0x140, 0x060, 0x088, 0x180, 0x188,
        0x000, 0x030, 0x058, 0x090, 0x098, 0x148, 0x158, 0x190, 0x198, 0x1A0, 0x1B8],
      (nextOf (oneTransaction (framed .wnd) (.write (BitVec.ofNat 24 a) 8 0xFFFFFFFFFFFFFFFF#64))).isSome = true) ∧
    hostWr (.reg (.cfg .nfft)) 5#64 = .write 0x000118#24 8 5#64 ∧
    (2#64).getLsbD 1 = true ∧ (3#64).getLsbD 1 = true ∧
    (∀ row ∈ [(0x0, false), (0x1, true), (0xFFFFFFFFFFFFFFFC, false), (0xFFFFFFFFFFFFFFFD, true)],
      (BitVec.ofNat 64 row.1).getLsbD 1 = false ∧
      (nextOf (oneTransaction { framed .wnd with irqEn := !row.2 } (.write 0x000040#24 8 (BitVec.ofNat 64 row.1)))).map
        (·.irqEn) = some row.2) ∧
    (nextOf (oneTransaction (framed .wnd) (.write 0x000040#24 8 3#64))).map (fun t => (t.irqEn, t.status.word)) =
      some (false, 0#64) ∧
    (nextOf (step (pendingAt State.reset 0x0#64 (oneRow 0 0) [.write 0x000040#24 8 2#64] 0))).map (·.inputs) =
      some [.write 0x000040#24 8 2#64] ∧
    (∀ s ∈ [framed .wnd, pendingAt State.reset 0x0#64 (oneRow 0 0) [] 1],
      (nextOf (step { s with inputs := [.resetLine, .resetLine] })).map (·.inputs) = some [.resetLine]) := by decide

/-- irq high, and its falls by each cause (InterruptFollowsDone). -/
theorem witness_InterruptFollowsDone :
    ({ State.reset with irqEn := true, status := { Status.reset with done := true } } : State).irq = true ∧
    (∀ t ∈ [HostInput.resetLine, .write 0x000048#24 8 2#64, .write 0x000050#24 8 0#64, .write 0x000040#24 8 0#64,
        .write 0x000040#24 8 3#64],
      (nextOf (oneTransaction { State.reset with irqEn := true, status := { Status.reset with done := true } } t)).map
        (·.irq) = some false) := by decide

theorem witness_NopCompletes :
    State.reset.status.word = 0#64 ∧ (nextOf (exec .nop State.reset)).isSome = true := by decide

theorem witness_NaN :
    isNaN 0x7FF0000000000001#64 = true ∧ isNaN 0xFFFFFFFFFFFFFFFF#64 = true ∧ isNaN 0x7FF0000000000000#64 = false ∧
    isNaN (fdiv 0#64 0#64) = true ∧ isNaN (numerics.rdft 1 [0x7FF0000000000001#64] 0).1 = true := by decide +kernel

/-- The bound of a large operand, and +inf; the first number below -700.0, and -inf (MelCornerCases). -/
theorem witness_MelCornerCases :
    (∀ x ∈ [0xC085E00000000001, 0xC085E80000000000, 0xFFF0000000000000],
      flt (BitVec.ofNat 64 x) 0xC085E00000000000#64 = true ∧
      melOf numerics (BitVec.ofNat 64 x) = 0x7FF8000000000000#64) ∧
    flt 0xC085E00000000000#64 0xC085E00000000000#64 = false ∧
    fle 0x4128787E00000000#64 0x4128787E00000000#64 = true ∧
    fle 0x4128787E00000000#64 0x7FF0000000000000#64 = true := by decide +kernel

/-- The reset configuration passes the checks 10 to 18 of FB_BUILD; and in configuration T, which passes them too, edge
1 lies outside, filter 0 is out of order, filter 1 has no width, and all twelve checks hold. -/
theorem witness_FbBuildConfigurationChecks :
    (((fbBuildChecks numerics State.reset).take 9).map Prod.fst = List.replicate 9 false ∧
      ((fbBuildChecks numerics (stateT 0)).take 9).map Prod.fst = List.replicate 9 false) ∧
    (∀ row ∈ [((5, 3), some (19, 1)), ((3, 1), some (20, 0)), ((4, 4), some (21, 1)), ((1, 3), none)],
      (firstError (fbBuildChecks (tableNumerics row.1.1 row.1.2) (stateT 0))).map (fun e => (e.check, e.index)) =
        row.2) := by decide +kernel

/-- FbBuildWritesFilterBank, met by two numerics: the bins 0, 1, 3, 4, and the bins 0, 0, 4, 4, whose filters have an
edge of no width. -/
theorem witness_FbBuildWritesFilterBank :
    (∀ b ∈ [(1, 3), (0, 4)],
      (∀ i < 4, isFinite (edgeRatio (tableNumerics b.1 b.2) cfgT i) = true ∧
        0 ≤ edgeBinOf (tableNumerics b.1 b.2) cfgT i ∧ edgeBinOf (tableNumerics b.1 b.2) cfgT i ≤ 4) ∧
      (∀ j < 2, edgeBinOf (tableNumerics b.1 b.2) cfgT j ≤ edgeBinOf (tableNumerics b.1 b.2) cfgT (j + 1) ∧
        edgeBinOf (tableNumerics b.1 b.2) cfgT (j + 1) ≤ edgeBinOf (tableNumerics b.1 b.2) cfgT (j + 2) ∧
        edgeBinOf (tableNumerics b.1 b.2) cfgT j ≠ edgeBinOf (tableNumerics b.1 b.2) cfgT (j + 2))) ∧
    ((stateT 0).nfft = 2 ^ 3 ∧ (stateT 0).nfft ≤ (stateT 0).caps.maxNfft ∧ (stateT 0).nfilt = 2 ∧
      isFinite cfgT.lowerFreq = true ∧ isFinite cfgT.upperFreq = true ∧ flt cfgT.nyquist cfgT.upperFreq = false ∧
      flt cfgT.lowerFreq 0#64 = false ∧ flt cfgT.lowerFreq cfgT.upperFreq = true) := by decide +kernel

/-- A configuration WIN_BUILD accepts, with frames of 8 samples and of one (WinBuildChecksInOrder,
WinBuildWritesWindow). -/
theorem witness_WinBuild :
    ∀ s ∈ [stateT 0, framed .wnd],
      s.cfg.sampleRate.toNat ≠ 0 ∧ s.cfg.frameRate.toNat ≠ 0 ∧ s.frameLen ≠ 0 ∧ s.frameLen ≤ s.caps.maxFrame ∧
      2 ≤ s.cfg.nfft.toNat ∧ 2 ^ s.cfg.nfft.toNat.log2 = s.cfg.nfft.toNat ∧ s.cfg.nfft.toNat ≤ s.caps.maxNfft ∧
      s.frameLen ≤ s.cfg.nfft.toNat ∧ fle 0#64 s.cfg.alpha = true ∧ flt s.cfg.alpha 0x3FF0000000000000#64 = true := by
  decide +kernel

/-- The ends of the rates' range (FramePlacementDefined). -/
theorem witness_FramePlacementDefined :
    ∀ c ∈ [{ cfgT with sampleRate := 1#32, frameRate := 4294967295#32 },
        ({ cfgT with sampleRate := 4294967295#32, frameRate := 1#32 } : Cfg)],
      1 ≤ c.sampleRate.toNat ∧ 1 ≤ c.frameRate.toNat ∧
      isFinite (fmul (ofNat (2 ^ 64 - 1)) c.fshift) = true ∧ isFinite (fdiv (ofNat (2 ^ 64 - 1)) c.fshift) = true := by
  decide +kernel

/-- Frames 1 and 3 of the signal of configuration T, the last one all padding, at the end of DMEM too
(SignalChecksInOrder, FrameCountResult, FrameFetchFillsRaw, FramePrepIsFetchPreemphWindow). -/
theorem witness_Frames :
    ∀ row ∈ [(1, 4, 0), (3, 12, 0), (2, 8, 65526)],
      (stateT row.1).sigLen.toNat ≠ 0 ∧ cfgT.sampleRate.toNat ≠ 0 ∧ cfgT.frameRate.toNat ≠ 0 ∧
      (stateT row.1).status.winValid = true ∧ row.2.2 + (stateT row.1).sigLen.toNat ≤ (stateT row.1).caps.dmemWords ∧
      (rha (fmul (ofNat (stateT row.1).args[5].toNat) cfgT.fshift)).toNat = row.2.1 ∧ cfgT.frameLen ≠ 0 ∧
      (∀ n < 8, row.2.1 + n < 10 → ((Memory.block row.2.2 signalT).read (row.2.2 + row.2.1 + n)).isSome = true) ∧
      (∀ n < 8, ((stateT row.1).peek .win n).isSome = true) := by decide +kernel

/-- Idle states for a facade run on an empty signal and with sample rate 0 (SignalChecksInOrder). -/
theorem witness_Facades :
    (stateT 0).status.busy = false ∧ (framed .wnd).status.busy = false ∧
    ({ cfgT with sampleRate := 0#32 } : Cfg).sampleRate.toNat = 0 := by decide

/-- PREEMPH at stage RAW and at another, WINDOW at stage COND and at another. -/
theorem witness_PreemphAndWindow :
    (stageT .raw (signalT.take 8) [] []).status.frameStage = .raw ∧ (stageT .raw [] [] []).frameLen = 8 ∧
    (∀ n < 8, (stageT .raw (signalT.take 8) [] []).peek .raw n = signalT[n]?) ∧
    (stageT .cond [] (signalT.take 8) []).status.frameStage = .cond ∧
    (∀ n < 8, (stageT .cond [] (signalT.take 8) []).peek .cond n = signalT[n]? ∧
      (stageT .cond [] (signalT.take 8) []).peek .win n = windowT[n]?) := by decide +kernel

/-- Frames ready for SPEC_POWER, SPEC_PROJECT (to the end of DMEM) and SPEC_LOGMEL (SpectralChecksInOrder and the
three results). -/
theorem witness_Spectral :
    ((stageT .wnd [] [] (signalT.take 8)).status.frameStage = .wnd ∧ (stageT .wnd [] [] []).frameLen ≤ 8 ∧
      ∀ n < 8, (stageT .wnd [] [] (signalT.take 8)).peek .wnd n = signalT[n]?) ∧
    ((projectT 65534 (signalT.take 5)).status.frameStage = .pwr ∧
      (projectT 65534 (signalT.take 5)).status.fbValid = true ∧
      (projectT 65534 (signalT.take 5)).dst + 2 ≤ (projectT 65534 (signalT.take 5)).caps.dmemWords ∧
      (∀ b < 5, (projectT 65534 (signalT.take 5)).peek .pwr b = signalT[b]?) ∧
      ∀ k < 10, ((projectT 65534 (signalT.take 5)).peek .fb k).isSome = true) := by decide +kernel

/-- Operands every transform accepts: one row at the ends of DMEM, the largest sizes, and no row at all
(DctChecksInOrder, DctBasisWritesMatrix and the four transform results). -/
theorem witness_Transforms :
    (∀ s ∈ [dctState 65535 0 1 1 1 0#64 [0x4014000000000000#64], dctState 0 65535 1 1 1 0#64 [0x4014000000000000#64],
        dctState 65536 65536 64 64 0 0x3FF0000000000000#64 []],
      s.argN ≠ 0 ∧ s.argK ≠ 0 ∧ s.argN ≤ s.caps.maxDct ∧ s.argK ≤ s.caps.maxDct ∧ isFinite s.argX = true ∧
      s.src + s.rows * s.argN ≤ s.caps.dmemWords ∧ s.dst + s.rows * s.argK ≤ s.caps.dmemWords ∧
      ∀ j < s.rows * s.argN, s.peek .dmem (s.src + j) = some 0x4014000000000000#64) ∧
    (stateT 0).cfg.nfilt.toNat ≠ 0 ∧ (stateT 0).cfg.ncep.toNat ≠ 0 ∧
    (∀ j < 2, (stateT 0).peek .dmem j = signalT[j]?) := by decide +kernel

/-- A frame of zeros of both signs and numerics that meet NUM_FAITHFUL as far as binary64 can (SpecPowerWritesSpectrum); a spectrum of zeros and
a finite matrix (SpecProjectWritesLogMel). -/
theorem witness_Silence :
    (∃ nu : Numerics, NumAttainable nu) ∧ isZero 0x0000000000000000#64 = true ∧ isZero 0x8000000000000000#64 = true ∧
    (∀ b < 5, (projectT 0 (List.replicate 5 0#64)).peek .pwr b = some 0#64) ∧
    (∀ k < 10, ((projectT 0 []).peek .fb k).map isFinite = some true) :=
  ⟨⟨_, reference_numAttainable⟩, by decide, by decide, by decide, by decide⟩

theorem witness_IntegerRoundingIsExact :
    isFinite 0x4004000000000000#64 = true ∧ 0 ≤ valueOf 0x4004000000000000#64 ∧
    isFinite 0xC004000000000000#64 = true ∧ valueOf 0xC004000000000000#64 < 0 ∧
    isNaN 0x7FF0000000000001#64 = true ∧ isNaN 0x7FF0000000000000#64 = false ∧ isNaN 0xFFF0000000000000#64 = false := by
  refine ⟨by decide, div_nonneg (Int.cast_nonneg (by decide +kernel)) (Nat.cast_nonneg _), by decide,
    div_neg_of_neg_of_pos (Int.cast_lt_zero.mpr (by decide +kernel)) (Nat.cast_pos.mpr (by decide +kernel)),
    by decide, by decide, by decide⟩

/-- Operands of every clause: the ends of the finite range, a divisor, a radicand, sums and differences that are exactly
zero, zeros and infinities of both signs, and a negative radicand. -/
theorem witness_ArithmeticRoundsToNearest :
    (∀ x ∈ [0x0000000000000001, 0x3FF0000000000000, 0x7FEFFFFFFFFFFFFF, 0xFFEFFFFFFFFFFFFF],
      isFinite (BitVec.ofNat 64 x) = true ∧ isZero (BitVec.ofNat 64 x) = false) ∧
    (isZero 0x0000000000000000#64 = true ∧ isZero 0x8000000000000000#64 = true ∧
      isInf 0x7FF0000000000000#64 = true ∧ isInf 0xFFF0000000000000#64 = true ∧
      isNaN 0xFFF0000000000000#64 = false ∧ isNaN 0x8000000000000001#64 = false ∧
      isZero 0x8000000000000001#64 = false ∧ signOf 0x8000000000000001#64 = true) ∧
    0 ≤ realOf 0x4000000000000000#64 ∧ realOf 0x8000000000000000#64 + realOf 0x0000000000000000#64 = 0 ∧
    realOf 0xBFF0000000000000#64 = realOf 0xBFF0000000000000#64 := by
  refine ⟨by decide, by decide, ?_, ?_, rfl⟩
  · exact Rat.cast_nonneg.mpr (div_nonneg (Int.cast_nonneg (by decide +kernel)) (Nat.cast_nonneg _))
  · have h1 : units 0x8000000000000000#64 = 0 := by decide +kernel
    have h2 : units 0x0000000000000000#64 = 0 := by decide +kernel
    simp [realOf, valueOf, h1, h2]

end Sys2Proof.Tests
end

section
/-! The binary64 number as a sign and a magnitude encoding, and what each operation of Machine/Float.lean answers for
each kind of operand: a NaN, an infinity, a zero, a finite number. -/

namespace Sys2Proof.Machine

/-! ### Sign and magnitude determine the number -/

theorem packSign_signOf_magnitudeBits (a : F64) : packSign (signOf a) (magnitudeBits a) = a := by
  have hm : magnitudeBits a < 2 ^ 63 := Nat.mod_lt _ (by decide)
  apply BitVec.eq_of_toNat_eq
  rw [toNat_packSign _ hm]
  have hlt := a.isLt
  have hs : signOf a = decide (a.toNat / 2 ^ 63 % 2 = 1) := by
    rw [signOf, ← BitVec.testBit_toNat, Nat.testBit_eq_decide_div_mod_eq]
  rw [hs, magnitudeBits]
  simp only [decide_eq_true_eq]
  split <;> omega

theorem eq_infinity_of_isInf {a : F64} (h : isInf a = true) : a = infinity (signOf a) := by
  have hm : magnitudeBits a = infMagnitude := by simpa [isInf] using h
  rw [infinity, ← hm, packSign_signOf_magnitudeBits]

theorem isNaN_of_isInf {a : F64} (h : isInf a = true) : isNaN a = false := by
  have hm : magnitudeBits a = infMagnitude := by simpa [isInf] using h
  simp [isNaN, hm]

theorem isZero_of_isInf {a : F64} (h : isInf a = true) : isZero a = false := by
  have hm : magnitudeBits a = infMagnitude := by simpa [isInf] using h
  simp [isZero, hm, infMagnitude]

theorem isNaN_of_isFinite {a : F64} (h : isFinite a = true) : isNaN a = false := ((isFinite_iff_not a).mp h).1

theorem isInf_of_isFinite {a : F64} (h : isFinite a = true) : isInf a = false := ((isFinite_iff_not a).mp h).2

theorem isFinite_of_isZero {a : F64} (h : isZero a = true) : isFinite a = true := by
  have hm : magnitudeBits a = 0 := by simpa [isZero] using h
  simp [isFinite, hm, infMagnitude]

theorem isNaN_infinity (neg : Bool) : isNaN (infinity neg) = false := isNaN_packSign neg le_rfl

@[simp] theorem isNaN_fneg (a : F64) : isNaN (fneg a) = isNaN a := by simp only [isNaN, magnitudeBits_fneg]

@[simp] theorem isInf_fneg (a : F64) : isInf (fneg a) = isInf a := by simp only [isInf, magnitudeBits_fneg]

/-! ### Operands that are a NaN or an infinity -/

theorem fadd_of_isNaN {a b : F64} (h : isNaN a = true ∨ isNaN b = true) : fadd a b = canonicalNaN := by
  simp [fadd, h]

theorem fsub_of_isNaN {a b : F64} (h : isNaN a = true ∨ isNaN b = true) : fsub a b = canonicalNaN :=
  fadd_of_isNaN (by rwa [isNaN_fneg])

theorem fmul_of_isNaN {a b : F64} (h : isNaN a = true ∨ isNaN b = true) : fmul a b = canonicalNaN := by
  simp [fmul, h]

theorem fdiv_of_isNaN {a b : F64} (h : isNaN a = true ∨ isNaN b = true) : fdiv a b = canonicalNaN := by
  simp [fdiv, h]

theorem fsqrt_of_isNaN {a : F64} (h : isNaN a = true) : fsqrt a = canonicalNaN := by
  simp [fsqrt, h]

theorem fadd_of_isInf_left {a b : F64} (ha : isInf a = true) (hb : isNaN b = false) :
    fadd a b = if isInf b = true ∧ signOf a ≠ signOf b then canonicalNaN else infinity (signOf a) := by
  rw [← eq_infinity_of_isInf ha]
  simp [fadd, isNaN_of_isInf ha, hb, ha]

theorem fadd_of_isInf_right {a b : F64} (ha : isInf a = true) (hb : isNaN b = false) :
    fadd b a = if isInf b = true ∧ signOf a ≠ signOf b then canonicalNaN else infinity (signOf a) := by
  cases hi : isInf b with
  | false =>
    rw [if_neg (by simp), ← eq_infinity_of_isInf ha]
    simp [fadd, isNaN_of_isInf ha, hb, ha, hi]
  | true =>
    rw [fadd_of_isInf_left hi (isNaN_of_isInf ha)]
    by_cases hs : signOf a = signOf b
    · simp [hs]
    · rw [if_pos ⟨ha, Ne.symm hs⟩, if_pos ⟨rfl, hs⟩]

theorem fsub_of_isInf_left {a b : F64} (ha : isInf a = true) (hb : isNaN b = false) :
    fsub a b = if isInf b = true ∧ signOf a = signOf b then canonicalNaN else infinity (signOf a) := by
  rw [fsub, fadd_of_isInf_left ha (by rwa [isNaN_fneg])]
  simp [signOf_fneg]

theorem fsub_of_isInf_right {a b : F64} (ha : isInf a = true) (hb : isNaN b = false) :
    fsub b a = if isInf b = true ∧ signOf a = signOf b then canonicalNaN else infinity (!signOf a) := by
  rw [fsub, fadd_of_isInf_right (by rwa [isInf_fneg]) hb]
  simp [signOf_fneg]

theorem fmul_comm (a b : F64) : fmul a b = fmul b a := by
  simp only [fmul, or_comm, Bool.xor_comm (signOf a), Nat.mul_comm (magnitudeUnits a)]

theorem fmul_of_isInf {a b : F64} (ha : isInf a = true) (hb : isNaN b = false) :
    fmul a b = if isZero b = true then canonicalNaN else infinity (signOf a ^^ signOf b) := by
  simp [fmul, isNaN_of_isInf ha, hb, ha, isZero_of_isInf ha]

theorem fdiv_of_isInf_left {a b : F64} (ha : isInf a = true) (hb : isNaN b = false) :
    fdiv a b = if isInf b = true then canonicalNaN else infinity (signOf a ^^ signOf b) := by
  simp [fdiv, isNaN_of_isInf ha, hb, ha]

theorem fdiv_of_isInf_right {a b : F64} (ha : isInf a = true) (hb : isFinite b = true) :
    fdiv b a = packSign (signOf a ^^ signOf b) 0 := by
  simp [fdiv, isNaN_of_isInf ha, isNaN_of_isFinite hb, isInf_of_isFinite hb, ha, Bool.xor_comm]

theorem fsqrt_infinity : fsqrt (infinity false) = infinity false := by decide

/-! ### Finite operands -/

theorem fadd_of_isFinite {a b : F64} (ha : isFinite a = true) (hb : isFinite b = true) :
    fadd a b = if units a + units b = 0 then packSign (signOf a && signOf b) 0
      else packSign (decide (units a + units b < 0)) (roundMagnitude (units a + units b).natAbs 1) := by
  simp [fadd, isNaN_of_isFinite ha, isNaN_of_isFinite hb, isInf_of_isFinite ha, isInf_of_isFinite hb]

theorem fmul_of_isFinite {a b : F64} (ha : isFinite a = true) (hb : isFinite b = true) :
    fmul a b = packSign (signOf a ^^ signOf b)
      (roundMagnitude (magnitudeUnits a * magnitudeUnits b) unitsPerOne) := by
  simp [fmul, isNaN_of_isFinite ha, isNaN_of_isFinite hb, isInf_of_isFinite ha, isInf_of_isFinite hb]

theorem fdiv_of_isFinite {a b : F64} (ha : isFinite a = true) (hb : isFinite b = true) (hz : isZero b = false) :
    fdiv a b = packSign (signOf a ^^ signOf b)
      (roundMagnitude (unitsPerOne * magnitudeUnits a) (magnitudeUnits b)) := by
  simp [fdiv, isNaN_of_isFinite ha, isNaN_of_isFinite hb, isInf_of_isFinite ha, isInf_of_isFinite hb, hz]

theorem fdiv_by_zero {a b : F64} (ha : isFinite a = true) (hz : isZero b = true) :
    fdiv a b = if isZero a = true then canonicalNaN else infinity (signOf a ^^ signOf b) := by
  have hb := isFinite_of_isZero hz
  simp [fdiv, isNaN_of_isFinite ha, isNaN_of_isFinite hb, isInf_of_isFinite ha, isInf_of_isFinite hb, hz]

theorem fsqrt_of_isZero {a : F64} (h : isZero a = true) : fsqrt a = a := by
  simp [fsqrt, isNaN_of_isFinite (isFinite_of_isZero h), h]

theorem fsqrt_of_negative {a : F64} (hz : isZero a = false) (hs : signOf a = true) : fsqrt a = canonicalNaN := by
  simp [fsqrt, hz, hs]

theorem fsqrt_of_positive {a : F64} (ha : isFinite a = true) (hz : isZero a = false) (hs : signOf a = false) :
    fsqrt a = packSign false (roundMagnitude
      (2 * isqrt (unitsPerOne * magnitudeUnits a) +
        if isqrt (unitsPerOne * magnitudeUnits a) * isqrt (unitsPerOne * magnitudeUnits a) =
          unitsPerOne * magnitudeUnits a then 0 else 1) 2) := by
  simp only [fsqrt, isNaN_of_isFinite ha, isInf_of_isFinite ha, hz, hs, Bool.false_eq_true, if_false]

/-! ### Every NaN is the canonical NaN (00_scope.md R12) -/

/-- Of all NaN encodings the value can be the canonical one only. -/
def NaNIsCanonical (r : F64) : Prop := isNaN r = true → r = canonicalNaN

theorem nanIsCanonical_canonicalNaN : NaNIsCanonical canonicalNaN := fun _ => rfl

theorem nanIsCanonical_canonical (a : F64) : NaNIsCanonical (canonical a) := eq_canonicalNaN_of_isNaN_canonical

theorem nanIsCanonical_of_isNaN_false {r : F64} (h : isNaN r = false) : NaNIsCanonical r :=
  fun hn => absurd hn (by simp [h])

theorem nanIsCanonical_packSign (neg : Bool) {m : Nat} (h : m ≤ infMagnitude) : NaNIsCanonical (packSign neg m) :=
  nanIsCanonical_of_isNaN_false (isNaN_packSign neg h)

theorem nanIsCanonical_infinity (neg : Bool) : NaNIsCanonical (infinity neg) := nanIsCanonical_packSign neg le_rfl

theorem nanIsCanonical_rounded (neg : Bool) (n d : Nat) : NaNIsCanonical (packSign neg (roundMagnitude n d)) :=
  nanIsCanonical_packSign neg (roundMagnitude_le n d)

theorem nanIsCanonical_fadd (a b : F64) : NaNIsCanonical (fadd a b) := by
  simp only [fadd]
  split_ifs with hn ha _ hb
  · exact nanIsCanonical_canonicalNaN
  · exact nanIsCanonical_canonicalNaN
  · exact nanIsCanonical_of_isNaN_false (isNaN_of_isInf ha)
  · exact nanIsCanonical_of_isNaN_false (isNaN_of_isInf hb)
  · exact nanIsCanonical_packSign _ (Nat.zero_le _)
  · exact nanIsCanonical_rounded _ _ _

theorem nanIsCanonical_fmul (a b : F64) : NaNIsCanonical (fmul a b) := by
  unfold fmul
  split_ifs
  · exact nanIsCanonical_canonicalNaN
  · exact nanIsCanonical_canonicalNaN
  · exact nanIsCanonical_infinity _
  · exact nanIsCanonical_rounded _ _ _

theorem nanIsCanonical_fdiv (a b : F64) : NaNIsCanonical (fdiv a b) := by
  unfold fdiv
  split_ifs
  · exact nanIsCanonical_canonicalNaN
  · exact nanIsCanonical_canonicalNaN
  · exact nanIsCanonical_infinity _
  · exact nanIsCanonical_packSign _ (Nat.zero_le _)
  · exact nanIsCanonical_canonicalNaN
  · exact nanIsCanonical_infinity _
  · exact nanIsCanonical_rounded _ _ _

theorem nanIsCanonical_fsqrt (a : F64) : NaNIsCanonical (fsqrt a) := by
  unfold fsqrt
  split_ifs with hn
  · exact nanIsCanonical_canonicalNaN
  · exact nanIsCanonical_of_isNaN_false (by simpa using hn)
  · exact nanIsCanonical_canonicalNaN
  · exact nanIsCanonical_of_isNaN_false (by simpa using hn)
  · exact nanIsCanonical_rounded _ _ _

theorem nanIsCanonical_logContract (raw : F64 → F64) (x : F64) : NaNIsCanonical (logContract raw x) := by
  unfold logContract
  split_ifs
  · exact nanIsCanonical_canonicalNaN
  · exact nanIsCanonical_canonicalNaN
  · exact nanIsCanonical_infinity _
  · exact nanIsCanonical_packSign false (Nat.zero_le _)
  · exact nanIsCanonical_infinity _
  · exact nanIsCanonical_canonical _

theorem nanIsCanonical_lnContract (raw : F64 → F64) (x : F64) : NaNIsCanonical (lnContract raw x) := by
  simp only [lnContract]
  split_ifs
  · exact nanIsCanonical_packSign _ (Nat.sub_le _ _)
  · exact nanIsCanonical_logContract _ _

theorem nanIsCanonical_pow10Contract (raw : F64 → F64) (x : F64) : NaNIsCanonical (pow10Contract raw x) := by
  unfold pow10Contract
  split_ifs
  · exact nanIsCanonical_canonicalNaN
  · exact nanIsCanonical_of_isNaN_false (by decide)
  · exact nanIsCanonical_infinity _
  · exact nanIsCanonical_canonical _

theorem nanIsCanonical_cosContract (raw : F64 → F64) (x : F64) : NaNIsCanonical (cosContract raw x) := by
  unfold cosContract
  split_ifs
  · exact nanIsCanonical_canonicalNaN
  · exact nanIsCanonical_of_isNaN_false (by decide)
  · exact nanIsCanonical_canonical _

theorem nanIsCanonical_rdftContract (raw : Nat → List F64 → Nat → F64 × F64) (len : Nat) (x : List F64) (b : Nat) :
    NaNIsCanonical (rdftContract raw len x b).1 ∧ NaNIsCanonical (rdftContract raw len x b).2 := by
  unfold rdftContract
  split_ifs
  · exact ⟨nanIsCanonical_canonicalNaN, nanIsCanonical_canonicalNaN⟩
  · exact ⟨nanIsCanonical_canonical _, nanIsCanonical_canonical _⟩

theorem logContract_of_isNaN (raw : F64 → F64) {x : F64} (h : isNaN x = true) : logContract raw x = canonicalNaN := by
  simp [logContract, h]

theorem lnContract_of_isNaN (raw : F64 → F64) {x : F64} (h : isNaN x = true) : lnContract raw x = canonicalNaN := by
  rw [lnContract_of_allowed (by simp [fle, h]), logContract_of_isNaN raw h]

theorem pow10Contract_of_isNaN (raw : F64 → F64) {x : F64} (h : isNaN x = true) :
    pow10Contract raw x = canonicalNaN := by
  simp [pow10Contract, h]

theorem cosContract_of_isNaN (raw : F64 → F64) {x : F64} (h : isNaN x = true) : cosContract raw x = canonicalNaN := by
  simp [cosContract, h]

/-- Settles O58: each operation and each wrapper of the numerics ends every branch in the canonical NaN, in a number
that is no NaN, or in `canonical`, and has the NaN of an operand as its first branch. -/
theorem everyNaNIsCanonical : Obligations.EveryNaNIsCanonical := by
  unfold Obligations.EveryNaNIsCanonical
  simp only [List.forall_mem_cons, List.not_mem_nil, false_imp_iff, implies_true, and_true]
  refine ⟨fun a b => ⟨nanIsCanonical_fadd a b, nanIsCanonical_fadd a (fneg b), nanIsCanonical_fmul a b,
      nanIsCanonical_fdiv a b, nanIsCanonical_fsqrt a, nanIsCanonical_logContract _ a,
      nanIsCanonical_pow10Contract _ a, nanIsCanonical_lnContract _ a, nanIsCanonical_cosContract _ a,
      nanIsCanonical_canonical a⟩,
    fun a b h => ⟨fadd_of_isNaN h, fsub_of_isNaN h, fmul_of_isNaN h, fdiv_of_isNaN h⟩,
    fun a h => ⟨fsqrt_of_isNaN h, logContract_of_isNaN _ h, pow10Contract_of_isNaN _ h, lnContract_of_isNaN _ h,
      cosContract_of_isNaN _ h⟩,
    fun len x b => nanIsCanonical_rdftContract _ len x b, fun a h => canonical_of_not_isNaN h⟩

end Sys2Proof.Machine
end

section
/-! The exact values of finite numbers: floor, rounding half away and the comparisons (00_scope.md R13, R14). -/

namespace Sys2Proof.Machine

/-! ### Rounding to an integer -/

theorem unitsPerOne_ne_zero : (unitsPerOne : ℚ) ≠ 0 := by
  exact_mod_cast unitsPerOne_pos.ne'

theorem valueOf_eq (a : F64) : valueOf a =
    if signOf a = true then -((magnitudeUnits a : ℚ) / unitsPerOne) else (magnitudeUnits a : ℚ) / unitsPerOne := by
  unfold valueOf units
  split <;> push_cast <;> ring

theorem floorInt_eq_floor (a : F64) : floorInt a = ⌊valueOf a⌋ :=
  (Rat.floor_intCast_div_natCast (units a) unitsPerOne).symm

/-- The natural number that `rha` computes is the magnitude rounded half up. -/
theorem floor_magnitude_add_half (a : F64) : ⌊(magnitudeUnits a : ℚ) / unitsPerOne + 1 / 2⌋ =
    (((unitsPerOne + 2 * magnitudeUnits a) / (2 * unitsPerOne) : Nat) : Int) := by
  have h : (magnitudeUnits a : ℚ) / unitsPerOne + 1 / 2 =
      ((unitsPerOne + 2 * magnitudeUnits a : Nat) : ℚ) / ((2 * unitsPerOne : Nat) : ℚ) := by
    have := unitsPerOne_ne_zero
    push_cast
    field_simp
    ring
  rw [h, Rat.floor_natCast_div_natCast, Int.natCast_div]

theorem rha_eq (a : F64) : rha a =
    if signOf a = true then -⌊(magnitudeUnits a : ℚ) / unitsPerOne + 1 / 2⌋
    else ⌊(magnitudeUnits a : ℚ) / unitsPerOne + 1 / 2⌋ := by
  rw [floor_magnitude_add_half]
  rfl

theorem rha_of_nonneg {a : F64} (h : 0 ≤ valueOf a) : rha a = ⌊valueOf a + 1 / 2⌋ := by
  have h0 : (0 : ℚ) ≤ (magnitudeUnits a : ℚ) / unitsPerOne := by positivity
  rw [rha_eq]
  rw [valueOf_eq] at h ⊢
  by_cases hs : signOf a = true
  · -- -0.0: both roundings are zero
    rw [if_pos hs] at h
    have hz : (magnitudeUnits a : ℚ) / unitsPerOne = 0 := le_antisymm (neg_nonneg.mp h) h0
    rw [if_pos hs, if_pos hs, hz]
    norm_num
  · rw [if_neg hs, if_neg hs]

theorem rha_of_neg {a : F64} (h : valueOf a < 0) : rha a = -⌊-valueOf a + 1 / 2⌋ := by
  have h0 : (0 : ℚ) ≤ (magnitudeUnits a : ℚ) / unitsPerOne := by positivity
  rw [rha_eq]
  rw [valueOf_eq] at h ⊢
  by_cases hs : signOf a = true
  · rw [if_pos hs, if_pos hs, neg_neg]
  · rw [if_neg hs] at h
    exact absurd h (not_lt.mpr h0)

/-! ### Comparisons -/

theorem comparisons_of_isNaN {a b : F64} (h : isNaN a = true ∨ isNaN b = true) :
    flt a b = false ∧ fle a b = false ∧ feq a b = false := by
  rcases h with h | h <;> simp [flt, fle, feq, h]

theorem flt_iff {a b : F64} (ha : isNaN a = false) (hb : isNaN b = false) :
    flt a b = true ↔ orderKey a < orderKey b := by
  simp [flt, ha, hb]

theorem fle_iff {a b : F64} (ha : isNaN a = false) (hb : isNaN b = false) :
    fle a b = true ↔ orderKey a ≤ orderKey b := by
  simp [fle, ha, hb]

theorem feq_iff {a b : F64} (ha : isNaN a = false) (hb : isNaN b = false) :
    feq a b = true ↔ orderKey a = orderKey b := by
  simp [feq, ha, hb]

theorem valueOf_lt_iff (a b : F64) : valueOf a < valueOf b ↔ orderKey a < orderKey b := by
  have hU : (0 : ℚ) < unitsPerOne := by exact_mod_cast unitsPerOne_pos
  rw [← units_lt_iff, valueOf, valueOf, div_lt_div_iff_of_pos_right hU, Int.cast_lt]

theorem valueOf_eq_iff (a b : F64) : valueOf a = valueOf b ↔ orderKey a = orderKey b := by
  rw [← units_eq_iff, valueOf, valueOf, div_left_inj' unitsPerOne_ne_zero, Int.cast_inj]

theorem orderKey_infinity (neg : Bool) :
    orderKey (infinity neg) = if neg = true then -(infMagnitude : Int) else (infMagnitude : Int) := by
  rw [orderKey, infinity, signOf_packSign neg infMagnitude_lt, magnitudeBits_packSign neg infMagnitude_lt]

/-- Away from zero the order key determines the number. -/
theorem eq_of_orderKey_eq {a b : F64} (h : orderKey a = orderKey b) (h0 : orderKey a ≠ 0) : a = b := by
  unfold orderKey at h h0
  rw [← packSign_signOf_magnitudeBits a, ← packSign_signOf_magnitudeBits b]
  cases ha : signOf a <;> cases hb : signOf b <;> simp only [ha, hb, if_true, Bool.false_eq_true, if_false] at h h0
  · rw [Int.natCast_inj.mp h]
  · omega
  · omega
  · rw [Int.natCast_inj.mp (neg_injective h)]

theorem orderKey_eq_infinity_iff (a : F64) (neg : Bool) :
    orderKey a = orderKey (infinity neg) ↔ a = infinity neg := by
  refine ⟨fun h => eq_of_orderKey_eq h ?_, fun h => by rw [h]⟩
  rw [h, orderKey_infinity]
  cases neg <;> decide

/-- The infinities stand at the two ends of the order. -/
theorem orderKey_bounds {a : F64} (h : isNaN a = false) :
    orderKey (infinity true) ≤ orderKey a ∧ orderKey a ≤ orderKey (infinity false) := by
  have hm : magnitudeBits a ≤ infMagnitude := by simpa [isNaN] using h
  rw [orderKey_infinity, orderKey_infinity, if_pos rfl, if_neg (by decide), orderKey]
  split <;> omega

theorem comparisons_posInf {a : F64} (h : isNaN a = false) :
    (flt a (infinity false) = true ↔ a ≠ infinity false) ∧ fle a (infinity false) = true ∧
    (feq a (infinity false) = true ↔ a = infinity false) ∧ flt (infinity false) a = false ∧
    (fle (infinity false) a = true ↔ a = infinity false) ∧
    (feq (infinity false) a = true ↔ a = infinity false) := by
  have hi := isNaN_infinity false
  have hle := (orderKey_bounds h).2
  rw [← Bool.not_eq_true, flt_iff h hi, fle_iff h hi, feq_iff h hi, flt_iff hi h, fle_iff hi h, feq_iff hi h, ne_eq,
    ← orderKey_eq_infinity_iff]
  omega

theorem comparisons_negInf {a : F64} (h : isNaN a = false) :
    (flt (infinity true) a = true ↔ a ≠ infinity true) ∧ fle (infinity true) a = true ∧
    (feq a (infinity true) = true ↔ a = infinity true) ∧ flt a (infinity true) = false ∧
    (fle a (infinity true) = true ↔ a = infinity true) ∧
    (feq (infinity true) a = true ↔ a = infinity true) := by
  have hi := isNaN_infinity true
  have hle := (orderKey_bounds h).1
  rw [← Bool.not_eq_true, flt_iff h hi, fle_iff h hi, feq_iff h hi, flt_iff hi h, fle_iff hi h, feq_iff hi h, ne_eq,
    ← orderKey_eq_infinity_iff]
  omega

/-! ### The predicates by the fields of the encoding -/

theorem magnitudeBits_eq_fields (a : F64) :
    magnitudeBits a = 2 ^ 52 * (a.toNat / 2 ^ 52 % 2 ^ 11) + a.toNat % 2 ^ 52 := by
  unfold magnitudeBits
  omega

theorem isNaN_iff_fields (a : F64) :
    isNaN a = true ↔ a.toNat / 2 ^ 52 % 2 ^ 11 = 2047 ∧ a.toNat % 2 ^ 52 ≠ 0 := by
  rw [isNaN, magnitudeBits_eq_fields, infMagnitude, decide_eq_true_eq]
  omega

theorem isFinite_iff_fields (a : F64) : isFinite a = true ↔ a.toNat / 2 ^ 52 % 2 ^ 11 ≠ 2047 := by
  rw [isFinite, magnitudeBits_eq_fields, infMagnitude, decide_eq_true_eq]
  omega

/-- Settles O59: the integers by the floor of a quotient, the comparisons by the order key, whose order is that of the
exact values. -/
theorem integerRoundingIsExact : Obligations.IntegerRoundingIsExact := by
  unfold Obligations.IntegerRoundingIsExact
  refine ⟨fun x _ => ⟨floorInt_eq_floor x, rha_of_nonneg, rha_of_neg⟩, fun a b h => comparisons_of_isNaN h,
    fun a b ha hb => ?_, fun a h => ?_, fun a => ⟨isNaN_iff_fields a, isFinite_iff_fields a⟩⟩
  · have ha' := isNaN_of_isFinite ha
    have hb' := isNaN_of_isFinite hb
    refine ⟨(flt_iff ha' hb').trans (valueOf_lt_iff a b).symm, ?_, (feq_iff ha' hb').trans (valueOf_eq_iff a b).symm⟩
    rw [fle_iff ha' hb', ← not_lt, ← valueOf_lt_iff, not_lt]
  · obtain ⟨p1, p2, p3, p4, p5, p6⟩ := comparisons_posInf h
    obtain ⟨n1, n2, n3, n4, n5, n6⟩ := comparisons_negInf h
    exact ⟨p1, p2, p3, p4, p5, p6, n1, n2, n6, n4, n5, n3⟩

end Sys2Proof.Machine
end

section
/-! Correct rounding of the arithmetic (00_scope.md R11): a magnitude encoding between the two midpoints beside it is
the rounding of a real value, `roundMagnitude` gives such an encoding, and each operation applies it to its exact result. -/

namespace Sys2Proof.Machine

/-! ### Rounding by midpoints -/

/-- `w` lies between the midpoints beside the magnitude encoding `m`, on one of them only where `m` is even. From the
largest finite magnitude up the next one is infinity, standing for 2^1024. -/
structure BetweenMidpoints (m : Nat) (w : ℝ) : Prop where
  le : m ≤ infMagnitude
  lower : ∀ c, m = c + 1 → magnitudeReal c + magnitudeReal m ≤ 2 * w ∧
    (magnitudeReal c + magnitudeReal m = 2 * w → m % 2 = 0)
  upper : m < infMagnitude → 2 * w ≤ magnitudeReal m + magnitudeReal (m + 1) ∧
    (2 * w = magnitudeReal m + magnitudeReal (m + 1) → m % 2 = 0)

/-- The largest finite magnitude and 2^1024 have the overflow bound as their midpoint. -/
theorem overflow_midpoint :
    magnitudeReal (infMagnitude - 1) + magnitudeReal infMagnitude = 2 * (2 ^ 1024 - 2 ^ 970) := by
  have h : infMagnitude - 1 = 2 ^ 52 * 2045 + (2 ^ 53 - 1) := by decide
  have hv : magnitudeReal (infMagnitude - 1) = (2 ^ 53 - 1) * 2 ^ 971 := by
    rw [magnitudeReal, h, magnitudeValue_binade (by omega) (.inr (by omega)), unitsPerOne_real,
      div_eq_iff (by positivity), mul_assoc, ← pow_add, Nat.cast_mul, Nat.cast_pow, Nat.cast_ofNat]
    norm_num only
  obtain ⟨t, _, e0, e1, e2⟩ := overflow_powers
  rw [hv, magnitudeReal_inf, e0, e1, e2]
  ring

/-- Below the midpoint of `a` and a larger `b`, `a` is nearer. -/
theorem abs_sub_le_of_le_midpoint {a b w : ℝ} (hab : a < b) (h : 2 * w ≤ a + b) :
    |a - w| ≤ |b - w| ∧ (|a - w| = |b - w| → 2 * w = a + b) := by
  rcases abs_cases (a - w) with h1 | h1 <;> rcases abs_cases (b - w) with h2 | h2 <;>
    refine ⟨by linarith [h1.1, h2.1, h1.2, h2.2], fun _ => by linarith [h1.1, h2.1, h1.2, h2.2]⟩

/-- Above the midpoint of `b` and a larger `a`, `a` is nearer. -/
theorem abs_sub_le_of_midpoint_le {a b w : ℝ} (hab : b < a) (h : b + a ≤ 2 * w) :
    |a - w| ≤ |b - w| ∧ (|a - w| = |b - w| → b + a = 2 * w) := by
  rcases abs_cases (a - w) with h1 | h1 <;> rcases abs_cases (b - w) with h2 | h2 <;>
    refine ⟨by linarith [h1.1, h2.1, h1.2, h2.2], fun _ => by linarith [h1.1, h2.1, h1.2, h2.2]⟩

/-- An encoding whose midpoints enclose a value is no farther from it than any other, and even at a tie. -/
theorem BetweenMidpoints.nearest {m : Nat} {w : ℝ} (h : BetweenMidpoints m w) (hm : m < infMagnitude) (c : Nat) :
    |magnitudeReal m - w| ≤ |magnitudeReal c - w| ∧
    (|magnitudeReal m - w| = |magnitudeReal c - w| → c ≠ m → m % 2 = 0) := by
  rcases Nat.lt_trichotomy c m with hc | rfl | hc
  · obtain ⟨h1, h2⟩ := h.lower (m - 1) (by omega)
    have hle : magnitudeReal c ≤ magnitudeReal (m - 1) := magnitudeReal_strictMono.monotone (by omega)
    obtain ⟨h3, h4⟩ := abs_sub_le_of_midpoint_le (magnitudeReal_strictMono hc) (by linarith : _ ≤ 2 * w)
    exact ⟨h3, fun he _ => h2 (by linarith [h4 he])⟩
  · exact ⟨le_rfl, fun _ hne => absurd rfl hne⟩
  · obtain ⟨h1, h2⟩ := h.upper hm
    have hle : magnitudeReal (m + 1) ≤ magnitudeReal c := magnitudeReal_strictMono.monotone hc
    obtain ⟨h3, h4⟩ := abs_sub_le_of_le_midpoint (magnitudeReal_strictMono hc) (by linarith : 2 * w ≤ _)
    exact ⟨h3, fun he _ => h2 (by linarith [h4 he])⟩

/-- The largest finite magnitude is odd, so a tie with 2^1024 overflows. -/
theorem BetweenMidpoints.lt_overflow {m : Nat} {w : ℝ} (h : BetweenMidpoints m w) (hm : m < infMagnitude) :
    w < 2 ^ 1024 - 2 ^ 970 := by
  obtain ⟨h1, h2⟩ := h.upper hm
  have hmid := overflow_midpoint
  generalize (2 : ℝ) ^ 1024 - 2 ^ 970 = bound at *
  rcases Nat.lt_or_ge m (infMagnitude - 1) with hlt | hge
  · have a1 := magnitudeReal_strictMono hlt
    have a2 : magnitudeReal (m + 1) ≤ magnitudeReal infMagnitude := magnitudeReal_strictMono.monotone hm
    linarith
  · obtain rfl : m = infMagnitude - 1 := by omega
    have hodd : ¬ (infMagnitude - 1) % 2 = 0 := by decide
    rw [show infMagnitude - 1 + 1 = infMagnitude from by decide, hmid] at h1 h2
    exact lt_of_le_of_ne (by linarith) (fun e => hodd (h2 (by rw [e])))

theorem BetweenMidpoints.magnitudeRounds {m : Nat} {w : ℝ} (h : BetweenMidpoints m w) : MagnitudeRounds m w where
  le := h.le
  nearest hm := ⟨h.lt_overflow hm, fun c _ => h.nearest hm c⟩
  overflow hm := by
    have h1 := (h.lower (infMagnitude - 1) (by rw [hm]; decide)).1
    rw [hm, overflow_midpoint] at h1
    exact le_of_mul_le_mul_left h1 two_pos

/-! ### The rounding function -/

/-- In units: n/d lies between the midpoints beside its rounded magnitude. -/
theorem roundMagnitude_midpoints (n : Nat) {d : Nat} (hd : 0 < d) :
    (∀ c, roundMagnitude n d = c + 1 →
      (magnitudeValue c + magnitudeValue (roundMagnitude n d)) * d ≤ 2 * n ∧
      ((magnitudeValue c + magnitudeValue (roundMagnitude n d)) * d = 2 * n → roundMagnitude n d % 2 = 0)) ∧
    (roundMagnitude n d < infMagnitude →
      2 * n ≤ (magnitudeValue (roundMagnitude n d) + magnitudeValue (roundMagnitude n d + 1)) * d ∧
      (2 * n = (magnitudeValue (roundMagnitude n d) + magnitudeValue (roundMagnitude n d + 1)) * d →
        roundMagnitude n d % 2 = 0)) := by
  obtain ⟨sh, m, k, hs, hm, hlo, hhi, hr, hk⟩ := roundMagnitude_grid n hd
  have v0 : magnitudeValue (2 ^ 52 * sh + m) = m * 2 ^ sh := magnitudeValue_binade (by omega) hs
  have v1 : magnitudeValue (2 ^ 52 * sh + m + 1) = (m + 1) * 2 ^ sh := by
    rw [Nat.add_assoc]
    exact magnitudeValue_binade (by omega) (by omega)
  have hpar : (2 ^ 52 * sh + m) % 2 = m % 2 := by omega
  have mono : ∀ {x y : Nat}, x ≤ y → magnitudeValue x * d ≤ magnitudeValue y * d := fun h =>
    Nat.mul_le_mul_right d (magnitudeValue_strictMono.monotone h)
  have smono : ∀ {x y : Nat}, x < y → magnitudeValue x * d < magnitudeValue y * d := fun h =>
    Nat.mul_lt_mul_of_pos_right (magnitudeValue_strictMono h) hd
  have heven_inf : infMagnitude % 2 = 0 := by decide
  rw [← v0] at hlo hk
  rw [← v1] at hhi hk
  clear hs hm v0 v1
  rw [hr]
  simp only [Nat.add_mul]
  generalize infMagnitude = top at *
  rcases hk with ⟨rfl, hle, heven⟩ | ⟨rfl, hle, hodd⟩
  · -- rounded down, to `e`: the midpoint below is strictly below
    generalize 2 ^ 52 * sh + k = e at *
    refine ⟨fun c hc => ?_, fun hf => ?_⟩
    · have h1 := smono (show c < e by omega)
      have h2 := mono (Nat.min_le_left e top)
      omega
    · rw [show min e top = e by omega]
      omega
  · -- rounded up, to `e + 1`: the midpoint above is strictly above
    rw [← Nat.add_assoc]
    generalize 2 ^ 52 * sh + m = e at *
    refine ⟨fun c hc => ?_, fun hf => ?_⟩
    · have h1 := mono (show c ≤ e by omega)
      have h2 := mono (Nat.min_le_left (e + 1) top)
      omega
    · rw [show min (e + 1) top = e + 1 by omega]
      have h1 := smono (Nat.lt_add_one (e + 1))
      omega

/-- The value of `n/d` units. -/
noncomputable def unitsReal (n d : Nat) : ℝ := (n : ℝ) / (d : ℝ) / (unitsPerOne : ℝ)

theorem magnitudeReal_eq_unitsReal (m : Nat) {d : Nat} (hd : 0 < d) :
    magnitudeReal m = unitsReal (magnitudeValue m * d) d := by
  rw [magnitudeReal, unitsReal, Nat.cast_mul, mul_div_cancel_right₀ _ (by positivity)]

theorem two_mul_unitsReal (n d : Nat) : 2 * unitsReal n d = unitsReal (2 * n) d := by
  unfold unitsReal
  push_cast
  ring

theorem unitsReal_add (m n d : Nat) : unitsReal m d + unitsReal n d = unitsReal (m + n) d := by
  unfold unitsReal
  push_cast
  ring

theorem unitsReal_lt_iff (m n : Nat) {d : Nat} (hd : 0 < d) : unitsReal m d < unitsReal n d ↔ m < n := by
  have hd' : (0 : ℝ) < d := by exact_mod_cast hd
  rw [unitsReal, unitsReal, div_lt_div_iff_of_pos_right unitsPerOne_pos, div_lt_div_iff_of_pos_right hd', Nat.cast_lt]

theorem unitsReal_le_iff (m n : Nat) {d : Nat} (hd : 0 < d) : unitsReal m d ≤ unitsReal n d ↔ m ≤ n := by
  rw [← not_lt, unitsReal_lt_iff n m hd, not_lt]

theorem unitsReal_inj (m n : Nat) {d : Nat} (hd : 0 < d) : unitsReal m d = unitsReal n d ↔ m = n := by
  rw [le_antisymm_iff, le_antisymm_iff, unitsReal_le_iff m n hd, unitsReal_le_iff n m hd]

@[simp] theorem unitsReal_zero (d : Nat) : unitsReal 0 d = 0 := by
  simp [unitsReal]

theorem unitsReal_pos {n d : Nat} (hn : 0 < n) (hd : 0 < d) : 0 < unitsReal n d := by
  rw [← unitsReal_zero d]
  exact (unitsReal_lt_iff 0 n hd).mpr hn

theorem roundMagnitude_betweenMidpoints (n : Nat) {d : Nat} (hd : 0 < d) :
    BetweenMidpoints (roundMagnitude n d) (unitsReal n d) := by
  obtain ⟨hlo, hhi⟩ := roundMagnitude_midpoints n hd
  refine ⟨roundMagnitude_le n d, ?_, ?_⟩ <;>
    simp only [magnitudeReal_eq_unitsReal _ hd, unitsReal_add, two_mul_unitsReal, ← Nat.add_mul,
      unitsReal_le_iff _ _ hd, unitsReal_inj _ _ hd]
  · exact hlo
  · exact hhi

/-- A magnitude with a sign. -/
noncomputable def signed (neg : Bool) (w : ℝ) : ℝ := if neg = true then -w else w

@[simp] theorem abs_signed (neg : Bool) (w : ℝ) : |signed neg w| = |w| := by
  cases neg <;> simp [signed]

@[simp] theorem signed_zero (neg : Bool) : signed neg 0 = 0 := by
  cases neg <;> simp [signed]

theorem signed_mul (s t : Bool) (x y : ℝ) : signed s x * signed t y = signed (s ^^ t) (x * y) := by
  cases s <;> cases t <;> simp [signed]

theorem signed_div (s t : Bool) (x y : ℝ) : signed s x / signed t y = signed (s ^^ t) (x / y) := by
  cases s <;> cases t <;> simp [signed, neg_div, div_neg]

theorem signed_lt_zero_iff (neg : Bool) {w : ℝ} (hw : 0 < w) : signed neg w < 0 ↔ neg = true := by
  cases neg <;> simp [signed, hw, hw.le]

theorem realOf_eq_signed (a : F64) : realOf a = signed (signOf a) (magnitudeReal (magnitudeBits a)) := realOf_eq a

theorem realOf_packSign_zero (neg : Bool) : realOf (packSign neg 0) = 0 := by
  rw [realOf_packSign neg (by decide), magnitudeReal_zero, neg_zero, ite_self]

/-- A zero of either sign is the rounding of zero. -/
theorem roundsTo_packSign_zero (neg : Bool) : RoundsTo (packSign neg 0) 0 := by
  have h := roundsTo_self (isFinite_packSign neg (m := 0) (by decide))
  rwa [realOf_packSign_zero] at h

/-- A magnitude between midpoints, with the sign of the value, is the rounding of the value. -/
theorem roundsTo_signed (neg : Bool) {m : Nat} {w : ℝ} (hw : 0 < w) (h : BetweenMidpoints m w) :
    RoundsTo (packSign neg m) (signed neg w) := by
  have hs : neg = decide (signed neg w < 0) := by
    simp [signed_lt_zero_iff neg hw]
  have hr := roundsTo_packSign (m := m) (v := signed neg w) (by
    rw [abs_signed, abs_of_pos hw]
    exact h.magnitudeRounds)
  rwa [← hs] at hr

/-- The rounding function, with either sign, rounds the value of `n/d` units. -/
theorem roundsTo_roundMagnitude (neg : Bool) (n : Nat) {d : Nat} (hd : 0 < d) :
    RoundsTo (packSign neg (roundMagnitude n d)) (signed neg (unitsReal n d)) := by
  rcases Nat.eq_zero_or_pos n with rfl | hn
  · rw [roundMagnitude_zero, unitsReal_zero, signed_zero]
    exact roundsTo_packSign_zero neg
  · exact roundsTo_signed neg (unitsReal_pos hn hd) (roundMagnitude_betweenMidpoints n hd)

/-! ### Sum, difference, product, quotient and conversion -/

theorem unitsPerOne_nat_pos : 0 < unitsPerOne := by exact_mod_cast unitsPerOne_pos

theorem realOf_eq_units (a : F64) : realOf a = (units a : ℝ) / unitsPerOne := by
  simp [realOf, valueOf]

theorem realOf_eq_unitsReal (a : F64) : realOf a = signed (signOf a) (unitsReal (magnitudeUnits a) 1) := by
  rw [realOf_eq_signed, magnitudeReal, ← magnitudeUnits_eq, unitsReal, Nat.cast_one, div_one]

theorem isZero_iff_magnitudeUnits (a : F64) : isZero a = true ↔ magnitudeUnits a = 0 := by
  rw [isZero, decide_eq_true_eq, magnitudeUnits_eq]
  exact (magnitudeValue_strictMono.injective.eq_iff (b := 0)).symm

theorem magnitudeUnits_pos {a : F64} (h : isZero a = false) : 0 < magnitudeUnits a :=
  Nat.pos_of_ne_zero (fun e => by simp [(isZero_iff_magnitudeUnits a).mpr e] at h)

/-- An integer number of units as a sign and a magnitude. -/
theorem int_units_eq_signed (k : Int) :
    (k : ℝ) / unitsPerOne = signed (decide (k < 0)) (unitsReal k.natAbs 1) := by
  have habs : ((k.natAbs : Nat) : ℝ) = |(k : ℝ)| := by rw [Nat.cast_natAbs, Int.cast_abs]
  rw [unitsReal, habs, Nat.cast_one, div_one]
  by_cases h : k < 0
  · rw [abs_of_neg (by exact_mod_cast h)]
    simp [signed, h, neg_div]
  · rw [abs_of_nonneg (by exact_mod_cast not_lt.mp h)]
    simp [signed, h]

theorem realOf_add_eq (a b : F64) : realOf a + realOf b = ((units a + units b : Int) : ℝ) / unitsPerOne := by
  rw [realOf_eq_units, realOf_eq_units, Int.cast_add, add_div]

theorem realOf_add_eq_zero_iff (a b : F64) : realOf a + realOf b = 0 ↔ units a + units b = 0 := by
  rw [realOf_add_eq, div_eq_zero_iff, or_iff_left unitsPerOne_pos.ne', Int.cast_eq_zero]

theorem fadd_of_sum_zero {a b : F64} (ha : isFinite a = true) (hb : isFinite b = true) (h : realOf a + realOf b = 0) :
    fadd a b = packSign (signOf a && signOf b) 0 := by
  rw [fadd_of_isFinite ha hb, if_pos ((realOf_add_eq_zero_iff a b).mp h)]

theorem fadd_roundsTo {a b : F64} (ha : isFinite a = true) (hb : isFinite b = true) :
    RoundsTo (fadd a b) (realOf a + realOf b) := by
  by_cases h : realOf a + realOf b = 0
  · rw [fadd_of_sum_zero ha hb h, h]
    exact roundsTo_packSign_zero _
  · rw [fadd_of_isFinite ha hb, if_neg (fun e => h ((realOf_add_eq_zero_iff a b).mpr e)), realOf_add_eq,
      int_units_eq_signed]
    exact roundsTo_roundMagnitude _ _ Nat.one_pos

theorem fsub_of_eq {a b : F64} (ha : isFinite a = true) (hb : isFinite b = true) (h : realOf a = realOf b) :
    fsub a b = packSign (signOf a && !signOf b) 0 := by
  rw [fsub, fadd_of_sum_zero ha (by rwa [isFinite_fneg]) (by rw [realOf_fneg, h, add_neg_cancel]), signOf_fneg]

theorem fsub_roundsTo {a b : F64} (ha : isFinite a = true) (hb : isFinite b = true) :
    RoundsTo (fsub a b) (realOf a - realOf b) := by
  have h := fadd_roundsTo ha (b := fneg b) (by rwa [isFinite_fneg])
  rwa [realOf_fneg, ← sub_eq_add_neg] at h

theorem fmul_of_isZero {a b : F64} (ha : isFinite a = true) (hb : isFinite b = true)
    (h : isZero a = true ∨ isZero b = true) : fmul a b = packSign (signOf a ^^ signOf b) 0 := by
  have h0 : magnitudeUnits a * magnitudeUnits b = 0 := by
    rwa [Nat.mul_eq_zero, ← isZero_iff_magnitudeUnits, ← isZero_iff_magnitudeUnits]
  rw [fmul_of_isFinite ha hb, h0, roundMagnitude_zero]

theorem fmul_roundsTo {a b : F64} (ha : isFinite a = true) (hb : isFinite b = true) :
    RoundsTo (fmul a b) (realOf a * realOf b) := by
  have hv : unitsReal (magnitudeUnits a) 1 * unitsReal (magnitudeUnits b) 1 =
      unitsReal (magnitudeUnits a * magnitudeUnits b) unitsPerOne := by
    unfold unitsReal
    push_cast
    ring
  rw [fmul_of_isFinite ha hb, realOf_eq_unitsReal, realOf_eq_unitsReal, signed_mul, hv]
  exact roundsTo_roundMagnitude _ _ unitsPerOne_nat_pos

theorem fdiv_of_isZero {a b : F64} (hz : isZero a = true) (hb : isFinite b = true) (hb0 : isZero b = false) :
    fdiv a b = packSign (signOf a ^^ signOf b) 0 := by
  rw [fdiv_of_isFinite (isFinite_of_isZero hz) hb hb0, (isZero_iff_magnitudeUnits a).mp hz, Nat.mul_zero,
    roundMagnitude_zero]

theorem fdiv_roundsTo {a b : F64} (ha : isFinite a = true) (hb : isFinite b = true) (hz : isZero b = false) :
    RoundsTo (fdiv a b) (realOf a / realOf b) := by
  have hv : unitsReal (magnitudeUnits a) 1 / unitsReal (magnitudeUnits b) 1 =
      unitsReal (unitsPerOne * magnitudeUnits a) (magnitudeUnits b) := by
    have hU := unitsPerOne_pos.ne'
    unfold unitsReal
    push_cast
    field_simp
  rw [fdiv_of_isFinite ha hb hz, realOf_eq_unitsReal, realOf_eq_unitsReal, signed_div, hv]
  exact roundsTo_roundMagnitude _ _ (magnitudeUnits_pos hz)

theorem ofInt_roundsTo (n : Int) : RoundsTo (ofInt n) n := by
  have hU := unitsPerOne_pos.ne'
  have hv : (n : ℝ) = signed (decide (n < 0)) (unitsReal (unitsPerOne * n.natAbs) 1) := by
    have h := int_units_eq_signed n
    have hs : ∀ neg, unitsPerOne * signed neg (unitsReal n.natAbs 1) =
        signed neg (unitsReal (unitsPerOne * n.natAbs) 1) := fun neg => by
      cases neg <;> simp [signed, unitsReal, mul_div_assoc]
    rw [← hs, ← h, mul_div_cancel₀ _ hU]
  rw [hv]
  exact roundsTo_roundMagnitude _ _ Nat.one_pos

/-! ### Square root -/

theorem isqrtBits_spec (x : Nat) : ∀ k r, r * r ≤ x → x < (r + 2 ^ k) * (r + 2 ^ k) →
    isqrtBits k x r * isqrtBits k x r ≤ x ∧ x < (isqrtBits k x r + 1) * (isqrtBits k x r + 1)
  | 0, r, hlo, hhi => ⟨hlo, hhi⟩
  | k + 1, r, hlo, hhi => by
    unfold isqrtBits
    split
    case isTrue h => exact isqrtBits_spec x k _ h (by rwa [Nat.add_assoc, ← Nat.two_mul, ← Nat.pow_succ'])
    case isFalse h => exact isqrtBits_spec x k r hlo (Nat.lt_of_not_le h)

theorem isqrt_eq_sqrt (x : Nat) : isqrt x = Nat.sqrt x := by
  have hx : x < 2 ^ (x.log2 / 2 + 1) * 2 ^ (x.log2 / 2 + 1) := by
    rw [← pow_add]
    exact lt_of_lt_of_le Nat.lt_log2_self (Nat.pow_le_pow_right (by omega) (by omega))
  obtain ⟨h1, h2⟩ := isqrtBits_spec x (x.log2 / 2 + 1) 0 (Nat.zero_le _) (by rwa [Nat.zero_add])
  exact (Nat.eq_sqrt.mpr ⟨h1, h2⟩)

/-- From 2^53 units on neighbouring magnitudes have an even sum: no midpoint lies inside a unit. -/
theorem magnitudeValue_add_succ_even {m : Nat} (h : 2 ^ 53 ≤ m) :
    (magnitudeValue m + magnitudeValue (m + 1)) % 2 = 0 := by
  obtain ⟨e, he⟩ : ∃ e, m / 2 ^ 52 - 1 = e + 1 := ⟨m / 2 ^ 52 - 2, by omega⟩
  rw [magnitudeValue_succ, he, Nat.pow_succ]
  omega

/-- A value strictly inside a unit far above the subnormals rounds as the half in the unit does. -/
theorem betweenMidpoints_inside_unit {r : Nat} {w : ℝ} (hr : 2 ^ 54 ≤ r) (hlo : unitsReal r 1 < w)
    (hhi : w < unitsReal (r + 1) 1) : BetweenMidpoints (roundMagnitude (2 * r + 1) 2) w := by
  obtain ⟨h1, h2⟩ := roundMagnitude_midpoints (2 * r + 1) (d := 2) (by omega)
  have hbig : 2 ^ 53 + 1 ≤ roundMagnitude (2 * r + 1) 2 := by
    refine le_roundMagnitude (by omega) (by decide) ?_
    have : magnitudeValue (2 ^ 53 + 1) = 2 ^ 53 + 2 := by decide
    omega
  have hmid : ∀ c, magnitudeReal c + magnitudeReal (c + 1) =
      unitsReal (magnitudeValue c + magnitudeValue (c + 1)) 1 := fun c => by
    rw [magnitudeReal_eq_unitsReal _ Nat.one_pos, magnitudeReal_eq_unitsReal _ Nat.one_pos, unitsReal_add,
      Nat.mul_one, Nat.mul_one]
  have hle := roundMagnitude_le (2 * r + 1) 2
  generalize roundMagnitude (2 * r + 1) 2 = m at *
  refine ⟨hle, ?_, fun hm => ?_⟩
  · rintro c rfl
    have heven := magnitudeValue_add_succ_even (m := c) (by omega)
    have hc : magnitudeValue c + magnitudeValue (c + 1) ≤ 2 * r := by have := (h1 c rfl).1; omega
    have hlt : magnitudeReal c + magnitudeReal (c + 1) < 2 * w := by
      have := (unitsReal_le_iff _ _ Nat.one_pos).mpr hc
      rw [← two_mul_unitsReal] at this
      rw [hmid]
      linarith
    exact ⟨hlt.le, fun e => absurd e hlt.ne⟩
  · have heven := magnitudeValue_add_succ_even (m := m) (by omega)
    have hc : 2 * (r + 1) ≤ magnitudeValue m + magnitudeValue (m + 1) := by have := (h2 hm).1; omega
    have hlt : 2 * w < magnitudeReal m + magnitudeReal (m + 1) := by
      have := (unitsReal_le_iff _ _ Nat.one_pos).mpr hc
      rw [← two_mul_unitsReal] at this
      rw [hmid]
      linarith
    exact ⟨hlt.le, fun e => absurd e hlt.ne⟩

/-- The root of a magnitude, in units: the exact root of the number of units over `unitsPerOne`. -/
theorem sqrt_unitsReal (k : Nat) :
    Real.sqrt (unitsReal k 1) = Real.sqrt ((unitsPerOne * k : Nat) : ℝ) / unitsPerOne := by
  have hU := unitsPerOne_pos
  have h : unitsReal k 1 = ((unitsPerOne * k : Nat) : ℝ) / (unitsPerOne : ℝ) ^ 2 := by
    unfold unitsReal
    push_cast
    field_simp
  rw [h, Real.sqrt_div (Nat.cast_nonneg _), Real.sqrt_sq hU.le]

/-- The number whose `roundMagnitude` is the root: the exact root in half units, or the half inside its unit. -/
theorem sqrt_betweenMidpoints {k : Nat} (hk : 0 < k) :
    BetweenMidpoints (roundMagnitude
      (2 * Nat.sqrt (unitsPerOne * k) +
        if Nat.sqrt (unitsPerOne * k) * Nat.sqrt (unitsPerOne * k) = unitsPerOne * k then 0 else 1) 2)
      (Real.sqrt (unitsReal k 1)) := by
  have hx : 2 ^ 108 ≤ unitsPerOne * k := by
    have : 2 ^ 108 ≤ unitsPerOne := by decide
    exact le_trans this (Nat.le_mul_of_pos_right _ hk)
  have hU := unitsPerOne_pos
  rw [sqrt_unitsReal]
  generalize unitsPerOne * k = x at *
  have hval : ∀ n : Nat, unitsReal n 1 = n / unitsPerOne := fun n => by rw [unitsReal, Nat.cast_one, div_one]
  split
  case isTrue h =>
    have hs : Real.sqrt (x : ℝ) = (Nat.sqrt x : ℝ) := by
      rw [← h, Nat.cast_mul, Real.sqrt_mul_self (Nat.cast_nonneg _), h]
    have he : Real.sqrt (x : ℝ) / unitsPerOne = unitsReal (2 * Nat.sqrt x + 0) 2 := by
      rw [hs, unitsReal]
      push_cast
      ring
    rw [he]
    exact roundMagnitude_betweenMidpoints _ (by omega)
  case isFalse h =>
    have hr : 2 ^ 54 ≤ Nat.sqrt x := Nat.le_sqrt.mpr (by omega)
    have hlo := Nat.sqrt_le x
    have hhi := Nat.lt_succ_sqrt x
    refine betweenMidpoints_inside_unit hr ?_ ?_ <;> rw [hval, div_lt_div_iff_of_pos_right hU]
    · exact Real.lt_sqrt_of_sq_lt (by rw [pow_two]; exact_mod_cast lt_of_le_of_ne hlo h)
    · refine (Real.sqrt_lt' (by positivity)).mpr ?_
      rw [pow_two]
      exact_mod_cast hhi

theorem signOf_of_realOf_nonneg {a : F64} (h : 0 ≤ realOf a) (hz : isZero a = false) : signOf a = false := by
  have hp := unitsReal_pos (magnitudeUnits_pos hz) Nat.one_pos
  rw [realOf_eq_unitsReal, ← not_lt, signed_lt_zero_iff _ hp] at h
  simpa using h

theorem fsqrt_roundsTo {a : F64} (ha : isFinite a = true) (h : 0 ≤ realOf a) :
    RoundsTo (fsqrt a) (Real.sqrt (realOf a)) := by
  cases hz : isZero a with
  | true =>
    rw [fsqrt_of_isZero hz, realOf_of_isZero hz, Real.sqrt_zero, ← realOf_of_isZero hz]
    exact roundsTo_self ha
  | false =>
    have hs := signOf_of_realOf_nonneg h hz
    have hk := magnitudeUnits_pos hz
    have hr : realOf a = unitsReal (magnitudeUnits a) 1 := by rw [realOf_eq_unitsReal, hs]; rfl
    rw [fsqrt_of_positive ha hz hs, isqrt_eq_sqrt, hr]
    exact roundsTo_signed false (Real.sqrt_pos.mpr (unitsReal_pos hk Nat.one_pos)) (sqrt_betweenMidpoints hk)

/-! ### The statement -/

theorem infinity_eq (neg : Bool) :
    infinity neg = if neg = true then 0xFFF0000000000000#64 else 0x7FF0000000000000#64 := by
  cases neg <;> rfl

theorem packSign_zero_eq (neg : Bool) :
    packSign neg 0 = if neg = true then 0x8000000000000000#64 else 0x0000000000000000#64 := by
  cases neg <;> rfl

/-- Settles O60: every operation on finite numbers applies `roundMagnitude` to its exact result, and has a branch of its
own for each operand without one. -/
theorem arithmeticRoundsToNearest : Obligations.ArithmeticRoundsToNearest := by
  unfold Obligations.ArithmeticRoundsToNearest
  simp only [← infinity_eq, ← packSign_zero_eq]
  refine ⟨fun a b ha hb => ⟨fadd_roundsTo ha hb, fsub_roundsTo ha hb, fmul_roundsTo ha hb, fdiv_roundsTo ha hb,
      fadd_of_sum_zero ha hb, fsub_of_eq ha hb, fmul_of_isZero ha hb, fdiv_by_zero ha,
      fun hz hb0 => fdiv_of_isZero hz hb hb0⟩,
    ofInt_roundsTo, fun a ha h => fsqrt_roundsTo ha h, fun a b ha hb => ?_,
    fun a h => fsqrt_of_isZero h, fsqrt_infinity, fun a _ hz hs => fsqrt_of_negative hz hs⟩
  have hmul := fmul_of_isInf ha hb
  exact ⟨fadd_of_isInf_left ha hb, fadd_of_isInf_right ha hb, fsub_of_isInf_left ha hb, fsub_of_isInf_right ha hb,
    hmul, (fmul_comm b a).trans hmul, fdiv_of_isInf_left ha hb, fdiv_of_isInf_right ha⟩

end Sys2Proof.Machine
end

section
/-! What the effects of a command may change, said once for all commands: the result registers, PRIOR, the basis
registers, each buffer, DMEM and the flags (10_state.md R53, R57 to R72; 20_memory.md R81). -/

namespace Sys2Proof.Machine

/-- What the effects of command `i` from `s` to `t` leave alone, and how they move the flags. -/
structure EffectFrame (i : Instr) (s t : State) : Prop where
  /-- RES0 and RES1 (10_state.md R53). -/
  results : writesResults i = false → t.res0 = s.res0 ∧ t.res1 = s.res1
  /-- PRIOR (10_state.md R57). -/
  prior : ∀ c, i.ctx? ≠ some c → t.priorOf c = s.priorOf c
  /-- BASIS_TAG and BASIS_STEP (44_dct.md R280). -/
  basis : writesBasis i = false → t.basisTag = s.basisTag ∧ t.basisStep = s.basisStep
  /-- The internal buffers (10_state.md R58 to R67). -/
  buffers : ∀ sp, sp ≠ .dmem → sp ∉ bufferTargets i → t.space sp = s.space sp
  /-- DMEM (20_memory.md R81). -/
  dmem : ∀ a, (a < (dmemTarget i s).1 ∨ (dmemTarget i s).1 + (dmemTarget i s).2 ≤ a) →
    t.peek .dmem a = s.peek .dmem a
  /-- FB_VALID (10_state.md R70). -/
  fbValid : t.status.fbValid = (s.status.fbValid || decide (i = .fbBuild))
  /-- WIN_VALID (10_state.md R71). -/
  winValid : t.status.winValid = (s.status.winValid || decide (i = .winBuild))
  /-- FRAME_STAGE (10_state.md R72). -/
  stage : t.status.frameStage = (stageAfter i).getD s.status.frameStage

/-- The spaces of a state are its buffers and DMEM. -/
theorem State.space_congr {s t : State} (hbufs : t.bufs = s.bufs) (hdmem : t.dmem = s.dmem) (sp : Space) :
    t.space sp = s.space sp := by
  cases sp <;> simp only [State.space, hbufs, hdmem]

/-- A property of every internal buffer, buffer by buffer. -/
theorem forall_buffer_iff (P : Space → Prop) :
    (∀ sp, sp ≠ .dmem → P sp) ↔ P .edgeHz ∧ P .edgeBin ∧ P .fbHeight ∧ P .win ∧ P .raw ∧ P .cond ∧ P .wnd ∧
      P .pwr ∧ P .dctm ∧ P .fb := by
  constructor
  · intro h
    exact ⟨h _ nofun, h _ nofun, h _ nofun, h _ nofun, h _ nofun, h _ nofun, h _ nofun, h _ nofun, h _ nofun,
      h _ nofun⟩
  · rintro ⟨_, _, _, _, _, _, _, _, _, _⟩ sp hsp
    cases sp
    case dmem => exact absurd rfl hsp
    all_goals assumption

/-- The frame with the buffers and the DMEM words written out as fields of the state. -/
theorem effectFrame_iff (i : Instr) (s t : State) :
    EffectFrame i s t ↔
      (writesResults i = false → t.res0 = s.res0 ∧ t.res1 = s.res1) ∧
      (∀ c, i.ctx? ≠ some c → t.priorOf c = s.priorOf c) ∧
      (writesBasis i = false → t.basisTag = s.basisTag ∧ t.basisStep = s.basisStep) ∧
      ((.edgeHz ∉ bufferTargets i → t.bufs.edgeHz = s.bufs.edgeHz) ∧
        (.edgeBin ∉ bufferTargets i → t.bufs.edgeBin = s.bufs.edgeBin) ∧
        (.fbHeight ∉ bufferTargets i → t.bufs.fbHeight = s.bufs.fbHeight) ∧
        (.win ∉ bufferTargets i → t.bufs.win = s.bufs.win) ∧
        (.raw ∉ bufferTargets i → t.bufs.raw = s.bufs.raw) ∧
        (.cond ∉ bufferTargets i → t.bufs.cond = s.bufs.cond) ∧
        (.wnd ∉ bufferTargets i → t.bufs.wnd = s.bufs.wnd) ∧
        (.pwr ∉ bufferTargets i → t.bufs.pwr = s.bufs.pwr) ∧
        (.dctm ∉ bufferTargets i → t.bufs.dctm = s.bufs.dctm) ∧
        (.fb ∉ bufferTargets i → t.bufs.fb = s.bufs.fb)) ∧
      (∀ a, (a < (dmemTarget i s).1 ∨ (dmemTarget i s).1 + (dmemTarget i s).2 ≤ a) →
        t.dmem.read a = s.dmem.read a) ∧
      t.status.fbValid = (s.status.fbValid || decide (i = .fbBuild)) ∧
      t.status.winValid = (s.status.winValid || decide (i = .winBuild)) ∧
      t.status.frameStage = (stageAfter i).getD s.status.frameStage := by
  have buffers := forall_buffer_iff (fun sp => sp ∉ bufferTargets i → t.space sp = s.space sp)
  constructor
  · rintro ⟨hres, hprior, hbasis, hbufs, hdmem, hfb, hwin, hstage⟩
    exact ⟨hres, hprior, hbasis, buffers.mp hbufs, hdmem, hfb, hwin, hstage⟩
  · rintro ⟨hres, hprior, hbasis, hbufs, hdmem, hfb, hwin, hstage⟩
    exact ⟨hres, hprior, hbasis, buffers.mpr hbufs, hdmem, hfb, hwin, hstage⟩

/-- Writing one PRIOR leaves the others (10_state.md R57). -/
theorem prior_set_getElem_of_ne (p : Vector F64 4) (v : F64) {c c' : Ctx} (h : c ≠ c') :
    (p.set c.toNat v c.isLt)[c'.toNat]'c'.isLt = p[c'.toNat]'c'.isLt :=
  Vector.getElem_set_ne _ _ fun hn => h (BitVec.eq_of_toNat_eq hn)

/-- The effects of every command stay within its frame: each command's state after its effects, then field by field. -/
theorem effectsOf_effectFrame {i : Instr} {s t : State} (h : effectsOf i s = .ok t) : EffectFrame i s t := by
  rw [effectFrame_iff]
  cases i <;> simp only [writesResults, writesBasis, bufferTargets, dmemTarget, stageAfter, Instr.ctx?]
  case' nop => cases h
  case' fbBuild => cases h
  case' mel => cases h
  case' melInv => cases h
  case' winBuild => cases h
  case' ctxReset => cases h
  case' dctBasis => cases h
  case' frameCount => obtain ⟨_, _, rfl⟩ := frameCountEffects_ok h
  case' frameFetch => obtain ⟨_, _, _, _, rfl⟩ := fetchEffects_ok h
  case' preemph => obtain ⟨_, _, _, _, rfl⟩ := preemphEffects_ok h
  case' window => obtain ⟨_, _, _, _, rfl⟩ := windowEffects_ok h
  case' framePrep =>
    obtain ⟨u, v, hu, hv, ht⟩ := framePrepEffects_ok h
    obtain ⟨_, _, _, _, rfl⟩ := fetchEffects_ok hu
    obtain ⟨_, _, _, _, rfl⟩ := preemphEffects_ok hv
    obtain ⟨_, _, _, _, rfl⟩ := windowEffects_ok ht
  case' specPower => obtain ⟨_, _, rfl⟩ := powerEffects_ok h
  case' specProject => obtain ⟨_, _, _, _, rfl⟩ := projectEffects_ok h
  case' specLogMel =>
    obtain ⟨u, hu, ht⟩ := logMelEffects_ok h
    obtain ⟨_, _, rfl⟩ := powerEffects_ok hu
    obtain ⟨_, _, _, _, rfl⟩ := projectEffects_ok ht
  case' dctOrth => obtain ⟨_, _, rfl⟩ := dctOrthEffects_ok h
  case' dct2 => obtain ⟨_, _, rfl⟩ := dct2Effects_ok h
  case' idctOrth => obtain ⟨_, _, rfl⟩ := idctOrthEffects_ok h
  case' dct3 => obtain ⟨_, _, rfl⟩ := dct3Effects_ok h
  case' dctLegacy => obtain ⟨_, _, rfl⟩ := dctLegacyEffects_ok h
  all_goals simp +contextual [State.priorOf, prior_set_getElem_of_ne, Memory.read_write_outside, fbBuildEffects,
    melEffects, melInvEffects, winBuildEffects, dctBasisEffects, State.dst, State.nfilt]

/-- What a command that answers leaves alone: with an error everything of the frame, else what its effects leave. -/
theorem exec_effectFrame {i : Instr} {s t : State} (h : exec i s = .next t) :
    (∃ e, t = s.errorComplete e) ∨ ∃ u, t = u.complete ∧ effectsOf i s = .ok u ∧ EffectFrame i s u := by
  rcases exec_cases h with ⟨e, -, ht⟩ | ⟨-, u, hu, ht⟩
  · exact .inl ⟨e, ht⟩
  · exact .inr ⟨u, ht, hu, effectsOf_effectFrame hu⟩

/-- Settles O11: an error completion writes STATUS and ERR_INFO alone, and `effectsOf_frame` covers the effects. -/
theorem commandLeavesOperands : Obligations.CommandLeavesOperands := by
  intro i s t h
  rcases exec_effectFrame h with ⟨e, rfl⟩ | ⟨u, rfl, hu, -⟩
  · simp
  · simp [effectsOf_frame hu]

/-- Settles O12, by the frame of the effects. -/
theorem specialRegisterWriters : Obligations.SpecialRegisterWriters := by
  intro i s t h
  rcases exec_effectFrame h with ⟨e, rfl⟩ | ⟨u, rfl, -, hu⟩
  · exact ⟨fun _ => ⟨rfl, rfl⟩, fun _ _ => rfl, fun _ => ⟨rfl, rfl⟩⟩
  · exact ⟨hu.results, hu.prior, hu.basis⟩

/-- Settles O13, by the frame of the effects: completion writes no memory. -/
theorem memoryFrame : Obligations.MemoryFrame := by
  intro i s t h
  rcases exec_effectFrame h with ⟨e, rfl⟩ | ⟨u, rfl, -, hu⟩
  · exact ⟨fun sp _ _ => State.space_congr rfl rfl sp, fun _ _ => rfl⟩
  · exact ⟨fun sp hsp hi => (State.space_congr rfl rfl sp).trans (hu.buffers sp hsp hi), hu.dmem⟩

/-- Settles O14: an error completion sets ERR and keeps the flags; without one the effects move them. -/
theorem validFlagsAndStageMoves : Obligations.ValidFlagsAndStageMoves := by
  intro i s t herr h
  rcases exec_effectFrame h with ⟨e, rfl⟩ | ⟨u, rfl, hframe, hu⟩
  · exact ⟨fun _ => ⟨rfl, rfl, rfl⟩, nofun⟩
  · have hkeep : u.complete.status.err = false := by simp [effectsOf_frame hframe, herr]
    exact ⟨fun ht => (nomatch hkeep.symm.trans ht), fun _ => ⟨hu.fbValid, hu.winValid, hu.stage⟩⟩

end Sys2Proof.Machine
end

section
/-! What a host write to a register leaves (20_memory.md R86, R92; 10_state.md R35, R36, R40 to R48, R74). -/

namespace Sys2Proof.Machine

/-! ### The parameters -/

/-- A completed input changes no implementation parameter. -/
theorem completeInput_caps {i : HostInput} {s t : State} (h : completeInput i s = .next t) : t.caps = s.caps := by
  rcases completeInput_cases h with ⟨-, rfl⟩ | ⟨r, rfl, -⟩ | ⟨a, size, d, loc, -, -, rfl⟩
  · rfl
  · rfl
  · exact s.writeLocation_caps d loc

/-- No command changes a implementation parameter. -/
theorem exec_caps {i : Instr} {s t : State} (h : exec i s = .next t) : t.caps = s.caps := by
  rcases exec_cases h with ⟨e, -, rfl⟩ | ⟨-, u, hu, rfl⟩
  · rfl
  · simp [effectsOf_frame hu]

theorem step_caps {s t : State} (h : step s = .next t) : t.caps = s.caps := by
  rcases step_cases h with ⟨-, rfl⟩ | ⟨-, he⟩ | ⟨i, rest, -, hi⟩ | ⟨i, rest, -, hi⟩
  · rfl
  · rcases engineStep_cases he with ⟨e, -, rfl⟩ | ⟨i, -, hx⟩
    · rfl
    · exact exec_caps hx
  · exact (completeInput_caps hi :)
  · exact (completeInput_caps hi :)

/-- Where the parameters are legal each CAP register holds its parameter exactly (10_state.md R34). -/
theorem Caps.read_toNat {c : Caps} (h : c.Legal) :
    (Caps.read c .dmemWords).toNat = c.dmemWords ∧ (Caps.read c .maxNfft).toNat = c.maxNfft ∧
    (Caps.read c .maxFilt).toNat = c.maxFilt ∧ (Caps.read c .maxFrame).toNat = c.maxFrame ∧
    (Caps.read c .maxDct).toNat = c.maxDct ∧ (Caps.read c .numCtx).toNat = c.numCtx := by
  obtain ⟨⟨_, hdmem⟩, ⟨_, hnfft, _⟩, ⟨_, hfilt⟩, ⟨_, hframe⟩, ⟨_, hdct⟩, ⟨_, hctx⟩, _⟩ := h
  have fits (n : Nat) (hn : n ≤ 2 ^ 20) : (BitVec.ofNat 64 n).toNat = n := by
    rw [BitVec.toNat_ofNat, Nat.mod_eq_of_lt (by omega)]
  exact ⟨fits _ hdmem, fits _ (by omega), fits _ (by omega), fits _ (by omega), fits _ (by omega), fits _ (by omega)⟩

/-- Settles O8: every kind of step keeps the parameters, and each fits its CAP register. -/
theorem instanceNeverChanges : Obligations.InstanceNeverChanges :=
  ⟨fun _ _ h => step_caps h, fun _ hlegal => ⟨rfl, Caps.read_toNat hlegal⟩⟩

/-! ### A write to a register -/

/-- With the engine idle, a write to a register that exists completes with OKAY. -/
theorem step_register_write {s : State} {r : Reg} {d : Word} {rest : List HostInput} (hb : s.status.busy = false)
    (hr : r.mapped s.caps = true) (hi : s.inputs = hostWr (.reg r) d :: rest) :
    step s = .next { ({ s with inputs := rest } : State).writeReg d r with response := some .okayWrite } := by
  rw [step_of_idle_engine hb hi]
  exact completeInput_write (s := { s with inputs := rest }) (locate_register _ r hr)

/-- The registers a write leaves as they are (20_memory.md R92). -/
def Reg.readOnly : Reg → Bool
  | .id | .cap _ | .errInfo | .res0 | .res1 | .frameLen | .fshift | .dfreq | .basisTag | .basisStep | .prior _ => true
  | .ctrl | .status | .cmd | .arg _ | .cfg _ | .sigBase | .sigLen => false

theorem State.writeReg_of_readOnly (s : State) (d : Word) {r : Reg} (h : r.readOnly = true) : s.writeReg d r = s := by
  cases r
  case ctrl | status | cmd | arg | cfg | sigBase | sigLen => cases h
  all_goals rfl

theorem step_readOnly_write {s : State} {r : Reg} {d : Word} {rest : List HostInput} (hb : s.status.busy = false)
    (hr : r.mapped s.caps = true) (hro : r.readOnly = true) (hi : s.inputs = hostWr (.reg r) d :: rest) :
    step s = .next { s with inputs := rest, response := some .okayWrite } := by
  rw [step_register_write hb hr hi, State.writeReg_of_readOnly _ _ hro]

/-! ### STATUS -/

/-- The two clearing bits of a write to STATUS, field by field (10_state.md R36). -/
theorem State.writeStatus_eq (s : State) (d : Word) :
    s.writeStatus d = { s with
      status := { s.status with
        done := s.status.done && !d.getLsbD 1
        err := s.status.err && !d.getLsbD 2
        errCode := if d.getLsbD 2 then .none else s.status.errCode }
      errInfo := if d.getLsbD 2 then ⟨0#16, 0#32⟩ else s.errInfo } := by
  unfold State.writeStatus
  cases d.getLsbD 1 <;> cases d.getLsbD 2 <;> simp [State.clearDone, State.clearErr]

/-- Settles O27, by the fields of a write to STATUS. -/
theorem statusWriteOneClears : Obligations.StatusWriteOneClears := by
  intro s d rest hb hi
  refine ⟨_, step_register_write (r := .status) hb rfl hi, ?_⟩
  simp only [State.writeReg, State.writeStatus_eq]

/-! ### Configuration registers -/

/-- The flags a configuration write leaves, as R74 tabulates them: cleared or as before. -/
theorem Status.afterCfgWrite_eq (r : CfgReg) (t : Status) :
    t.afterCfgWrite r = { t with
      fbValid := if r.clearsFb then false else t.fbValid
      winValid := if r.clearsWin then false else t.winValid
      frameStage := if r.emptiesStage then .empty else t.frameStage } := by
  unfold Status.afterCfgWrite
  cases r.clearsFb <;> cases r.clearsWin <;> simp

/-- What a configuration register reads as after a write of `d` to it: a u32 register its low half
(10_state.md section 4). -/
theorem Cfg.read_store_self (c : Cfg) (d : Word) (r : CfgReg) :
    (c.store d r).read r =
      if r ∈ [CfgReg.sampleRate, .frameRate, .nfft, .nfilt, .ncep] then BitVec.ofNat 64 (d.toNat % 2 ^ 32) else d := by
  have low : (d.setWidth 32).setWidth 64 = BitVec.ofNat 64 (d.toNat % 2 ^ 32) := by
    apply BitVec.eq_of_toNat_eq
    simp
  cases r
  case sampleRate | frameRate | nfft | nfilt | ncep => exact low
  all_goals rfl

/-- A configuration write leaves every other configuration register. -/
theorem Cfg.read_store_of_ne (c : Cfg) (d : Word) {r r' : CfgReg} (h : r' ≠ r) : (c.store d r).read r' = c.read r' := by
  have cases_eq : (c.store d r).read r' = if r' = r then (c.store d r).read r else c.read r' := by
    cases r <;> cases r' <;> rfl
  rw [cases_eq, if_neg h]

/-- The configuration registers in the order of their addresses (20_memory.md R86). -/
def cfgRegs : List CfgReg :=
  [.sampleRate, .frameRate, .frameDur, .nfft, .nfilt, .ncep, .lowerFreq, .upperFreq, .alpha]

/-- Registers beside the configuration whose writes move no flag (10_state.md R74). -/
def flagNeutralRegs : List Reg :=
  [.frameLen, .fshift, .dfreq, .sigBase, .sigLen, .arg 0, .arg 1, .arg 2, .arg 3, .arg 4, .arg 5]

theorem writeReg_status_of_flagNeutral {r : Reg} (h : r ∈ flagNeutralRegs) (s : State) (d : Word) :
    (s.writeReg d r).status = s.status ∧ r.mapped s.caps = true := by
  revert r
  simp [flagNeutralRegs, State.writeReg, Reg.mapped]

/-- Settles O28: the rows of R74 are those of `CfgReg.clearsFb`, `clearsWin` and `emptiesStage`. -/
theorem cfgWriteClearsFlags : Obligations.CfgWriteClearsFlags := by
  constructor
  · change ∀ row ∈ cfgRegs.map (fun r => ((Reg.cfg r).address, r.clearsFb, r.clearsWin, r.emptiesStage)), _
    rw [List.forall_mem_map]
    intro r _ s d rest hb hi
    refine ⟨_, step_register_write (r := .cfg r) hb rfl hi, ?_⟩
    simp only [State.writeReg, State.writeCfg, Status.afterCfgWrite_eq]
  · change ∀ a ∈ flagNeutralRegs.map Reg.address, _
    rw [List.forall_mem_map]
    intro r hr s d rest hb hi
    obtain ⟨hstatus, hmapped⟩ := writeReg_status_of_flagNeutral hr { s with inputs := rest } d
    exact ⟨_, step_register_write hb hmapped hi, hstatus⟩

/-! ### What each register stores -/

/-- The read-only registers that exist for all parameters, in the order of their addresses (20_memory.md R86). -/
def readOnlyRegs : List Reg :=
  [.id, .cap .dmemWords, .cap .maxNfft, .cap .maxFilt, .cap .maxFrame, .cap .maxDct, .cap .numCtx, .errInfo, .res0,
   .res1, .frameLen, .fshift, .dfreq, .basisTag, .basisStep]

theorem readOnly_of_mem {r : Reg} (h : r ∈ readOnlyRegs) (caps : Caps) : r.readOnly = true ∧ r.mapped caps = true := by
  revert r
  simp [readOnlyRegs, Reg.readOnly, Reg.mapped]

theorem step_cfg_write {s : State} {r : CfgReg} {d : Word} {rest : List HostInput} (hb : s.status.busy = false)
    (hi : s.inputs = hostWr (.reg (.cfg r)) d :: rest) :
    ∃ t, step s = .next t ∧
      t.readReg (.cfg r) = (if r ∈ [CfgReg.sampleRate, .frameRate, .nfft, .nfilt, .ncep] then
        BitVec.ofNat 64 (d.toNat % 2 ^ 32) else d) ∧
      ∀ r', r' ≠ r → t.readReg (.cfg r') = s.readReg (.cfg r') :=
  ⟨_, step_register_write hb rfl hi, s.cfg.read_store_self d r, fun _ hr => s.cfg.read_store_of_ne d hr⟩

theorem step_arg_write {s : State} {k : Fin 6} {d : Word} {rest : List HostInput} (hb : s.status.busy = false)
    (hi : s.inputs = hostWr (.reg (.arg k)) d :: rest) :
    ∃ t, step s = .next t ∧ t = { s with args := t.args, inputs := rest, response := some .okayWrite } ∧
      ∀ j : Fin 6, t.args[j] = if j = k then d else s.args[j] := by
  refine ⟨_, step_register_write hb rfl hi, rfl, fun j => ?_⟩
  simp [State.writeReg, Vector.getElem_set, Fin.ext_iff, eq_comm]

theorem step_ctrl_write {s : State} {d : Word} {rest : List HostInput} (hb : s.status.busy = false)
    (hi : s.inputs = hostWr (.reg .ctrl) d :: rest) (hd : d.getLsbD 1 = false) :
    step s = .next { s with irqEn := d.getLsbD 0, inputs := rest, response := some .okayWrite } := by
  rw [step_register_write hb rfl hi]
  simp only [State.writeReg, State.writeCtrl, hd, Bool.false_eq_true, if_false]

/-- The addresses of ARG0 to ARG5 and of PRIOR[0] to PRIOR[3] (20_memory.md R86). -/
theorem arg_address (k : Fin 6) : (Reg.arg k).address = 0x060 + 8 * k.val := by
  revert k; decide

theorem prior_address (c : Ctx) : (Reg.prior c).address = 0x1A0 + 8 * c.toNat := by
  revert c; decide

/-- Settles O29, register by register: a write at a register's address stores what `writeReg` says of it. -/
theorem cfgWriteReadsBack : Obligations.CfgWriteReadsBack := by
  intro s d rest hb written
  refine ⟨?_, fun k hk => ?_, fun hw hd => step_ctrl_write hb hw hd,
    fun hw => step_register_write (r := .sigBase) hb rfl hw, fun hw => step_register_write (r := .sigLen) hb rfl hw,
    ?_, fun c hc hw => ?_⟩
  · change ∀ row ∈ cfgRegs.map (fun r => ((Reg.cfg r).address, r)), _
    rw [List.forall_mem_map]
    exact fun r _ hw => step_cfg_write hb hw
  · rw [← arg_address] at hk
    exact step_arg_write hb hk
  · change ∀ a ∈ readOnlyRegs.map Reg.address, _
    rw [List.forall_mem_map]
    intro r hr hw
    obtain ⟨hro, hmapped⟩ := readOnly_of_mem hr s.caps
    exact step_readOnly_write hb hmapped hro hw
  · have hw' : written (Reg.prior (.ofFin c)).address := by rwa [prior_address]
    exact step_readOnly_write (r := .prior (.ofFin c)) hb (decide_eq_true hc) rfl hw'

end Sys2Proof.Machine
end

section
/-! What a step can do to the configuration, the buffers and the flags that speak of them, said once; then the promises
of the flags (10_state.md R70 to R72) under each of these. -/

namespace Sys2Proof.Machine

/-! ### The configuration, the buffers and their flags -/

/-- `t` has the configuration, the internal buffers, the valid flags and the stage of `s`: all that the promises of
10_state.md R70 to R72 speak of. -/
structure SamePipeline (s t : State) : Prop where
  cfg : t.cfg = s.cfg
  bufs : t.bufs = s.bufs
  fbValid : t.status.fbValid = s.status.fbValid
  winValid : t.status.winValid = s.status.winValid
  stage : t.status.frameStage = s.status.frameStage

theorem SamePipeline.trans {s t u : State} (hst : SamePipeline s t) (htu : SamePipeline t u) : SamePipeline s u :=
  ⟨htu.cfg.trans hst.cfg, htu.bufs.trans hst.bufs, htu.fbValid.trans hst.fbValid, htu.winValid.trans hst.winValid,
    htu.stage.trans hst.stage⟩

/-- A host write leaves the pipeline, writes one configuration register, or is a soft reset. -/
theorem writeLocation_pipeline (s : State) (d : Word) (loc : Location) :
    SamePipeline s (s.writeLocation d loc) ∨ (∃ r, s.writeLocation d loc = s.writeCfg r d) ∨
      s.writeLocation d loc = s.softReset := by
  cases loc with
  | word sp w => exact .inl (by cases sp <;> exact ⟨rfl, rfl, rfl, rfl, rfl⟩)
  | reg r =>
    cases r with
    | cfg r => exact .inr (.inl ⟨r, rfl⟩)
    | ctrl =>
      simp only [State.writeLocation, State.writeReg, State.writeCtrl]
      split_ifs
      · exact .inr (.inr rfl)
      · exact .inl ⟨rfl, rfl, rfl, rfl, rfl⟩
    | status =>
      simp only [State.writeLocation, State.writeReg, State.writeStatus]
      split_ifs <;> exact .inl ⟨rfl, rfl, rfl, rfl, rfl⟩
    | _ => exact .inl ⟨rfl, rfl, rfl, rfl, rfl⟩

/-- A property of the pipeline that the resets establish, that every configuration write keeps, and that the effects of
every command keep where their checks hold, is kept by every step. -/
theorem step_keeps_pipeline {P : State → Prop} {s t : State}
    (congr : ∀ {s t : State}, SamePipeline s t → P s → P t)
    (reset : ∀ s : State, P s.softReset)
    (cfgWrite : ∀ (s : State) (r : CfgReg) (d : Word), P s → P (s.writeCfg r d))
    (effects : ∀ (i : Instr) (u : State), firstError (checksOf i s) = none → effectsOf i s = .ok u → P u)
    (hs : P s) (h : step s = .next t) : P t := by
  have input {i : HostInput} {s t : State} (hs : P s) (h : completeInput i s = .next t) : P t := by
    rcases completeInput_cases h with ⟨-, rfl⟩ | ⟨r, rfl, -⟩ | ⟨a, size, d, loc, -, -, rfl⟩
    · exact congr (s := s.softReset) ⟨rfl, rfl, rfl, rfl, rfl⟩ (reset s)
    · exact congr (s := s) ⟨rfl, rfl, rfl, rfl, rfl⟩ hs
    · refine congr (s := s.writeLocation d loc) ⟨rfl, rfl, rfl, rfl, rfl⟩ ?_
      rcases writeLocation_pipeline s d loc with hsame | ⟨r, hcfg⟩ | hreset
      · exact congr hsame hs
      · exact hcfg ▸ cfgWrite s r d hs
      · exact hreset ▸ reset s
  have error (e : CmdError) : P (s.errorComplete e) := congr (s := s) ⟨rfl, rfl, rfl, rfl, rfl⟩ hs
  rcases step_cases h with ⟨-, rfl⟩ | ⟨-, he⟩ | ⟨i, rest, -, hi⟩ | ⟨i, rest, -, hi⟩
  · exact hs
  · rcases engineStep_cases he with ⟨e, -, rfl⟩ | ⟨i, -, hx⟩
    · exact error _
    · rcases exec_cases hx with ⟨e, -, rfl⟩ | ⟨hchecks, u, hu, rfl⟩
      · exact error e
      · exact congr (s := u) ⟨rfl, rfl, rfl, rfl, rfl⟩ (effects i u hchecks hu)
  · exact input (congr (s := s) (t := { s with inputs := rest }) ⟨rfl, rfl, rfl, rfl, rfl⟩ hs) hi
  · exact input (congr (s := s) (t := { s with inputs := rest, engineDelay := s.engineDelay - 1 })
      ⟨rfl, rfl, rfl, rfl, rfl⟩ hs) hi

/-! ### Words written from 0 on -/

/-- `n` values of `f` written from 0 on are there. -/
theorem Memory.write_holds (m : Memory) (n : Nat) (f : Nat → Word) : (m.write 0 ((List.range n).map f)).holds n f := by
  intro i hi
  rw [Memory.read_write_values, if_pos (by omega), Nat.sub_zero]

/-- Words written from 0 on read back as a range. -/
theorem readRange_write_self (sp : Space) (m : Memory) {n : Nat} {vals : List Word} (hn : vals.length = n) :
    readRange sp (m.write 0 vals) 0 n = .ok vals := by
  refine (readRange_ok_iff _ _ _ _ _).mpr ⟨hn, fun i hi => ?_⟩
  rw [Memory.read_write, if_pos (by omega), Nat.zero_add, Nat.sub_zero]

/-- A memory that holds values of `f` reads as them. -/
theorem Memory.holds.readRange {m : Memory} {n : Nat} {f : Nat → Word} (h : m.holds n f) (sp : Space) :
    readRange sp m 0 n = .ok ((List.range n).map f) :=
  readRange_of_values (fun i hi => by rw [Nat.zero_add]; exact h i hi)

theorem readRange_length {sp : Space} {m : Memory} {base n : Nat} {vs : List Word}
    (h : readRange sp m base n = .ok vs) : vs.length = n := ((readRange_ok_iff _ _ _ _ _).mp h).1

/-! ### FB_VALID -/

theorem filterBankCurrent_congr {s t : State} (hcfg : t.cfg = s.cfg) (hvalid : t.status.fbValid = s.status.fbValid)
    (hHz : t.bufs.edgeHz = s.bufs.edgeHz) (hBin : t.bufs.edgeBin = s.bufs.edgeBin)
    (hHeight : t.bufs.fbHeight = s.bufs.fbHeight) (hFb : t.bufs.fb = s.bufs.fb) (h : s.FilterBankCurrent) :
    t.FilterBankCurrent := by
  simp only [State.FilterBankCurrent, State.nfilt, State.nbins, State.nfft] at h ⊢
  rwa [hcfg, hvalid, hHz, hBin, hHeight, hFb]

/-- The filter bank depends on the configuration only through the registers whose writes clear FB_VALID
(10_state.md R74). -/
theorem filterBankCurrent_writeCfg (s : State) (r : CfgReg) (d : Word) (h : s.FilterBankCurrent) :
    (s.writeCfg r d).FilterBankCurrent := by
  intro hvalid
  obtain ⟨hs, hr⟩ : s.status.fbValid = true ∧ r.clearsFb = false := by
    simpa [Status.afterCfgWrite] using hvalid
  cases r
  case frameRate | frameDur | ncep | alpha => exact h hs
  all_goals cases hr

/-- FB_BUILD writes the filter bank of the configuration (41_filterbank.md R168). -/
theorem fbBuildEffects_filterBankCurrent (s : State) : (fbBuildEffects numerics s).FilterBankCurrent := by
  refine fun _ => ⟨Memory.write_holds _ _ _, Memory.write_holds _ _ _, Memory.write_holds _ _ _, fun b hb j hj => ?_⟩
  have entry := Memory.read_write_rowMajor s.bufs.fb 0 s.nbins s.nfilt (fbValue numerics s.cfg) hb hj
  rwa [Nat.zero_add] at entry

/-- FB_BUILD alone writes the buffers of the filter bank (10_state.md R58 to R61). -/
theorem filterBank_not_mem_bufferTargets {i : Instr} (hi : i ≠ .fbBuild) :
    ∀ sp ∈ [Space.edgeHz, .edgeBin, .fbHeight, .fb], sp ≠ .dmem ∧ sp ∉ bufferTargets i := by
  cases i
  case fbBuild => exact absurd rfl hi
  all_goals simp [bufferTargets]

/-- The effects of every command keep what FB_VALID promises. -/
theorem effectsOf_filterBankCurrent {i : Instr} {s u : State} (hs : s.FilterBankCurrent) (hu : effectsOf i s = .ok u) :
    u.FilterBankCurrent := by
  by_cases hi : i = .fbBuild
  · subst hi
    cases hu
    exact fbBuildEffects_filterBankCurrent s
  · have hframe := effectsOf_effectFrame hu
    have kept (sp : Space) (hsp : sp ∈ [Space.edgeHz, .edgeBin, .fbHeight, .fb]) : u.space sp = s.space sp := by
      obtain ⟨hne, hnot⟩ := filterBank_not_mem_bufferTargets hi sp hsp
      exact hframe.buffers sp hne hnot
    have hcfg : u.cfg = s.cfg := by simp [effectsOf_frame hu]
    exact filterBankCurrent_congr hcfg (by simp [hframe.fbValid, hi]) (kept .edgeHz (by decide))
      (kept .edgeBin (by decide)) (kept .fbHeight (by decide)) (kept .fb (by decide)) hs

/-- Settles O18: configuration writes that keep FB_VALID keep the filter bank's registers, and among the commands only
FB_BUILD writes its buffers. -/
theorem filterBankStaysCurrent : Obligations.FilterBankStaysCurrent := by
  intro s t _ hs h
  refine step_keeps_pipeline (P := State.FilterBankCurrent) ?_ (fun _ => nofun) filterBankCurrent_writeCfg
    (fun _ _ _ hu => effectsOf_filterBankCurrent hs hu) hs h
  intro s t hsame
  exact filterBankCurrent_congr hsame.cfg hsame.fbValid (congrArg _ hsame.bufs) (congrArg _ hsame.bufs)
    (congrArg _ hsame.bufs) (congrArg _ hsame.bufs)

/-! ### WIN_VALID -/

theorem windowCurrent_congr {s t : State} (hcfg : t.cfg = s.cfg) (hvalid : t.status.winValid = s.status.winValid)
    (hwin : t.bufs.win = s.bufs.win) (h : s.WindowCurrent) : t.WindowCurrent := by
  simp only [State.WindowCurrent, State.frameLen] at h ⊢
  rwa [hcfg, hvalid, hwin]

/-- FRAME_LEN depends on the configuration only through registers whose writes clear WIN_VALID (10_state.md R74). -/
theorem windowCurrent_writeCfg (s : State) (r : CfgReg) (d : Word) (h : s.WindowCurrent) :
    (s.writeCfg r d).WindowCurrent := by
  intro hvalid
  obtain ⟨hs, hr⟩ : s.status.winValid = true ∧ r.clearsWin = false := by
    simpa [Status.afterCfgWrite] using hvalid
  cases r
  case nfilt | ncep | lowerFreq | upperFreq => exact h hs
  all_goals cases hr

/-- WIN_BUILD alone writes WIN (10_state.md R62). -/
theorem win_not_mem_bufferTargets {i : Instr} (hi : i ≠ .winBuild) : .win ∉ bufferTargets i := by
  cases i
  case winBuild => exact absurd rfl hi
  all_goals simp [bufferTargets]

/-- The effects of every command keep what WIN_VALID promises: WIN_BUILD writes the window, and no other command writes
WIN or WIN_VALID. -/
theorem effectsOf_windowCurrent {i : Instr} {s u : State} (hs : s.WindowCurrent) (hu : effectsOf i s = .ok u) :
    u.WindowCurrent := by
  by_cases hi : i = .winBuild
  · subst hi
    cases hu
    exact fun _ => Memory.write_holds _ _ _
  · have hframe := effectsOf_effectFrame hu
    have hcfg : u.cfg = s.cfg := by simp [effectsOf_frame hu]
    exact windowCurrent_congr hcfg (by simp [hframe.winValid, hi])
      (hframe.buffers .win (by decide) (win_not_mem_bufferTargets hi)) hs

/-! ### FRAME_STAGE: the three buffers it speaks of -/

/-- COND is RAW pre-emphasized from some prior (42_frame.md R208). -/
def State.CondPreemphasized (s : State) : Prop :=
  ∃ p raw, readRange .raw s.bufs.raw 0 s.frameLen = .ok raw ∧
    readRange .cond s.bufs.cond 0 s.frameLen = .ok (preemphasize s.cfg.alpha p raw)

/-- WND is COND times WIN (42_frame.md R209). -/
def State.WndWindowed (s : State) : Prop :=
  ∃ cond win, readRange .cond s.bufs.cond 0 s.frameLen = .ok cond ∧
    readRange .win s.bufs.win 0 s.frameLen = .ok win ∧
    readRange .wnd s.bufs.wnd 0 s.frameLen = .ok (List.zipWith fmul cond win)

/-- PWR is the power spectrum of WND (43_spectral.md R246). -/
def State.PwrSpectrum (s : State) : Prop :=
  ∃ frame, readRange .wnd s.bufs.wnd 0 s.frameLen = .ok frame ∧
    s.bufs.pwr.holds s.nbins (powerAt numerics s.nfft (zeroPad s.nfft frame))

/-- What FRAME_STAGE promises, buffer by buffer. -/
theorem frameCurrent_iff (s : State) :
    s.FrameCurrent ↔ (s.status.frameStage.hasCond = true → s.CondPreemphasized) ∧
      (s.status.frameStage.hasWnd = true → s.WndWindowed) ∧ (s.status.frameStage = .pwr → s.PwrSpectrum) :=
  ⟨fun ⟨hcond, hwnd, hpwr⟩ => ⟨hcond, hwnd, hpwr⟩, fun ⟨hcond, hwnd, hpwr⟩ => ⟨hcond, hwnd, hpwr⟩⟩

theorem condPreemphasized_congr {s t : State} (hcfg : t.cfg = s.cfg) (hraw : t.bufs.raw = s.bufs.raw)
    (hcond : t.bufs.cond = s.bufs.cond) (h : s.CondPreemphasized) : t.CondPreemphasized := by
  simp only [State.CondPreemphasized, State.frameLen] at h ⊢
  rwa [hcfg, hraw, hcond]

theorem wndWindowed_congr {s t : State} (hcfg : t.cfg = s.cfg) (hcond : t.bufs.cond = s.bufs.cond)
    (hwin : readRange .win t.bufs.win 0 s.frameLen = readRange .win s.bufs.win 0 s.frameLen)
    (hwnd : t.bufs.wnd = s.bufs.wnd) (h : s.WndWindowed) : t.WndWindowed := by
  simp only [State.WndWindowed, State.frameLen] at h hwin ⊢
  rwa [hcfg, hcond, hwin, hwnd]

theorem pwrSpectrum_congr {s t : State} (hcfg : t.cfg = s.cfg) (hwnd : t.bufs.wnd = s.bufs.wnd)
    (hpwr : t.bufs.pwr = s.bufs.pwr) (h : s.PwrSpectrum) : t.PwrSpectrum := by
  simp only [State.PwrSpectrum, State.frameLen, State.nbins, State.nfft] at h ⊢
  rwa [hcfg, hwnd, hpwr]

theorem frameCurrent_congr {s t : State} (hcfg : t.cfg = s.cfg) (hstage : t.status.frameStage = s.status.frameStage)
    (hraw : t.bufs.raw = s.bufs.raw) (hcond : t.bufs.cond = s.bufs.cond)
    (hwin : s.status.frameStage ≠ .empty →
      readRange .win t.bufs.win 0 s.frameLen = readRange .win s.bufs.win 0 s.frameLen)
    (hwnd : t.bufs.wnd = s.bufs.wnd) (hpwr : t.bufs.pwr = s.bufs.pwr) (h : s.FrameCurrent) : t.FrameCurrent := by
  rw [frameCurrent_iff] at h ⊢
  obtain ⟨hc, hw, hp⟩ := h
  rw [hstage]
  refine ⟨fun hst => condPreemphasized_congr hcfg hraw hcond (hc hst), fun hst => ?_,
    fun hst => pwrSpectrum_congr hcfg hwnd hpwr (hp hst)⟩
  exact wndWindowed_congr hcfg hcond (hwin (by rintro he; rw [he] at hst; cases hst)) hwnd (hw hst)

/-- A windowed frame has been pre-emphasized. -/
theorem FrameStage.hasCond_of_hasWnd {st : FrameStage} (h : st.hasWnd = true) : st.hasCond = true := by
  cases st
  case wnd | pwr => rfl
  all_goals cases h

/-- Nothing is promised of a frame at stage EMPTY or RAW. -/
theorem frameCurrent_of_not_hasCond {s : State} (h : s.status.frameStage.hasCond = false) : s.FrameCurrent := by
  rw [frameCurrent_iff]
  refine ⟨fun hcond => ?_, fun hwnd => ?_, fun hpwr => ?_⟩
  · cases h.symm.trans hcond
  · cases h.symm.trans (FrameStage.hasCond_of_hasWnd hwnd)
  · rw [hpwr] at h
    cases h

/-- A configuration write empties the stage, or keeps every register the frame depends on (10_state.md R74). -/
theorem frameCurrent_writeCfg (s : State) (r : CfgReg) (d : Word) (h : s.FrameCurrent) :
    (s.writeCfg r d).FrameCurrent := by
  cases r
  case nfilt | ncep | lowerFreq | upperFreq => exact ⟨h.cond, h.wnd, h.pwr⟩
  all_goals exact frameCurrent_of_not_hasCond rfl

/-! ### FRAME_STAGE under the effects of each command -/

/-- FRAME_FETCH leaves a raw frame only. -/
theorem fetchEffects_frameCurrent {s t : State} (h : fetchEffects s = .ok t) : t.FrameCurrent := by
  obtain ⟨_, _, _, _, rfl⟩ := fetchEffects_ok h
  exact frameCurrent_of_not_hasCond rfl

/-- PREEMPH fills COND from RAW. -/
theorem preemphEffects_condPreemphasized {c : Ctx} {s t : State} (h : preemphEffects c s = .ok t) :
    t.status.frameStage = .cond ∧ t.CondPreemphasized := by
  obtain ⟨raw, last, hraw, -, rfl⟩ := preemphEffects_ok h
  refine ⟨rfl, s.priorOf c, raw, hraw, readRange_write_self _ _ ?_⟩
  rw [preemphasize_length]
  exact readRange_length hraw

/-- WINDOW keeps RAW and COND, and fills WND from COND and WIN. -/
theorem windowEffects_frameCurrent {s t : State} (hcond : s.CondPreemphasized) (h : windowEffects s = .ok t) :
    t.FrameCurrent := by
  obtain ⟨cond, win, hc, hw, rfl⟩ := windowEffects_ok h
  refine ⟨fun _ => hcond, fun _ => ⟨cond, win, hc, hw, readRange_write_self _ _ ?_⟩, nofun⟩
  rw [List.length_zipWith, readRange_length hc, readRange_length hw, Nat.min_self]
  rfl

/-- SPEC_POWER keeps the frame, and fills PWR from WND, which it reads whole where it fits the transform. -/
theorem powerEffects_frameCurrent {s t : State} (hcond : s.CondPreemphasized) (hwnd : s.WndWindowed)
    (hfits : s.frameLen ≤ s.nfft) (h : powerEffects numerics s = .ok t) : t.FrameCurrent := by
  obtain ⟨frame, hr, rfl⟩ := powerEffects_ok h
  rw [Nat.min_eq_left hfits] at hr
  exact ⟨fun _ => hcond, fun _ => hwnd, fun _ => ⟨frame, hr, Memory.write_holds _ _ _⟩⟩

/-- SPEC_PROJECT writes DMEM alone. -/
theorem projectEffects_frameCurrent {nu : Numerics} {s t : State} (hs : s.FrameCurrent)
    (h : projectEffects nu s = .ok t) : t.FrameCurrent := by
  obtain ⟨_, _, _, _, rfl⟩ := projectEffects_ok h
  exact ⟨hs.cond, hs.wnd, hs.pwr⟩

/-- WIN_BUILD writes the window that WIN held already, where a frame is promised at all (42_frame.md R212). -/
theorem winBuildEffects_frameCurrent {s : State} (hinv : s.Inv) (hwin : s.WindowCurrent) (hs : s.FrameCurrent) :
    (winBuildEffects numerics s).FrameCurrent := by
  refine frameCurrent_congr (s := s) rfl rfl rfl rfl (fun hst => ?_) rfl rfl hs
  have held := hwin (hinv.stage hst)
  have written := Memory.write_holds s.bufs.win s.frameLen (windowValue numerics s.frameLen)
  rw [held.readRange]
  exact written.readRange _

/-- In a run a frame fits the transform (42_frame.md R201 check 16). -/
theorem frameLen_le_nfft {s : State} (hinv : s.Inv) (hst : s.status.frameStage ≠ .empty) : s.frameLen ≤ s.nfft := by
  have checks := (firstError_none_iff _).mp (hinv.winConfig (hinv.stage hst))
  have := checks (decide (s.nfft < s.frameLen), ⟨.invalidConfiguration, 16, 0⟩) (by simp [winBuildChecks])
  simpa using this

/-- A command that neither moves the stage nor writes one of the frame's buffers keeps what FRAME_STAGE promises. -/
theorem frameCurrent_of_untouched {i : Instr} {s u : State} (hu : effectsOf i s = .ok u) (hstage : stageAfter i = none)
    (hbufs : ∀ sp ∈ [Space.win, .raw, .cond, .wnd, .pwr], sp ∉ bufferTargets i) (hs : s.FrameCurrent) :
    u.FrameCurrent := by
  have hframe := effectsOf_effectFrame hu
  have kept {sp : Space} (hsp : sp ∈ [Space.win, .raw, .cond, .wnd, .pwr]) : u.space sp = s.space sp :=
    hframe.buffers sp (by rintro rfl; simp at hsp) (hbufs sp hsp)
  have hwin : u.bufs.win = s.bufs.win := kept (sp := .win) (by decide)
  have hst : u.status.frameStage = s.status.frameStage := by rw [hframe.stage, hstage, Option.getD_none]
  exact frameCurrent_congr (by simp [effectsOf_frame hu]) hst (kept (sp := .raw) (by decide))
    (kept (sp := .cond) (by decide)) (fun _ => by rw [hwin]) (kept (sp := .wnd) (by decide))
    (kept (sp := .pwr) (by decide)) hs

/-- The effects of every command that starts at the stage its checks ask for keep what FRAME_STAGE promises. -/
theorem effectsOf_frameCurrent {i : Instr} {s u : State} (hinv : s.Inv) (hwin : s.WindowCurrent) (hs : s.FrameCurrent)
    (hchecks : firstError (checksOf i s) = none) (hu : effectsOf i s = .ok u) : u.FrameCurrent := by
  have passed := (firstError_none_iff _).mp hchecks
  have power {t : State} (hst : s.status.frameStage = .wnd) (ht : powerEffects numerics s = .ok t) : t.FrameCurrent :=
    powerEffects_frameCurrent (hs.cond (by rw [hst]; rfl)) (hs.wnd (by rw [hst]; rfl))
      (frameLen_le_nfft hinv (by rw [hst]; decide)) ht
  cases i
  case winBuild => cases hu; exact winBuildEffects_frameCurrent hinv hwin hs
  case frameFetch => exact fetchEffects_frameCurrent hu
  case preemph c =>
    obtain ⟨hst, hcond⟩ := preemphEffects_condPreemphasized hu
    rw [frameCurrent_iff, hst]
    exact ⟨fun _ => hcond, nofun, nofun⟩
  case window =>
    have hst : s.status.frameStage = .cond := by simpa [checksOf] using passed
    exact windowEffects_frameCurrent (hs.cond (by rw [hst]; rfl)) hu
  case framePrep c =>
    obtain ⟨t, v, -, hv, hw⟩ := framePrepEffects_ok hu
    exact windowEffects_frameCurrent (preemphEffects_condPreemphasized hv).2 hw
  case specPower => exact power (by simpa [checksOf, stageCheck] using passed) hu
  case specLogMel =>
    obtain ⟨t, ht, hp⟩ := logMelEffects_ok hu
    have hst : s.status.frameStage = .wnd := by
      simpa [stageCheck] using passed (stageCheck s .wnd) (List.mem_cons_self ..)
    exact projectEffects_frameCurrent (power hst ht) hp
  all_goals exact frameCurrent_of_untouched hu rfl (by simp [bufferTargets]) hs

/-- Settles O19: the window and the frame are kept by every step together, since WINDOW and WIN_BUILD need both. -/
theorem windowAndFrameStayCurrent : Obligations.WindowAndFrameStayCurrent := by
  intro s t hinv hwin hframe h
  refine step_keeps_pipeline (P := fun s => s.WindowCurrent ∧ s.FrameCurrent) ?_
    (fun _ => ⟨nofun, frameCurrent_of_not_hasCond rfl⟩)
    (fun s r d ⟨hw, hf⟩ => ⟨windowCurrent_writeCfg s r d hw, frameCurrent_writeCfg s r d hf⟩)
    (fun i u hchecks hu => ⟨effectsOf_windowCurrent hwin hu, effectsOf_frameCurrent hinv hwin hframe hchecks hu⟩)
    ⟨hwin, hframe⟩ h
  rintro s t ⟨hcfg, hbufs, -, hvalid, hstage⟩ ⟨hw, hf⟩
  exact ⟨windowCurrent_congr hcfg hvalid (congrArg _ hbufs) hw,
    frameCurrent_congr hcfg hstage (congrArg _ hbufs) (congrArg _ hbufs) (fun _ => by rw [hbufs]) (congrArg _ hbufs)
      (congrArg _ hbufs) hf⟩

end Sys2Proof.Machine
end

section
/-! The address map read both ways, and what a transaction that reaches no location does (20_memory.md R85, R86, R88,
R90). -/

namespace Sys2Proof.Machine

/-! ### The address map in both directions -/

/-- Each row of the register map holds its register's address (20_memory.md R86). -/
theorem address_of_mem_registerMap {n : Nat} {r : Reg} (h : (n, r) ∈ registerMap) : r.address = n := by
  have rows : ∀ row ∈ registerMap, row.2.address = row.1 := by decide
  exact rows _ h

theorem base_of_mem_windowMap {row : Nat × Nat × Space} (h : row ∈ windowMap) : row.1 = row.2.2.base := by
  revert row
  decide

/-- The default parameters leave out no register: NUM_CTX is 4 (00_scope.md R6). -/
theorem Reg.mapped_default (r : Reg) : r.mapped Caps.default = true := by
  cases r
  case prior c => exact decide_eq_true c.isLt
  all_goals rfl

/-- The byte address of a register lies in the host address space, so that nothing of it is cut off. -/
theorem Reg.address_toNat (r : Reg) : (AsmTarget.reg r).address.toNat = r.address := by
  obtain ⟨-, -, ⟨r', hr, hmem, -⟩ | ⟨row, -, w, hword, -⟩⟩ := of_locate (locate_register _ r r.mapped_default)
  · cases hr
    exact (address_of_mem_registerMap hmem).symm
  · cases hword

/-- A register is reached at its own address and nowhere else. -/
theorem locate_reg_iff {caps : Caps} {a : HostAddr} {size : Nat} {r : Reg} :
    locate caps a size = some (.reg r) ↔ size = 8 ∧ r.mapped caps = true ∧ a = (AsmTarget.reg r).address := by
  constructor
  · intro h
    obtain ⟨-, hsize, ⟨r', hr, hmem, hmapped⟩ | ⟨row, -, w, hword, -⟩⟩ := of_locate h
    · cases hr
      exact ⟨hsize, hmapped, BitVec.eq_of_toNat_eq
        ((address_of_mem_registerMap hmem).symm.trans r.address_toNat.symm)⟩
    · cases hword
  · rintro ⟨rfl, hmapped, rfl⟩
    exact locate_register caps r hmapped

/-- An address is mapped exactly when it is that of a register that exists or of a word below a window's capacity. -/
theorem locate_ne_none_iff {caps : Caps} (hlegal : caps.Legal) (a : HostAddr) :
    locate caps a 8 ≠ none ↔
      (∃ r : Reg, r.mapped caps = true ∧ a.toNat = r.address) ∨
      ∃ row ∈ windowMap, ∃ w < row.2.2.capacity caps, a.toNat = row.1 + 8 * w := by
  rw [Option.ne_none_iff_exists']
  constructor
  · rintro ⟨loc, h⟩
    obtain ⟨-, -, ⟨r, -, hmem, hmapped⟩ | ⟨row, hrow, w, -, hw, ha⟩⟩ := of_locate h
    · exact .inl ⟨r, hmapped, (address_of_mem_registerMap hmem).symm⟩
    · exact .inr ⟨row, hrow, w, hw, ha⟩
  · rintro (⟨r, hmapped, ha⟩ | ⟨row, hrow, w, hw, ha⟩)
    · exact ⟨_, locate_reg_iff.mpr ⟨rfl, hmapped, BitVec.eq_of_toNat_eq (ha.trans r.address_toNat.symm)⟩⟩
    · have ha' : a = (AsmTarget.word row.2.2 w).address := by
        rw [AsmTarget.address, ← base_of_mem_windowMap hrow, ← ha, BitVec.ofNat_toNat, BitVec.setWidth_eq]
      exact ⟨_, ha' ▸ locate_word caps hlegal _ w hw⟩

/-- The registers that exist for all parameters: the rows of the map before PRIOR (20_memory.md R86). -/
def fixedRegs : List Reg := (registerMap.take 35).map Prod.snd

theorem mapped_of_mem_fixedRegs {r : Reg} (h : r ∈ fixedRegs) (caps : Caps) : r.mapped caps = true := by
  revert r
  simp [fixedRegs, registerMap, Reg.mapped]

theorem fixedReg_or_prior (r : Reg) : r ∈ fixedRegs ∨ ∃ c, r = .prior c := by
  cases r with
  | prior c => exact .inr ⟨c, rfl⟩
  | cap c => cases c <;> exact .inl (by decide)
  | cfg c => cases c <;> exact .inl (by decide)
  | arg k => exact .inl (by revert k; decide)
  | _ => exact .inl (by decide)

/-- The ranges of byte offsets of the registers that exist for all parameters (20_memory.md R86). -/
def FixedOffset (n : Nat) : Prop :=
  n ≤ 0x030 ∨ (0x040 ≤ n ∧ n ≤ 0x098) ∨ (0x100 ≤ n ∧ n ≤ 0x158) ∨ (0x180 ≤ n ∧ n ≤ 0x198)

theorem fixedOffset_of_mem_fixedRegs {r : Reg} (h : r ∈ fixedRegs) : FixedOffset r.address := by
  revert r
  unfold FixedOffset
  decide

/-- Every aligned offset in those ranges is a register's. -/
theorem exists_fixedReg {n : Nat} (h8 : n % 8 = 0) (h : FixedOffset n) : ∃ r ∈ fixedRegs, n = r.address := by
  have rows : ∀ k < 52, (8 * k ≤ 0x030 ∨ (0x040 ≤ 8 * k ∧ 8 * k ≤ 0x098) ∨ (0x100 ≤ 8 * k ∧ 8 * k ≤ 0x158) ∨
      (0x180 ≤ 8 * k ∧ 8 * k ≤ 0x198)) → ∃ row ∈ registerMap.take 35, row.1 = 8 * k := by decide
  unfold FixedOffset at h
  have hn : 8 * (n / 8) = n := by omega
  obtain ⟨row, hrow, haddr⟩ := rows (n / 8) (by omega) (by rwa [hn])
  refine ⟨row.2, List.mem_map_of_mem hrow, ?_⟩
  rw [address_of_mem_registerMap (List.mem_of_mem_take hrow), haddr, hn]

/-- The offsets of the registers that exist: the fixed ranges, then PRIOR[c] below NUM_CTX. -/
theorem register_offset_iff {caps : Caps} (hctx : caps.numCtx ≤ 4) {n : Nat} (h8 : n % 8 = 0) :
    (∃ r : Reg, r.mapped caps = true ∧ n = r.address) ↔
      FixedOffset n ∨ (0x1A0 ≤ n ∧ n < 0x1A0 + 8 * caps.numCtx) := by
  constructor
  · rintro ⟨r, hmapped, rfl⟩
    rcases fixedReg_or_prior r with hr | ⟨c, rfl⟩
    · exact .inl (fixedOffset_of_mem_fixedRegs hr)
    · have hc : c.toNat < caps.numCtx := of_decide_eq_true hmapped
      rw [prior_address]
      omega
  · rintro (hfixed | ⟨hlow, hhigh⟩)
    · obtain ⟨r, hr, ha⟩ := exists_fixedReg h8 hfixed
      exact ⟨r, mapped_of_mem_fixedRegs hr caps, ha⟩
    · have hc : (BitVec.ofNat 2 ((n - 0x1A0) / 8)).toNat = (n - 0x1A0) / 8 := by
        rw [BitVec.toNat_ofNat]
        omega
      refine ⟨.prior (BitVec.ofNat 2 ((n - 0x1A0) / 8)), decide_eq_true ?_, ?_⟩
      · omega
      · rw [prior_address]
        omega

/-- The bytes of a window's mapped words: those from its base to its capacity (20_memory.md R88). -/
theorem window_word_iff {base cap a : Nat} (hbase : base % 8 = 0) (ha : a % 8 = 0) :
    (∃ w < cap, a = base + 8 * w) ↔ base ≤ a ∧ a < base + 8 * cap := by
  constructor
  · rintro ⟨w, hw, rfl⟩
    omega
  · rintro ⟨hlow, hhigh⟩
    exact ⟨(a - base) / 8, by omega, by omega⟩

/-! ### Transactions with the engine idle -/

/-- With the engine idle, a transaction that reaches no location gets ERROR and has no effect (20_memory.md R85, R90). -/
theorem step_unlocated {s : State} {t : HostInput} {a : HostAddr} {size : Nat} {d : Word} {rest : List HostInput}
    (hb : s.status.busy = false) (hi : s.inputs = t :: rest) (ht : t = .read a size ∨ t = .write a size d)
    (hloc : locate s.caps a size = none) :
    step s = .next { s with inputs := rest, response := some .error } := by
  rw [step_of_idle_engine hb hi]
  rcases ht with rfl | rfl <;> simp only [completeInput, hloc]

/-- Settles O23: such a transaction reaches no location. -/
theorem misalignedOrOddSizeGetsError : Obligations.MisalignedOrOddSizeGetsError := by
  intro s a size d t rest hb hi ht hbad
  exact step_unlocated hb hi ht (if_pos hbad)

/-- Settles O24: the located addresses are those of the registers and of the windows' words. -/
theorem unmappedGetsError : Obligations.UnmappedGetsError := by
  intro s a hlegal h8 mapped
  have hctx : s.caps.numCtx ≤ 4 := by
    obtain ⟨-, -, -, -, -, ⟨-, hctx⟩, -⟩ := hlegal
    exact hctx
  have windows : (∃ w ∈ windowMap.map (fun row => (row.1, row.2.2.capacity s.caps)),
      w.1 ≤ a.toNat ∧ a.toNat < w.1 + 8 * w.2) ↔
      ∃ row ∈ windowMap, ∃ w < row.2.2.capacity s.caps, a.toNat = row.1 + 8 * w := by
    have aligned : ∀ row ∈ windowMap, row.1 % 8 = 0 := by decide
    simp only [List.mem_map, exists_exists_and_eq_and]
    exact exists_congr fun row => and_congr_right fun hrow => (window_word_iff (aligned row hrow) h8).symm
  have hmapped : locate s.caps a 8 ≠ none ↔ mapped := by
    rw [locate_ne_none_iff hlegal, register_offset_iff hctx h8, ← windows]
    simp only [FixedOffset, or_assoc]
    exact Iff.rfl
  refine ⟨hmapped.mpr, fun hnot t d rest hb hi ht => ⟨_, step_unlocated hb hi ht ?_, rfl, rfl⟩⟩
  exact not_not.mp (mt hmapped.mp hnot)

end Sys2Proof.Machine
end

section
/-! What a host read or write of a mapped location does with the engine idle, and what BUSY holds back (20_memory.md
R91 to R93). -/

namespace Sys2Proof.Machine

/-! ### What the registers read as -/

theorem word_eq_ofNat {x : Word} {n : Nat} (h : x.toNat = n) : x = BitVec.ofNat 64 n := by
  rw [← h, BitVec.ofNat_toNat, BitVec.setWidth_eq]

/-- STATUS while the engine is idle (10_state.md R36). -/
theorem Status.word_of_idle {t : Status} (h : t.busy = false) :
    t.word = BitVec.ofNat 64 (2 * t.done.toNat + 4 * t.err.toNat + 16 * t.fbValid.toNat + 32 * t.winValid.toNat +
      2 ^ 8 * t.errCode.toBits.toNat + 2 ^ 16 * t.frameStage.toBits.toNat + 2 ^ 24 * t.lastOp.toNat) := by
  apply word_eq_ofNat
  rw [t.word_toNat, h, Bool.toNat_false]
  omega

/-- STATUS while a command is pending (10_state.md R36). -/
theorem Status.word_of_busy {t : Status} (h : t.busy = true) :
    t.word = BitVec.ofNat 64 (1 + 2 * t.done.toNat + 4 * t.err.toNat + 16 * t.fbValid.toNat + 32 * t.winValid.toNat +
      2 ^ 8 * t.errCode.toBits.toNat + 2 ^ 16 * t.frameStage.toBits.toNat + 2 ^ 24 * t.lastOp.toNat) := by
  apply word_eq_ofNat
  rw [t.word_toNat, h, Bool.toNat_true]
  omega

theorem State.ctrlWord_eq (s : State) : s.ctrlWord = BitVec.ofNat 64 s.irqEn.toNat := by
  unfold State.ctrlWord
  cases s.irqEn <;> rfl

theorem ErrInfo.word_eq (e : ErrInfo) : e.word = BitVec.ofNat 64 (e.index.toNat * 2 ^ 16 + e.check.toNat) :=
  word_eq_ofNat e.word_toNat

theorem BasisTag.word_eq (t : BasisTag) :
    t.word = BitVec.ofNat 64 (t.variant.toBits.toNat + 16 * t.orth.toNat + 2 ^ 16 * t.rows.toNat +
      2 ^ 32 * t.cols.toNat) := by
  apply word_eq_ofNat
  rw [t.word_toNat]
  omega

/-- CFG_FRAME_LEN with the bounds of R49 as encodings. -/
theorem Cfg.frameLen_eq (c : Cfg) :
    c.frameLen =
      if isFinite (fmul c.frameDur (ofNat c.sampleRate.toNat)) = true ∧
        fle 0#64 (fmul c.frameDur (ofNat c.sampleRate.toNat)) = true ∧
        flt (fmul c.frameDur (ofNat c.sampleRate.toNat)) 0x41F0000000000000#64 = true
      then (floorInt (fmul c.frameDur (ofNat c.sampleRate.toNat))).toNat else 0 := by
  have hbound : ofNat 4294967296 = 0x41F0000000000000#64 := by decide +kernel
  simp only [Cfg.frameLen, hbound, posZero, Bool.and_eq_true, and_assoc]

/-- A table of addresses and values that lists the given registers with what they read as has a property wherever each
of these registers has it. -/
theorem forall_registerRow {s : State} {regs : List Reg} {rows : List (Nat × Word)} {P : Nat × Word → Prop}
    (hrows : regs.map (fun r => (r.address, s.readReg r)) = rows) (h : ∀ r ∈ regs, P (r.address, s.readReg r)) :
    ∀ row ∈ rows, P row :=
  hrows ▸ List.forall_mem_map.mpr h

/-! ### Reads and writes with the engine idle -/

theorem step_register_read {s : State} {r : Reg} {rest : List HostInput} (hb : s.status.busy = false)
    (hr : r.mapped s.caps = true) (hi : s.inputs = hostRd (.reg r) :: rest) :
    step s = .next { s with inputs := rest, response := some (.okayRead (s.readReg r)) } := by
  rw [step_of_idle_engine hb hi]
  exact completeInput_read_reg (s := { s with inputs := rest }) (locate_register _ r hr)

/-- A read of a written word of a window answers with it (20_memory.md R91). -/
theorem completeInput_read_word {s : State} {a : HostAddr} {size w : Nat} {sp : Space} {v : Word}
    (h : locate s.caps a size = some (.word sp w)) (hv : s.peek sp w = some v) :
    completeInput (.read a size) s = .next { s with response := some (.okayRead v) } := by
  have hread : readWord sp (s.space sp) w = .ok v := by
    unfold State.peek at hv
    simp only [readWord, hv]
  simp only [completeInput, h, State.readLocation, hread]

/-- A read of an unwritten word of a window faults (60_exceptions.md R328). -/
theorem completeInput_read_unwritten {s : State} {a : HostAddr} {size w : Nat} {sp : Space}
    (h : locate s.caps a size = some (.word sp w)) (hv : s.peek sp w = none) :
    completeInput (.read a size) s = .fault (.readUnwritten sp w) := by
  have hread : readWord sp (s.space sp) w = .error (.readUnwritten sp w) := by
    unfold State.peek at hv
    simp only [readWord, hv]
  simp only [completeInput, h, State.readLocation, hread]

/-- The windows in the order of their bases (20_memory.md R88). -/
def spaces : List Space := windowMap.map (fun row => row.2.2)

/-- Settles O25: a window's word is at its address by `locate_word`, a register by `locate_register`, and the table of
register values is the one `State.readReg` gives. -/
theorem windowReadReturnsWord : Obligations.WindowReadReturnsWord := by
  constructor
  · change ∀ row ∈ spaces.map (fun sp => (sp, sp.base)), _
    rw [List.forall_mem_map]
    intro sp _ s w rest hlegal hb hw hi
    have hloc := locate_word s.caps hlegal sp w hw
    rw [step_of_idle_engine hb hi]
    exact ⟨fun _ hv => completeInput_read_word (s := { s with inputs := rest }) hloc hv,
      fun hv => completeInput_read_unwritten (s := { s with inputs := rest }) hloc hv⟩
  · intro s rest hb number sampleRate dur frameLen errCode stage variant answers
    have herr : errCode = s.status.errCode.toBits.toNat := by
      simp only [errCode]
      cases s.status.errCode <;> rfl
    have hstage : stage = s.status.frameStage.toBits.toNat := by
      simp only [stage]
      cases s.status.frameStage <;> rfl
    have hvariant : variant = s.basisTag.variant.toBits.toNat := by
      simp only [variant]
      cases s.basisTag.variant <;> rfl
    have hlen : frameLen = s.frameLen := s.cfg.frameLen_eq.symm
    constructor
    · refine forall_registerRow (s := s) (regs := fixedRegs) ?_ fun r hr hi =>
        step_register_read hb (mapped_of_mem_fixedRegs hr _) hi
      simp only [herr, hstage, hvariant, hlen, number, fixedRegs, registerMap, List.take_succ_cons, List.take_zero,
        List.map_cons, List.map_nil, State.readReg, Cfg.read, s.ctrlWord_eq, Status.word_of_idle hb,
        s.errInfo.word_eq, s.basisTag.word_eq, BitVec.ofNat_toNat]
      rfl
    · intro c hc hi
      have hi' : s.inputs = hostRd (.reg (.prior (.ofFin c))) :: rest := by
        rw [hostRd, AsmTarget.address, prior_address]
        exact hi
      exact step_register_read (r := .prior (.ofFin c)) hb (decide_eq_true hc) hi'

/-- A write to a window stores where the window is DMEM and is ignored elsewhere (20_memory.md R92). -/
theorem State.writeLocation_word (s : State) (d : Word) (sp : Space) (w : Nat) :
    s.writeLocation d (.word sp w) = if sp = .dmem then s.writeDmem w [d] else s := by
  cases sp <;> rfl

theorem State.peek_writeDmem_word (s : State) (w : Nat) (d : Word) (a : Nat) :
    (s.writeDmem w [d]).peek .dmem a = if a = w then some d else s.peek .dmem a := by
  by_cases ha : a = w
  · subst ha
    rw [if_pos rfl]
    exact Memory.read_write_inside s.dmem a [d] 0 Nat.zero_lt_one
  · rw [if_neg ha]
    exact Memory.read_write_outside _ _ _ _ (by simp; omega)

/-- Settles O26: the word is at its address, and of the windows only DMEM stores. -/
theorem windowWriteStoresOnlyDmem : Obligations.WindowWriteStoresOnlyDmem := by
  intro s sp w d rest hlegal hb hw hi
  have hstep := (step_of_idle_engine hb hi).trans
    (completeInput_write (s := { s with inputs := rest }) (d := d) (locate_word s.caps hlegal sp w hw))
  rw [State.writeLocation_word] at hstep
  by_cases hsp : sp = .dmem
  · rw [if_pos hsp] at hstep
    refine ⟨_, hstep, rfl, fun a => ?_⟩
    simp only [hsp, true_and]
    exact State.peek_writeDmem_word { s with inputs := rest } w d a
  · rw [if_neg hsp] at hstep
    refine ⟨_, hstep, rfl, fun a => ?_⟩
    rw [if_neg fun h => hsp h.1]
    rfl

/-! ### While a command is pending -/

/-- The registers whose reads BUSY does not hold, in the order of their addresses (20_memory.md R93). -/
def exemptRegs : List Reg :=
  [.id, .cap .dmemWords, .cap .maxNfft, .cap .maxFilt, .cap .maxFrame, .cap .maxDct, .cap .numCtx, .ctrl, .status]

theorem exempt_iff_mem_exemptRegs (r : Reg) : r.exempt = true ↔ r ∈ exemptRegs := by
  cases r with
  | cap c => cases c <;> decide
  | _ => simp [Reg.exempt, exemptRegs]

theorem mapped_of_mem_exemptRegs {r : Reg} (h : r ∈ exemptRegs) (caps : Caps) : r.mapped caps = true := by
  revert r
  simp [exemptRegs, Reg.mapped]

/-- An exempt transaction is an aligned 8-byte read of one of these registers. -/
theorem exempt_iff_hostRd (caps : Caps) (t : HostInput) :
    t.exempt caps = true ↔ ∃ r ∈ exemptRegs, t = hostRd (.reg r) := by
  rw [exempt_iff]
  constructor
  · rintro ⟨a, size, r, rfl, hloc, hr⟩
    obtain ⟨rfl, -, rfl⟩ := locate_reg_iff.mp hloc
    exact ⟨r, (exempt_iff_mem_exemptRegs r).mp hr, rfl⟩
  · rintro ⟨r, hr, rfl⟩
    exact ⟨_, _, r, rfl, locate_register caps r (mapped_of_mem_exemptRegs hr caps),
      (exempt_iff_mem_exemptRegs r).mpr hr⟩

/-- Two registers are not read at one address. -/
theorem hostRd_reg_inj {r r' : Reg} (h : hostRd (.reg r) = hostRd (.reg r')) : r = r' := by
  injection h with haddr
  have hloc := locate_register _ r r.mapped_default
  rw [haddr, locate_register _ r' r'.mapped_default] at hloc
  cases hloc
  rfl

/-- The engine's step takes no input and ends the pending command. -/
theorem engineStep_inputs_busy {s t : State} (h : engineStep s = .next t) :
    t.inputs = s.inputs ∧ t.status.busy = false := by
  rcases engineStep_cases h with ⟨e, -, rfl⟩ | ⟨i, -, hx⟩
  · exact ⟨rfl, rfl⟩
  · rcases exec_cases hx with ⟨e, -, rfl⟩ | ⟨-, u, hu, rfl⟩
    · exact ⟨rfl, rfl⟩
    · simp [effectsOf_frame hu]

/-- A transaction that BUSY holds lets the engine move. -/
theorem mover_of_held {s : State} {t : HostInput} {rest : List HostInput} (hb : s.status.busy = true)
    (hi : s.inputs = t :: rest) (ht : t ≠ .resetLine) (hx : t.exempt s.caps = false) : s.mover = .engine := by
  refine (mover_eq_engine_iff s).mpr ⟨hb, fun t' rest' h => ?_⟩
  obtain ⟨rfl, rfl⟩ := List.cons.inj (hi.symm.trans h)
  exact ⟨ht, .inl hx⟩

/-- While the latency lasts an exempt read completes with its register's value (20_memory.md R93, log 7). -/
theorem step_exempt_register_read {s : State} {r : Reg} {rest : List HostInput} (hb : s.status.busy = true)
    (hd : s.engineDelay ≠ 0) (hr : r ∈ exemptRegs) (hi : s.inputs = hostRd (.reg r) :: rest) :
    step s = .next { s with
      inputs := rest, engineDelay := s.engineDelay - 1, response := some (.okayRead (s.readReg r)) } := by
  have hx : (hostRd (.reg r)).exempt s.caps = true := (exempt_iff_hostRd _ _).mpr ⟨r, hr, rfl⟩
  have hm : s.mover = .exemptRead (hostRd (.reg r)) rest := by
    unfold State.mover
    rw [hi]
    exact (if_neg nofun).trans ((if_neg (by simp [hb])).trans (if_pos ⟨hx, hd⟩))
  rw [step_exemptRead hm]
  exact completeInput_read_reg (s := { s with inputs := rest, engineDelay := s.engineDelay - 1 })
    (locate_register _ r (mapped_of_mem_exemptRegs hr _))

/-- In a state that meets the invariant, STATUS of a pending command shows BUSY and no completion and no error
(70_reset_and_hazards.md R376). -/
theorem statusWord_of_pending {s : State} (hinv : s.Inv) (hb : s.status.busy = true) :
    s.status.word.toNat % 8 = 1 ∧ s.status.word.toNat / 2 ^ 8 % 2 ^ 8 = 0 := by
  obtain ⟨hdone, herr⟩ := hinv.busy hb
  have hcode : s.status.errCode = .none := hinv.errCode.mp herr
  have hfb := s.status.fbValid.toNat_le
  have hwin := s.status.winValid.toNat_le
  rw [s.status.word_toNat, hb, hdone, herr, hcode]
  simp only [Bool.toNat_true, Bool.toNat_false, ErrCode.toBits, BitVec.toNat_ofNat]
  omega

/-- Settles O6: the exempt reads are those of `exemptRegs`; any other transaction waits for the engine's step. -/
theorem transactionsHeldWhileBusy : Obligations.TransactionsHeldWhileBusy := by
  intro s t rest hb hi ht number errCode stage
  have herr : errCode = s.status.errCode.toBits.toNat := by
    simp only [errCode]
    cases s.status.errCode <;> rfl
  have hstage : stage = s.status.frameStage.toBits.toNat := by
    simp only [stage]
    cases s.status.frameStage <;> rfl
  refine ⟨?_, fun hx => ?_, fun hx hd => ?_⟩
  · change _ ↔ ∃ a : HostAddr, t = .read a 8 ∧ a.toNat ∈ exemptRegs.map Reg.address
    rw [exempt_iff_hostRd]
    simp only [List.mem_map]
    constructor
    · rintro ⟨r, hr, rfl⟩
      exact ⟨_, rfl, r, hr, r.address_toNat.symm⟩
    · rintro ⟨a, rfl, r, hr, ha⟩
      rw [BitVec.eq_of_toNat_eq (ha.symm.trans r.address_toNat.symm)]
      exact ⟨r, hr, rfl⟩
  · have hstep := step_engine (mover_of_held hb hi ht hx)
    refine ⟨hstep, fun u hu => ?_⟩
    obtain ⟨hinputs, hbusy⟩ := engineStep_inputs_busy (hstep.symm.trans hu)
    rw [hi] at hinputs
    exact ⟨hinputs, hbusy, step_of_idle_engine hbusy hinputs⟩
  · obtain ⟨r, hr, rfl⟩ := (exempt_iff_hostRd _ _).mp hx
    refine ⟨s.readReg r, step_exempt_register_read hb hd hr hi, ?_, fun hread hinv => ?_⟩
    · refine forall_registerRow (s := s) (regs := exemptRegs) ?_ fun r' _ hread => ?_
      · simp only [herr, hstage, number, exemptRegs, List.map_cons, List.map_nil, State.readReg, s.ctrlWord_eq,
          Status.word_of_busy hb]
        rfl
      · rw [hostRd_reg_inj hread]
    · rw [hostRd_reg_inj (r' := .status) hread]
      exact statusWord_of_pending hinv hb

end Sys2Proof.Machine
end

section
/-! Command words and commands: the round trip between them, and the six decode checks in their order (30_encoding.md
R110 to R115). -/

namespace Sys2Proof

/-! ### A command as an opcode with its operand fields -/

/-- What an opcode makes of the CTX field (30_encoding.md R112, column "uses CTX"). -/
@[simp] theorem Opcode.ctx?_withFields (op : Opcode) (c : Ctx) (o : Bool) :
    (op.withFields c o).ctx? = if op.usesCtx = true then some c else none := by
  cases op <;> rfl

/-- What an opcode makes of the ORTH field (30_encoding.md R112, column "uses ORTH"). -/
@[simp] theorem Opcode.orthBit_withFields (op : Opcode) (c : Ctx) (o : Bool) :
    (op.withFields c o).orthBit = (op.usesOrth && o) := by
  cases op <;> rfl

/-- Every command is a row of the opcode table with the command's own operand fields. -/
theorem exists_opcode (i : Instr) :
    ∃ op, opcodeAt i.opcode = some op ∧ op.withFields (i.ctx?.getD 0#2) i.orthBit = i := by
  cases i <;> exact ⟨_, rfl, rfl⟩

theorem wellFormed_iff (numCtx : Nat) (i : Instr) :
    i.wellFormed numCtx = true ↔ ∀ c, i.ctx? = some c → c.toNat < numCtx := by
  unfold Instr.wellFormed
  cases i.ctx? <;> simp

/-- Each field of a command's word, for every command (30_encoding.md R110 to R112). -/
theorem fields_encode : ∀ i : Instr, Laws.EncodeReserved.Statement i
  | .nop => Laws.EncodeReserved.nop
  | .fbBuild => Laws.EncodeReserved.fbBuild
  | .mel => Laws.EncodeReserved.mel
  | .melInv => Laws.EncodeReserved.melInv
  | .winBuild => Laws.EncodeReserved.winBuild
  | .ctxReset c => Laws.EncodeReserved.ctxReset c
  | .frameCount => Laws.EncodeReserved.frameCount
  | .frameFetch => Laws.EncodeReserved.frameFetch
  | .preemph c => Laws.EncodeReserved.preemph c
  | .window => Laws.EncodeReserved.window
  | .framePrep c => Laws.EncodeReserved.framePrep c
  | .specPower => Laws.EncodeReserved.specPower
  | .specProject => Laws.EncodeReserved.specProject
  | .specLogMel => Laws.EncodeReserved.specLogMel
  | .dctBasis o => Laws.EncodeReserved.dctBasis o
  | .dctOrth => Laws.EncodeReserved.dctOrth
  | .dct2 => Laws.EncodeReserved.dct2
  | .idctOrth => Laws.EncodeReserved.idctOrth
  | .dct3 => Laws.EncodeReserved.dct3
  | .dctLegacy => Laws.EncodeReserved.dctLegacy

/-! ### The round trip -/

/-- Settles O2: the word's fields are the command's own, so the table gives the command's opcode back and no check
fails; well-formedness is check 5. -/
theorem decodeOfEncode : Obligations.DecodeOfEncode := by
  unfold Obligations.DecodeOfEncode
  intro numCtx i hwf
  obtain ⟨hopcode, hctx, horth, hlow, hreserved, hhigh⟩ := fields_encode i
  obtain ⟨op, hop, hi⟩ := exists_opcode i
  have hc : i.ctx? = if op.usesCtx = true then some (i.ctx?.getD 0#2) else none := by
    rw [← op.ctx?_withFields _ i.orthBit, hi]
  have ho : i.orthBit = (op.usesOrth && i.orthBit) := by
    rw [← op.orthBit_withFields (i.ctx?.getD 0#2), hi]
  rw [decode_ok_iff, hopcode, hctx, horth]
  refine ⟨hhigh, op, hop, hlow, hreserved, fun hn => ?_, fun hu => ?_, fun hn => ?_, hi.symm⟩
  · rw [hc, hn]
    rfl
  · rw [if_pos hu] at hc
    exact (wellFormed_iff numCtx i).mp hwf _ hc
  · rw [ho, hn, Bool.false_and]

/-- Settles O1: each word is the encoding of its command. -/
theorem opcodeMapWordsDecode : Obligations.OpcodeMapWordsDecode := by
  unfold Obligations.OpcodeMapWordsDecode
  exact ⟨decodeOfEncode 4 .nop rfl, decodeOfEncode 4 .fbBuild rfl, decodeOfEncode 4 .winBuild rfl,
    decodeOfEncode 4 (.framePrep 2#2) rfl, decodeOfEncode 4 (.ctxReset 3#2) rfl, decodeOfEncode 4 .specProject rfl,
    decodeOfEncode 4 (.dctBasis true) rfl, decodeOfEncode 4 .dctLegacy rfl⟩

/-- Every context number is below 4, so with four contexts every command is well formed. -/
theorem wellFormed_four (i : Instr) : i.wellFormed 4 = true :=
  (wellFormed_iff 4 i).mpr fun c _ => c.isLt

/-- No two commands share a word (30_encoding.md R115). -/
theorem encode_injective : Function.Injective encode := fun i j h =>
  Except.ok.inj <| calc
    Except.ok i = decode 4 (encode i) := (decodeOfEncode 4 i (wellFormed_four i)).symm
    _ = decode 4 (encode j) := by rw [h]
    _ = .ok j := decodeOfEncode 4 j (wellFormed_four j)

/-- A word whose reserved bits are zero, with CTX and ORTH zero where its opcode does not use them, is its command's. -/
theorem encode_withFields {d : Word} {op : Opcode} (hop : opcodeAt (opcodeField d) = some op)
    (hhigh : highWordField d = 0#32) (hlow : reservedLowField d = 0#6) (hreserved : reservedHighField d = 0#15)
    (hctx : op.usesCtx = false → ctxField d = 0#2) (horth : op.usesOrth = false → orthField d = false) :
    encode (op.withFields (ctxField d) (orthField d)) = d := by
  have hc : ((op.withFields (ctxField d) (orthField d)).ctx?).getD 0#2 = ctxField d := by
    cases hu : op.usesCtx <;> simp [hu, hctx]
  have ho : (op.withFields (ctxField d) (orthField d)).orthBit = orthField d := by
    cases hu : op.usesOrth <;> simp [hu, horth]
  apply BitVec.eq_of_toNat_eq
  rw [encode_toNat, opcode_of_opcodeAt hop, hc, ho, word_toNat d, hhigh, hlow, hreserved]
  simp only [BitVec.toNat_ofNat]
  omega

/-- Settles O3: the six checks leave no bit of the word outside the fields the command keeps, and `encode_injective`
shuts out every other command. -/
theorem encodeOfDecode : Obligations.EncodeOfDecode := by
  unfold Obligations.EncodeOfDecode
  intro numCtx d i h
  obtain ⟨hhigh, op, hop, hlow, hreserved, hctx, hrange, horth, rfl⟩ := (decode_ok_iff numCtx d i).mp h
  have hword := encode_withFields hop hhigh hlow hreserved hctx horth
  refine ⟨hword, (wellFormed_iff _ _).mpr fun c hc => ?_, fun j hj => encode_injective (hj.trans hword.symm)⟩
  cases hu : op.usesCtx with
  | false => simp [hu] at hc
  | true =>
    obtain rfl : ctxField d = c := by simpa [hu] using hc
    exact hrange hu

/-! ### The six checks -/

/-- The opcode byte selects a command that uses CTX (30_encoding.md R112). -/
def UsesCtx (d : Word) : Prop := ∃ op, opcodeAt (opcodeField d) = some op ∧ op.usesCtx = true

/-- The opcode byte selects a command that uses ORTH (30_encoding.md R112). -/
def UsesOrth (d : Word) : Prop := ∃ op, opcodeAt (opcodeField d) = some op ∧ op.usesOrth = true

/-- The word fails this check of 30_encoding.md R114, whatever the checks before it say. -/
def DecodeReject.Fails (numCtx : Nat) (d : Word) : DecodeReject → Prop
  | .highWordNonZero => highWordField d ≠ 0#32
  | .unknownOpcode => opcodeAt (opcodeField d) = none
  | .reservedBits => reservedLowField d ≠ 0#6 ∨ reservedHighField d ≠ 0#15
  | .ctxNotTaken => ctxField d ≠ 0#2 ∧ ¬ UsesCtx d
  | .ctxOutOfRange => UsesCtx d ∧ numCtx ≤ (ctxField d).toNat
  | .orthNotTaken => orthField d = true ∧ ¬ UsesOrth d

theorem usesCtx_iff {d : Word} {op : Opcode} (h : opcodeAt (opcodeField d) = some op) :
    UsesCtx d ↔ op.usesCtx = true := by
  simp [UsesCtx, h]

theorem usesOrth_iff {d : Word} {op : Opcode} (h : opcodeAt (opcodeField d) = some op) :
    UsesOrth d ↔ op.usesOrth = true := by
  simp [UsesOrth, h]

/-- The decoder names the first check that the word fails. -/
theorem decode_eq_error_of_first {numCtx : Nat} {d : Word} {e : DecodeReject} (h : e.Fails numCtx d)
    (hfirst : ∀ e' : DecodeReject, e'.check < e.check → ¬ e'.Fails numCtx d) : decode numCtx d = .error e := by
  have hhigh : 1 < e.check → highWordField d = 0#32 := fun hlt => not_not.mp (hfirst .highWordNonZero hlt)
  have hknown : 2 < e.check → ∃ op, opcodeAt (opcodeField d) = some op := fun hlt =>
    Option.ne_none_iff_exists'.mp (hfirst .unknownOpcode hlt)
  have hreserved : 3 < e.check → ¬ (reservedLowField d ≠ 0#6 ∨ reservedHighField d ≠ 0#15) := hfirst .reservedBits
  have hctx : 4 < e.check → ¬ (ctxField d ≠ 0#2 ∧ ¬ UsesCtx d) := hfirst .ctxNotTaken
  have hrange : 5 < e.check → ¬ (UsesCtx d ∧ numCtx ≤ (ctxField d).toNat) := hfirst .ctxOutOfRange
  cases e with
  | highWordNonZero => exact if_pos h
  | unknownOpcode =>
    simp only [DecodeReject.Fails] at h
    simp [decode, hhigh (by decide), h]
  | reservedBits =>
    obtain ⟨op, hop⟩ := hknown (by decide)
    simp only [DecodeReject.Fails] at h
    simp only [decode, hhigh (by decide), hop, if_pos h, ne_eq, not_true_eq_false, if_false]
  | ctxNotTaken =>
    obtain ⟨op, hop⟩ := hknown (by decide)
    simp only [DecodeReject.Fails, usesCtx_iff hop, Bool.not_eq_true] at h
    simp only [decode, hhigh (by decide), hop, if_neg (hreserved (by decide)), if_pos h, ne_eq, not_true_eq_false,
      if_false]
  | ctxOutOfRange =>
    obtain ⟨op, hop⟩ := hknown (by decide)
    simp only [DecodeReject.Fails, usesCtx_iff hop, Bool.not_eq_true] at h hctx
    simp only [decode, hhigh (by decide), hop, if_neg (hreserved (by decide)), if_neg (hctx (by decide)), if_pos h,
      ne_eq, not_true_eq_false, if_false]
  | orthNotTaken =>
    obtain ⟨op, hop⟩ := hknown (by decide)
    simp only [DecodeReject.Fails, usesCtx_iff hop, usesOrth_iff hop, Bool.not_eq_true] at h hctx hrange
    simp only [decode, hhigh (by decide), hop, if_neg (hreserved (by decide)), if_neg (hctx (by decide)),
      if_neg (hrange (by decide)), if_pos h, ne_eq, not_true_eq_false, if_false]

/-- A word that fails no check decodes. -/
theorem decode_ok_of_passes {numCtx : Nat} {d : Word} (h : ∀ e : DecodeReject, ¬ e.Fails numCtx d) :
    ∃ i, decode numCtx d = .ok i := by
  obtain ⟨op, hop⟩ := Option.ne_none_iff_exists'.mp (h .unknownOpcode)
  have hhigh := h .highWordNonZero
  have hreserved := h .reservedBits
  have hctx := h .ctxNotTaken
  have hrange := h .ctxOutOfRange
  have horth := h .orthNotTaken
  simp only [DecodeReject.Fails, usesCtx_iff hop, usesOrth_iff hop, not_or, not_and, not_not, not_le,
    Bool.not_eq_true] at hhigh hreserved hctx hrange horth
  refine ⟨_, (decode_ok_iff numCtx d _).mpr ⟨hhigh, op, hop, hreserved.1, hreserved.2, fun hu => ?_, hrange,
    fun hu => ?_, rfl⟩⟩
  · by_contra hne
    simp [hctx hne] at hu
  · by_contra hne
    simp [horth (by simpa using hne)] at hu

/-! ### The checks on the word as a number -/

theorem opcodeAt_eq_some_iff (b : BitVec 8) (op : Opcode) : opcodeAt b = some op ↔ (b, op) ∈ opcodeTable := by
  have hrows : ∀ row ∈ opcodeTable, opcodeAt row.1 = some row.2 := by decide
  refine ⟨fun h => ?_, hrows (b, op)⟩
  obtain ⟨⟨b', op'⟩, hrow, rfl⟩ := Option.map_eq_some_iff.mp h
  obtain rfl : b' = b := by simpa using List.find?_some hrow
  exact List.mem_of_find?_eq_some hrow

/-- The opcode bytes of the commands with a property are those of the table's rows that have it. -/
theorem exists_opcodeAt_iff (p : Opcode → Bool) (b : BitVec 8) :
    (∃ op, opcodeAt b = some op ∧ p op = true) ↔
      b.toNat ∈ (opcodeTable.filter (fun row => p row.2)).map (fun row => row.1.toNat) := by
  refine ⟨fun ⟨op, hop, hp⟩ => ?_, fun h => ?_⟩
  · exact List.mem_map.mpr ⟨(b, op), List.mem_filter.mpr ⟨(opcodeAt_eq_some_iff b op).mp hop, hp⟩, rfl⟩
  · obtain ⟨⟨b', op⟩, hrow, hb⟩ := List.mem_map.mp h
    obtain ⟨hmem, hp⟩ := List.mem_filter.mp hrow
    obtain rfl := BitVec.eq_of_toNat_eq hb
    exact ⟨op, (opcodeAt_eq_some_iff b' op).mpr hmem, hp⟩

theorem opcodeField_toNat (d : Word) : (opcodeField d).toNat = d.toNat % 256 := by
  simp [opcodeField]

theorem ctxField_toNat (d : Word) : (ctxField d).toNat = d.toNat / 2 ^ 8 % 4 := by
  simp [ctxField, Nat.shiftRight_eq_div_pow]

theorem ctxField_ne_zero_iff (d : Word) : ctxField d ≠ 0#2 ↔ d.toNat / 2 ^ 8 % 4 ≠ 0 := by
  rw [← ctxField_toNat, ne_eq, ← BitVec.toNat_inj]
  rfl

theorem orthField_iff (d : Word) : orthField d = true ↔ d.toNat / 2 ^ 16 % 2 ≠ 0 := by
  rw [orthField, ← BitVec.testBit_toNat, Nat.testBit_eq_decide_div_mod_eq, decide_eq_true_eq]
  omega

theorem usesCtx_iff_toNat (d : Word) : UsesCtx d ↔ d.toNat % 256 ∈ [0x21, 0x24, 0x26] := by
  rw [← opcodeField_toNat]
  exact exists_opcodeAt_iff Opcode.usesCtx (opcodeField d)

theorem usesOrth_iff_toNat (d : Word) : UsesOrth d ↔ d.toNat % 256 = 0x40 := by
  rw [← opcodeField_toNat, ← List.mem_singleton]
  exact exists_opcodeAt_iff Opcode.usesOrth (opcodeField d)

theorem fails_highWordNonZero_iff (numCtx : Nat) (d : Word) :
    DecodeReject.highWordNonZero.Fails numCtx d ↔ d.toNat / 2 ^ 32 ≠ 0 := by
  have hd : (highWordField d).toNat = d.toNat / 2 ^ 32 := by
    have := d.isLt
    simp only [highWordField, BitVec.extractLsb'_toNat, Nat.shiftRight_eq_div_pow]
    omega
  rw [DecodeReject.Fails, ← hd, ne_eq, ← BitVec.toNat_inj]
  rfl

theorem fails_unknownOpcode_iff (numCtx : Nat) (d : Word) :
    DecodeReject.unknownOpcode.Fails numCtx d ↔ d.toNat % 256 ∉ [0x00, 0x10, 0x11, 0x12, 0x20, 0x21, 0x22, 0x23, 0x24,
      0x25, 0x26, 0x30, 0x31, 0x32, 0x40, 0x41, 0x42, 0x43, 0x44, 0x45] := by
  have hall := exists_opcodeAt_iff (fun _ => true) (opcodeField d)
  rw [opcodeField_toNat] at hall
  refine Iff.trans ?_ (not_congr hall)
  simp [DecodeReject.Fails, Option.eq_none_iff_forall_ne_some]

theorem fails_reservedBits_iff (numCtx : Nat) (d : Word) :
    DecodeReject.reservedBits.Fails numCtx d ↔ d.toNat / 2 ^ 10 % 2 ^ 6 ≠ 0 ∨ d.toNat / 2 ^ 17 % 2 ^ 15 ≠ 0 := by
  simp [DecodeReject.Fails, ← BitVec.toNat_inj, reservedLowField, reservedHighField, Nat.shiftRight_eq_div_pow]

theorem fails_ctxNotTaken_iff (numCtx : Nat) (d : Word) :
    DecodeReject.ctxNotTaken.Fails numCtx d ↔ d.toNat / 2 ^ 8 % 4 ≠ 0 ∧ ¬ d.toNat % 256 ∈ [0x21, 0x24, 0x26] :=
  and_congr (ctxField_ne_zero_iff d) (not_congr (usesCtx_iff_toNat d))

theorem fails_ctxOutOfRange_iff (numCtx : Nat) (d : Word) :
    DecodeReject.ctxOutOfRange.Fails numCtx d ↔
      d.toNat % 256 ∈ [0x21, 0x24, 0x26] ∧ numCtx ≤ d.toNat / 2 ^ 8 % 4 := by
  rw [← ctxField_toNat]
  exact and_congr_left' (usesCtx_iff_toNat d)

theorem fails_orthNotTaken_iff (numCtx : Nat) (d : Word) :
    DecodeReject.orthNotTaken.Fails numCtx d ↔ d.toNat / 2 ^ 16 % 2 ≠ 0 ∧ d.toNat % 256 ≠ 0x40 :=
  and_congr (orthField_iff d) (not_congr (usesOrth_iff_toNat d))

theorem DecodeReject.exists_iff (P : DecodeReject → Prop) :
    (∃ e, P e) ↔ P .highWordNonZero ∨ P .unknownOpcode ∨ P .reservedBits ∨ P .ctxNotTaken ∨ P .ctxOutOfRange ∨
      P .orthNotTaken := by
  refine ⟨fun ⟨e, he⟩ => ?_, ?_⟩
  · cases e <;> simp [he]
  · rintro (h | h | h | h | h | h) <;> exact ⟨_, h⟩

end Sys2Proof

namespace Sys2Proof.Machine

/-- Settles O4: the numbered conditions are the decoder's six checks one by one, and the decoder names the first that
fails. -/
theorem decodeChecksInOrder : Obligations.DecodeChecksInOrder := by
  unfold Obligations.DecodeChecksInOrder
  intro s hengine d opcode ctx usesCtx fails
  have hfails : ∀ k, fails k ↔ ∃ e : DecodeReject, k = e.check ∧ e.Fails s.caps.numCtx s.cmd := fun k => by
    rw [DecodeReject.exists_iff, fails_highWordNonZero_iff, fails_unknownOpcode_iff, fails_reservedBits_iff,
      fails_ctxNotTaken_iff, fails_ctxOutOfRange_iff, fails_orthNotTaken_iff]
    rfl
  rw [step_engine hengine]
  refine ⟨fun k hk hfirst => ?_, fun hnone => ?_⟩
  · obtain ⟨e, rfl, he⟩ := (hfails k).mp hk
    exact engineStep_of_reject (decode_eq_error_of_first he fun e' hlt he' =>
      hfirst e'.check hlt ((hfails _).mpr ⟨e', rfl, he'⟩))
  · obtain ⟨i, hi⟩ := decode_ok_of_passes fun e he => hnone e.check ((hfails _).mpr ⟨e, rfl, he⟩)
    obtain ⟨hword, -, hunique⟩ := encodeOfDecode s.caps.numCtx s.cmd i hi
    exact ⟨i, hword, hunique, engineStep_of_decode hi⟩

end Sys2Proof.Machine
end

section
/-! The control of commands: how each one completes, how a write to CMD issues one, and NOP (40_control.md R140 to
R142). -/

namespace Sys2Proof

/-- A word with NOP's opcode and its reserved bits zero: only the operand fields can reject it, CTX first (30_encoding.md
R112, R114). -/
theorem decode_of_nop_opcode (numCtx : Nat) {d : Word} (hhigh : highWordField d = 0#32) (hop : opcodeField d = 0x00#8)
    (hlow : reservedLowField d = 0#6) (hres : reservedHighField d = 0#15) :
    decode numCtx d =
      if ctxField d ≠ 0#2 then .error .ctxNotTaken
      else if orthField d = true then .error .orthNotTaken
      else .ok .nop := by
  have hnop : opcodeAt 0x00#8 = some .nop := rfl
  simp [decode, hhigh, hop, hnop, hlow, hres, Opcode.usesCtx, Opcode.usesOrth, Opcode.withFields]

/-- LAST_OP of an issued word, d[7:0], as a number (40_control.md R141). -/
theorem opcodeField_eq_ofNat (d : Word) : opcodeField d = BitVec.ofNat 8 (d.toNat % 256) := by
  rw [← opcodeField_toNat, BitVec.ofNat_toNat, BitVec.setWidth_eq]

end Sys2Proof

namespace Sys2Proof.Machine

/-! ### Completion -/

/-- Settles O10: an error completion sets ERR, and neither the effects of a command nor a completion without error write
the error state. -/
theorem commandSetsDoneClearsBusy : Obligations.CommandSetsDoneClearsBusy := by
  intro i s t h
  rcases exec_cases h with ⟨e, -, rfl⟩ | ⟨-, u, hu, rfl⟩
  · exact ⟨rfl, rfl, nofun⟩
  · exact ⟨rfl, rfl, fun _ => by simp [effectsOf_frame hu]⟩

/-! ### Issue -/

/-- Settles O22: with the engine idle the write completes and issues the word; else the engine moves, which takes no
input. -/
theorem cmdWriteIssuesCommand : Obligations.CmdWriteIssuesCommand := by
  intro s d rest hi
  refine ⟨fun hb => ⟨_, step_register_write (r := .cmd) hb rfl hi, ?_⟩, fun hb t ht => ?_⟩
  · simp only [State.writeReg, State.issue, ← opcodeField_eq_ofNat]
    rfl
  · rw [step_engine (mover_of_held hb hi nofun rfl)] at ht
    exact (engineStep_inputs_busy ht).1

/-! ### The engine's step -/

/-- Settles O5: under these conditions the engine moves, and its step is the command the decoder names. -/
theorem stepRunsDecodedCommand : Obligations.StepRunsDecodedCommand := by
  intro s i hb hinputs hi
  have hengine : s.mover = .engine := (mover_eq_engine_iff s).mpr ⟨hb, hinputs⟩
  rw [step_engine hengine, engineStep_of_decode hi]

/-! ### NOP -/

theorem exec_nop (s : State) : exec .nop s = .next s.complete := exec_of_effects rfl rfl

/-- Settles O33: NOP is its completion alone, and a STATUS of 0 is the reset value of every flag. -/
theorem nopCompletes : Obligations.NopCompletes := by
  refine ⟨exec_nop, fun numCtx => ⟨?_, ?_, ?_⟩, fun s t hs h => ?_⟩
  · exact decode_of_nop_opcode numCtx rfl rfl rfl rfl
  · exact decode_of_nop_opcode numCtx rfl rfl rfl rfl
  · exact decode_of_nop_opcode numCtx rfl rfl rfl rfl
  · rw [exec_nop] at h
    cases h
    rw [State.complete_status, (Status.word_eq_zero_iff _).mp hs]
    decide

end Sys2Proof.Machine
end

section
/-! The commands MEL and MELINV, and mel and its inverse at their corner cases (41_filterbank.md R161, R162, R169,
R170). -/

namespace Sys2Proof.Machine

/-! ### MEL and MELINV -/

theorem exec_mel (s : State) : exec .mel s = .next { s with res0 := melOf numerics s.argX }.complete :=
  exec_of_effects rfl rfl

theorem exec_melInv (s : State) : exec .melInv s = .next { s with res0 := melInvOf numerics s.argX }.complete :=
  exec_of_effects rfl rfl

/-- Settles O34: neither command has a check, and `melOf` and `melInvOf` are the formulas. -/
theorem melAndInverseResults : Obligations.MelAndInverseResults := fun s => ⟨exec_mel s, exec_melInv s⟩

/-- The machine's logarithm and power are the implementation's within the contract (log 2). -/
theorem numerics_log10 : numerics.log10 = logContract Config.rawLog10 := rfl

theorem numerics_pow10 : numerics.pow10 = pow10Contract Config.rawPow10 := rfl

/-! ### The exact cases of the logarithm and the power (00_scope.md R7) -/

theorem logContract_of_negative (raw : F64 → F64) {x : F64} (h : flt x posZero = true) :
    logContract raw x = canonicalNaN := by
  unfold logContract
  rw [if_pos h, ite_self]

theorem logContract_posZero (raw : F64 → F64) : logContract raw posZero = infinity true := rfl

theorem logContract_cOne (raw : F64 → F64) : logContract raw cOne = posZero := rfl

theorem logContract_posInf (raw : F64 → F64) : logContract raw (infinity false) = infinity false := rfl

theorem pow10Contract_posZero (raw : F64 → F64) : pow10Contract raw posZero = cOne := rfl

/-! ### Operands past a bound -/

theorem orderKey_packSign (neg : Bool) {m : Nat} (h : m < 2 ^ 63) :
    orderKey (packSign neg m) = if neg = true then -(m : Int) else (m : Int) := by
  rw [orderKey, signOf_packSign neg h, magnitudeBits_packSign neg h]

/-- A number from a positive `b` on is positive, with a magnitude from that of `b` on. -/
theorem magnitude_of_positive_fle {b x : F64} (hb : signOf b = false) (h0 : 0 < magnitudeBits b)
    (h : fle b x = true) : isNaN x = false ∧ signOf x = false ∧ magnitudeBits b ≤ magnitudeBits x := by
  obtain ⟨⟨-, hx⟩, hle⟩ : (isNaN b = false ∧ isNaN x = false) ∧ orderKey b ≤ orderKey x := by simpa [fle] using h
  refine ⟨hx, ?_⟩
  rw [orderKey, orderKey, if_neg (by simp [hb])] at hle
  split at hle
  case isTrue hs => omega
  case isFalse hs => exact ⟨by simpa using hs, by omega⟩

/-- A number below a negative `b` is negative, with a larger magnitude. -/
theorem magnitude_of_flt_negative {b x : F64} (hb : signOf b = true) (h : flt x b = true) :
    isNaN x = false ∧ signOf x = true ∧ magnitudeBits b < magnitudeBits x := by
  obtain ⟨⟨hx, -⟩, hlt⟩ : (isNaN x = false ∧ isNaN b = false) ∧ orderKey x < orderKey b := by simpa [flt] using h
  refine ⟨hx, ?_⟩
  rw [orderKey, orderKey, if_pos hb] at hlt
  split at hlt
  case isTrue hs => exact ⟨hs, by omega⟩
  case isFalse hs => omega

/-- A magnitude whose lower midpoint is below n/d units is not above the rounded one. -/
theorem le_roundMagnitude_of_midpoint_lt {n d c : Nat} (hd : 0 < d) (hc : c ≤ infMagnitude)
    (h : (magnitudeValue (c - 1) + magnitudeValue c) * d < 2 * n) : c ≤ roundMagnitude n d := by
  by_contra hlt
  have hup := ((roundMagnitude_midpoints n hd).2 (by omega)).1
  have h1 := magnitudeValue_strictMono.monotone (show roundMagnitude n d ≤ c - 1 by omega)
  have h2 := magnitudeValue_strictMono.monotone (show roundMagnitude n d + 1 ≤ c by omega)
  have := Nat.mul_le_mul_right d (Nat.add_le_add h1 h2)
  omega

/-- The quotient by a positive number has the dividend's sign, and a magnitude from `c` on where the midpoint below `c`
times the divisor is below a lower bound `k` of the dividend's magnitude. -/
theorem fdiv_eq_packSign {a b : F64} {c k : Nat} (ha : isNaN a = false) (hb : isFinite b = true)
    (hz : isZero b = false) (hs : signOf b = false) (hc : c ≤ infMagnitude) (hk : k ≤ magnitudeBits a)
    (h : (magnitudeValue (c - 1) + magnitudeValue c) * magnitudeUnits b < 2 * (unitsPerOne * magnitudeValue k)) :
    ∃ m, c ≤ m ∧ m ≤ infMagnitude ∧ fdiv a b = packSign (signOf a) m := by
  cases hi : isInf a with
  | true =>
    rw [fdiv_of_isInf_left hi (isNaN_of_isFinite hb), isInf_of_isFinite hb, hs, Bool.xor_false]
    exact ⟨infMagnitude, hc, le_rfl, rfl⟩
  | false =>
    rw [fdiv_of_isFinite ((isFinite_iff_not a).mpr ⟨ha, hi⟩) hb hz, hs, Bool.xor_false]
    refine ⟨_, le_roundMagnitude_of_midpoint_lt (magnitudeUnits_pos hz) hc (lt_of_lt_of_le h ?_),
      roundMagnitude_le _ _, rfl⟩
    rw [magnitudeUnits_eq]
    exact Nat.mul_le_mul_left _ (Nat.mul_le_mul_left _ (magnitudeValue_strictMono.monotone hk))

/-- 1.0 and a number below -1.0 have a sum below zero. -/
theorem fadd_cOne_negative {m : Nat} (h1 : magnitudeBits cOne < m) (hm : m ≤ infMagnitude) :
    flt (fadd cOne (packSign true m)) posZero = true := by
  have hlt : m < 2 ^ 63 := lt_of_le_of_lt hm infMagnitude_lt
  rcases Nat.lt_or_ge m infMagnitude with hf | hf
  · rw [fadd_of_isFinite (by decide) (isFinite_packSign true hf)]
    have hneg : units cOne + units (packSign true m) < 0 := by
      have h := (units_lt_iff (packSign true m) (fneg cOne)).mpr (by
        rw [orderKey_packSign true hlt, orderKey, magnitudeBits_fneg]
        simp only [show signOf (fneg cOne) = true from rfl, if_true]
        omega)
      have : units (fneg cOne) = -units cOne := by decide +kernel
      omega
    have hr : 1 ≤ roundMagnitude (units cOne + units (packSign true m)).natAbs 1 :=
      le_roundMagnitude Nat.one_pos (by decide) (by
        rw [Nat.mul_one, show magnitudeValue 1 = 1 by decide]
        omega)
    have hle := roundMagnitude_le (units cOne + units (packSign true m)).natAbs 1
    rw [if_neg hneg.ne, decide_eq_true hneg, flt_iff (isNaN_packSign _ hle) (by decide),
      orderKey_packSign _ (lt_of_le_of_lt hle infMagnitude_lt), if_pos rfl, show orderKey posZero = 0 from rfl]
    omega
  · rw [le_antisymm hm hf]
    rfl

/-- From 309.0 on the power overflows (log 19). -/
theorem pow10Contract_of_large (raw : F64 → F64) {m : Nat} (h : magnitudeBits cPow10Overflow ≤ m)
    (hm : m ≤ infMagnitude) : pow10Contract raw (packSign false m) = infinity false := by
  have hlt : m < 2 ^ 63 := lt_of_le_of_lt hm infMagnitude_lt
  have hn : isNaN (packSign false m) = false := isNaN_packSign false hm
  have hpos : 0 < magnitudeBits cPow10Overflow := by decide
  have hz : isZero (packSign false m) = false := by
    rw [isZero, magnitudeBits_packSign false hlt, decide_eq_false_iff_not]
    omega
  have hle : fle cPow10Overflow (packSign false m) = true := by
    rw [fle_iff (by decide) hn, orderKey_packSign false hlt]
    exact Int.ofNat_le.mpr h
  simp only [pow10Contract, hn, hz, hle, Bool.false_eq_true, if_false, if_true]

/-! ### mel and melinv at their corner cases -/

/-- mel(+0.0) is 2595.0 times the logarithm of 1.0. -/
theorem mel_posZero : melOf numerics posZero = posZero := by
  have hone : fadd cOne (fdiv posZero c700) = cOne := by decide +kernel
  rw [melOf, hone, numerics_log10, logContract_cOne]
  decide +kernel

/-- mel(-700.0) is 2595.0 times the logarithm of +0.0. -/
theorem mel_neg_c700 : melOf numerics (fneg c700) = infinity true := by
  have hzero : fadd cOne (fdiv (fneg c700) c700) = posZero := by decide +kernel
  rw [melOf, hzero, numerics_log10, logContract_posZero]
  rfl

theorem mel_posInf : melOf numerics (infinity false) = infinity false := by
  have hinf : fadd cOne (fdiv (infinity false) c700) = infinity false := by decide +kernel
  rw [melOf, hinf, numerics_log10, logContract_posInf]
  rfl

/-- melinv(+0.0) is 700.0 times 1.0 - 1.0. -/
theorem melInv_posZero : melInvOf numerics posZero = posZero := by
  have hzero : fdiv posZero c2595 = posZero := by decide +kernel
  rw [melInvOf, hzero, numerics_pow10, pow10Contract_posZero]
  decide +kernel

theorem mel_of_isNaN {x : F64} (h : isNaN x = true) : melOf numerics x = canonicalNaN := by
  rw [melOf, fdiv_of_isNaN (.inl h), fadd_of_isNaN (.inr isNaN_canonicalNaN), numerics_log10,
    logContract_of_isNaN _ isNaN_canonicalNaN, fmul_of_isNaN (.inr isNaN_canonicalNaN)]

theorem melInv_of_isNaN {x : F64} (h : isNaN x = true) : melInvOf numerics x = canonicalNaN := by
  rw [melInvOf, fdiv_of_isNaN (.inl h), numerics_pow10, pow10Contract_of_isNaN _ isNaN_canonicalNaN,
    fsub_of_isNaN (.inl isNaN_canonicalNaN), fmul_of_isNaN (.inr isNaN_canonicalNaN)]

/-- Below -700.0 the quotient by 700.0 lies below -1.0, also after rounding. -/
theorem mel_below {f : F64} (h : flt f (fneg c700) = true) : melOf numerics f = canonicalNaN := by
  obtain ⟨hn, hs, hlt⟩ := magnitude_of_flt_negative rfl h
  obtain ⟨m, hlo, hhi, he⟩ := fdiv_eq_packSign (b := c700) (c := magnitudeBits cOne + 1)
    (k := magnitudeBits (fneg c700) + 1) hn rfl rfl rfl (by decide) hlt (by decide +kernel)
  rw [melOf, he, hs, numerics_log10, logContract_of_negative _ (fadd_cOne_negative hlo hhi)]
  rfl

/-- 801855.0, the product of 309.0 and 2595.0 (log 19). -/
def cMelInvOverflow : F64 := 0x4128787E00000000#64

/-- From 801855.0 on the quotient by 2595.0 is not below 309.0, also after rounding. -/
theorem melInv_of_large {x : F64} (h : fle cMelInvOverflow x = true) : melInvOf numerics x = infinity false := by
  obtain ⟨hn, hs, hle⟩ := magnitude_of_positive_fle rfl (by decide) h
  obtain ⟨m, hlo, hhi, he⟩ := fdiv_eq_packSign (b := c2595) (c := magnitudeBits cPow10Overflow)
    (k := magnitudeBits cMelInvOverflow) hn rfl rfl rfl (by decide) hle (by decide +kernel)
  rw [melInvOf, he, hs, numerics_pow10, pow10Contract_of_large _ hlo hhi]
  rfl

/-- Settles O35: the exact cases of the logarithm and the power, and the rounding of the quotients past the bounds. -/
theorem melCornerCases : Obligations.MelCornerCases :=
  ⟨mel_posZero, mel_neg_c700, fun _ => mel_below, mel_posInf, melInv_posZero,
    fun _ h => ⟨mel_of_isNaN h, melInv_of_isNaN h⟩, fun _ => melInv_of_large⟩

end Sys2Proof.Machine
end

section
/-! FB_BUILD check by check and effect by effect, over any numerics (41_filterbank.md R163 to R168). -/

namespace Sys2Proof.Machine

/-! ### The checks of FB_BUILD, one by one -/

theorem isPowerOfTwo_iff (n : Nat) : isPowerOfTwo n = true ↔ ∃ k, n = 2 ^ k := by
  rw [isPowerOfTwo, decide_eq_true_eq]
  constructor
  · exact fun h => ⟨n.log2, h.symm⟩
  · rintro ⟨k, rfl⟩
    rw [Nat.log2_two_pow]

/-- A 32-bit number is a power of two exactly when it is one of the 32 that fit. -/
theorem isPowerOfTwo_eq_false_iff (u : U32) : isPowerOfTwo u.toNat = false ↔ ∀ k < 32, u.toNat ≠ 2 ^ k := by
  rw [← Bool.not_eq_true, isPowerOfTwo_iff, not_exists]
  refine ⟨fun h k _ => h k, fun h k hk => h k ?_ hk⟩
  have hlt := u.isLt
  rw [hk] at hlt
  exact (Nat.pow_lt_pow_iff_right (by omega)).mp hlt

theorem firstIndex_eq_some_iff (n i : Nat) (bad : Nat → Bool) :
    firstIndex n bad = some i ↔ i < n ∧ bad i = true ∧ ∀ k < i, bad k = false := by
  simp [firstIndex, List.find?_range_eq_some, and_left_comm]

theorem firstIndex_eq_none_iff (n : Nat) (bad : Nat → Bool) :
    firstIndex n bad = none ↔ ∀ i < n, bad i = false := by
  simp [firstIndex]

theorem edgeOutside_iff (nu : Numerics) (c : Cfg) (i : Nat) : edgeOutside nu c i = true ↔
    isFinite (edgeRatio nu c i) = false ∨ edgeBinOf nu c i < 0 ∨ (c.nfft.toNat / 2 : Nat) < edgeBinOf nu c i := by
  simp [edgeOutside, or_assoc]

theorem edgesDisordered_iff (nu : Numerics) (c : Cfg) (j : Nat) : edgesDisordered nu c j = true ↔
    edgeBinOf nu c (j + 1) < edgeBinOf nu c j ∨ edgeBinOf nu c (j + 2) < edgeBinOf nu c (j + 1) := by
  simp [edgesDisordered]

theorem filterZeroWidth_iff (nu : Numerics) (c : Cfg) (j : Nat) :
    filterZeroWidth nu c j = true ↔ edgeBinOf nu c j = edgeBinOf nu c (j + 2) := by
  simp [filterZeroWidth]

/-! ### The checks of FB_BUILD in their order -/

section
variable {o : Host.Outcome State Fault Refusal} {s : State} {eff : State → State} {rest : List (Bool × CmdError)}

/-- A check fails and ends the command with its error, or it holds and leaves the rest (60_exceptions.md R324). -/
theorem ite_check {p : Prop} [Decidable p] {b : Bool} {e : CmdError} (ho : o = runTotal ((b, e) :: rest) eff s)
    (hp : b = true ↔ p) {Q : Prop} (hQ : o = runTotal rest eff s → Q) :
    if p then o = .next (s.errorComplete e) else Q := by
  subst ho
  split
  case isTrue h => exact runTotal_cons_true (hp.mpr h)
  case isFalse h => exact hQ (runTotal_cons_false (by simpa using mt hp.mp h))

/-- A check over the indices below `n`: the smallest one at which it fails is ERR_INFO.INDEX (41_filterbank.md R167). -/
theorem index_check {n : Nat} {bad : Nat → Bool} {p : Nat → Prop} {code : ErrCode} {check : Nat}
    (ho : o = runTotal (((firstIndex n bad).isSome, ⟨code, check, (firstIndex n bad).getD 0⟩) :: rest) eff s)
    (hp : ∀ i, bad i = true ↔ p i) {Q : Prop} (hQ : o = runTotal rest eff s → Q) :
    (∀ i, (i < n ∧ p i ∧ ∀ k < i, ¬ p k) → o = .next (s.errorComplete ⟨code, check, i⟩)) ∧
      ((∀ i < n, ¬ p i) → Q) := by
  subst ho
  simp only [← hp, Bool.not_eq_true]
  refine ⟨fun i hi => ?_, fun hnone => hQ (runTotal_cons_false ?_)⟩
  · rw [(firstIndex_eq_some_iff n i bad).mpr hi]
    exact runTotal_cons_true rfl
  · rw [(firstIndex_eq_none_iff n bad).mpr hnone, Option.isSome_none]

end

/-- Settles O36: the checks of the list one after the other, each with its condition in the words of R167. -/
theorem fbBuildConfigurationChecks : Obligations.FbBuildConfigurationChecks := by
  refine ⟨fun _ => rfl, fun nu s => ?_⟩
  refine ite_check (e := ⟨.invalidConfiguration, 10, 0⟩) rfl decide_eq_true_iff fun h10 => ?_
  refine ite_check (e := ⟨.invalidConfiguration, 11, 0⟩) h10 ?_ fun h11 => ?_
  · rw [Bool.or_eq_true, decide_eq_true_iff, Bool.not_eq_true', ← isPowerOfTwo_eq_false_iff]
    rfl
  refine ite_check (e := ⟨.capacityExceeded, 12, 0⟩) h11 decide_eq_true_iff fun h12 => ?_
  refine ite_check (e := ⟨.invalidConfiguration, 13, 0⟩) h12 decide_eq_true_iff fun h13 => ?_
  refine ite_check (e := ⟨.capacityExceeded, 14, 0⟩) h13 decide_eq_true_iff fun h14 => ?_
  refine ite_check (e := ⟨.invalidConfiguration, 15, 0⟩) h14 ?_ fun h15 => ?_
  · rw [Bool.or_eq_true, Bool.not_eq_true', Bool.not_eq_true']
  refine ite_check (e := ⟨.invalidConfiguration, 16, 0⟩) h15 Iff.rfl fun h16 => ?_
  refine ite_check (e := ⟨.invalidConfiguration, 17, 0⟩) h16 Iff.rfl fun h17 => ?_
  refine ite_check (e := ⟨.invalidConfiguration, 18, 0⟩) h17 (by rw [Bool.not_eq_true']) fun h18 => ?_
  refine index_check h18 (edgeOutside_iff nu s.cfg) fun h19 => ?_
  refine index_check h19 (edgesDisordered_iff nu s.cfg) fun h20 => ?_
  refine index_check h20 (filterZeroWidth_iff nu s.cfg) fun h21 => ?_
  exact ⟨_, h21, rfl, rfl⟩

/-! ### What FB_BUILD writes -/

/-- The twelve checks all hold (41_filterbank.md R167). -/
theorem fbBuildChecks_pass_iff (nu : Numerics) (s : State) : firstError (fbBuildChecks nu s) = none ↔
    s.sampleRate ≠ 0 ∧ (1 < s.nfft ∧ ∃ k, s.nfft = 2 ^ k) ∧ s.nfft ≤ s.caps.maxNfft ∧ s.nfilt ≠ 0 ∧
    s.nfilt ≤ s.caps.maxFilt ∧ (isFinite s.cfg.lowerFreq = true ∧ isFinite s.cfg.upperFreq = true) ∧
    flt s.cfg.nyquist s.cfg.upperFreq = false ∧ flt s.cfg.lowerFreq posZero = false ∧
    flt s.cfg.lowerFreq s.cfg.upperFreq = true ∧
    (∀ i < s.nfilt + 2, edgeOutside nu s.cfg i = false) ∧ (∀ j < s.nfilt, edgesDisordered nu s.cfg j = false) ∧
    (∀ j < s.nfilt, filterZeroWidth nu s.cfg j = false) := by
  simp [firstError_none_iff, fbBuildChecks, firstIndex_eq_none_iff, ← isPowerOfTwo_iff]

/-- The slopes of a triangle are divided by the widths of its sides: a bin strictly inside a side has a side of some
width (41_filterbank.md R166). -/
theorem triangle_eq (dfreq : F64) (l c r b : Int) : triangle dfreq l c r b =
    if l < b ∧ b < c then fmul (ofInt (b - l)) (fdiv (filterHeight dfreq l r) (ofInt (c - l)))
    else if b = c then filterHeight dfreq l r
    else if c < b ∧ b < r then fmul (ofInt (b - r)) (fdiv (filterHeight dfreq l r) (ofInt (c - r)))
    else posZero := by
  have hleft : l < b ∧ b < c →
      leftSlope (filterHeight dfreq l r) l c = fdiv (filterHeight dfreq l r) (ofInt (c - l)) :=
    fun h => if_pos (by omega)
  have hright : c < b ∧ b < r →
      rightSlope (filterHeight dfreq l r) c r = fdiv (filterHeight dfreq l r) (ofInt (c - r)) :=
    fun h => if_pos (by omega)
  unfold triangle
  split
  case isTrue h => rw [hleft h]
  case isFalse =>
    split
    case isTrue => rfl
    case isFalse =>
      split
      case isTrue h => rw [hright h]
      case isFalse => rfl

theorem Memory.read_write_zero_values (m : Memory) (n : Nat) (f : Nat → Word) (i : Nat) :
    (m.write 0 ((List.range n).map f)).read i = if i < n then some (f i) else m.read i := by
  simp [Memory.read_write_values]

theorem fbBuildOn_of_pass {nu : Numerics} {s : State} (h : firstError (fbBuildChecks nu s) = none) :
    fbBuildOn nu s = .next (fbBuildEffects nu s).complete := runTotal_ok _ _ h

section
variable (nu : Numerics) (s : State)

theorem fbBuild_peek_edgeHz (i : Nat) : (fbBuildEffects nu s).complete.peek .edgeHz i =
    if i < s.nfilt + 2 then some (edgeHzOf nu s.cfg i) else s.peek .edgeHz i :=
  Memory.read_write_zero_values _ _ _ _

theorem fbBuild_peek_edgeBin (i : Nat) : (fbBuildEffects nu s).complete.peek .edgeBin i =
    if i < s.nfilt + 2 then some (BitVec.ofInt 64 (edgeBinOf nu s.cfg i)) else s.peek .edgeBin i :=
  Memory.read_write_zero_values _ _ _ _

theorem fbBuild_peek_fbHeight (j : Nat) : (fbBuildEffects nu s).complete.peek .fbHeight j =
    if j < s.nfilt then some (heightOf nu s.cfg j) else s.peek .fbHeight j :=
  Memory.read_write_zero_values _ _ _ _

theorem fbBuild_peek_fb {b j : Nat} (hb : b < s.nbins) (hj : j < s.nfilt) :
    (fbBuildEffects nu s).complete.peek .fb (b * s.nfilt + j) = some (fbValue nu s.cfg b j) := by
  have entry := Memory.read_write_rowMajor s.bufs.fb 0 s.nbins s.nfilt (fbValue nu s.cfg) hb hj
  rwa [Nat.zero_add] at entry

theorem fbBuild_peek_fb_outside {i : Nat} (hi : s.nbins * s.nfilt ≤ i) :
    (fbBuildEffects nu s).complete.peek .fb i = s.peek .fb i :=
  Memory.read_write_outside _ _ _ _ (.inr (by rwa [rowMajor_length, Nat.zero_add]))

end

/-- A bin that is not negative, as a word (10_state.md R60). -/
theorem ofInt_eq_ofNat_toNat {n : Int} (h : 0 ≤ n) : BitVec.ofInt 64 n = BitVec.ofNat 64 n.toNat := by
  rw [← BitVec.ofInt_natCast, Int.toNat_of_nonneg h]

/-- Settles O37: with all twelve checks passed the effects are complete, and each buffer reads as its formula. -/
theorem fbBuildWritesFilterBank : Obligations.FbBuildWritesFilterBank := by
  intro nu s sr nfft nfilt one c2595 c700 dfreq mel melmin dmel edge bin height value
    hsr h2 hpow hmax hfilt hfiltMax hlo hhi hny hneg hlt hinside horder hwidth
  have hpass : firstError (fbBuildChecks nu s) = none := by
    refine (fbBuildChecks_pass_iff nu s).mpr ⟨hsr, ⟨h2, hpow⟩, hmax, Nat.one_le_iff_ne_zero.mp hfilt, hfiltMax,
      ⟨hlo, hhi⟩, hny, hneg, hlt, fun i hi => ?_, fun j hj => ?_, fun j hj => ?_⟩
    · obtain ⟨hfin, hge, hle⟩ := hinside i hi
      rw [← Bool.not_eq_true, edgeOutside_iff]
      rintro (h | h | h)
      · exact nomatch h.symm.trans hfin
      · exact not_lt.mpr hge h
      · exact not_lt.mpr hle h
    · obtain ⟨hleft, hright⟩ := horder j hj
      rw [← Bool.not_eq_true, edgesDisordered_iff, not_or, not_lt, not_lt]
      exact ⟨hleft, hright⟩
    · rw [← Bool.not_eq_true, filterZeroWidth_iff]
      exact hwidth j hj
  refine ⟨_, fbBuildOn_of_pass hpass, ?_, rfl, fbBuild_peek_edgeHz nu s,
    fun i => ?_, fbBuild_peek_fbHeight nu s, fun b hb j hj => ?_, fun i hi => fbBuild_peek_fb_outside nu s hi⟩
  · rintro rfl
    exact fbBuildOn_of_pass hpass
  · rw [fbBuild_peek_edgeBin]
    refine ite_congr rfl (fun hi => ?_) (fun _ => rfl)
    exact congrArg some (ofInt_eq_ofNat_toNat (hinside i hi).2.1)
  · exact (fbBuild_peek_fb nu s hb hj).trans (congrArg some (triangle_eq _ _ _ _ _))

end Sys2Proof.Machine
end

section
/-! The invariant of a run (42_frame.md R212; 10_state.md R70 to R72; 20_memory.md R81; 60_exceptions.md R321) in its
parts, each part under everything a step can do. -/

namespace Sys2Proof.Machine

/-! ### What a step can do to a property of states -/

/-- A check that ends a command names an error (60_exceptions.md R321). -/
theorem checksOf_code_ne_none (i : Instr) (s : State) : ∀ c ∈ checksOf i s, c.2.code ≠ .none := by
  cases i <;> simp [checksOf, fbBuildChecks, winBuildChecks, signalChecks, fetchChecks, stageCheck, projectChecks,
    dctSizeChecks, dctBasisChecks, transformChecks]

theorem firstError_checksOf_code_ne_none {i : Instr} {s : State} {e : CmdError}
    (h : firstError (checksOf i s) = some e) : e.code ≠ .none := by
  obtain ⟨before, after, hchecks, -⟩ := firstError_some h
  exact checksOf_code_ne_none i s (true, e) (by simp [hchecks])

/-- A property that the model's own fields do not touch, that the reset line establishes, and that every located host
write, every error completion and the effects of every command whose checks hold keep, is kept by every step. -/
theorem step_keeps {P : State → Prop} {s t : State}
    (own : ∀ (u : State) (inputs : List HostInput) (response : Option BusResponse) (delay : Nat), P u →
      P { u with inputs := inputs, response := response, engineDelay := delay })
    (reset : ∀ u : State, P u → P u.powerOnReset)
    (write : ∀ (u : State) (a : HostAddr) (size : Nat) (d : Word) (loc : Location),
      locate u.caps a size = some loc → P u → P (u.writeLocation d loc))
    (error : ∀ e : CmdError, e.code ≠ .none → P (s.errorComplete e))
    (effects : ∀ (i : Instr) (u : State), firstError (checksOf i s) = none → effectsOf i s = .ok u → P u.complete)
    (hs : P s) (h : step s = .next t) : P t := by
  have input {i : HostInput} {s t : State} (hs : P s) (h : completeInput i s = .next t) : P t := by
    rcases completeInput_cases h with ⟨-, rfl⟩ | ⟨r, rfl, -⟩ | ⟨a, size, d, loc, -, hloc, rfl⟩
    · exact reset s hs
    · exact own s s.inputs (some r) s.engineDelay hs
    · exact own _ _ (some .okayWrite) _ (write s a size d loc hloc hs)
  rcases step_cases h with ⟨-, rfl⟩ | ⟨-, he⟩ | ⟨i, rest, -, hi⟩ | ⟨i, rest, -, hi⟩
  · exact hs
  · rcases engineStep_cases he with ⟨e, -, rfl⟩ | ⟨i, -, hx⟩
    · exact error _ nofun
    · rcases exec_cases hx with ⟨e, hchecks, rfl⟩ | ⟨hchecks, u, hu, rfl⟩
      · exact error e (firstError_checksOf_code_ne_none hchecks)
      · exact effects i u hchecks hu
  · exact input (own s rest s.response s.engineDelay hs) hi
  · exact input (own s rest s.response (s.engineDelay - 1) hs) hi

/-! ### The parts of the invariant -/

/-- Every memory is canonical and lies within its capacity (20_memory.md R81, R88). -/
def State.MemoriesFit (s : State) : Prop := ∀ sp, (s.space sp).wf ∧ (s.space sp).within (sp.capacity s.caps)

/-- ERR, ERR_CODE, ERR_INFO, DONE and BUSY are in step (10_state.md R36, R38; 40_control.md R141). -/
structure State.ErrorsInStep (s : State) : Prop where
  code : s.status.err = false ↔ s.status.errCode = .none
  info : s.status.err = false → s.errInfo = ⟨0#16, 0#32⟩
  busy : s.status.busy = true → s.status.done = false ∧ s.status.err = false

/-- While FB_VALID = 1 the configuration passes its checks and the filter matrix is written (10_state.md R70). -/
def State.BankBuilt (s : State) : Prop :=
  s.status.fbValid = true →
    firstError (fbBuildChecks numerics s) = none ∧ s.bufs.fb.writtenBelow (s.nbins * s.nfilt)

/-- While WIN_VALID = 1 the frame configuration passes its checks and the window is written (10_state.md R71). -/
def State.WindowBuilt (s : State) : Prop :=
  s.status.winValid = true → firstError (winBuildChecks s) = none ∧ s.bufs.win.writtenBelow s.frameLen

/-- A stage off EMPTY has a built window and the buffers it promises (42_frame.md R212; 10_state.md R72). -/
structure State.FrameWritten (s : State) : Prop where
  winValid : s.status.frameStage ≠ .empty → s.status.winValid = true
  raw : s.status.frameStage.hasRaw = true → s.bufs.raw.writtenBelow s.frameLen
  cond : s.status.frameStage.hasCond = true → s.bufs.cond.writtenBelow s.frameLen
  wnd : s.status.frameStage.hasWnd = true → s.bufs.wnd.writtenBelow s.frameLen
  pwr : s.status.frameStage = .pwr → s.bufs.pwr.writtenBelow s.nbins

/-- What the valid flags and FRAME_STAGE promise of the configuration and the buffers (10_state.md R70 to R72). -/
def State.PromisesWritten (s : State) : Prop := s.BankBuilt ∧ s.WindowBuilt ∧ s.FrameWritten

/-- The invariant is its four parts. -/
theorem inv_iff (s : State) : s.Inv ↔ s.caps.Legal ∧ s.MemoriesFit ∧ s.ErrorsInStep ∧ s.PromisesWritten := by
  constructor
  · intro h
    exact ⟨h.caps, fun sp => ⟨h.wf sp, h.within sp⟩, ⟨h.errCode, h.errInfo, h.busy⟩,
      fun hv => ⟨h.fbConfig hv, h.fbWritten hv⟩, fun hv => ⟨h.winConfig hv, h.winWritten hv⟩,
      h.stage, h.rawWritten, h.condWritten, h.wndWritten, h.pwrWritten⟩
  · rintro ⟨hcaps, hmem, herr, hbank, hwin, hframe⟩
    exact ⟨hcaps, fun sp => (hmem sp).1, fun sp => (hmem sp).2, herr.code, herr.info, herr.busy, hframe.winValid,
      fun hv => (hwin hv).1, fun hv => (hbank hv).1, fun hv => (hwin hv).2, fun hv => (hbank hv).2,
      hframe.raw, hframe.cond, hframe.wnd, hframe.pwr⟩

/-! ### The checks a configuration has passed -/

/-- The eight checks all hold (42_frame.md R201). -/
theorem winBuildChecks_pass_iff (s : State) : firstError (winBuildChecks s) = none ↔
    s.sampleRate ≠ 0 ∧ s.frameRate ≠ 0 ∧ s.frameLen ≠ 0 ∧ s.frameLen ≤ s.caps.maxFrame ∧
    (1 < s.nfft ∧ ∃ k, s.nfft = 2 ^ k) ∧ s.nfft ≤ s.caps.maxNfft ∧ s.frameLen ≤ s.nfft ∧
    fle posZero s.cfg.alpha = true ∧ flt s.cfg.alpha cOne = true := by
  simp [firstError_none_iff, winBuildChecks, ← isPowerOfTwo_iff]

/-- The checks of a transform all hold (44_dct.md R272). -/
theorem transformChecks_pass_iff (s : State) (n k : Nat) : firstError (transformChecks s n k) = none ↔
    (n ≠ 0 ∧ k ≠ 0) ∧ (n ≤ s.caps.maxDct ∧ k ≤ s.caps.maxDct) ∧ s.src + s.rows * n ≤ s.caps.dmemWords ∧
    s.dst + s.rows * k ≤ s.caps.dmemWords := by
  simp [firstError_none_iff, transformChecks, dctSizeChecks, State.outOfDmem]

theorem dctBasisChecks_pass_iff (s : State) : firstError (dctBasisChecks s) = none ↔
    (s.argN ≠ 0 ∧ s.argK ≠ 0) ∧ (s.argN ≤ s.caps.maxDct ∧ s.argK ≤ s.caps.maxDct) ∧ isFinite s.argX = true := by
  simp [firstError_none_iff, dctBasisChecks, dctSizeChecks]

theorem fetchChecks_pass_iff (s : State) : firstError (fetchChecks s) = none ↔
    s.sigSamples ≠ 0 ∧ s.sampleRate ≠ 0 ∧ s.status.winValid = true ∧
    s.sigStart + s.sigSamples ≤ s.caps.dmemWords := by
  simp [firstError_none_iff, fetchChecks, signalChecks, State.outOfDmem]

theorem stageCheck_pass_iff (s : State) (st : FrameStage) (rest : List (Bool × CmdError)) :
    firstError (stageCheck s st :: rest) = none ↔ s.status.frameStage = st ∧ firstError rest = none := by
  simp [firstError_none_iff, stageCheck]

theorem projectChecks_pass_iff (s : State) : firstError (projectChecks s) = none ↔
    s.status.fbValid = true ∧ s.dst + s.nfilt ≤ s.caps.dmemWords := by
  simp [firstError_none_iff, projectChecks, State.outOfDmem]

/-- The power spectrum of a legal transform length fits PWR (43_spectral.md R242). -/
theorem nbins_le {s : State} {n : Nat} (h : s.nfft ≤ n) : s.nbins ≤ n / 2 + 1 :=
  Nat.add_le_add_right (Nat.div_le_div_right h) 1

/-! ### The memories under every step -/

theorem memoriesFit_congr {s t : State} (hcaps : t.caps = s.caps) (hbufs : t.bufs = s.bufs) (hdmem : t.dmem = s.dmem)
    (h : s.MemoriesFit) : t.MemoriesFit := by
  intro sp
  rw [hcaps, State.space_congr hbufs hdmem]
  exact h sp

/-- `t` is `s` with some memories written, each within its capacity. -/
def WritesWithin (s t : State) : Prop :=
  t.caps = s.caps ∧ ∀ sp, t.space sp = s.space sp ∨
    ∃ base vals, t.space sp = (s.space sp).write base vals ∧ base + vals.length ≤ sp.capacity s.caps

theorem memoriesFit_of_writesWithin {s t : State} (h : s.MemoriesFit) (hw : WritesWithin s t) : t.MemoriesFit := by
  obtain ⟨hcaps, hspace⟩ := hw
  intro sp
  obtain ⟨hwf, hwithin⟩ := h sp
  rw [hcaps]
  rcases hspace sp with heq | ⟨base, vals, heq, hfits⟩ <;> rw [heq]
  · exact ⟨hwf, hwithin⟩
  · exact ⟨Memory.write_wf hwf base vals, Memory.write_within hwithin (.inl hfits)⟩

/-- FB_BUILD writes its four buffers (41_filterbank.md R168). -/
theorem fbBuildEffects_writesWithin {nu : Numerics} {s : State} (hchecks : firstError (fbBuildChecks nu s) = none) :
    WritesWithin s (fbBuildEffects nu s) := by
  obtain ⟨-, -, hnfft, -, hnfilt, -⟩ := (fbBuildChecks_pass_iff nu s).mp hchecks
  have hfb := Nat.mul_le_mul (nbins_le hnfft) hnfilt
  refine ⟨rfl, fun sp => ?_⟩
  cases sp
  case edgeHz => exact .inr ⟨_, _, rfl, by simpa [Space.capacity] using hnfilt⟩
  case edgeBin => exact .inr ⟨_, _, rfl, by simpa [Space.capacity] using hnfilt⟩
  case fbHeight => exact .inr ⟨_, _, rfl, by simpa [Space.capacity] using hnfilt⟩
  case fb => exact .inr ⟨_, _, rfl, by simpa [Space.capacity] using hfb⟩
  all_goals exact .inl rfl

theorem winBuildEffects_writesWithin {nu : Numerics} {s : State} (hlen : s.frameLen ≤ s.caps.maxFrame) :
    WritesWithin s (winBuildEffects nu s) := by
  refine ⟨rfl, fun sp => ?_⟩
  cases sp
  case win => exact .inr ⟨_, _, rfl, by simpa [Space.capacity] using hlen⟩
  all_goals exact .inl rfl

/-- FRAME_FETCH fills the frame: the samples there are, then the padding (42_frame.md R207). -/
theorem fetch_length {s : State} {start : Nat} {samples : List Word}
    (hr : readRange .dmem s.dmem (s.sigStart + start) (s.samplesAt start) = .ok samples) :
    (samples.map canonical ++ List.replicate (s.frameLen - s.samplesAt start) posZero).length = s.frameLen := by
  have hle : s.samplesAt start ≤ s.frameLen := Nat.min_le_left _ _
  simp only [List.length_append, List.length_map, List.length_replicate, readRange_length hr]
  omega

theorem fetchEffects_writesWithin {s t : State} (hlen : s.frameLen ≤ s.caps.maxFrame) (h : fetchEffects s = .ok t) :
    WritesWithin s t := by
  obtain ⟨start, samples, -, hr, rfl⟩ := fetchEffects_ok h
  refine ⟨rfl, fun sp => ?_⟩
  cases sp
  case raw => exact .inr ⟨_, _, rfl, by rwa [fetch_length hr, Nat.zero_add]⟩
  all_goals exact .inl rfl

theorem preemphEffects_writesWithin {c : Ctx} {s t : State} (hlen : s.frameLen ≤ s.caps.maxFrame)
    (h : preemphEffects c s = .ok t) : WritesWithin s t := by
  obtain ⟨raw, last, hraw, -, rfl⟩ := preemphEffects_ok h
  refine ⟨rfl, fun sp => ?_⟩
  cases sp
  case cond => exact .inr ⟨_, _, rfl, by rwa [preemphasize_length, readRange_length hraw, Nat.zero_add]⟩
  all_goals exact .inl rfl

/-- WND is as long as the frame (42_frame.md R209). -/
theorem window_length {s : State} {cond win : List Word} (hc : readRange .cond s.bufs.cond 0 s.frameLen = .ok cond)
    (hw : readRange .win s.bufs.win 0 s.frameLen = .ok win) : (List.zipWith fmul cond win).length = s.frameLen := by
  rw [List.length_zipWith, readRange_length hc, readRange_length hw, Nat.min_self]

theorem windowEffects_writesWithin {s t : State} (hlen : s.frameLen ≤ s.caps.maxFrame)
    (h : windowEffects s = .ok t) : WritesWithin s t := by
  obtain ⟨cond, win, hc, hw, rfl⟩ := windowEffects_ok h
  refine ⟨rfl, fun sp => ?_⟩
  cases sp
  case wnd => exact .inr ⟨_, _, rfl, by rwa [window_length hc hw, Nat.zero_add]⟩
  all_goals exact .inl rfl

theorem powerEffects_writesWithin {nu : Numerics} {s t : State} (hnfft : s.nfft ≤ s.caps.maxNfft)
    (h : powerEffects nu s = .ok t) : WritesWithin s t := by
  obtain ⟨frame, -, rfl⟩ := powerEffects_ok h
  refine ⟨rfl, fun sp => ?_⟩
  cases sp
  case pwr => exact .inr ⟨_, _, rfl, by simpa [Space.capacity] using nbins_le hnfft⟩
  all_goals exact .inl rfl

theorem writeDmem_writesWithin {s : State} {base : Nat} {vals : List Word}
    (hfits : base + vals.length ≤ s.caps.dmemWords) : WritesWithin s (s.writeDmem base vals) := by
  refine ⟨rfl, fun sp => ?_⟩
  cases sp
  case dmem => exact .inr ⟨base, vals, rfl, hfits⟩
  all_goals exact .inl rfl

theorem projectEffects_writesWithin {nu : Numerics} {s t : State} (hfits : s.dst + s.nfilt ≤ s.caps.dmemWords)
    (h : projectEffects nu s = .ok t) : WritesWithin s t := by
  obtain ⟨_, _, -, -, rfl⟩ := projectEffects_ok h
  exact writeDmem_writesWithin (by simpa using hfits)

theorem dctBasisEffects_writesWithin {nu : Numerics} {o : Bool} {s : State} (hn : s.argN ≤ s.caps.maxDct)
    (hk : s.argK ≤ s.caps.maxDct) : WritesWithin s (dctBasisEffects nu o s) := by
  refine ⟨rfl, fun sp => ?_⟩
  cases sp
  case dctm => exact .inr ⟨_, _, rfl, by simpa [Space.capacity] using Nat.mul_le_mul hn hk⟩
  all_goals exact .inl rfl

/-- A transform writes its basis and its batch (44_dct.md R273, R275 to R279). -/
theorem transform_writesWithin {s : State} {rows cols base m k : Nat} {entry out : Nat → Nat → F64} {tag : BasisTag}
    {step : F64} (hrows : rows ≤ s.caps.maxDct) (hcols : cols ≤ s.caps.maxDct)
    (hfits : base + m * k ≤ s.caps.dmemWords) :
    WritesWithin s { s with
      bufs := { s.bufs with dctm := s.bufs.dctm.write 0 (rowMajor rows cols entry) }
      basisTag := tag
      basisStep := step
      dmem := s.dmem.write base (rowMajor m k out) } := by
  refine ⟨rfl, fun sp => ?_⟩
  cases sp
  case dctm => exact .inr ⟨_, _, rfl, by simpa [Space.capacity] using Nat.mul_le_mul hrows hcols⟩
  case dmem => exact .inr ⟨_, _, rfl, by rwa [rowMajor_length]⟩
  all_goals exact .inl rfl

theorem framePrepEffects_memoriesFit {c : Ctx} {s t : State} (hs : s.MemoriesFit)
    (hlen : s.frameLen ≤ s.caps.maxFrame) (h : framePrepEffects c s = .ok t) : t.MemoriesFit := by
  obtain ⟨u, v, hf, hp, hw⟩ := framePrepEffects_ok h
  have fetched := memoriesFit_of_writesWithin hs (fetchEffects_writesWithin hlen hf)
  obtain ⟨_, _, -, -, rfl⟩ := fetchEffects_ok hf
  have conditioned := memoriesFit_of_writesWithin fetched (preemphEffects_writesWithin hlen hp)
  obtain ⟨_, _, -, -, rfl⟩ := preemphEffects_ok hp
  exact memoriesFit_of_writesWithin conditioned (windowEffects_writesWithin hlen hw)

theorem logMelEffects_memoriesFit {nu : Numerics} {s t : State} (hs : s.MemoriesFit) (hnfft : s.nfft ≤ s.caps.maxNfft)
    (hfits : s.dst + s.nfilt ≤ s.caps.dmemWords) (h : logMelEffects nu s = .ok t) : t.MemoriesFit := by
  obtain ⟨u, hp, hj⟩ := logMelEffects_ok h
  have powered := memoriesFit_of_writesWithin hs (powerEffects_writesWithin hnfft hp)
  obtain ⟨_, -, rfl⟩ := powerEffects_ok hp
  exact memoriesFit_of_writesWithin powered (projectEffects_writesWithin hfits hj)

/-- The effects of every command whose checks hold write within the capacities. -/
theorem effectsOf_memoriesFit {i : Instr} {s u : State} (hs : s.MemoriesFit) (hwin : s.WindowBuilt)
    (hframe : s.FrameWritten) (hchecks : firstError (checksOf i s) = none) (hu : effectsOf i s = .ok u) :
    u.MemoriesFit := by
  have built (hv : s.status.winValid = true) : s.frameLen ≤ s.caps.maxFrame ∧ s.nfft ≤ s.caps.maxNfft := by
    obtain ⟨-, -, -, hlen, -, hnfft, -⟩ := (winBuildChecks_pass_iff s).mp (hwin hv).1
    exact ⟨hlen, hnfft⟩
  have staged {st : FrameStage} (hst : s.status.frameStage = st) (hne : st ≠ .empty) :
      s.frameLen ≤ s.caps.maxFrame ∧ s.nfft ≤ s.caps.maxNfft := built (hframe.winValid (hst ▸ hne))
  cases i
  case nop => cases hu; exact hs
  case mel => cases hu; exact memoriesFit_congr rfl rfl rfl hs
  case melInv => cases hu; exact memoriesFit_congr rfl rfl rfl hs
  case ctxReset c => cases hu; exact memoriesFit_congr rfl rfl rfl hs
  case frameCount =>
    obtain ⟨_, -, rfl⟩ := frameCountEffects_ok hu
    exact memoriesFit_congr rfl rfl rfl hs
  case fbBuild => cases hu; exact memoriesFit_of_writesWithin hs (fbBuildEffects_writesWithin hchecks)
  case winBuild =>
    cases hu
    obtain ⟨-, -, -, hlen, -⟩ := (winBuildChecks_pass_iff s).mp hchecks
    exact memoriesFit_of_writesWithin hs (winBuildEffects_writesWithin hlen)
  case frameFetch =>
    obtain ⟨-, -, hv, -⟩ := (fetchChecks_pass_iff s).mp hchecks
    exact memoriesFit_of_writesWithin hs (fetchEffects_writesWithin (built hv).1 hu)
  case preemph c =>
    obtain ⟨hst, -⟩ := (stageCheck_pass_iff s .raw []).mp hchecks
    exact memoriesFit_of_writesWithin hs (preemphEffects_writesWithin (staged hst nofun).1 hu)
  case window =>
    obtain ⟨hst, -⟩ := (stageCheck_pass_iff s .cond []).mp hchecks
    exact memoriesFit_of_writesWithin hs (windowEffects_writesWithin (staged hst nofun).1 hu)
  case framePrep c =>
    obtain ⟨-, -, hv, -⟩ := (fetchChecks_pass_iff s).mp hchecks
    exact framePrepEffects_memoriesFit hs (built hv).1 hu
  case specPower =>
    obtain ⟨hst, -⟩ := (stageCheck_pass_iff s .wnd []).mp hchecks
    exact memoriesFit_of_writesWithin hs (powerEffects_writesWithin (staged hst nofun).2 hu)
  case specProject =>
    obtain ⟨-, hrest⟩ := (stageCheck_pass_iff s .pwr _).mp hchecks
    exact memoriesFit_of_writesWithin hs (projectEffects_writesWithin ((projectChecks_pass_iff s).mp hrest).2 hu)
  case specLogMel =>
    obtain ⟨hst, hrest⟩ := (stageCheck_pass_iff s .wnd _).mp hchecks
    exact logMelEffects_memoriesFit hs (staged hst nofun).2 ((projectChecks_pass_iff s).mp hrest).2 hu
  case dctBasis o =>
    cases hu
    obtain ⟨-, ⟨hn, hk⟩, -⟩ := (dctBasisChecks_pass_iff s).mp hchecks
    exact memoriesFit_of_writesWithin hs (dctBasisEffects_writesWithin hn hk)
  case dctLegacy =>
    obtain ⟨_, -, rfl⟩ := dctLegacyEffects_ok hu
    obtain ⟨-, ⟨hnfilt, hncep⟩, -, hdst⟩ := (transformChecks_pass_iff s s.nfilt s.ncep).mp hchecks
    exact memoriesFit_of_writesWithin hs (transform_writesWithin hncep hnfilt hdst)
  case' dctOrth => obtain ⟨_, -, rfl⟩ := dctOrthEffects_ok hu
  case' dct2 => obtain ⟨_, -, rfl⟩ := dct2Effects_ok hu
  case' idctOrth => obtain ⟨_, -, rfl⟩ := idctOrthEffects_ok hu
  case' dct3 => obtain ⟨_, -, rfl⟩ := dct3Effects_ok hu
  all_goals
    obtain ⟨-, ⟨hn, hk⟩, -, hdst⟩ := (transformChecks_pass_iff s s.argN s.argK).mp hchecks
    exact memoriesFit_of_writesWithin hs (transform_writesWithin hn hk hdst)

/-- A soft reset unwrites the buffers and keeps DMEM (70_reset_and_hazards.md R361). -/
theorem softReset_memoriesFit {s : State} (hs : s.MemoriesFit) : s.softReset.MemoriesFit := by
  intro sp
  cases sp
  case dmem => exact hs .dmem
  all_goals exact ⟨List.Pairwise.nil, nofun⟩

theorem powerOnReset_memoriesFit (s : State) : s.powerOnReset.MemoriesFit := by
  intro sp
  cases sp <;> exact ⟨List.Pairwise.nil, nofun⟩

/-- A located word lies below its window's capacity (20_memory.md R88). -/
theorem lt_capacity_of_locate {caps : Caps} {a : HostAddr} {size : Nat} {sp : Space} {w : Nat}
    (h : locate caps a size = some (.word sp w)) : w < sp.capacity caps := by
  obtain ⟨-, -, ⟨r, hr, -⟩ | ⟨row, -, w', hword, hw, -⟩⟩ := of_locate h
  · cases hr
  · injection hword with hsp hw'
    rw [hsp, hw']
    exact hw

/-- A located host write stores at most one word, below DMEM's capacity, or resets the buffers. -/
theorem writeLocation_memoriesFit {s : State} {a : HostAddr} {size : Nat} (d : Word) {loc : Location}
    (hloc : locate s.caps a size = some loc) (hs : s.MemoriesFit) : (s.writeLocation d loc).MemoriesFit := by
  cases loc with
  | word sp w =>
    rw [State.writeLocation_word]
    split
    case isFalse => exact hs
    case isTrue hsp =>
      subst hsp
      exact memoriesFit_of_writesWithin hs (writeDmem_writesWithin (lt_capacity_of_locate hloc))
  | reg r =>
    cases r with
    | ctrl =>
      simp only [State.writeLocation, State.writeReg, State.writeCtrl]
      split
      · exact softReset_memoriesFit hs
      · exact memoriesFit_congr (s := s) rfl rfl rfl hs
    | status =>
      simp only [State.writeLocation, State.writeReg, State.writeStatus_eq]
      exact memoriesFit_congr (s := s) rfl rfl rfl hs
    | _ => exact memoriesFit_congr (s := s) rfl rfl rfl hs

/-! ### The error state under every step -/

theorem errorsInStep_congr {s t : State} (hbusy : t.status.busy = s.status.busy) (hdone : t.status.done = s.status.done)
    (herr : t.status.err = s.status.err) (hcode : t.status.errCode = s.status.errCode) (hinfo : t.errInfo = s.errInfo)
    (h : s.ErrorsInStep) : t.ErrorsInStep := by
  obtain ⟨hc, hi, hb⟩ := h
  refine ⟨?_, ?_, ?_⟩
  · rwa [herr, hcode]
  · rwa [herr, hinfo]
  · rwa [hbusy, hdone, herr]

theorem errorComplete_errorsInStep (s : State) {e : CmdError} (he : e.code ≠ .none) :
    (s.errorComplete e).ErrorsInStep :=
  ⟨⟨nofun, fun h => absurd h he⟩, nofun, nofun⟩

theorem complete_errorsInStep {s : State} (h : s.ErrorsInStep) : s.complete.ErrorsInStep := ⟨h.code, h.info, nofun⟩

theorem softReset_errorsInStep (s : State) : s.softReset.ErrorsInStep :=
  ⟨⟨fun _ => rfl, fun _ => rfl⟩, fun _ => rfl, nofun⟩

theorem writeStatus_errorsInStep {s : State} (d : Word) (h : s.ErrorsInStep) : (s.writeStatus d).ErrorsInStep := by
  obtain ⟨hcode, hinfo, hbusy⟩ := h
  rw [State.writeStatus_eq]
  refine ⟨?_, ?_, fun hb => by simp [hbusy hb]⟩
  · cases d.getLsbD 2 <;> simp [hcode]
  · cases d.getLsbD 2 <;> simp +contextual [hinfo]

theorem writeLocation_errorsInStep {s : State} (d : Word) (loc : Location) (h : s.ErrorsInStep) :
    (s.writeLocation d loc).ErrorsInStep := by
  cases loc with
  | word sp w =>
    rw [State.writeLocation_word]
    split
    · exact errorsInStep_congr (s := s) rfl rfl rfl rfl rfl h
    · exact h
  | reg r =>
    cases r with
    | ctrl =>
      simp only [State.writeLocation, State.writeReg, State.writeCtrl]
      split
      · exact softReset_errorsInStep s
      · exact errorsInStep_congr (s := s) rfl rfl rfl rfl rfl h
    | status => exact writeStatus_errorsInStep d h
    | cmd => exact ⟨⟨fun _ => rfl, fun _ => rfl⟩, fun _ => rfl, fun _ => ⟨rfl, rfl⟩⟩
    | _ => exact errorsInStep_congr (s := s) rfl rfl rfl rfl rfl h

/-! ### The promises of the flags under every step -/

/-- `n` words written from 0 on are written. -/
theorem Memory.write_writtenBelow (m : Memory) {n : Nat} {vals : List Word} (hn : vals.length = n) :
    (m.write 0 vals).writtenBelow n := by
  intro i hi
  rw [Memory.read_write, if_pos (by omega)]
  simp [hn, hi]

theorem bankBuilt_congr {s t : State} (hcaps : t.caps = s.caps) (hcfg : t.cfg = s.cfg)
    (hvalid : t.status.fbValid = s.status.fbValid) (hfb : t.bufs.fb = s.bufs.fb) (h : s.BankBuilt) : t.BankBuilt := by
  simp only [State.BankBuilt, fbBuildChecks_pass_iff, State.sampleRate, State.nbins, State.nfft, State.nfilt] at h ⊢
  rwa [hcaps, hcfg, hvalid, hfb]

theorem windowBuilt_congr {s t : State} (hcaps : t.caps = s.caps) (hcfg : t.cfg = s.cfg)
    (hvalid : t.status.winValid = s.status.winValid) (hwin : t.bufs.win = s.bufs.win) (h : s.WindowBuilt) :
    t.WindowBuilt := by
  simp only [State.WindowBuilt, winBuildChecks_pass_iff, State.sampleRate, State.frameRate, State.nfft,
    State.frameLen] at h ⊢
  rwa [hcaps, hcfg, hvalid, hwin]

theorem frameWritten_congr {s t : State} (hcfg : t.cfg = s.cfg) (hstage : t.status.frameStage = s.status.frameStage)
    (hvalid : s.status.winValid = true → t.status.winValid = true) (hraw : t.bufs.raw = s.bufs.raw)
    (hcond : t.bufs.cond = s.bufs.cond) (hwnd : t.bufs.wnd = s.bufs.wnd) (hpwr : t.bufs.pwr = s.bufs.pwr)
    (h : s.FrameWritten) : t.FrameWritten := by
  obtain ⟨hv, hr, hc, hw, hp⟩ := h
  simp only [State.frameLen, State.nbins, State.nfft] at hr hc hw hp
  refine ⟨?_, ?_, ?_, ?_, ?_⟩ <;>
    simp only [State.frameLen, State.nbins, State.nfft, hcfg, hstage, hraw, hcond, hwnd, hpwr]
  · exact fun hst => hvalid (hv hst)
  · exact hr
  · exact hc
  · exact hw
  · exact hp

/-- Nothing is promised of a frame at stage EMPTY. -/
theorem frameWritten_of_empty {s : State} (h : s.status.frameStage = .empty) : s.FrameWritten := by
  refine ⟨fun hne => absurd h hne, ?_, ?_, ?_, ?_⟩ <;> rw [h] <;> nofun

theorem promisesWritten_congr {s t : State} (hcaps : t.caps = s.caps) (hsame : SamePipeline s t)
    (h : s.PromisesWritten) : t.PromisesWritten := by
  obtain ⟨hcfg, hbufs, hfb, hwin, hstage⟩ := hsame
  obtain ⟨hbank, hwindow, hframe⟩ := h
  exact ⟨bankBuilt_congr hcaps hcfg hfb (congrArg _ hbufs) hbank,
    windowBuilt_congr hcaps hcfg hwin (congrArg _ hbufs) hwindow,
    frameWritten_congr hcfg hstage (fun hv => hwin.trans hv) (congrArg _ hbufs) (congrArg _ hbufs) (congrArg _ hbufs)
      (congrArg _ hbufs) hframe⟩

theorem softReset_promisesWritten (s : State) : s.softReset.PromisesWritten :=
  ⟨nofun, nofun, frameWritten_of_empty rfl⟩

/-- A configuration write clears the flags of what depends on its register (10_state.md R74). -/
theorem writeCfg_promisesWritten {s : State} (r : CfgReg) (d : Word) (h : s.PromisesWritten) :
    (s.writeCfg r d).PromisesWritten := by
  obtain ⟨hbank, hwindow, hframe⟩ := h
  refine ⟨fun hvalid => ?_, fun hvalid => ?_, ?_⟩
  · obtain ⟨hs, hr⟩ : s.status.fbValid = true ∧ r.clearsFb = false := by
      simpa [Status.afterCfgWrite] using hvalid
    cases r
    case frameRate | frameDur | ncep | alpha => exact hbank hs
    all_goals cases hr
  · obtain ⟨hs, hr⟩ : s.status.winValid = true ∧ r.clearsWin = false := by
      simpa [Status.afterCfgWrite] using hvalid
    cases r
    case nfilt | ncep | lowerFreq | upperFreq => exact hwindow hs
    all_goals cases hr
  · cases r
    case nfilt | ncep | lowerFreq | upperFreq =>
      refine ⟨fun hst => ?_, hframe.raw, hframe.cond, hframe.wnd, hframe.pwr⟩
      simpa [Status.afterCfgWrite, CfgReg.clearsWin] using hframe.winValid hst
    all_goals exact frameWritten_of_empty rfl

theorem writeLocation_promisesWritten {s : State} (d : Word) (loc : Location) (h : s.PromisesWritten) :
    (s.writeLocation d loc).PromisesWritten := by
  rcases writeLocation_pipeline s d loc with hsame | ⟨r, hcfg⟩ | hreset
  · exact promisesWritten_congr (s.writeLocation_caps d loc) hsame h
  · exact hcfg ▸ writeCfg_promisesWritten r d h
  · exact hreset ▸ softReset_promisesWritten s

/-- FB_BUILD writes the filter matrix of the configuration it checked; no other command writes FB or FB_VALID. -/
theorem effectsOf_bankBuilt {i : Instr} {s u : State} (hs : s.BankBuilt)
    (hchecks : firstError (checksOf i s) = none) (hu : effectsOf i s = .ok u) : u.BankBuilt := by
  by_cases hi : i = .fbBuild
  · subst hi
    cases hu
    exact fun _ => ⟨hchecks, Memory.write_writtenBelow _ (rowMajor_length _ _ _)⟩
  · have hframe := effectsOf_effectFrame hu
    obtain ⟨hcaps, -, -, -, hcfg, -⟩ := effectsOf_frame hu
    obtain ⟨-, hnot⟩ := filterBank_not_mem_bufferTargets hi .fb (by decide)
    exact bankBuilt_congr hcaps hcfg (by simp [hframe.fbValid, hi]) (hframe.buffers .fb nofun hnot) hs

/-- WIN_BUILD writes the window of the configuration it checked; no other command writes WIN or WIN_VALID. -/
theorem effectsOf_windowBuilt {i : Instr} {s u : State} (hs : s.WindowBuilt)
    (hchecks : firstError (checksOf i s) = none) (hu : effectsOf i s = .ok u) : u.WindowBuilt := by
  by_cases hi : i = .winBuild
  · subst hi
    cases hu
    exact fun _ => ⟨hchecks, Memory.write_writtenBelow _ (by rw [List.length_map, List.length_range]; rfl)⟩
  · have hframe := effectsOf_effectFrame hu
    obtain ⟨hcaps, -, -, -, hcfg, -⟩ := effectsOf_frame hu
    exact windowBuilt_congr hcaps hcfg (by simp [hframe.winValid, hi])
      (hframe.buffers .win nofun (win_not_mem_bufferTargets hi)) hs

theorem fetchEffects_frameWritten {s t : State} (hv : s.status.winValid = true) (h : fetchEffects s = .ok t) :
    t.FrameWritten ∧ t.status.frameStage = .raw := by
  obtain ⟨start, samples, -, hr, rfl⟩ := fetchEffects_ok h
  exact ⟨⟨fun _ => hv, fun _ => Memory.write_writtenBelow _ (fetch_length hr), nofun, nofun, nofun⟩, rfl⟩

theorem preemphEffects_frameWritten {c : Ctx} {s t : State} (hs : s.FrameWritten) (hst : s.status.frameStage = .raw)
    (h : preemphEffects c s = .ok t) : t.FrameWritten ∧ t.status.frameStage = .cond := by
  obtain ⟨raw, last, hraw, -, rfl⟩ := preemphEffects_ok h
  have hcond := (preemphasize_length s.cfg.alpha (s.priorOf c) raw).trans (readRange_length hraw)
  exact ⟨⟨fun _ => hs.winValid (by rw [hst]; nofun), fun _ => hs.raw (by rw [hst]; rfl),
    fun _ => Memory.write_writtenBelow _ hcond, nofun, nofun⟩, rfl⟩

theorem windowEffects_frameWritten {s t : State} (hs : s.FrameWritten) (hst : s.status.frameStage = .cond)
    (h : windowEffects s = .ok t) : t.FrameWritten := by
  obtain ⟨cond, win, hc, hw, rfl⟩ := windowEffects_ok h
  exact ⟨fun _ => hs.winValid (by rw [hst]; nofun), fun _ => hs.raw (by rw [hst]; rfl),
    fun _ => hs.cond (by rw [hst]; rfl), fun _ => Memory.write_writtenBelow _ (window_length hc hw), nofun⟩

theorem powerEffects_frameWritten {nu : Numerics} {s t : State} (hs : s.FrameWritten)
    (hst : s.status.frameStage = .wnd) (h : powerEffects nu s = .ok t) : t.FrameWritten := by
  obtain ⟨frame, -, rfl⟩ := powerEffects_ok h
  exact ⟨fun _ => hs.winValid (by rw [hst]; nofun), fun _ => hs.raw (by rw [hst]; rfl),
    fun _ => hs.cond (by rw [hst]; rfl), fun _ => hs.wnd (by rw [hst]; rfl),
    fun _ => Memory.write_writtenBelow _ (by rw [List.length_map, List.length_range]; rfl)⟩

/-- A command that neither moves the stage nor writes a frame buffer keeps the frame. -/
theorem frameWritten_of_untouched {i : Instr} {s u : State} (hu : effectsOf i s = .ok u) (hstage : stageAfter i = none)
    (hbufs : ∀ sp ∈ [Space.raw, .cond, .wnd, .pwr], sp ∉ bufferTargets i) (hs : s.FrameWritten) : u.FrameWritten := by
  have hframe := effectsOf_effectFrame hu
  have kept {sp : Space} (hsp : sp ∈ [Space.raw, .cond, .wnd, .pwr]) : u.space sp = s.space sp :=
    hframe.buffers sp (by rintro rfl; simp at hsp) (hbufs sp hsp)
  exact frameWritten_congr (by simp [effectsOf_frame hu]) (by rw [hframe.stage, hstage, Option.getD_none])
    (fun hv => by rw [hframe.winValid, hv, Bool.true_or]) (kept (sp := .raw) (by decide))
    (kept (sp := .cond) (by decide)) (kept (sp := .wnd) (by decide)) (kept (sp := .pwr) (by decide)) hs

/-- The effects of every command that starts at the stage its checks ask for write the buffers of its new stage. -/
theorem effectsOf_frameWritten {i : Instr} {s u : State} (hs : s.FrameWritten)
    (hchecks : firstError (checksOf i s) = none) (hu : effectsOf i s = .ok u) : u.FrameWritten := by
  cases i
  case frameFetch =>
    obtain ⟨-, -, hv, -⟩ := (fetchChecks_pass_iff s).mp hchecks
    exact (fetchEffects_frameWritten hv hu).1
  case preemph c =>
    obtain ⟨hst, -⟩ := (stageCheck_pass_iff s .raw []).mp hchecks
    exact (preemphEffects_frameWritten hs hst hu).1
  case window =>
    obtain ⟨hst, -⟩ := (stageCheck_pass_iff s .cond []).mp hchecks
    exact windowEffects_frameWritten hs hst hu
  case framePrep c =>
    obtain ⟨-, -, hv, -⟩ := (fetchChecks_pass_iff s).mp hchecks
    obtain ⟨t, v, hf, hp, hw⟩ := framePrepEffects_ok hu
    obtain ⟨ht, hraw⟩ := fetchEffects_frameWritten hv hf
    obtain ⟨hv, hcond⟩ := preemphEffects_frameWritten ht hraw hp
    exact windowEffects_frameWritten hv hcond hw
  case specPower =>
    obtain ⟨hst, -⟩ := (stageCheck_pass_iff s .wnd []).mp hchecks
    exact powerEffects_frameWritten hs hst hu
  case specLogMel =>
    obtain ⟨hst, -⟩ := (stageCheck_pass_iff s .wnd _).mp hchecks
    obtain ⟨t, hp, hj⟩ := logMelEffects_ok hu
    have powered := powerEffects_frameWritten hs hst hp
    obtain ⟨_, _, -, -, rfl⟩ := projectEffects_ok hj
    exact frameWritten_congr (s := t) rfl rfl id rfl rfl rfl rfl powered
  all_goals exact frameWritten_of_untouched hu rfl (by simp [bufferTargets]) hs

theorem effectsOf_promisesWritten {i : Instr} {s u : State} (hs : s.PromisesWritten)
    (hchecks : firstError (checksOf i s) = none) (hu : effectsOf i s = .ok u) : u.PromisesWritten := by
  obtain ⟨hbank, hwindow, hframe⟩ := hs
  exact ⟨effectsOf_bankBuilt hbank hchecks hu, effectsOf_windowBuilt hwindow hchecks hu,
    effectsOf_frameWritten hframe hchecks hu⟩

/-! ### The invariant under every step -/

theorem inv_complete {s : State} (h : s.Inv) : s.complete.Inv := by
  obtain ⟨hcaps, hmem, herr, hprom⟩ := (inv_iff s).mp h
  exact (inv_iff _).mpr ⟨hcaps, memoriesFit_congr (s := s) rfl rfl rfl hmem, complete_errorsInStep herr,
    promisesWritten_congr (s := s) rfl ⟨rfl, rfl, rfl, rfl, rfl⟩ hprom⟩

theorem inv_errorComplete {s : State} {e : CmdError} (he : e.code ≠ .none) (h : s.Inv) : (s.errorComplete e).Inv := by
  obtain ⟨hcaps, hmem, -, hprom⟩ := (inv_iff s).mp h
  exact (inv_iff _).mpr ⟨hcaps, memoriesFit_congr (s := s) rfl rfl rfl hmem, errorComplete_errorsInStep s he,
    promisesWritten_congr (s := s) rfl ⟨rfl, rfl, rfl, rfl, rfl⟩ hprom⟩

theorem inv_effectsOf {i : Instr} {s u : State} (h : s.Inv) (hchecks : firstError (checksOf i s) = none)
    (hu : effectsOf i s = .ok u) : u.Inv := by
  obtain ⟨hcaps, hmem, herr, hbank, hwindow, hframe⟩ := (inv_iff s).mp h
  obtain ⟨hc, -, -, hinfo, -, -, -, -, -, -, -, -, hbusy, hdone, herr', hcode, -⟩ := effectsOf_frame hu
  exact (inv_iff u).mpr ⟨hc ▸ hcaps, effectsOf_memoriesFit hmem hwindow hframe hchecks hu,
    errorsInStep_congr hbusy hdone herr' hcode hinfo herr,
    effectsOf_promisesWritten ⟨hbank, hwindow, hframe⟩ hchecks hu⟩

theorem inv_writeLocation {s : State} {a : HostAddr} {size : Nat} (d : Word) {loc : Location}
    (hloc : locate s.caps a size = some loc) (h : s.Inv) : (s.writeLocation d loc).Inv := by
  obtain ⟨hcaps, hmem, herr, hprom⟩ := (inv_iff s).mp h
  exact (inv_iff _).mpr ⟨(s.writeLocation_caps d loc).symm ▸ hcaps, writeLocation_memoriesFit d hloc hmem,
    writeLocation_errorsInStep d loc herr, writeLocation_promisesWritten d loc hprom⟩

theorem inv_powerOnReset {s : State} (h : s.Inv) : s.powerOnReset.Inv :=
  (inv_iff _).mpr ⟨h.caps, powerOnReset_memoriesFit s,
    errorsInStep_congr (s := s.softReset) rfl rfl rfl rfl rfl (softReset_errorsInStep s),
    promisesWritten_congr (s := s.softReset) rfl ⟨rfl, rfl, rfl, rfl, rfl⟩ (softReset_promisesWritten s)⟩

/-- No part of the invariant speaks of the model's own fields (logs 6, 7). -/
theorem inv_own {s : State} (inputs : List HostInput) (response : Option BusResponse) (delay : Nat) (h : s.Inv) :
    ({ s with inputs := inputs, response := response, engineDelay := delay } : State).Inv := by
  obtain ⟨hcaps, hmem, herr, hprom⟩ := (inv_iff s).mp h
  exact (inv_iff _).mpr ⟨hcaps, memoriesFit_congr (s := s) rfl rfl rfl hmem,
    errorsInStep_congr (s := s) rfl rfl rfl rfl rfl herr,
    promisesWritten_congr (s := s) rfl ⟨rfl, rfl, rfl, rfl, rfl⟩ hprom⟩

/-- Settles O16: everything a step is made of keeps the invariant, part by part. -/
theorem stepKeepsInvariant : Obligations.StepKeepsInvariant := fun _ _ hinv h =>
  step_keeps (fun _ inputs response delay hu => inv_own inputs response delay hu) (fun _ hu => inv_powerOnReset hu)
    (fun _ _ _ d _ hloc hu => inv_writeLocation d hloc hu) (fun _ he => inv_errorComplete he hinv)
    (fun _ _ hchecks hu => inv_complete (inv_effectsOf hinv hchecks hu)) hinv h

end Sys2Proof.Machine
end

section
/-! The pipeline contexts: CTX_RESET, and what a command that does not name a context knows of its PRIOR (42_frame.md
R206, R213). -/

namespace Sys2Proof.Machine

/-! ### Writing PRIOR twice -/

theorem State.setPrior_setPrior_self (s : State) (c : Ctx) (v w : F64) :
    (s.setPrior c v).setPrior c w = s.setPrior c w := by
  simp [State.setPrior]

theorem State.setPrior_comm (s : State) {c c' : Ctx} (v w : F64) (h : c ≠ c') :
    (s.setPrior c v).setPrior c' w = (s.setPrior c' w).setPrior c v := by
  have hn : c.toNat ≠ c'.toNat := fun e => h (BitVec.eq_of_toNat_eq e)
  simp [State.setPrior, Vector.set_comm _ _ hn]

theorem State.priorOf_setPrior (s : State) (c c' : Ctx) (v : F64) :
    (s.setPrior c v).priorOf c' = if c' = c then v else s.priorOf c' := by
  split
  case isTrue h => rw [h, State.priorOf_setPrior_self]
  case isFalse h => exact s.priorOf_setPrior_other v h

/-! ### CTX_RESET -/

theorem exec_ctxReset (c : Ctx) (s : State) : exec (.ctxReset c) s = .next (s.setPrior c posZero).complete :=
  exec_of_effects rfl rfl

/-- The word of CTX_RESET passes every decode check but the range of its context (30_encoding.md R112, R114). -/
theorem decode_encode_ctxReset (numCtx : Nat) (c : Ctx) :
    decode numCtx (encode (.ctxReset c)) =
      if c.toNat < numCtx then .ok (.ctxReset c) else .error .ctxOutOfRange := by
  split
  case isTrue h => exact decodeOfEncode numCtx (.ctxReset c) (decide_eq_true h)
  case isFalse h =>
    obtain ⟨hopcode, hctx, -, hlow, hreserved, hhigh⟩ := fields_encode (.ctxReset c)
    have hop : opcodeAt (Instr.ctxReset c).opcode = some .ctxReset := rfl
    simp [decode, hopcode, hctx, hlow, hreserved, hhigh, hop, Opcode.usesCtx, Instr.ctx?, not_lt.mp h]

theorem encode_ctxReset (c : Ctx) : encode (.ctxReset c) = BitVec.ofNat 64 (0x21 + c.toNat * 256) := by
  rcases ctx_cases c with rfl | rfl | rfl | rfl <;> rfl

/-- Settles O38: the effect is one write of PRIOR, and the word is that of the command. -/
theorem ctxResetClearsPrior : Obligations.CtxResetClearsPrior := by
  refine ⟨fun s c => ⟨_, exec_ctxReset c s, rfl, fun c' => s.priorOf_setPrior c c' posZero⟩, fun numCtx c => ?_⟩
  rw [← encode_ctxReset]
  exact decode_encode_ctxReset numCtx c

/-! ### Contexts do not meet -/

section
variable {s : State} {c : Ctx} (v : F64)

/-- No check of a command reads PRIOR. -/
theorem checksOf_setPrior (i : Instr) : checksOf i (s.setPrior c v) = checksOf i s := by
  cases i <;> rfl

/-! No operand of the frame and spectral commands and of the transforms is PRIOR. -/

theorem State.setPrior_frameLen : (s.setPrior c v).frameLen = s.frameLen := rfl

theorem State.setPrior_nbins : (s.setPrior c v).nbins = s.nbins := rfl

theorem State.setPrior_nfilt : (s.setPrior c v).nfilt = s.nfilt := rfl

theorem State.setPrior_ncep : (s.setPrior c v).ncep = s.ncep := rfl

theorem State.setPrior_argN : (s.setPrior c v).argN = s.argN := rfl

theorem State.setPrior_argK : (s.setPrior c v).argK = s.argK := rfl

theorem frameCountEffects_setPrior :
    frameCountEffects (s.setPrior c v) = (frameCountEffects s).map fun t => t.setPrior c v := by
  have hcount : frameCountOf (s.setPrior c v).fshift (s.setPrior c v).sigSamples =
    frameCountOf s.fshift s.sigSamples := rfl
  unfold frameCountEffects
  rw [hcount]
  cases frameCountOf s.fshift s.sigSamples <;> rfl

theorem fetchEffects_setPrior :
    fetchEffects (s.setPrior c v) = (fetchEffects s).map fun t => t.setPrior c v := by
  have hstart : frameStart (s.setPrior c v).fshift (s.setPrior c v).frameIndex =
    frameStart s.fshift s.frameIndex := rfl
  have hread (start : Nat) : readRange .dmem (s.setPrior c v).dmem ((s.setPrior c v).sigStart + start)
      ((s.setPrior c v).samplesAt start) = readRange .dmem s.dmem (s.sigStart + start) (s.samplesAt start) := rfl
  unfold fetchEffects
  simp only [hstart, hread]
  cases frameStart s.fshift s.frameIndex with
  | none => rfl
  | some start =>
    dsimp only
    cases readRange .dmem s.dmem (s.sigStart + start) (s.samplesAt start) <;> rfl

theorem preemphEffects_setPrior {c' : Ctx} (h : c' ≠ c) :
    preemphEffects c' (s.setPrior c v) = (preemphEffects c' s).map fun t => t.setPrior c v := by
  unfold preemphEffects
  rw [State.setPrior_bufs, State.setPrior_frameLen, s.priorOf_setPrior_other v h]
  cases readRange .raw s.bufs.raw 0 s.frameLen with
  | error f => rfl
  | ok raw =>
    dsimp only
    cases raw.getLast? with
    | none => rfl
    | some last => exact congrArg Except.ok (State.setPrior_comm { s with
        bufs := { s.bufs with cond := s.bufs.cond.write 0 (preemphasize s.cfg.alpha (s.priorOf c') raw) }
        status := { s.status with frameStage := .cond } } v (canonical last) h.symm)

theorem windowEffects_setPrior :
    windowEffects (s.setPrior c v) = (windowEffects s).map fun t => t.setPrior c v := by
  unfold windowEffects
  rw [State.setPrior_bufs, State.setPrior_frameLen]
  cases readRange .cond s.bufs.cond 0 s.frameLen with
  | error f => rfl
  | ok cond =>
    dsimp only
    cases readRange .win s.bufs.win 0 s.frameLen <;> rfl

theorem framePrepEffects_setPrior {c' : Ctx} (h : c' ≠ c) :
    framePrepEffects c' (s.setPrior c v) = (framePrepEffects c' s).map fun t => t.setPrior c v := by
  unfold framePrepEffects
  rw [fetchEffects_setPrior]
  cases fetchEffects s with
  | error f => rfl
  | ok t =>
    simp only [Except.map, preemphEffects_setPrior v h]
    cases preemphEffects c' t with
    | error f => rfl
    | ok u => exact windowEffects_setPrior v

theorem powerEffects_setPrior (nu : Numerics) :
    powerEffects nu (s.setPrior c v) = (powerEffects nu s).map fun t => t.setPrior c v := by
  have hread : readRange .wnd (s.setPrior c v).bufs.wnd 0 (min (s.setPrior c v).frameLen (s.setPrior c v).nfft) =
    readRange .wnd s.bufs.wnd 0 (min s.frameLen s.nfft) := rfl
  unfold powerEffects
  rw [hread]
  cases readRange .wnd s.bufs.wnd 0 (min s.frameLen s.nfft) <;> rfl

theorem projectEffects_setPrior (nu : Numerics) :
    projectEffects nu (s.setPrior c v) = (projectEffects nu s).map fun t => t.setPrior c v := by
  unfold projectEffects
  rw [State.setPrior_bufs, State.setPrior_nbins, State.setPrior_nfilt]
  cases readRange .pwr s.bufs.pwr 0 s.nbins with
  | error f => rfl
  | ok p =>
    dsimp only
    cases readRange .fb s.bufs.fb 0 (s.nbins * s.nfilt) <;> rfl

theorem logMelEffects_setPrior (nu : Numerics) :
    logMelEffects nu (s.setPrior c v) = (logMelEffects nu s).map fun t => t.setPrior c v := by
  unfold logMelEffects
  rw [powerEffects_setPrior]
  cases powerEffects nu s with
  | error f => rfl
  | ok t => exact projectEffects_setPrior v nu

theorem applyBatch_setPrior (n k : Nat) (f : List F64 → Nat → F64) :
    applyBatch (s.setPrior c v) n k f = (applyBatch s n k f).map fun t => t.setPrior c v := by
  have hread : readRange .dmem (s.setPrior c v).dmem (s.setPrior c v).src ((s.setPrior c v).rows * n) =
    readRange .dmem s.dmem s.src (s.rows * n) := rfl
  unfold applyBatch
  rw [hread]
  cases readRange .dmem s.dmem s.src (s.rows * n) <;> rfl

/-- A transform writes its basis and its batch apart from PRIOR. -/
theorem transformEffects_setPrior (variant : BasisVariant) (orth : Bool) (rows cols n k : Nat) (step : F64)
    (entry : Nat → Nat → F64) (f : List F64 → Nat → F64) :
    applyBatch ((s.setPrior c v).setBasis variant orth rows cols step entry) n k f =
      (applyBatch (s.setBasis variant orth rows cols step entry) n k f).map fun t => t.setPrior c v :=
  applyBatch_setPrior (s := s.setBasis variant orth rows cols step entry) v n k f

/-- The effects of a command that does not name context `c` neither read nor write PRIOR[c] (42_frame.md R213). -/
theorem effectsOf_setPrior {i : Instr} (h : i.ctx? ≠ some c) :
    effectsOf i (s.setPrior c v) = (effectsOf i s).map fun t => t.setPrior c v := by
  have other {c' : Ctx} (h : some c' ≠ some c) : c' ≠ c := fun e => h (congrArg some e)
  cases i
  case ctxReset c' => exact congrArg Except.ok (s.setPrior_comm v posZero (other h).symm)
  case frameCount => exact frameCountEffects_setPrior v
  case frameFetch => exact fetchEffects_setPrior v
  case preemph c' => exact preemphEffects_setPrior v (other h)
  case window => exact windowEffects_setPrior v
  case framePrep c' => exact framePrepEffects_setPrior v (other h)
  case specPower => exact powerEffects_setPrior v numerics
  case specProject => exact projectEffects_setPrior v numerics
  case specLogMel => exact logMelEffects_setPrior v numerics
  case dctOrth | dct2 | idctOrth | dct3 | dctLegacy =>
    simp only [effectsOf, dctOrthEffects, dct2Effects, idctOrthEffects, dct3Effects, dctLegacyEffects,
      State.setPrior_argN, State.setPrior_argK, State.setPrior_nfilt, State.setPrior_ncep, transformEffects_setPrior]
  all_goals rfl

end

/-- Settles O21: checks and effects do not meet PRIOR[c], and CTX_RESET writes over it. -/
theorem contextsAreIsolated : Obligations.ContextsAreIsolated := by
  refine ⟨fun i s c v hctx => ⟨fun t h => ?_, fun f h => ?_⟩, fun s c v => ?_⟩
  · rcases exec_cases h with ⟨e, he, rfl⟩ | ⟨hchecks, u, hu, rfl⟩
    · exact exec_of_error (by rwa [checksOf_setPrior])
    · exact exec_of_effects (u := u.setPrior c v) (by rwa [checksOf_setPrior])
        (by rw [effectsOf_setPrior v hctx, hu]; rfl)
  · obtain ⟨hchecks, hf⟩ := exec_fault h
    exact exec_of_fault (by rwa [checksOf_setPrior]) (by rw [effectsOf_setPrior v hctx, hf]; rfl)
  · rw [exec_ctxReset, exec_ctxReset, State.setPrior_setPrior_self]

end Sys2Proof.Machine
end

section
/-! WIN_BUILD check by check, and the window it writes (42_frame.md R201, R203, R204). -/

namespace Sys2Proof.Machine

/-- Settles O39: the checks of the list one after the other, each with its condition in the words of R201. -/
theorem winBuildChecksInOrder : Obligations.WinBuildChecksInOrder := by
  intro s
  refine ite_check (e := ⟨.invalidConfiguration, 10, 0⟩) rfl decide_eq_true_iff fun h10 => ?_
  refine ite_check (e := ⟨.invalidConfiguration, 11, 0⟩) h10 decide_eq_true_iff fun h11 => ?_
  refine ite_check (e := ⟨.invalidConfiguration, 12, 0⟩) h11 decide_eq_true_iff fun h12 => ?_
  refine ite_check (e := ⟨.capacityExceeded, 13, 0⟩) h12 decide_eq_true_iff fun h13 => ?_
  refine ite_check (e := ⟨.invalidConfiguration, 14, 0⟩) h13 ?_ fun h14 => ?_
  · rw [Bool.or_eq_true, decide_eq_true_iff, Bool.not_eq_true', ← isPowerOfTwo_eq_false_iff]
    rfl
  refine ite_check (e := ⟨.capacityExceeded, 15, 0⟩) h14 decide_eq_true_iff fun h15 => ?_
  refine ite_check (e := ⟨.invalidConfiguration, 16, 0⟩) h15 decide_eq_true_iff fun h16 => ?_
  refine ite_check (e := ⟨.invalidConfiguration, 17, 0⟩) h16 ?_ fun h17 => ?_
  · rw [Bool.not_eq_true', ← Bool.not_eq_true, Bool.and_eq_true]
    rfl
  exact ⟨_, h17, rfl, rfl⟩

theorem exec_winBuild {s : State} (h : firstError (winBuildChecks s) = none) :
    exec .winBuild s = .next (winBuildEffects numerics s).complete := exec_of_effects h rfl

theorem winBuild_peek_win (s : State) (n : Nat) : (winBuildEffects numerics s).complete.peek .win n =
    if n < s.frameLen then some (windowValue numerics s.frameLen n) else s.peek .win n :=
  Memory.read_write_zero_values _ _ _ _

/-- Settles O40: with all eight checks passed the effects are complete, and WIN reads as R203's formula. -/
theorem winBuildWritesWindow : Obligations.WinBuildWritesWindow := by
  intro s len hsr hfr hlen hmax h2 hpow hnfft hfits hge hlt
  have hpass := (winBuildChecks_pass_iff s).mpr ⟨hsr, hfr, hlen, hmax, ⟨h2, hpow⟩, hnfft, hfits, hge, hlt⟩
  exact ⟨_, exec_winBuild hpass, rfl, winBuild_peek_win s⟩

end Sys2Proof.Machine
end

section
/-! Frame placement (42_frame.md R202): the quotients and products of the rates, of an index and of a length stay far
below the overflow bound; and FRAME_COUNT, which rounds one of them (R205). -/

namespace Sys2Proof.Machine

/-! ### The size of a rounded value -/

/-- 2^128 lies below the overflow bound of 00_scope.md R11. -/
theorem two_pow_lt_overflow : (2 : ℝ) ^ 128 < 2 ^ 1024 - 2 ^ 970 := by
  obtain ⟨t, ht, e0, _, e2⟩ := overflow_powers
  have hle : (2 : ℝ) ^ 128 ≤ 2 ^ 970 := pow_le_pow_right₀ one_le_two (by decide)
  rw [e0] at hle
  rw [e0, e2]
  linarith only [ht, hle]

/-- A value below the overflow bound rounds to a finite number. -/
theorem RoundsTo.isFinite_of_abs_le {r : F64} {v : ℝ} (h : RoundsTo r v) (hv : |v| ≤ 2 ^ 128) : isFinite r = true := by
  have hlt := lt_of_le_of_lt hv two_pow_lt_overflow
  refine (isFinite_iff_not r).mpr ⟨h.notNaN, ?_⟩
  rw [← Bool.not_eq_true]
  exact fun hi => not_le.mpr hlt (h.overflow hi)

/-- The part of a unit in `RoundsTo.abs_sub_le` is no more than 2^-60. -/
theorem rounding_slack_le : 6 / 10 / (unitsPerOne : ℝ) ≤ 1 / 2 ^ 60 := by
  have hle : (2 : ℝ) ^ 60 ≤ unitsPerOne := by
    rw [unitsPerOne_real]
    exact pow_le_pow_right₀ one_le_two (by decide)
  rw [div_le_div_iff₀ unitsPerOne_pos (by positivity)]
  linarith

/-- Rounding at most doubles a magnitude, but for a part of a unit. -/
theorem RoundsTo.abs_realOf_le {r : F64} {v : ℝ} (h : RoundsTo r v) (hf : isFinite r = true) :
    |realOf r| ≤ 2 * |v| + 1 := by
  have herr := h.abs_sub_le hf
  have hslack := rounding_slack_le
  have htri := abs_sub_abs_le_abs_sub (realOf r) v
  have hv := abs_nonneg v
  linarith

/-- Rounding keeps at least half of a magnitude from 2^-40 on. -/
theorem RoundsTo.half_le_realOf {r : F64} {v : ℝ} (h : RoundsTo r v) (hf : isFinite r = true) (hv : 1 / 2 ^ 40 ≤ v) :
    v / 2 ≤ realOf r := by
  have herr := h.abs_sub_le hf
  have hslack := rounding_slack_le
  have h0 : 0 ≤ v := le_trans (by positivity) hv
  rw [abs_of_nonneg h0] at herr
  have := (abs_le.mp herr).1
  linarith

theorem isZero_of_realOf_pos {a : F64} (h : 0 < realOf a) : isZero a = false := by
  rw [← Bool.not_eq_true]
  exact fun hz => h.ne' (realOf_of_isZero hz)

/-! ### Integers as numbers -/

theorem ofNat_roundsTo (n : Nat) : RoundsTo (ofNat n) n := by
  have h := ofInt_roundsTo (n : Int)
  rwa [Int.cast_natCast] at h

/-- An integer below 2^64 as a number. -/
theorem ofNat_bounds {n : Nat} (hn : n < 2 ^ 64) : isFinite (ofNat n) = true ∧ |realOf (ofNat n)| ≤ 2 ^ 66 := by
  have hr := ofNat_roundsTo n
  have hle : |(n : ℝ)| ≤ 2 ^ 64 := by
    rw [abs_of_nonneg (Nat.cast_nonneg n)]
    exact_mod_cast hn.le
  have hf := hr.isFinite_of_abs_le (by linarith)
  refine ⟨hf, ?_⟩
  have := hr.abs_realOf_le hf
  linarith

/-- A rate of at least 1 as a number (10_state.md R40, R41). -/
theorem rate_bounds {u : U32} (h : 1 ≤ u.toNat) :
    isFinite (ofNat u.toNat) = true ∧ 1 / 2 ≤ realOf (ofNat u.toNat) ∧ realOf (ofNat u.toNat) ≤ 2 ^ 34 := by
  have hr := ofNat_roundsTo u.toNat
  have h1 : (1 : ℝ) ≤ u.toNat := by exact_mod_cast h
  have hlt : (u.toNat : ℝ) ≤ 2 ^ 32 := by exact_mod_cast u.isLt.le
  have habs : |(u.toNat : ℝ)| = u.toNat := abs_of_nonneg (by linarith)
  have hf := hr.isFinite_of_abs_le (by rw [habs]; linarith)
  have hlo := hr.half_le_realOf hf (by linarith)
  have hhi := hr.abs_realOf_le hf
  rw [habs] at hhi
  exact ⟨hf, by linarith, by linarith [le_abs_self (realOf (ofNat u.toNat))]⟩

/-! ### FSHIFT, and what is placed by it -/

/-- FSHIFT of two rates of at least 1 (10_state.md R50). -/
theorem fshift_bounds {c : Cfg} (hsr : 1 ≤ c.sampleRate.toNat) (hfr : 1 ≤ c.frameRate.toNat) :
    isFinite c.fshift = true ∧ 1 / 2 ^ 36 ≤ realOf c.fshift ∧ |realOf c.fshift| ≤ 2 ^ 37 := by
  obtain ⟨hfa, ha, ha'⟩ := rate_bounds hsr
  obtain ⟨hfb, hb, hb'⟩ := rate_bounds hfr
  have hz := isZero_of_realOf_pos (by linarith : 0 < realOf (ofNat c.frameRate.toNat))
  have hr : RoundsTo c.fshift _ := fdiv_roundsTo hfa hfb hz
  have hlo : 1 / 2 ^ 35 ≤ realOf (ofNat c.sampleRate.toNat) / realOf (ofNat c.frameRate.toNat) := by
    rw [le_div_iff₀ (by linarith)]
    linarith
  have hhi : |realOf (ofNat c.sampleRate.toNat) / realOf (ofNat c.frameRate.toNat)| ≤ 2 ^ 35 := by
    rw [abs_of_nonneg (le_trans (by positivity) hlo), div_le_iff₀ (by linarith)]
    linarith
  have hf := hr.isFinite_of_abs_le (by linarith)
  have h1 := hr.half_le_realOf hf (by linarith)
  have h2 := hr.abs_realOf_le hf
  exact ⟨hf, by linarith, by linarith⟩

/-- i*FSHIFT is finite for every index of 64 bits. -/
theorem isFinite_frameOffset {c : Cfg} (hsr : 1 ≤ c.sampleRate.toNat) (hfr : 1 ≤ c.frameRate.toNat) {i : Nat}
    (hi : i < 2 ^ 64) : isFinite (fmul (ofNat i) c.fshift) = true := by
  obtain ⟨hf, -, hhi⟩ := fshift_bounds hsr hfr
  obtain ⟨hfi, hle⟩ := ofNat_bounds hi
  refine (fmul_roundsTo hfi hf).isFinite_of_abs_le ?_
  rw [abs_mul]
  calc |realOf (ofNat i)| * |realOf c.fshift| ≤ 2 ^ 66 * 2 ^ 37 := by gcongr
    _ ≤ 2 ^ 128 := by norm_num

/-- L/FSHIFT is finite for every length of 64 bits. -/
theorem isFinite_frameQuotient {c : Cfg} (hsr : 1 ≤ c.sampleRate.toNat) (hfr : 1 ≤ c.frameRate.toNat) {len : Nat}
    (hlen : len < 2 ^ 64) : isFinite (fdiv (ofNat len) c.fshift) = true := by
  obtain ⟨hf, hlo, -⟩ := fshift_bounds hsr hfr
  obtain ⟨hfl, hle⟩ := ofNat_bounds hlen
  have hpos : 0 < realOf c.fshift := lt_of_lt_of_le (by positivity) hlo
  refine (fdiv_roundsTo hfl hf (isZero_of_realOf_pos hpos)).isFinite_of_abs_le ?_
  rw [abs_div, abs_of_pos hpos, div_le_iff₀ hpos]
  linarith

/-- Settles O42: both are finite, and the model rounds each where it is. -/
theorem framePlacementDefined : Obligations.FramePlacementDefined := by
  intro c hsr hfr
  obtain ⟨hf, -⟩ := fshift_bounds hsr hfr
  refine ⟨hf, fun i hi => ?_, fun len hlen => ?_⟩
  · have hp := isFinite_frameOffset hsr hfr hi
    exact ⟨hp, if_pos hp⟩
  · have hq := isFinite_frameQuotient hsr hfr hlen
    exact ⟨hq, if_pos hq⟩

/-! ### FRAME_COUNT -/

theorem signalChecks_pass_iff (s : State) : firstError (signalChecks s) = none ↔
    s.sigSamples ≠ 0 ∧ s.sampleRate ≠ 0 ∧ s.status.winValid = true := by
  simp [firstError_none_iff, signalChecks]

/-- Settles O43: the checks hold and the quotient is finite. -/
theorem frameCountResult : Obligations.FrameCountResult := by
  intro s hlen hsr hfr hwin
  obtain ⟨-, -, hcount⟩ := framePlacementDefined s.cfg (Nat.one_le_iff_ne_zero.mpr hsr) (Nat.one_le_iff_ne_zero.mpr hfr)
  obtain ⟨-, hn⟩ := hcount s.sigSamples s.sigLen.isLt
  exact exec_of_effects (i := .frameCount) ((signalChecks_pass_iff s).mpr ⟨hlen, hsr, hwin⟩) (frameCountEffects_of hn)

end Sys2Proof.Machine
end

section
/-! The frame from the signal to WND: FRAME_FETCH, PREEMPH and WINDOW word by word, and FRAME_PREP as the three in a row
(42_frame.md R202, R207 to R210). -/

namespace Sys2Proof.Machine

/-! ### FRAME_FETCH -/

/-- Where its checks hold, both rates are legal and the samples of the frame are written, FRAME_FETCH has a start and
reads its samples (42_frame.md R202, R207). -/
theorem exists_fetch {s : State} {start : Nat} (hfr : s.frameRate ≠ 0) (hsr : s.sampleRate ≠ 0)
    (hstart : start = (rha (fmul (ofNat s.frameIndex) s.fshift)).toNat)
    (hwritten : ∀ n < s.frameLen, start + n < s.sigSamples → (s.peek .dmem (s.sigStart + start + n)).isSome = true) :
    frameStart s.fshift s.frameIndex = some start ∧
      ∃ samples, readRange .dmem s.dmem (s.sigStart + start) (s.samplesAt start) = .ok samples := by
  obtain ⟨-, hplaced, -⟩ := framePlacementDefined s.cfg (Nat.one_le_iff_ne_zero.mpr hsr) (Nat.one_le_iff_ne_zero.mpr hfr)
  refine ⟨hstart ▸ (hplaced s.frameIndex s.args[5].isLt).2, readRange_of_written fun n hn => ?_⟩
  obtain ⟨hlen, hsig⟩ := lt_min_iff.mp hn
  exact hwritten n hlen (by omega)

/-- The samples of a frame are not past 64 bits. -/
theorem saturate64_samplesAt (s : State) (start : Nat) :
    saturate64 (s.samplesAt start) = BitVec.ofNat 64 (min s.frameLen (s.sigLen.toNat - start)) := by
  have hlt := s.sigLen.isLt
  rw [saturate64, State.samplesAt, State.sigSamples, Nat.min_eq_left (a := min _ _) (by omega)]

/-- A word of RAW after a fetch: the sample there, the padding, or past the frame the old word (42_frame.md R207). -/
theorem fetch_read {s : State} {start : Nat} {samples : List Word}
    (hr : readRange .dmem s.dmem (s.sigStart + start) (s.samplesAt start) = .ok samples) (n : Nat) :
    (s.bufs.raw.write 0
      (samples.map canonical ++ List.replicate (s.frameLen - s.samplesAt start) posZero)).read n =
      if n < s.frameLen then
        if start + n < s.sigSamples then (s.peek .dmem (s.sigStart + start + n)).map canonical else some posZero
      else s.bufs.raw.read n := by
  obtain ⟨hlen, hwords⟩ := (readRange_ok_iff _ _ _ _ _).mp hr
  have hsamples : n < s.samplesAt start ↔ n < s.frameLen ∧ start + n < s.sigSamples := by
    rw [State.samplesAt, lt_min_iff]
    omega
  rw [Memory.read_write, fetch_length hr]
  simp only [Nat.zero_le, true_and, Nat.zero_add, Nat.sub_zero]
  refine ite_congr rfl (fun hn => ?_) fun _ => rfl
  split
  case isTrue hsig =>
    have hlt := hsamples.mpr ⟨hn, hsig⟩
    rw [List.getElem?_append_left (by simpa [hlen] using hlt), List.getElem?_map, ← hwords n hlt]
    rfl
  case isFalse hsig =>
    have hge : ¬ n < s.samplesAt start := fun h => hsig (hsamples.mp h).2
    rw [List.getElem?_append_right (by simp [hlen]; omega), List.getElem?_replicate, if_pos (by simp [hlen]; omega)]

/-- Settles O44: the checks hold, the start is placed and its samples are written, and RAW reads word by word. -/
theorem frameFetchFillsRaw : Obligations.FrameFetchFillsRaw := by
  intro s len fshift start hlen hsr hfr hwin hfits hwritten
  obtain ⟨hstart, samples, hr⟩ := exists_fetch hfr hsr rfl hwritten
  refine ⟨_, exec_of_effects (i := .frameFetch) ((fetchChecks_pass_iff s).mpr ⟨hlen, hsr, hwin, hfits⟩)
    (fetchEffects_of hstart hr), ?_, fetch_read hr⟩
  rw [saturate64_samplesAt]
  rfl

/-! ### PREEMPH -/

/-- Entry n of a frame given by its values, pre-emphasized (42_frame.md R208). -/
theorem preemphasize_values (alpha p : F64) (len : Nat) (raw : Nat → F64) :
    preemphasize alpha p ((List.range len).map raw) =
      (List.range len).map fun n => fsub (raw n) (fmul alpha (if n = 0 then p else raw (n - 1))) := by
  refine List.ext_getElem? fun n => ?_
  rw [preemphasize_getElem?]
  by_cases hn : n < len
  · cases n with
    | zero => simp [hn]
    | succ n => simp [hn, show n < len by omega, List.getD_eq_getElem?_getD]
  · simp [hn]

theorem getLast?_values {len : Nat} (h : len ≠ 0) (f : Nat → F64) :
    ((List.range len).map f).getLast? = some (f (len - 1)) := by
  simp [List.getLast?_map, List.getLast?_range, h]

/-- Settles O45: the stage is the only check, and COND and PRIOR[c] are computed from the words of RAW. -/
theorem preemphConditionsFrame : Obligations.PreemphConditionsFrame := by
  intro s c raw
  refine ⟨fun hst => exec_of_error (if_pos (decide_eq_true hst)), fun hst hlen hraw => ?_⟩
  have hread : readRange .raw s.bufs.raw 0 s.frameLen = .ok ((List.range s.frameLen).map raw) :=
    Memory.holds.readRange hraw .raw
  refine ⟨_, exec_of_effects (i := .preemph c) ((stageCheck_pass_iff s .raw []).mpr ⟨hst, rfl⟩)
    (preemphEffects_of hread (getLast?_values hlen raw)), rfl, fun c' => ?_, fun n => ?_⟩
  · exact State.priorOf_setPrior _ c c' _
  · rw [preemphasize_values]
    exact Memory.read_write_zero_values _ _ _ _

/-! ### WINDOW -/

/-- Settles O46: the stage is the only check, and WND is computed from the words of COND and WIN. -/
theorem windowMultipliesFrame : Obligations.WindowMultipliesFrame := by
  intro s cond win
  refine ⟨fun hst => exec_of_error (if_pos (decide_eq_true hst)), fun hst hcond hwin => ?_⟩
  refine ⟨_, exec_of_effects (i := .window) ((stageCheck_pass_iff s .cond []).mpr ⟨hst, rfl⟩)
    (windowEffects_of (Memory.holds.readRange hcond .cond) (Memory.holds.readRange hwin .win)), rfl, fun n => ?_⟩
  rw [List.zipWith_map, List.zipWith_self]
  exact Memory.read_write_zero_values _ _ _ _

/-! ### FRAME_PREP -/

theorem exists_preemphEffects {c : Ctx} {s : State} (hlen : s.frameLen ≠ 0)
    (hraw : s.bufs.raw.writtenBelow s.frameLen) : ∃ t, preemphEffects c s = .ok t := by
  obtain ⟨raw, hread⟩ := readRange_of_written (sp := .raw) (base := 0) fun n hn => by
    rw [Nat.zero_add]
    exact hraw n hn
  have hne : raw ≠ [] := by
    rintro rfl
    exact hlen (readRange_length hread).symm
  exact ⟨_, preemphEffects_of hread (List.getLast?_eq_some_getLast hne)⟩

theorem exists_windowEffects {s : State} (hcond : s.bufs.cond.writtenBelow s.frameLen)
    (hwin : s.bufs.win.writtenBelow s.frameLen) : ∃ t, windowEffects s = .ok t := by
  obtain ⟨cond, hc⟩ := readRange_of_written (sp := .cond) (base := 0) fun n hn => by
    rw [Nat.zero_add]
    exact hcond n hn
  obtain ⟨win, hw⟩ := readRange_of_written (sp := .win) (base := 0) fun n hn => by
    rw [Nat.zero_add]
    exact hwin n hn
  exact ⟨_, windowEffects_of hc hw⟩

/-- The effects of PREEMPH and WINDOW do not meet the completion of the command before. -/
theorem preemphEffects_complete {c : Ctx} {s t : State} (h : preemphEffects c s = .ok t) :
    preemphEffects c s.complete = .ok t.complete := by
  obtain ⟨raw, last, hraw, hlast, rfl⟩ := preemphEffects_ok h
  exact preemphEffects_of (s := s.complete) hraw hlast

theorem windowEffects_complete {s t : State} (h : windowEffects s = .ok t) :
    windowEffects s.complete = .ok t.complete := by
  obtain ⟨cond, win, hcond, hwin, rfl⟩ := windowEffects_ok h
  exact windowEffects_of (s := s.complete) hcond hwin

/-- Settles O47: each command finds what it reads written by the one before, and the completions between them leave no
trace. -/
theorem framePrepIsFetchPreemphWindow : Obligations.FramePrepIsFetchPreemphWindow := by
  intro s c len fshift start hlen hsr hfr hwin hfits hframe hwritten hwinWritten
  have hchecks := (fetchChecks_pass_iff s).mpr ⟨hlen, hsr, hwin, hfits⟩
  obtain ⟨hstart, samples, hr⟩ := exists_fetch hfr hsr rfl hwritten
  obtain ⟨u, hfetch⟩ : ∃ u, fetchEffects s = .ok u := ⟨_, fetchEffects_of hstart hr⟩
  obtain ⟨hu, hraw⟩ := fetchEffects_frameWritten hwin hfetch
  have hcfg : u.cfg = s.cfg := by simp [effectsOf_frame (i := .frameFetch) hfetch]
  have hlenU : u.frameLen = s.frameLen := congrArg Cfg.frameLen hcfg
  obtain ⟨v, hpreemph⟩ := exists_preemphEffects (c := c) (hlenU ▸ hframe) (hu.raw (by rw [hraw]; rfl))
  obtain ⟨hv, hcond⟩ := preemphEffects_frameWritten hu hraw hpreemph
  have hlenV : v.frameLen = s.frameLen := by
    simp [State.frameLen, effectsOf_frame (i := .preemph c) hpreemph, hcfg]
  have hwinV : v.bufs.win = s.bufs.win :=
    ((effectsOf_effectFrame (i := .preemph c) hpreemph).buffers .win nofun (by simp [bufferTargets])).trans
      ((effectsOf_effectFrame (i := .frameFetch) hfetch).buffers .win nofun (by simp [bufferTargets]))
  obtain ⟨w, hwindow⟩ := exists_windowEffects (hv.cond (by rw [hcond]; rfl)) (by rwa [hwinV, hlenV])
  have hprep := framePrepEffects_of hfetch hpreemph hwindow
  refine ⟨u.complete, v.complete, w.complete, exec_of_effects (i := .frameFetch) hchecks hfetch,
    exec_of_effects (i := .preemph c) (u := v.complete) ((stageCheck_pass_iff u.complete .raw []).mpr ⟨hraw, rfl⟩)
      (preemphEffects_complete hpreemph),
    exec_of_effects (i := .window) (u := w.complete) ((stageCheck_pass_iff v.complete .cond []).mpr ⟨hcond, rfl⟩)
      (windowEffects_complete hwindow),
    exec_of_effects (i := .framePrep c) hchecks hprep, ?_, ?_⟩
  · exact (effectsOf_effectFrame (i := .window) hwindow).stage
  · simp [effectsOf_frame (i := .framePrep c) hprep]

end Sys2Proof.Machine
end

section
/-! The signal checks in their order (42_frame.md R211), and a run of a facade that ends at them (43_spectral.md R258,
44_dct.md R282). -/

namespace Sys2Proof.Machine

/-! ### The signal checks in their order -/

/-- A check of a command that reads fails and ends it with its error, or it holds and leaves the rest
(60_exceptions.md R324). -/
theorem ite_check_reading {o : Host.Outcome State Fault Refusal} {s : State} {eff : State → Except Fault State}
    {rest : List (Bool × CmdError)} {p : Prop} [Decidable p] {b : Bool} {e : CmdError}
    (ho : o = runReading ((b, e) :: rest) eff s) (hp : b = true ↔ p) {Q : Prop} (hQ : o = runReading rest eff s → Q) :
    if p then o = .next (s.errorComplete e) else Q := by
  subst ho
  split
  case isTrue h => exact runReading_cons_true (hp.mpr h)
  case isFalse h => exact hQ (runReading_cons_false (by simpa using mt hp.mp h))

/-- The commands that place frames run the same three checks, then all but FRAME_COUNT the range check. -/
theorem checksOf_signal {i : Instr} (hi : i = .frameCount ∨ i = .frameFetch ∨ ∃ c, i = .framePrep c) (s : State) :
    checksOf i s = signalChecks s ++
      if i = .frameCount then [] else [(s.outOfDmem s.sigStart s.sigSamples, ⟨.addressRange, 13, 0⟩)] := by
  rcases hi with rfl | rfl | ⟨c, rfl⟩ <;> rfl

/-- A command whose checks are over sets no error. -/
theorem err_of_checks_over {i : Instr} {s t : State} (ho : exec i s = runReading [] (effectsOf i) s)
    (h : exec i s = .next t) : t.status.err = s.status.err := by
  rcases runReading_cases (ho.symm.trans h) with ⟨e, he, -⟩ | ⟨-, u, hu, rfl⟩
  · cases he
  · simp [effectsOf_frame hu]

/-- The checks of the list one after the other, each with its condition in the words of R211. -/
theorem signalChecks_in_order {i : Instr} (hi : i = .frameCount ∨ i = .frameFetch ∨ ∃ c, i = .framePrep c)
    (s : State) :
    if s.sigLen.toNat = 0 then exec i s = .next (s.errorComplete ⟨.invalidInput, 10, 0⟩)
    else if s.cfg.sampleRate.toNat = 0 then exec i s = .next (s.errorComplete ⟨.invalidInput, 11, 0⟩)
    else if s.status.winValid = false then exec i s = .next (s.errorComplete ⟨.notBuilt, 12, 0⟩)
    else if i ≠ .frameCount ∧ s.caps.dmemWords < s.sigBase.toNat + s.sigLen.toNat then
      exec i s = .next (s.errorComplete ⟨.addressRange, 13, 0⟩)
    else ∀ t, exec i s = .next t → t.status.err = s.status.err := by
  have hrun := exec_eq_run i s
  rw [checksOf_signal hi] at hrun
  refine ite_check_reading (e := ⟨.invalidInput, 10, 0⟩) hrun decide_eq_true_iff fun h10 => ?_
  refine ite_check_reading (e := ⟨.invalidInput, 11, 0⟩) h10 decide_eq_true_iff fun h11 => ?_
  refine ite_check_reading (e := ⟨.notBuilt, 12, 0⟩) h11 (by rw [Bool.not_eq_true']) fun h12 => ?_
  by_cases hcount : i = .frameCount
  · rw [if_pos hcount] at h12
    rw [if_neg (fun h => h.1 hcount)]
    exact fun t ht => err_of_checks_over h12 ht
  · rw [if_neg hcount] at h12
    refine ite_check_reading (e := ⟨.addressRange, 13, 0⟩) h12 ?_ fun h13 t ht => err_of_checks_over h13 ht
    rw [State.outOfDmem, decide_eq_true_iff]
    exact (and_iff_right hcount).symm

/-- Without a signal, or with sample rate 0, FRAME_COUNT ends with INVALID_INPUT (42_frame.md R211). -/
theorem exec_frameCount_of_noSignal {s : State} (h : s.sigLen.toNat = 0 ∨ s.cfg.sampleRate.toNat = 0) :
    ∃ k, exec .frameCount s = .next (s.errorComplete ⟨.invalidInput, k, 0⟩) := by
  have hchecks := signalChecks_in_order (.inl rfl) s
  by_cases hlen : s.sigLen.toNat = 0
  · exact ⟨10, by rwa [if_pos hlen] at hchecks⟩
  · exact ⟨11, by rwa [if_neg hlen, if_pos (h.resolve_left hlen)] at hchecks⟩

/-! ### Lines of a host program on an idle machine -/

/-- A line that writes a register completes at once (20_memory.md R92). -/
theorem runLine_wr {s : State} (hb : s.status.busy = false) {r : Reg} (hr : r.mapped s.caps = true) (d : Word) :
    runLine (.wr (.reg r) d) s = .next { s.writeReg d r with response := some .okayWrite } := by
  have ht : transact (hostWr (.reg r) d) s = .next { s.writeReg d r with response := some .okayWrite } :=
    transact_idle hb (completeInput_write (locate_register _ r hr))
  simp only [runLine, AsmLine.encode, transactAll, ht]
  rfl

/-- A line that reads a register completes at once with its value (20_memory.md R91). -/
theorem runLine_rd {s : State} (hb : s.status.busy = false) {r : Reg} (hr : r.mapped s.caps = true) :
    runLine (.rd (.reg r)) s = .next { s with response := some (.okayRead (s.readReg r)) } := by
  have ht : transact (hostRd (.reg r)) s = .next { s with response := some (.okayRead (s.readReg r)) } :=
    transact_idle hb (completeInput_read_reg (locate_register _ r hr))
  simp only [runLine, AsmLine.encode, transactAll, ht]
  rfl

/-- ERR in the STATUS word (10_state.md R36). -/
theorem statusWord_err (t : Status) : t.word.getLsbD 2 = t.err := by
  simp only [Status.word, BitVec.getLsbD_append, BitVec.getLsbD_ofBool]
  simp

/-! ### A facade without a signal -/

/-- `t` has the configuration, the buffers, DMEM, FRAME_STAGE and RES0 of `m`, and its PRIORs but that of context `c`. -/
structure KeptOutside (c : Ctx) (m t : State) : Prop where
  cfg : t.cfg = m.cfg
  bufs : t.bufs = m.bufs
  dmem : t.dmem = m.dmem
  stage : t.status.frameStage = m.status.frameStage
  res0 : t.res0 = m.res0
  prior : ∀ c', c' ≠ c → t.priorOf c' = m.priorOf c'

theorem KeptOutside.trans {c : Ctx} {m s t : State} (hms : KeptOutside c m s) (hst : KeptOutside c s t) :
    KeptOutside c m t :=
  ⟨hst.cfg.trans hms.cfg, hst.bufs.trans hms.bufs, hst.dmem.trans hms.dmem, hst.stage.trans hms.stage,
    hst.res0.trans hms.res0, fun c' hc => (hst.prior c' hc).trans (hms.prior c' hc)⟩

/-- The issue of a command and the model's own fields are none of these. -/
theorem keptOutside_issue (c : Ctx) (s : State) (d : Word) (inputs : List HostInput) (delay issues : Nat)
    (response : Option BusResponse) :
    KeptOutside c s { s.issue d with
      inputs := inputs, engineDelay := delay, issueCount := issues, response := response } :=
  ⟨rfl, rfl, rfl, rfl, rfl, fun _ _ => rfl⟩

theorem keptOutside_own {c : Ctx} {m s : State} (h : KeptOutside c m s) (inputs : List HostInput)
    (response : Option BusResponse) : KeptOutside c m { s with inputs := inputs, response := response } :=
  ⟨h.cfg, h.bufs, h.dmem, h.stage, h.res0, h.prior⟩

/-- The engine's step on CTX_RESET, whether or not its context exists (42_frame.md R206). -/
theorem engineStep_ctxReset {c : Ctx} {s : State} (hcmd : s.cmd = encode (.ctxReset c)) :
    ∃ u, engineStep s = .next u ∧ u.inputs = s.inputs ∧ u.status.busy = false ∧ KeptOutside c s u ∧
      u.sigLen = s.sigLen := by
  have hdecode := decode_encode_ctxReset s.caps.numCtx c
  rw [← hcmd] at hdecode
  split at hdecode
  · rw [engineStep_of_decode hdecode, exec_ctxReset]
    exact ⟨_, rfl, rfl, rfl, ⟨rfl, rfl, rfl, rfl, rfl, fun c' hc => s.priorOf_setPrior_other posZero hc⟩, rfl⟩
  · rw [engineStep_of_reject hdecode]
    exact ⟨_, rfl, rfl, rfl, ⟨rfl, rfl, rfl, rfl, rfl, fun _ _ => rfl⟩, rfl⟩

/-- The engine's step on FRAME_COUNT without a signal (42_frame.md R211). -/
theorem engineStep_frameCount (c : Ctx) {s : State} (hcmd : s.cmd = encode .frameCount)
    (hsignal : s.sigLen.toNat = 0 ∨ s.cfg.sampleRate.toNat = 0) :
    ∃ u, engineStep s = .next u ∧ u.inputs = s.inputs ∧ u.status.busy = false ∧ KeptOutside c s u ∧
      u.status.err = true ∧ u.status.errCode = .invalidInput := by
  have hdecode := decodeOfEncode s.caps.numCtx .frameCount rfl
  rw [← hcmd] at hdecode
  obtain ⟨k, hk⟩ := exec_frameCount_of_noSignal hsignal
  rw [engineStep_of_decode hdecode, hk]
  exact ⟨_, rfl, rfl, rfl, ⟨rfl, rfl, rfl, rfl, rfl, fun _ _ => rfl⟩, rfl, rfl⟩

theorem runLine_ctxReset (c : Ctx) {s : State} (hb : s.status.busy = false) :
    ∃ u, runLine (.run (.ctxReset c)) s = .next u ∧ KeptOutside c s u ∧ u.sigLen = s.sigLen ∧
      u.status.busy = false := by
  obtain ⟨u, ⟨hkept, hlen⟩, hub, hrun⟩ := runLine_run (P := fun u => KeptOutside c s u ∧ u.sigLen = s.sigLen)
    (.ctxReset c) hb fun y d n r => by
      obtain ⟨u, hu, hinputs, hub, hkept, hlen⟩ := engineStep_ctxReset (c := c) (s := { s.issue (encode (.ctxReset c))
        with inputs := y, engineDelay := d, issueCount := n, response := r }) rfl
      have hall := (keptOutside_issue c s _ y d n r).trans hkept
      exact ⟨u, hu, hinputs, hub, fun z => ⟨keptOutside_own hall z _, hlen⟩⟩
  exact ⟨_, hrun, keptOutside_own hkept _ _, hlen, hub⟩

theorem runLine_frameCount (c : Ctx) {s : State} (hb : s.status.busy = false)
    (hsignal : s.sigLen.toNat = 0 ∨ s.cfg.sampleRate.toNat = 0) :
    ∃ u, runLine (.run .frameCount) s = .next u ∧ KeptOutside c s u ∧ u.status.busy = false ∧
      u.status.errCode = .invalidInput ∧ u.readData.getLsbD 2 = true := by
  obtain ⟨u, ⟨hkept, herr, hcode⟩, hub, hrun⟩ := runLine_run
    (P := fun u => KeptOutside c s u ∧ u.status.err = true ∧ u.status.errCode = .invalidInput) .frameCount hb
    fun y d n r => by
      obtain ⟨u, hu, hinputs, hub, hkept, herr⟩ := engineStep_frameCount c (s := { s.issue (encode .frameCount)
        with inputs := y, engineDelay := d, issueCount := n, response := r }) rfl hsignal
      have hall := (keptOutside_issue c s _ y d n r).trans hkept
      exact ⟨u, hu, hinputs, hub, fun z => ⟨keptOutside_own hall z _, herr⟩⟩
  exact ⟨_, hrun, keptOutside_own hkept _ _, hub, hcode, (statusWord_err u.status).trans herr⟩

theorem runLines_cons {l : AsmLine} {ls : List AsmLine} {s t : State} (h : runLine l s = .next t) :
    runLines (l :: ls) s = runLines ls t := by
  simp only [runLines, h]

/-- The host gives the signal (10_state.md R55, R56). -/
theorem runLines_signal (c : Ctx) {s : State} (hb : s.status.busy = false) (base len : Word) (ls : List AsmLine) :
    ∃ t, runLines (.wr (.reg .sigBase) base :: .wr (.reg .sigLen) len :: ls) s = runLines ls t ∧
      KeptOutside c s t ∧ t.sigLen = len ∧ t.status.busy = false := by
  have hbase := runLine_wr hb (r := .sigBase) rfl base
  have hlen := runLine_wr (s := { s.writeReg base .sigBase with response := some .okayWrite }) hb (r := .sigLen) rfl len
  exact ⟨_, (runLines_cons hbase).trans (runLines_cons hlen), ⟨rfl, rfl, rfl, rfl, rfl, fun _ _ => rfl⟩, rfl, hb⟩

/-- The opening of a facade without a signal ends with ERR in the STATUS word that the host read last. -/
theorem runLines_facadeOpening (c : Ctx) (base : Nat) {len : Nat} {m : State} (hb : m.status.busy = false)
    (hsignal : len = 0 ∨ m.cfg.sampleRate.toNat = 0) :
    ∃ t, runLines (facadeOpening c base len) m = .next t ∧ KeptOutside c m t ∧ t.status.busy = false ∧
      t.status.errCode = .invalidInput ∧ t.readData.getLsbD 2 = true := by
  obtain ⟨s, hgive, hs, hlen, hsb⟩ := runLines_signal c hb (BitVec.ofNat 64 base) (BitVec.ofNat 64 len)
    [.run (.ctxReset c), .run .frameCount]
  obtain ⟨u, hreset, hu, hulen, hub⟩ := runLine_ctxReset c hsb
  have hnone : u.sigLen.toNat = 0 ∨ u.cfg.sampleRate.toNat = 0 := by
    rw [hulen, hlen, hu.cfg, hs.cfg]
    exact hsignal.imp_left fun h => by rw [h]; rfl
  obtain ⟨t, hcount, ht, htb, hcode, herr⟩ := runLine_frameCount c hub hnone
  exact ⟨t, hgive.trans ((runLines_cons hreset).trans (runLines_cons hcount)), (hs.trans hu).trans ht, htb, hcode, herr⟩

/-- So the facade ends there, whatever would have followed (43_spectral.md R258). -/
theorem runFacade_of_noSignal (c : Ctx) (base : Nat) {len : Nat} (d : Nat) (tail : Nat → List AsmLine) {m : State}
    (hb : m.status.busy = false) (hsignal : len = 0 ∨ m.cfg.sampleRate.toNat = 0) :
    ∃ t, runFacade c base len d tail m = .next t ∧ t.status.errCode = .invalidInput ∧ KeptOutside c m t := by
  obtain ⟨t, hopening, hkept, htb, hcode, herr⟩ := runLines_facadeOpening c base hb hsignal
  refine ⟨{ t with response := some (.okayRead (t.readReg .res0)) }, ?_, hcode, keptOutside_own hkept t.inputs _⟩
  simp only [runFacade, hopening, runLine_rd htb (r := .res0) rfl, herr, if_true]

/-- Settles O41: the list of checks one after the other; and FRAME_COUNT's error, which the last STATUS word shows, ends
both facades. -/
theorem signalChecksInOrder : Obligations.SignalChecksInOrder := by
  refine ⟨fun s i hi => signalChecks_in_order hi s, fun m c base len d e hb hsignal facade hmem => ?_⟩
  have ends (tail : Nat → List AsmLine) (h : facade = runFacade c base len d tail m) : ∃ t, facade = .next t ∧
      t.status.errCode = .invalidInput ∧ t.status.frameStage = m.status.frameStage ∧ t.bufs = m.bufs ∧
      t.dmem = m.dmem ∧ t.res0 = m.res0 ∧ ∀ c', c' ≠ c → t.priorOf c' = m.priorOf c' := by
    obtain ⟨t, hrun, hcode, hkept⟩ := runFacade_of_noSignal c base d tail hb hsignal
    exact ⟨t, h.trans hrun, hcode, hkept.stage, hkept.bufs, hkept.dmem, hkept.res0, hkept.prior⟩
  simp only [List.mem_cons, List.not_mem_nil, or_false] at hmem
  rcases hmem with h | h
  · exact ends _ h
  · exact ends _ h

end Sys2Proof.Machine
end

section
/-! The spectral checks in their order (43_spectral.md R247). -/

namespace Sys2Proof.Machine

/-- The stage a spectral command starts at: SPEC_PROJECT takes the spectrum, the other two the windowed frame. -/
def spectralStage (i : Instr) : FrameStage := if i = .specProject then .pwr else .wnd

/-- The spectral commands run the stage check, then all but SPEC_POWER the two checks of a projection. -/
theorem checksOf_spectral {i : Instr} (hi : i = .specPower ∨ i = .specProject ∨ i = .specLogMel) (s : State) :
    checksOf i s = stageCheck s (spectralStage i) :: if i = .specPower then [] else projectChecks s := by
  rcases hi with rfl | rfl | rfl <;> rfl

/-- The stage check fails in R247's words. -/
theorem stageCheck_fails_iff (s : State) (i : Instr) : (stageCheck s (spectralStage i)).1 = true ↔
    (i = .specProject ∧ s.status.frameStage ≠ .pwr) ∨ (i ≠ .specProject ∧ s.status.frameStage ≠ .wnd) := by
  by_cases h : i = .specProject <;> simp [stageCheck, spectralStage, h]

/-- Settles O48: the checks of the list one after the other; a check of the projection is no check of SPEC_POWER. -/
theorem spectralChecksInOrder : Obligations.SpectralChecksInOrder := by
  intro s i hi bad
  have hrun := exec_eq_run i s
  rw [checksOf_spectral hi] at hrun
  refine ite_check_reading (e := ⟨.sequenceError, 10, 0⟩) hrun (stageCheck_fails_iff s i) fun h10 => ?_
  by_cases hpower : i = .specPower
  · rw [if_pos hpower] at h10
    rw [if_neg (fun h => h.1 hpower), if_neg (fun h => h.1 hpower)]
    exact fun t ht => err_of_checks_over h10 ht
  · rw [if_neg hpower] at h10
    refine ite_check_reading (e := ⟨.notBuilt, 11, 0⟩) h10 ?_ fun h11 => ?_
    · rw [Bool.not_eq_true', and_iff_right hpower]
    refine ite_check_reading (e := ⟨.addressRange, 12, 0⟩) h11 ?_ fun h12 t ht => err_of_checks_over h12 ht
    rw [State.outOfDmem, decide_eq_true_iff]
    exact (and_iff_right hpower).symm

end Sys2Proof.Machine
end

section
/-! Sums and products of zeros (00_scope.md R11, R15), and the power spectrum of a frame: SPEC_POWER (43_spectral.md
R241, R242, R246). -/

namespace Sys2Proof.Machine

/-! ### Zeros -/

theorem isZero_of_realOf_eq_zero {a : F64} (h : realOf a = 0) : isZero a = true := by
  have hmag : magnitudeReal (magnitudeBits a) = magnitudeReal 0 := by
    rw [← abs_realOf, h, abs_zero, magnitudeReal_zero]
  exact decide_eq_true (magnitudeReal_strictMono.injective hmag)

/-- A sum that starts from +0.0 stays there when a zero of either sign is added. -/
theorem fadd_posZero_of_isZero {a : F64} (h : isZero a = true) : fadd posZero a = posZero :=
  fadd_of_sum_zero rfl (isFinite_of_isZero h) (by rw [realOf_posZero, realOf_of_isZero h, add_zero])

theorem isZero_fmul_of_isZero {a b : F64} (ha : isZero a = true) (hb : isFinite b = true) :
    isZero (fmul a b) = true := by
  rw [fmul_of_isZero (isFinite_of_isZero ha) hb (.inl ha)]
  exact isZero_of_realOf_eq_zero (realOf_packSign_zero _)

/-- The square of a zero of either sign is +0.0. -/
theorem fmul_self_of_isZero {a : F64} (h : isZero a = true) : fmul a a = posZero := by
  rw [fmul_of_isZero (isFinite_of_isZero h) (isFinite_of_isZero h) (.inl h), Bool.xor_self]
  rfl

/-- A dot product of zeros with finite numbers is +0.0 (00_scope.md R15). -/
theorem fdot_of_zeros {pairs : List (F64 × F64)} (h : ∀ p ∈ pairs, isZero p.1 = true ∧ isFinite p.2 = true) :
    fdot pairs = posZero :=
  List.foldlRecOn pairs _ (motive := (· = posZero)) rfl fun acc hacc p hp => by
    obtain ⟨hzero, hfinite⟩ := h p hp
    rw [hacc, fadd_posZero_of_isZero (isZero_fmul_of_isZero hzero hfinite)]

/-! ### A frame of zeros under accurate numerics -/

section
variable {x : List F64} (hx : ∀ a ∈ x, isZero a = true)
include hx

theorem realOf_sample_of_zeros (n : Nat) : realOf (x[n]?.getD posZero) = 0 := by
  cases h : x[n]? with
  | none => exact realOf_posZero
  | some a => exact realOf_of_isZero (hx a (List.mem_of_getElem? h))

theorem idealRe_of_zeros (len b : Nat) : idealRe len x b = 0 := by
  simp [idealRe, realOf_sample_of_zeros hx]

theorem idealIm_of_zeros (len b : Nat) : idealIm len x b = 0 := by
  simp [idealIm, realOf_sample_of_zeros hx]

theorem binTolerance_of_zeros (len : Nat) : binTolerance len x = 0 := by
  simp [binTolerance, absSum, realOf_sample_of_zeros hx]

end

/-- What lies within 0 of 0 is a zero. -/
theorem Approximates.isZero {r : F64} (h : Approximates r 0 0) : isZero r = true := by
  have hfinite : isFinite r = true := by
    refine (isFinite_iff_not r).mpr ⟨h.notNaN, ?_⟩
    rw [← Bool.not_eq_true]
    intro hinf
    have hle := h.overflow hinf
    rw [neg_zero, ite_self, add_zero] at hle
    exact not_le.mpr (by positivity) hle
  have hnear := h.near hfinite
  rw [sub_zero] at hnear
  exact isZero_of_realOf_eq_zero (abs_nonpos_iff.mp hnear)

/-- A DFT bin of a frame of zeros is a zero: the pair (+0.0, +0.0) is at the ideal value, so no tolerance is left
(00_scope.md R7). -/
theorem NumAttainable.rdft_of_zeros {nu : Numerics} (hnu : NumAttainable nu) {x : List F64} {b : Nat}
    (hb : b ≤ x.length / 2) (hx : ∀ a ∈ x, isZero a = true) :
    isZero (nu.rdft x.length x b).1 = true ∧ isZero (nu.rdft x.length x b).2 = true := by
  have hbin := hnu.rdft x.length x b rfl hb (fun a ha => isFinite_of_isZero (hx a ha)) (posZero, posZero) rfl rfl
  have hdist : binDistance (posZero, posZero) 0 0 = 0 := by simp [binDistance, realOf_posZero]
  rw [idealRe_of_zeros hx, idealIm_of_zeros hx, binTolerance_of_zeros hx, hdist, max_self] at hbin
  exact ⟨hbin.re.isZero, hbin.im.isZero⟩

/-- So its power is +0.0 (43_spectral.md R246). -/
theorem powerAt_of_zeros {nu : Numerics} (hnu : NumAttainable nu) {x : List F64} {b : Nat}
    (hb : b ≤ x.length / 2) (hx : ∀ a ∈ x, isZero a = true) : powerAt nu x.length x b = posZero := by
  obtain ⟨hre, him⟩ := hnu.rdft_of_zeros hb hx
  rw [powerAt, fmul_self_of_isZero hre, fmul_self_of_isZero him, fadd_posZero_of_isZero rfl]

/-! ### SPEC_POWER -/

/-- A frame given by its values, padded to the transform length (43_spectral.md R241). -/
theorem zeroPad_values {len nfft : Nat} (h : len ≤ nfft) (wnd : Nat → F64) :
    zeroPad nfft ((List.range len).map wnd) = (List.range nfft).map fun n => if n < len then wnd n else posZero := by
  refine List.ext_getElem? fun n => ?_
  rw [zeroPad, List.length_map, List.length_range]
  by_cases hn : n < len
  · rw [List.getElem?_append_left (by simpa using hn)]
    simp [hn, hn.trans_le h]
  · rw [List.getElem?_append_right (by simpa using hn)]
    by_cases hnfft : n < nfft
    · simp [hn, hnfft, Nat.sub_lt_sub_right (not_lt.mp hn) hnfft]
    · simp [hnfft]
      omega

/-- Settles O49: the stage is the only check, and PWR is computed from the words of WND; with a frame of zeros every
bin is a zero. -/
theorem specPowerWritesSpectrum : Obligations.SpecPowerWritesSpectrum := by
  intro s wnd nfft x hst hlen hwnd
  refine ⟨?_, fun nu hnu hzero b hb => ?_⟩
  · have hread : readRange .wnd s.bufs.wnd 0 (min s.frameLen s.nfft) = .ok ((List.range s.frameLen).map wnd) := by
      rw [Nat.min_eq_left (show s.frameLen ≤ s.nfft from hlen)]
      exact Memory.holds.readRange hwnd .wnd
    refine ⟨_, exec_of_effects (i := .specPower) ((stageCheck_pass_iff s .wnd []).mpr ⟨hst, rfl⟩)
      (powerEffects_of hread), rfl, fun b => ?_⟩
    have hpad : zeroPad s.nfft ((List.range s.frameLen).map wnd) = x := zeroPad_values hlen wnd
    rw [hpad]
    exact Memory.read_write_zero_values _ _ _ _
  · have hlength : x.length = nfft := by rw [List.length_map, List.length_range]
    have hx : ∀ a ∈ x, isZero a = true := by
      intro a ha
      obtain ⟨n, -, rfl⟩ := List.mem_map.mp ha
      split
      case isTrue hn => exact hzero n hn
      case isFalse => rfl
    have hpower := powerAt_of_zeros hnu (b := b) (by omega) hx
    rwa [hlength] at hpower

end Sys2Proof.Machine
end

section
/-! The log-mel energies of a power spectrum: SPEC_PROJECT (43_spectral.md R243, R244, R251, R252), and SPEC_LOGMEL as
SPEC_POWER and then SPEC_PROJECT (R245). -/

namespace Sys2Proof.Machine

/-! ### Energy, floor and logarithm -/

/-- The energy of filter j of a spectrum and a row-major matrix given by their values (43_spectral.md R243). -/
theorem energyAt_values (pwr fb : Nat → F64) {nbins nfilt j : Nat} (hj : j < nfilt) :
    energyAt ((List.range nbins).map pwr) ((List.range (nbins * nfilt)).map fb) nbins nfilt j =
      fdot ((List.range nbins).map fun b => (pwr b, fb (b * nfilt + j))) := by
  refine congrArg fdot (List.map_congr_left fun b hb => ?_)
  have hb := List.mem_range.mp hb
  have hentry : b * nfilt + j < nbins * nfilt := by
    calc b * nfilt + j < b * nfilt + nfilt := by omega
      _ = (b + 1) * nfilt := (Nat.succ_mul b nfilt).symm
      _ ≤ nbins * nfilt := Nat.mul_le_mul_right _ hb
  simp [List.getD_eq_getElem?_getD, hb, hentry]

/-- An energy that is not a NaN is not below the floor once it is clipped. -/
theorem fle_cFloorE_clipEnergy {e : F64} (h : isNaN e = false) : fle cFloorE (clipEnergy e) = true := by
  rw [clipEnergy, if_neg (by rw [h]; nofun)]
  split
  case isTrue => decide
  case isFalse hge =>
    rw [flt_iff h (by decide), not_lt] at hge
    exact (fle_iff (by decide) h).mpr hge

/-- The logarithm of a clipped energy is never -inf (43_spectral.md R251, log 19). -/
theorem ln_clipEnergy_ne_negInf (e : F64) : numerics.ln (clipEnergy e) ≠ infinity true := by
  cases h : isNaN e with
  | false => exact lnContract_ne_negInf (fle_cFloorE_clipEnergy h)
  | true =>
    have hln : numerics.ln canonicalNaN = canonicalNaN := lnContract_of_isNaN Config.rawLn isNaN_canonicalNaN
    rw [clipEnergy, if_pos h, hln]
    decide

theorem clipEnergy_posZero : clipEnergy posZero = cFloorE := by decide

/-! ### SPEC_PROJECT -/

/-- Settles O50: the three checks hold and DMEM is computed from the words of PWR and FB; the floor keeps every
logarithm from -inf, and it is what a sum of zeros is clipped to. -/
theorem specProjectWritesLogMel : Obligations.SpecProjectWritesLogMel := by
  intro s pwr fb nbins nfilt dst energy clipped hst hfb hfits hpwr hmatrix
  have hdot (j : Nat) : fdot ((List.range nbins).map fun b => (pwr b, fb (b * nfilt + j))) = energy j :=
    fdot_range nbins pwr fun b => fb (b * nfilt + j)
  refine ⟨⟨_, exec_of_effects (i := .specProject)
      ((stageCheck_pass_iff s .pwr _).mpr ⟨hst, (projectChecks_pass_iff s).mpr ⟨hfb, hfits⟩⟩)
      (projectEffects_of (Memory.holds.readRange hpwr .pwr) (Memory.holds.readRange hmatrix .fb)), rfl, fun a => ?_⟩,
    fun j _ => ln_clipEnergy_ne_negInf (energy j), fun j _ hzero => ?_⟩
  · refine (Memory.read_write_values _ _ _ _ _).trans (ite_congr rfl (fun ha => ?_) fun _ => rfl)
    have hj : a - dst < nfilt := Nat.sub_lt_left_of_lt_add ha.1 ha.2
    exact congrArg (fun e => some (numerics.ln (clipEnergy e))) ((energyAt_values pwr fb hj).trans (hdot (a - dst)))
  · have henergy : energy j = posZero := by
      refine (hdot j).symm.trans (fdot_of_zeros fun p hp => ?_)
      obtain ⟨b, hb, rfl⟩ := List.mem_map.mp hp
      obtain ⟨hpower, hentry⟩ := hzero b (List.mem_range.mp hb)
      exact ⟨by rw [hpower]; rfl, hentry⟩
    exact (congrArg clipEnergy henergy).trans clipEnergy_posZero

/-! ### SPEC_LOGMEL -/

theorem exists_powerEffects {s : State} (hlen : s.frameLen ≤ s.nfft) (hwnd : s.bufs.wnd.writtenBelow s.frameLen) :
    ∃ t, powerEffects numerics s = .ok t := by
  obtain ⟨frame, hread⟩ := readRange_of_written (sp := .wnd) (base := 0) (n := min s.frameLen s.nfft) fun n hn => by
    rw [Nat.zero_add]
    exact hwnd n (by omega)
  exact ⟨_, powerEffects_of hread⟩

theorem exists_projectEffects {s : State} (hpwr : s.bufs.pwr.writtenBelow s.nbins)
    (hfb : s.bufs.fb.writtenBelow (s.nbins * s.nfilt)) : ∃ t, projectEffects numerics s = .ok t := by
  obtain ⟨p, hp⟩ := readRange_of_written (sp := .pwr) (base := 0) fun n hn => by
    rw [Nat.zero_add]
    exact hpwr n hn
  obtain ⟨fb, hf⟩ := readRange_of_written (sp := .fb) (base := 0) fun n hn => by
    rw [Nat.zero_add]
    exact hfb n hn
  exact ⟨_, projectEffects_of hp hf⟩

/-- SPEC_POWER leaves PWR written for the projection (43_spectral.md R242). -/
theorem powerEffects_pwrWritten {nu : Numerics} {s t : State} (h : powerEffects nu s = .ok t) :
    t.bufs.pwr.writtenBelow t.nbins := by
  obtain ⟨frame, -, rfl⟩ := powerEffects_ok h
  exact Memory.write_writtenBelow _ (by rw [List.length_map, List.length_range]; rfl)

/-- The effects of SPEC_PROJECT do not meet the completion of the command before. -/
theorem projectEffects_complete {nu : Numerics} {s t : State} (h : projectEffects nu s = .ok t) :
    projectEffects nu s.complete = .ok t.complete := by
  obtain ⟨p, fb, hp, hf, rfl⟩ := projectEffects_ok h
  exact projectEffects_of (s := s.complete) hp hf

/-- Settles O51: SPEC_PROJECT finds the spectrum that SPEC_POWER wrote, and passes the checks that SPEC_LOGMEL made
before it. -/
theorem specLogMelIsPowerThenProject : Obligations.SpecLogMelIsPowerThenProject := by
  intro s hst hvalid hlen hfits hwnd hfb
  have hproject := (projectChecks_pass_iff s).mpr ⟨hvalid, hfits⟩
  obtain ⟨u, hpower⟩ := exists_powerEffects hlen hwnd
  have hpwr := powerEffects_pwrWritten hpower
  obtain ⟨frame, -, rfl⟩ := powerEffects_ok hpower
  obtain ⟨v, hv⟩ := exists_projectEffects hpwr hfb
  have hlogMel := logMelEffects_of hpower hv
  refine ⟨_, v.complete, exec_of_effects (i := .specPower) ((stageCheck_pass_iff s .wnd []).mpr ⟨hst, rfl⟩) hpower,
    exec_of_effects (i := .specProject) (u := v.complete) ((stageCheck_pass_iff _ .pwr _).mpr ⟨rfl, hproject⟩)
      (projectEffects_complete hv),
    exec_of_effects (i := .specLogMel) ((stageCheck_pass_iff s .wnd _).mpr ⟨hst, hproject⟩) hlogMel, ?_, ?_⟩
  · exact (effectsOf_effectFrame (i := .specLogMel) hlogMel).stage
  · simp [effectsOf_frame (i := .specLogMel) hlogMel]

end Sys2Proof.Machine
end

section
/-! The basis a DCT command stores and the transform it applies, as data: what each command builds, and what running it
leaves in DCTM, BASIS_TAG, BASIS_STEP and DMEM (44_dct.md R270 to R279). -/

namespace Sys2Proof.Machine

/-! ### Bases -/

/-- A basis as a DCT command stores it: BASIS_TAG's fields, BASIS_STEP and the entries of DCTM (10_state.md R67 to
R69). -/
structure Basis where
  variant : BasisVariant
  orth : Bool
  rows : Nat
  cols : Nat
  step : F64
  entry : Nat → Nat → F64

/-- The BASIS_TAG of a basis (10_state.md R68). -/
def Basis.tag (b : Basis) : BasisTag := ⟨b.variant, b.orth, BitVec.ofNat 16 b.rows, BitVec.ofNat 16 b.cols⟩

/-- The state with the basis stored. -/
def Basis.store (b : Basis) (s : State) : State := s.setBasis b.variant b.orth b.rows b.cols b.step b.entry

/-- The basis DCT_BASIS builds from its operands (44_dct.md R274). -/
def genericBasis (o : Bool) (s : State) : Basis :=
  ⟨.generic, o, s.argN, s.argK, s.argX, dctMatrix numerics s.argX o⟩

theorem effectsOf_dctBasis (o : Bool) (s : State) : effectsOf (.dctBasis o) s = .ok ((genericBasis o s).store s) := rfl

theorem Basis.store_peek_dctm (b : Basis) (s : State) {r c : Nat} (hr : r < b.rows) (hc : c < b.cols) :
    (b.store s).peek .dctm (r * b.cols + c) = some (b.entry r c) := by
  have hread := Memory.read_write_rowMajor s.bufs.dctm 0 b.rows b.cols b.entry hr hc
  rwa [Nat.zero_add] at hread

theorem Basis.store_peek_dctm_past (b : Basis) (s : State) {j : Nat} (hj : b.rows * b.cols ≤ j) :
    (b.store s).peek .dctm j = s.peek .dctm j :=
  Memory.read_write_outside _ _ _ _ (.inr (by rwa [rowMajor_length, Nat.zero_add]))

/-! ### Transforms -/

/-- A transform on its operands: the basis it stores, the lengths of an input and of an output row, the coefficient of
input `a` in output `b`, and what is done to a dot product (44_dct.md R273). -/
structure Transform extends Basis where
  inLen : Nat
  outLen : Nat
  coeff : Nat → Nat → F64
  finish : F64 → F64

/-- The five transforms on the operands of `s` (44_dct.md R275 to R279). -/
def transformOf (i : Instr) (s : State) : Option Transform :=
  match i with
  | .dctOrth =>
    let step := fdiv cPi (ofNat s.argN)
    some {
      variant := .orth2, orth := true, rows := s.argN, cols := s.argK, step := step
      entry := dctMatrix numerics step true
      inLen := s.argN, outLen := s.argK
      coeff := dctMatrix numerics step true
      finish := fun dot => fmul dot (fsqrt (fdiv cTwo (ofNat s.argN))) }
  | .dct2 =>
    let step := fdiv cPi (ofNat s.argN)
    some {
      variant := .norm2, orth := false, rows := s.argN, cols := s.argK, step := step
      entry := dctMatrix numerics step false
      inLen := s.argN, outLen := s.argK
      coeff := dctMatrix numerics step false
      finish := fun dot => fmul dot (fdiv cTwo (ofNat s.argN)) }
  | .idctOrth =>
    let step := fdiv cPi (ofNat s.argK)
    some {
      variant := .orth3, orth := true, rows := s.argN, cols := s.argK, step := step
      entry := fun n k => dctMatrix numerics step true k n
      inLen := s.argN, outLen := s.argK
      coeff := fun n k => dctMatrix numerics step true k n
      finish := fun dot => fmul dot (fsqrt (fdiv cTwo (ofNat s.argK))) }
  | .dct3 =>
    let step := fdiv cPi (ofNat s.argK)
    some {
      variant := .norm3, orth := false, rows := s.argN, cols := s.argK, step := step
      entry := fun n k => dct3Matrix numerics step k n
      inLen := s.argN, outLen := s.argK
      coeff := fun n k => dct3Matrix numerics step k n
      finish := fun dot => dot }
  | .dctLegacy => some {
      variant := .legacy, orth := false, rows := s.ncep, cols := s.nfilt, step := posZero
      entry := legacyMatrix numerics s.nfilt
      inLen := s.nfilt, outLen := s.ncep
      coeff := fun j i => legacyMatrix numerics s.nfilt i j
      finish := fun dot => fdiv dot (ofNat s.nfilt) }
  | _ => none

/-- The basis first, then the batch of rows (44_dct.md R273). -/
def Transform.effects (T : Transform) (s : State) : Except Fault State :=
  applyBatch (T.store s) T.inLen T.outLen fun row k => T.finish (dotRow row fun n => T.coeff n k)

/-- A transform runs the checks of its row lengths and its effects. -/
theorem transformOf_run {i : Instr} {s : State} {T : Transform} (h : transformOf i s = some T) :
    checksOf i s = transformChecks s T.inLen T.outLen ∧ effectsOf i s = T.effects s := by
  cases i
  case dctOrth | dct2 | idctOrth | dct3 | dctLegacy =>
    cases h
    refine ⟨rfl, ?_⟩
    simp only [effectsOf, dctOrthEffects, dct2Effects, idctOrthEffects, dct3Effects, dctLegacyEffects,
      Transform.effects, Basis.store]
  all_goals cases h

/-- The dot product of row `m` of a batch given by its values (00_scope.md R15, R17). -/
theorem dotRow_batchRow_values {rows n m : Nat} (hm : m < rows) (input w : Nat → F64) :
    dotRow (batchRow ((List.range (rows * n)).map input) n m) w =
      (List.range n).foldl (fun acc a => fadd acc (fmul (input (m * n + a)) (w a))) posZero := by
  have hrow : (m + 1) * n ≤ rows * n := Nat.mul_le_mul_right n hm
  have hlen := batchRow_length ((List.range (rows * n)).map input) n m (by simpa using hrow)
  have hdot := dotRow_eq (batchRow ((List.range (rows * n)).map input) n m) (fun a => input (m * n + a)) w
  rw [hlen] at hdot
  refine hdot fun a ha => ?_
  have hlt : m * n + a < rows * n := by
    rw [Nat.succ_mul] at hrow
    omega
  rw [batchRow_getElem? _ _ _ _ ha, List.getElem?_map, List.getElem?_range hlt, Option.map_some]

/-- A transform whose checks hold and whose input is written: the basis with its tag and step, every output, and what
stays as it was. -/
theorem exec_transform {i : Instr} {s : State} {T : Transform} {input : Nat → F64} (hT : transformOf i s = some T)
    (hchecks : firstError (transformChecks s T.inLen T.outLen) = none)
    (hinput : ∀ j < s.rows * T.inLen, s.peek .dmem (s.src + j) = some (input j)) :
    ∃ t, exec i s = .next t ∧
      t = { s with
        bufs := { s.bufs with dctm := t.bufs.dctm }
        basisTag := T.tag
        basisStep := T.step
        dmem := t.dmem
        status := { s.status with done := true, busy := false } } ∧
      (∀ a < T.rows, ∀ b < T.cols, t.peek .dctm (a * T.cols + b) = some (T.entry a b)) ∧
      (∀ j, T.rows * T.cols ≤ j → t.peek .dctm j = s.peek .dctm j) ∧
      (∀ m < s.rows, ∀ b < T.outLen, t.peek .dmem (s.dst + (m * T.outLen + b)) =
        some (T.finish ((List.range T.inLen).foldl
          (fun acc a => fadd acc (fmul (input (m * T.inLen + a)) (T.coeff a b))) posZero))) ∧
      (∀ a, (a < s.dst ∨ s.dst + s.rows * T.outLen ≤ a) → t.peek .dmem a = s.peek .dmem a) := by
  obtain ⟨hlist, heffects⟩ := transformOf_run hT
  have hread : readRange .dmem s.dmem s.src (s.rows * T.inLen) = _ := readRange_of_values hinput
  refine ⟨_, exec_of_effects (hlist ▸ hchecks) (heffects.trans (applyBatch_of (s := T.store s) hread)), rfl,
    fun a ha b hb => T.store_peek_dctm s ha hb, fun j hj => T.store_peek_dctm_past s hj, fun m hm b hb => ?_,
    fun a ha => Memory.read_write_outside _ _ _ _ (by rwa [rowMajor_length])⟩
  rw [← dotRow_batchRow_values hm input]
  exact Memory.read_write_rowMajor _ _ _ _ _ hm hb

end Sys2Proof.Machine
end

section
/-! The basis cache under every step (44_dct.md R280). -/

namespace Sys2Proof.Machine

/-- R280 speaks of BASIS_TAG, BASIS_STEP and DCTM alone. -/
theorem basisCached_congr {s t : State} (htag : t.basisTag = s.basisTag) (hstep : t.basisStep = s.basisStep)
    (hdctm : t.bufs.dctm = s.bufs.dctm) (h : s.BasisCached) : t.BasisCached := by
  rw [State.BasisCached] at h ⊢
  rwa [htag, hstep, hdctm]

/-! ### Storing a basis -/

/-- A basis whose tag and step name its entries: its sizes fit the tag's fields, and variant, ORTH and step fit each
other. -/
structure Basis.Named (b : Basis) : Prop where
  rows : b.tag.rows.toNat = b.rows
  cols : b.tag.cols.toNat = b.cols
  variant : b.variant ≠ .none
  step : basisStepFits b.tag b.step
  orth : basisOrthFits b.tag
  entry : ∀ r c, b.entry r c = basisEntry b.variant b.orth b.cols b.step r c

theorem Basis.Named.store_basisCached {b : Basis} (h : b.Named) (s : State) : (b.store s).BasisCached := by
  refine ⟨h.step, h.orth, fun hnone => absurd hnone h.variant, ?_⟩
  change ∀ r < b.tag.rows.toNat, ∀ c < b.tag.cols.toNat, (b.store s).peek .dctm (r * b.tag.cols.toNat + c) =
    some (basisEntry b.variant b.orth b.tag.cols.toNat b.step r c)
  rw [h.rows, h.cols]
  intro r hr c hc
  rw [b.store_peek_dctm s hr hc, h.entry]

/-- A size that passed check 11 of R272 fits its field of BASIS_TAG (10_state.md R68; log 15). -/
theorem tagSize_toNat {s : State} (hcaps : s.caps.Legal) {n : Nat} (hn : n ≤ s.caps.maxDct) :
    (BitVec.ofNat 16 n).toNat = n := by
  obtain ⟨-, -, -, -, ⟨-, hmax⟩, -⟩ := hcaps
  rw [BitVec.toNat_ofNat, Nat.mod_eq_of_lt (by omega)]

theorem genericBasis_named {s : State} (hcaps : s.caps.Legal) (o : Bool)
    (hchecks : firstError (dctBasisChecks s) = none) : (genericBasis o s).Named := by
  obtain ⟨-, ⟨hn, hk⟩, hfinite⟩ := (dctBasisChecks_pass_iff s).mp hchecks
  exact ⟨tagSize_toNat hcaps hn, tagSize_toNat hcaps hk, nofun, hfinite, trivial, fun _ _ => rfl⟩

/-- Every transform stores the basis its tag and step name: the step is PI over one of the sizes in the tag, or zero for
the legacy basis. -/
theorem transformOf_named {i : Instr} {s : State} {T : Transform} (hcaps : s.caps.Legal)
    (hT : transformOf i s = some T) (hchecks : firstError (transformChecks s T.inLen T.outLen) = none) :
    T.Named := by
  obtain ⟨-, ⟨hin, hout⟩, -⟩ := (transformChecks_pass_iff s _ _).mp hchecks
  have inSize := tagSize_toNat hcaps hin
  have outSize := tagSize_toNat hcaps hout
  cases i
  case dctOrth | dct2 =>
    cases hT
    exact ⟨inSize, outSize, nofun, by simp only [basisStepFits, Basis.tag, inSize], rfl,
      fun _ _ => by simp only [basisEntry]⟩
  case idctOrth | dct3 =>
    cases hT
    exact ⟨inSize, outSize, nofun, by simp only [basisStepFits, Basis.tag, outSize], rfl,
      fun _ _ => by simp only [basisEntry]⟩
  case dctLegacy =>
    cases hT
    exact ⟨outSize, inSize, nofun, rfl, rfl, fun _ _ => by simp only [basisEntry]⟩
  all_goals cases hT

/-- The batch after the basis writes DMEM alone. -/
theorem Transform.effects_basisCached {T : Transform} {s u : State} (h : T.Named) (hu : T.effects s = .ok u) :
    u.BasisCached := by
  obtain ⟨input, -, rfl⟩ := applyBatch_ok hu
  exact basisCached_congr (s := T.store s) rfl rfl rfl (h.store_basisCached s)

/-! ### Every step -/

/-- The effects of every command whose checks hold: the six DCT commands store the basis they name, and no other command
writes DCTM, BASIS_TAG or BASIS_STEP. -/
theorem effectsOf_basisCached {i : Instr} {s u : State} (hcaps : s.caps.Legal) (hs : s.BasisCached)
    (hchecks : firstError (checksOf i s) = none) (hu : effectsOf i s = .ok u) : u.BasisCached := by
  have transform {T : Transform} (hT : transformOf i s = some T) : u.BasisCached := by
    obtain ⟨hlist, heffects⟩ := transformOf_run hT
    exact T.effects_basisCached (transformOf_named hcaps hT (hlist ▸ hchecks)) (heffects ▸ hu)
  have untouched (hbasis : writesBasis i = false) (hdctm : .dctm ∉ bufferTargets i) : u.BasisCached := by
    have hframe := effectsOf_effectFrame hu
    obtain ⟨htag, hstep⟩ := hframe.basis hbasis
    exact basisCached_congr htag hstep (hframe.buffers .dctm nofun hdctm) hs
  cases i
  case dctBasis o =>
    cases hu
    exact (genericBasis_named hcaps o hchecks).store_basisCached s
  case dctOrth | dct2 | idctOrth | dct3 | dctLegacy => exact transform rfl
  all_goals exact untouched rfl (by simp [bufferTargets])

/-- A reset sets BASIS_TAG to NONE (70_reset_and_hazards.md R361). -/
theorem softReset_basisCached (s : State) : s.softReset.BasisCached :=
  ⟨rfl, rfl, fun _ => ⟨rfl, rfl⟩, nofun⟩

/-- No host write reaches DCTM, BASIS_TAG or BASIS_STEP, but for a soft reset. -/
theorem writeLocation_basisCached {s : State} (d : Word) (loc : Location) (h : s.BasisCached) :
    (s.writeLocation d loc).BasisCached := by
  cases loc with
  | word sp w =>
    rw [State.writeLocation_word]
    split
    · exact basisCached_congr (s := s) rfl rfl rfl h
    · exact h
  | reg r =>
    cases r with
    | ctrl =>
      simp only [State.writeLocation, State.writeReg, State.writeCtrl]
      split
      · exact softReset_basisCached s
      · exact basisCached_congr (s := s) rfl rfl rfl h
    | status =>
      simp only [State.writeLocation, State.writeReg, State.writeStatus_eq]
      exact basisCached_congr (s := s) rfl rfl rfl h
    | _ => exact basisCached_congr (s := s) rfl rfl rfl h

/-- Settles O20: the DCT commands store the basis they name, and nothing else but a reset writes it. -/
theorem basisCacheStaysExact : Obligations.BasisCacheStaysExact := by
  intro s t hinv hs h
  refine step_keeps (fun _ _ _ _ hu => basisCached_congr rfl rfl rfl hu) (fun u _ => ?_)
    (fun _ _ _ d loc _ hu => writeLocation_basisCached d loc hu)
    (fun _ _ => basisCached_congr (s := s) rfl rfl rfl hs) (fun i u hchecks hu => ?_) hs h
  · exact basisCached_congr (s := u.softReset) rfl rfl rfl (softReset_basisCached u)
  · exact basisCached_congr (s := u) rfl rfl rfl (effectsOf_basisCached hinv.caps hs hchecks hu)

end Sys2Proof.Machine
end

section
/-! The DCT commands: their checks in order (44_dct.md R272), DCT_BASIS (R274), and the results of the five transforms
(R275 to R279). -/

namespace Sys2Proof.Machine

/-! ### The checks -/

/-- The commands with an opcode of the DCT engine. -/
def dctInstrs : List Instr := [.dctBasis false, .dctBasis true, .dctOrth, .dct2, .idctOrth, .dct3, .dctLegacy]

/-- The length of an input row: N, from CFG_NFILT for DCT_LEGACY (44_dct.md R270). -/
def dctInLen (i : Instr) (s : State) : Nat := if i = .dctLegacy then s.nfilt else s.argN

/-- The length of an output row: K, from CFG_NCEP for DCT_LEGACY (44_dct.md R270). -/
def dctOutLen (i : Instr) (s : State) : Nat := if i = .dctLegacy then s.ncep else s.argK

/-- All six commands check the sizes, then DCT_BASIS its step and the transforms their two ranges. -/
theorem checksOf_dct {i : Instr} (hi : i ∈ dctInstrs) (s : State) :
    checksOf i s = dctSizeChecks s (dctInLen i s) (dctOutLen i s) ++
      if i ∈ [Instr.dctBasis false, .dctBasis true] then [(!isFinite s.argX, ⟨.invalidConfiguration, 12, 0⟩)]
      else [(s.outOfDmem s.src (s.rows * dctInLen i s), ⟨.addressRange, 13, 0⟩),
        (s.outOfDmem s.dst (s.rows * dctOutLen i s), ⟨.addressRange, 14, 0⟩)] := by
  revert i
  simp only [dctInstrs, List.forall_mem_cons]
  exact ⟨rfl, rfl, rfl, rfl, rfl, rfl, rfl, nofun⟩

/-- Settles O52: the checks of the list one after the other; check 12 is DCT_BASIS's alone, 13 and 14 are the
transforms'. -/
theorem dctChecksInOrder : Obligations.DctChecksInOrder := by
  intro s i hi bad basis n k
  have hrun := exec_eq_run i s
  rw [checksOf_dct hi] at hrun
  refine ite_check_reading (e := ⟨.invalidConfiguration, 10, 0⟩) hrun ?_ fun h10 => ?_
  · rw [Bool.or_eq_true, decide_eq_true_iff, decide_eq_true_iff]
    rfl
  refine ite_check_reading (e := ⟨.capacityExceeded, 11, 0⟩) h10 ?_ fun h11 => ?_
  · rw [Bool.or_eq_true, decide_eq_true_iff, decide_eq_true_iff]
    rfl
  by_cases hbasis : i ∈ [Instr.dctBasis false, .dctBasis true]
  · rw [if_pos hbasis] at h11
    refine ite_check_reading (e := ⟨.invalidConfiguration, 12, 0⟩) h11 ?_ fun h12 => ?_
    · rw [Bool.not_eq_true']
      exact (and_iff_right hbasis).symm
    rw [if_neg fun h => h.1 hbasis, if_neg fun h => h.1 hbasis]
    exact fun t ht => err_of_checks_over h12 ht
  · rw [if_neg hbasis] at h11
    rw [if_neg fun h => hbasis h.1]
    refine ite_check_reading (e := ⟨.addressRange, 13, 0⟩) h11 ?_ fun h13 => ?_
    · rw [State.outOfDmem, decide_eq_true_iff]
      exact (and_iff_right hbasis).symm
    refine ite_check_reading (e := ⟨.addressRange, 14, 0⟩) h13 ?_ fun h14 t ht => err_of_checks_over h14 ht
    rw [State.outOfDmem, decide_eq_true_iff]
    exact (and_iff_right hbasis).symm

/-! ### DCT_BASIS -/

/-- Settles O53: the checks hold, and the generic basis is stored. -/
theorem dctBasisWritesMatrix : Obligations.DctBasisWritesMatrix := by
  intro s o n k x hn hk hnmax hkmax hx
  have hchecks := (dctBasisChecks_pass_iff s).mpr ⟨⟨hn, hk⟩, ⟨hnmax, hkmax⟩, hx⟩
  exact ⟨_, exec_of_effects (i := .dctBasis o) hchecks (effectsOf_dctBasis o s), rfl,
    fun _ ha _ hb => (genericBasis o s).store_peek_dctm s ha hb,
    fun _ hj => (genericBasis o s).store_peek_dctm_past s hj⟩

/-! ### The transforms

The result of each is `exec_transform`'s, once the fields of its transform are written out. -/

/-- With ORTH the first column is over SQRT2 (44_dct.md R271). -/
theorem dctMatrix_true (nu : Numerics) (step : F64) (a b : Nat) : dctMatrix nu step true a b =
    if b = 0 then fdiv (nu.cos (fmul (fmul step (fadd (ofNat a) cHalf)) (ofNat b))) cSqrt2
    else nu.cos (fmul (fmul step (fadd (ofNat a) cHalf)) (ofNat b)) := by
  simp only [dctMatrix, true_and]

/-- Settles O54: DCT_ORTH and DCT2 as transforms, one for each value of ORTH. -/
theorem forwardTransformResults : Obligations.ForwardTransformResults := by
  intro s orth input src dst n k rows step basis scale hn hk hnmax hkmax hsrc hdst hinput
  have hchecks := (transformChecks_pass_iff s n k).mpr ⟨⟨hn, hk⟩, ⟨hnmax, hkmax⟩, hsrc, hdst⟩
  have hbasis : basis = dctMatrix numerics step orth := rfl
  rw [hbasis]
  cases orth with
  | true =>
    have hscale : scale = fsqrt (fdiv cTwo (ofNat n)) := if_pos rfl
    rw [hscale]
    have result := exec_transform (i := .dctOrth) rfl hchecks hinput
    dsimp only [Basis.tag] at result
    exact result
  | false =>
    have hscale : scale = fdiv cTwo (ofNat n) := if_neg Bool.false_ne_true
    rw [hscale]
    have result := exec_transform (i := .dct2) rfl hchecks hinput
    dsimp only [Basis.tag] at result
    exact result

/-- Settles O55: the stored basis is the transpose, so its first row is the scaled one. -/
theorem inverseOrthogonalResults : Obligations.InverseOrthogonalResults := by
  intro s input src dst n k rows step basis hn hk hnmax hkmax hsrc hdst hinput
  have hchecks := (transformChecks_pass_iff s n k).mpr ⟨⟨hn, hk⟩, ⟨hnmax, hkmax⟩, hsrc, hdst⟩
  have hbasis : basis = fun a b => dctMatrix numerics step true b a :=
    funext fun a => funext fun b => (dctMatrix_true numerics step b a).symm
  rw [hbasis]
  have result := exec_transform (i := .idctOrth) rfl hchecks hinput
  dsimp only [Basis.tag] at result
  exact result

/-- Settles O56: the stored basis is the transpose, so its first row is the halved one. -/
theorem inverseUnorthogonalResults : Obligations.InverseUnorthogonalResults := by
  intro s input src dst n k rows step basis hn hk hnmax hkmax hsrc hdst hinput
  have hchecks := (transformChecks_pass_iff s n k).mpr ⟨⟨hn, hk⟩, ⟨hnmax, hkmax⟩, hsrc, hdst⟩
  have hbasis : basis = fun a b => dct3Matrix numerics step b a := rfl
  rw [hbasis]
  have result := exec_transform (i := .dct3) rfl hchecks hinput
  dsimp only [Basis.tag] at result
  exact result

/-- Settles O57: N and K come from the configuration, and the stored basis has a row for each coefficient. -/
theorem legacyTransformResults : Obligations.LegacyTransformResults := by
  intro s input src dst n k rows basis hn hk hnmax hkmax hsrc hdst hinput
  have hchecks := (transformChecks_pass_iff s n k).mpr ⟨⟨hn, hk⟩, ⟨hnmax, hkmax⟩, hsrc, hdst⟩
  have hbasis : basis = legacyMatrix numerics n := rfl
  rw [hbasis]
  have result := exec_transform (i := .dctLegacy) rfl hchecks hinput
  dsimp only [Basis.tag] at result
  exact result

end Sys2Proof.Machine
end

section
/-! Error completion (60_exceptions.md R320 to R324): the words it writes, and which errors a step of the engine can
complete with. -/

namespace Sys2Proof.Machine

/-! ### The words an error completion writes -/

/-- DONE and ERR alone of STATUS bits 2:0, and the code in bits 15:8 (10_state.md R36). -/
theorem errorComplete_statusWord (s : State) (e : CmdError) :
    (s.errorComplete e).status.word.toNat % 8 = 6 ∧
      (s.errorComplete e).status.word.toNat / 2 ^ 8 % 2 ^ 8 = e.code.toBits.toNat := by
  have hcode := e.code.toBits.isLt
  have hfb := s.status.fbValid.toNat_lt
  have hwin := s.status.winValid.toNat_lt
  simp only [Status.word_toNat, State.errorComplete_status, Bool.toNat_true, Bool.toNat_false]
  omega

/-- A check of 16 bits and an index of 32 are in ERR_INFO as they are (10_state.md R38). -/
theorem errorComplete_errInfoWord (s : State) {e : CmdError} (hcheck : e.check < 2 ^ 16) (hindex : e.index < 2 ^ 32) :
    (s.errorComplete e).errInfo.word.toNat = e.index * 2 ^ 16 + e.check := by
  simp only [ErrInfo.word_toNat, State.errorComplete_errInfo, BitVec.toNat_ofNat, Nat.mod_eq_of_lt hcheck,
    Nat.mod_eq_of_lt hindex]

/-! ### The errors of a step -/

/-- An error as the lists of checks name it: decode checks are 1 to 6, a command's own 10 to 21, and of these 19 to 21
alone have an index (30_encoding.md R114; 41_filterbank.md R167). -/
def CmdError.Listed (e : CmdError) : Prop :=
  (if e.code = .illegalCommand then 1 ≤ e.check ∧ e.check ≤ 6 else 10 ≤ e.check ∧ e.check ≤ 21) ∧
    (e.index ≠ 0 → e.check ∈ [19, 20, 21])

theorem illegalCommand_listed (r : DecodeReject) : (illegalCommand r).Listed :=
  ⟨by cases r <;> decide, fun h => absurd rfl h⟩

/-- What holds of every error of a list of checks holds of the one it ends with. -/
theorem firstError_satisfies {P : CmdError → Prop} {checks : List (Bool × CmdError)} {e : CmdError}
    (hall : ∀ c ∈ checks, P c.2) (h : firstError checks = some e) : P e := by
  obtain ⟨before, after, rfl, -⟩ := firstError_some h
  exact hall (true, e) (by simp)

/-- The checks of every command, list by list. -/
theorem checksOf_listed (i : Instr) (s : State) : ∀ c ∈ checksOf i s, c.2.Listed := by
  cases i <;> simp [CmdError.Listed, checksOf, fbBuildChecks, winBuildChecks, signalChecks, fetchChecks, stageCheck,
    projectChecks, dctSizeChecks, dctBasisChecks, transformChecks]

theorem firstIndex_getD_lt {n m : Nat} (bad : Nat → Bool) (hm : 0 < m) (hn : n ≤ m) :
    (firstIndex n bad).getD 0 < m := by
  cases h : firstIndex n bad with
  | none => exact hm
  | some i => exact lt_of_lt_of_le ((firstIndex_eq_some_iff n i bad).mp h).1 hn

/-- The index of an error of FB_BUILD is an edge or a filter that the parameters allow: with too many filters check 14
comes before any check with an index (41_filterbank.md R167). -/
theorem fbBuild_index_lt {nu : Numerics} {s : State} {e : CmdError} (h : firstError (fbBuildChecks nu s) = some e) :
    e.index < s.caps.maxFilt + 2 := by
  by_cases hfilt : s.caps.maxFilt < s.nfilt
  · simp only [fbBuildChecks, firstError_cons, hfilt, decide_true, if_true] at h
    split_ifs at h
    all_goals
      cases h
      exact Nat.succ_pos _
  · have hedges : s.nfilt + 2 ≤ s.caps.maxFilt + 2 := by omega
    have hfilters : s.nfilt ≤ s.caps.maxFilt + 2 := by omega
    have bounded : ∀ c ∈ fbBuildChecks nu s, c.2.index < s.caps.maxFilt + 2 := by
      simp [fbBuildChecks, firstIndex_getD_lt _ (Nat.succ_pos _) hedges, firstIndex_getD_lt _ (Nat.succ_pos _) hfilters]
    exact firstError_satisfies (P := fun e => e.index < s.caps.maxFilt + 2) bounded h

/-- Checks without an index name index 0. -/
theorem checksOf_index {i : Instr} (hi : i ≠ .fbBuild) (s : State) : ∀ c ∈ checksOf i s, c.2.index = 0 := by
  cases i
  case fbBuild => exact absurd rfl hi
  all_goals simp [checksOf, winBuildChecks, signalChecks, fetchChecks, stageCheck, projectChecks, dctSizeChecks,
    dctBasisChecks, transformChecks]

/-- With legal parameters the index of a command's error fits the 32 bits of ERR_INFO.INDEX. -/
theorem firstError_index_lt {i : Instr} {s : State} {e : CmdError} (hcaps : s.caps.Legal)
    (h : firstError (checksOf i s) = some e) : e.index < 2 ^ 32 := by
  by_cases hi : i = .fbBuild
  · subst hi
    obtain ⟨-, -, ⟨-, hfilt⟩, -⟩ := hcaps
    have hindex := fbBuild_index_lt h
    omega
  · have hindex : e.index = 0 := firstError_satisfies (P := fun e => e.index = 0) (checksOf_index hi s) h
    omega

/-- A step of the engine that sets ERR is the completion of a listed error, of decoding or of the command: the effects
of a command leave ERR (60_exceptions.md R322, R323). -/
theorem engineStep_error {s t : State} (hcaps : s.caps.Legal) (hs : s.status.err = false) (h : engineStep s = .next t)
    (ht : t.status.err = true) :
    ∃ e : CmdError, t = s.errorComplete e ∧ e.code ≠ .none ∧ e.Listed ∧ e.index < 2 ^ 32 := by
  rcases engineStep_cases h with ⟨r, -, rfl⟩ | ⟨i, -, hx⟩
  · exact ⟨_, rfl, nofun, illegalCommand_listed r, Nat.two_pow_pos 32⟩
  · rcases exec_cases hx with ⟨e, he, rfl⟩ | ⟨-, u, hu, rfl⟩
    · exact ⟨e, rfl, firstError_checksOf_code_ne_none he, firstError_satisfies (checksOf_listed i s) he,
        firstError_index_lt hcaps he⟩
    · simp [effectsOf_frame hu, hs] at ht

/-- Settles O9: the words an error completion writes are known, and a step of the engine that sets ERR is one. -/
theorem errorCompletionIsPrecise : Obligations.ErrorCompletionIsPrecise := by
  refine ⟨fun s check index hcheck hindex row hrow => ?_, fun s t hcaps hengine hs h ht => ?_⟩
  · have hnumber : row.1.toBits.toNat = row.2 := by
      revert row
      decide
    obtain ⟨hlow, hcode⟩ := errorComplete_statusWord s ⟨row.1, check, index⟩
    exact ⟨rfl, hlow, hcode.trans hnumber, errorComplete_errInfoWord s hcheck hindex⟩
  · rw [step_engine hengine] at h
    obtain ⟨e, rfl, hcode, hlisted, hindex⟩ := engineStep_error hcaps hs h ht
    exact ⟨e.code, e.check, e.index, hcode, hindex, rfl, hlisted⟩

end Sys2Proof.Machine
end

section
/-! Where the engine can fault (60_exceptions.md R328): in a state of the invariant every buffer that a command reads is
written, both rates are legal and no frame is empty, so that only DMEM words are left. -/

namespace Sys2Proof.Machine

/-- `f` is the read of a word inside DMEM that nothing has written (60_exceptions.md R328). -/
def State.UnwrittenDmem (s : State) (f : Fault) : Prop :=
  ∃ a, a < s.caps.dmemWords ∧ f = .readUnwritten .dmem a ∧ s.peek .dmem a = none

/-- Effects that answer do not fault. -/
theorem not_error_of_exists_ok {r : Except Fault State} {f : Fault} (hok : ∃ t, r = .ok t) : r ≠ .error f := by
  obtain ⟨t, rfl⟩ := hok
  nofun

/-! ### The commands that read buffers, at the stage their checks ask for -/

/-- With WIN_VALID = 1 both rates are at least 1 and a frame has a sample (42_frame.md R201). -/
theorem State.Inv.frame_nonzero {s : State} (h : s.Inv) (hv : s.status.winValid = true) :
    s.sampleRate ≠ 0 ∧ s.frameRate ≠ 0 ∧ s.frameLen ≠ 0 := by
  obtain ⟨hsr, hfr, hlen, -⟩ := (winBuildChecks_pass_iff s).mp (h.winConfig hv)
  exact ⟨hsr, hfr, hlen⟩

theorem State.Inv.exists_preemphEffects {s : State} (h : s.Inv) (hst : s.status.frameStage = .raw) (c : Ctx) :
    ∃ t, preemphEffects c s = .ok t := by
  obtain ⟨-, -, hlen⟩ := h.frame_nonzero (h.stage (by rw [hst]; nofun))
  exact Machine.exists_preemphEffects hlen (h.rawWritten (by rw [hst]; rfl))

theorem State.Inv.exists_windowEffects {s : State} (h : s.Inv) (hst : s.status.frameStage = .cond) :
    ∃ t, windowEffects s = .ok t :=
  Machine.exists_windowEffects (h.condWritten (by rw [hst]; rfl)) (h.winWritten (h.stage (by rw [hst]; nofun)))

theorem State.Inv.exists_powerEffects {s : State} (h : s.Inv) (hst : s.status.frameStage = .wnd) :
    ∃ t, powerEffects numerics s = .ok t :=
  Machine.exists_powerEffects (frameLen_le_nfft h (by rw [hst]; nofun)) (h.wndWritten (by rw [hst]; rfl))

theorem State.Inv.exists_projectEffects {s : State} (h : s.Inv) (hst : s.status.frameStage = .pwr)
    (hv : s.status.fbValid = true) : ∃ t, projectEffects numerics s = .ok t :=
  Machine.exists_projectEffects (h.pwrWritten hst) (h.fbWritten hv)

/-- With WIN_VALID = 1 every frame has a start and every signal a frame count (42_frame.md R202). -/
theorem State.Inv.placement_defined {s : State} (h : s.Inv) (hv : s.status.winValid = true) :
    (∃ start, frameStart s.fshift s.frameIndex = some start) ∧ ∃ n, frameCountOf s.fshift s.sigSamples = some n := by
  obtain ⟨hsr, hfr, -⟩ := h.frame_nonzero hv
  obtain ⟨-, hstart, hcount⟩ :=
    framePlacementDefined s.cfg (Nat.one_le_iff_ne_zero.mpr hsr) (Nat.one_le_iff_ne_zero.mpr hfr)
  exact ⟨⟨_, (hstart s.frameIndex s.args[5].isLt).2⟩, ⟨_, (hcount s.sigSamples s.sigLen.isLt).2⟩⟩

theorem State.Inv.exists_frameCountEffects {s : State} (h : s.Inv) (hv : s.status.winValid = true) :
    ∃ t, frameCountEffects s = .ok t := by
  obtain ⟨-, n, hn⟩ := h.placement_defined hv
  exact ⟨_, frameCountEffects_of hn⟩

/-- Behind its fetch FRAME_PREP reads what its own parts wrote: the state after each part meets the invariant again. -/
theorem State.Inv.exists_framePrepEffects {s u : State} (h : s.Inv) (hchecks : firstError (fetchChecks s) = none)
    (hfetch : fetchEffects s = .ok u) (c : Ctx) : ∃ t, framePrepEffects c s = .ok t := by
  have hu : u.Inv := inv_effectsOf (i := .frameFetch) h hchecks hfetch
  have hraw : u.status.frameStage = .raw := (effectsOf_effectFrame (i := .frameFetch) hfetch).stage
  obtain ⟨v, hpreemph⟩ := hu.exists_preemphEffects hraw c
  have hv : v.Inv := inv_effectsOf (i := .preemph c) hu ((stageCheck_pass_iff u .raw []).mpr ⟨hraw, rfl⟩) hpreemph
  obtain ⟨t, hwindow⟩ := hv.exists_windowEffects (effectsOf_effectFrame (i := .preemph c) hpreemph).stage
  exact ⟨t, framePrepEffects_of hfetch hpreemph hwindow⟩

theorem State.Inv.exists_logMelEffects {s : State} (h : s.Inv) (hst : s.status.frameStage = .wnd)
    (hv : s.status.fbValid = true) : ∃ t, logMelEffects numerics s = .ok t := by
  obtain ⟨u, hpower⟩ := h.exists_powerEffects hst
  have hu : u.Inv := inv_effectsOf (i := .specPower) h ((stageCheck_pass_iff s .wnd []).mpr ⟨hst, rfl⟩) hpower
  have hframe := effectsOf_effectFrame (i := .specPower) hpower
  obtain ⟨t, hproject⟩ := hu.exists_projectEffects hframe.stage (by rw [hframe.fbValid, hv, Bool.true_or])
  exact ⟨t, logMelEffects_of hpower hproject⟩

/-! ### The commands that read DMEM -/

/-- FRAME_FETCH faults only at a sample of the signal, which lies inside DMEM (42_frame.md R202, R211 check 13). -/
theorem State.Inv.fetch_fault {s : State} {f : Fault} (h : s.Inv) (hchecks : firstError (fetchChecks s) = none)
    (hf : fetchEffects s = .error f) : s.UnwrittenDmem f := by
  obtain ⟨-, -, hv, hfits⟩ := (fetchChecks_pass_iff s).mp hchecks
  obtain ⟨⟨_, hstart⟩, -⟩ := h.placement_defined hv
  rcases fetchEffects_error hf with ⟨-, hnone⟩ | ⟨start, i, -, hi, rfl, hunwritten⟩
  · exact nomatch hnone.symm.trans hstart
  · have hsig := (lt_min_iff.mp hi).2
    exact ⟨_, by omega, rfl, hunwritten⟩

/-- A transform faults only at an input word, and its inputs lie inside DMEM (44_dct.md R272 check 13). -/
theorem transform_fault {s : State} {f : Fault} {n k : Nat} (hchecks : firstError (transformChecks s n k) = none)
    (hf : ∃ i, i < s.rows * n ∧ f = .readUnwritten .dmem (s.src + i) ∧ s.dmem.read (s.src + i) = none) :
    s.UnwrittenDmem f := by
  obtain ⟨-, -, hsrc, -⟩ := (transformChecks_pass_iff s n k).mp hchecks
  obtain ⟨i, hi, hfault, hunwritten⟩ := hf
  exact ⟨s.src + i, by omega, hfault, hunwritten⟩

/-! ### Every command -/

/-- In a state of the invariant the effects of a command whose checks hold fault only at unwritten DMEM words. -/
theorem effectsOf_fault {i : Instr} {s : State} {f : Fault} (h : s.Inv) (hchecks : firstError (checksOf i s) = none)
    (hf : effectsOf i s = .error f) : s.UnwrittenDmem f := by
  cases i
  case frameCount =>
    obtain ⟨-, -, hv⟩ := (signalChecks_pass_iff s).mp hchecks
    exact absurd hf (not_error_of_exists_ok (h.exists_frameCountEffects hv))
  case frameFetch => exact h.fetch_fault hchecks hf
  case preemph c =>
    obtain ⟨hst, -⟩ := (stageCheck_pass_iff s .raw []).mp hchecks
    exact absurd hf (not_error_of_exists_ok (h.exists_preemphEffects hst c))
  case window =>
    obtain ⟨hst, -⟩ := (stageCheck_pass_iff s .cond []).mp hchecks
    exact absurd hf (not_error_of_exists_ok (h.exists_windowEffects hst))
  case framePrep c =>
    rcases framePrepEffects_error hf with hfetch | ⟨u, hfetch, -⟩ | ⟨u, v, hfetch, -⟩
    · exact h.fetch_fault hchecks hfetch
    · exact absurd hf (not_error_of_exists_ok (h.exists_framePrepEffects hchecks hfetch c))
    · exact absurd hf (not_error_of_exists_ok (h.exists_framePrepEffects hchecks hfetch c))
  case specPower =>
    obtain ⟨hst, -⟩ := (stageCheck_pass_iff s .wnd []).mp hchecks
    exact absurd hf (not_error_of_exists_ok (h.exists_powerEffects hst))
  case specProject =>
    obtain ⟨hst, hproject⟩ := (stageCheck_pass_iff s .pwr _).mp hchecks
    obtain ⟨hv, -⟩ := (projectChecks_pass_iff s).mp hproject
    exact absurd hf (not_error_of_exists_ok (h.exists_projectEffects hst hv))
  case specLogMel =>
    obtain ⟨hst, hproject⟩ := (stageCheck_pass_iff s .wnd _).mp hchecks
    obtain ⟨hv, -⟩ := (projectChecks_pass_iff s).mp hproject
    exact absurd hf (not_error_of_exists_ok (h.exists_logMelEffects hst hv))
  case dctOrth => exact transform_fault hchecks (dctOrthEffects_error hf)
  case dct2 => exact transform_fault hchecks (dct2Effects_error hf)
  case idctOrth => exact transform_fault hchecks (idctOrthEffects_error hf)
  case dct3 => exact transform_fault hchecks (dct3Effects_error hf)
  case dctLegacy => exact transform_fault hchecks (dctLegacyEffects_error hf)
  all_goals cases hf

/-- The engine faults only in the effects of a command. -/
theorem engineStep_fault {s : State} {f : Fault} (h : engineStep s = .fault f) :
    ∃ i, firstError (checksOf i s) = none ∧ effectsOf i s = .error f := by
  cases hd : decode s.caps.numCtx s.cmd with
  | error e =>
    rw [engineStep_of_reject hd] at h
    cases h
  | ok i =>
    rw [engineStep_of_decode hd] at h
    exact ⟨i, exec_fault h⟩

/-- Settles O17: the engine's fault is one of a command's effects, and the invariant leaves those only DMEM. -/
theorem engineFaultsOnlyOnUnwrittenDmem : Obligations.EngineFaultsOnlyOnUnwrittenDmem := by
  intro s f hinv hengine h
  rw [step_engine hengine] at h
  obtain ⟨i, hchecks, hf⟩ := engineStep_fault h
  exact effectsOf_fault hinv hchecks hf

end Sys2Proof.Machine
end

section
/-! The interrupt output (60_exceptions.md R330): what a completion makes of it, and which host writes let it fall. -/

namespace Sys2Proof.Machine

theorem irq_iff (s : State) : s.irq = true ↔ s.irqEn = true ∧ s.status.done = true := Bool.and_eq_true_iff

/-- Every completion sets DONE and no command writes IRQ_EN. -/
theorem exec_irq {i : Instr} {s t : State} (h : exec i s = .next t) : t.irq = s.irqEn := by
  rcases exec_cases h with ⟨e, -, rfl⟩ | ⟨-, u, hu, rfl⟩
  · simp [State.irq]
  · simp [State.irq, effectsOf_frame hu]

/-- The writes of `d` that can let irq fall: of a 1 to STATUS bit 1, to CMD, and to CTRL of a 0 to IRQ_EN or of a soft
reset. -/
def LowersIrq (d : Word) (loc : Location) : Prop :=
  (loc = .reg .status ∧ d.getLsbD 1 = true) ∨ loc = .reg .cmd ∨
    (loc = .reg .ctrl ∧ (d.getLsbD 0 = false ∨ d.getLsbD 1 = true))

theorem writeLocation_irq_falls {s : State} {d : Word} {loc : Location} (hs : s.irq = true)
    (h : (s.writeLocation d loc).irq = false) : LowersIrq d loc := by
  obtain ⟨hen, hdone⟩ := (irq_iff s).mp hs
  have kept {t : State} (ht : t.irq = s.irq) : t.irq ≠ false := by
    rw [ht, hs]
    nofun
  cases loc with
  | word sp w =>
    rw [State.writeLocation_word] at h
    split_ifs at h <;> exact absurd h (kept rfl)
  | reg r =>
    cases r with
    | status =>
      simp only [State.writeLocation, State.writeReg, State.writeStatus_eq, State.irq, hen, hdone, Bool.true_and,
        Bool.not_eq_false'] at h
      exact .inl ⟨rfl, h⟩
    | cmd => exact .inr (.inl rfl)
    | ctrl =>
      refine .inr (.inr ⟨rfl, ?_⟩)
      cases hreset : d.getLsbD 1 with
      | true => exact .inr rfl
      | false =>
        simp only [State.writeLocation, State.writeReg, State.writeCtrl, hreset, Bool.false_eq_true, if_false,
          State.irq, hdone, Bool.and_true] at h
        exact .inl h
    | _ => exact absurd h (kept rfl)

/-- Where irq falls with the engine idle, the reset line or such a write completes. -/
theorem step_irq_falls {s t : State} (hs : s.irq = true) (hb : s.status.busy = false) (h : step s = .next t)
    (ht : t.irq = false) : ∃ rest, s.inputs = .resetLine :: rest ∨
      ∃ a size d loc, s.inputs = .write a size d :: rest ∧ locate s.caps a size = some loc ∧ LowersIrq d loc := by
  have high : s.irq ≠ false := by
    rw [hs]
    nofun
  rcases step_cases h with ⟨-, rfl⟩ | ⟨hm, -⟩ | ⟨i, rest, hm, hi⟩ | ⟨i, rest, hm, -⟩
  · exact absurd ht high
  · obtain ⟨hbusy, -⟩ := (mover_eq_engine_iff s).mp hm
    exact nomatch hb.symm.trans hbusy
  · obtain ⟨hinputs, -⟩ := of_mover_input hm
    refine ⟨rest, ?_⟩
    rcases completeInput_cases hi with ⟨rfl, -⟩ | ⟨r, rfl, -⟩ | ⟨a, size, d, loc, rfl, hloc, rfl⟩
    · exact .inl hinputs
    · exact absurd ht high
    · exact .inr ⟨a, size, d, loc, hinputs, hloc, writeLocation_irq_falls (s := { s with inputs := rest }) hs ht⟩
  · obtain ⟨-, hbusy, -⟩ := of_mover_exemptRead hm
    exact nomatch hb.symm.trans hbusy

/-- Settles O32: the falls of irq by register, each at its own address, and its rise by the write to CTRL. -/
theorem interruptFollowsDone : Obligations.InterruptFollowsDone := by
  refine ⟨irq_iff, fun _ _ _ h => exec_irq h, fun s t hs hb h ht => ?_, fun s rest hb hdone hi => ?_⟩
  · obtain ⟨rest, hline | ⟨a, size, d, loc, hinputs, hloc, hwrite⟩⟩ := step_irq_falls hs hb h ht
    · exact ⟨rest, .inl hline⟩
    refine ⟨rest, .inr ?_⟩
    rcases hwrite with ⟨rfl, hd⟩ | rfl | ⟨rfl, hd⟩
    all_goals obtain ⟨rfl, -, rfl⟩ := locate_reg_iff.mp hloc
    · exact .inl ⟨d, hinputs, hd⟩
    · exact .inr (.inl ⟨d, hinputs⟩)
    · exact .inr (.inr ⟨d, hinputs, hd⟩)
  · refine ⟨_, step_ctrl_write hb hi rfl, ?_⟩
    exact (irq_iff _).mpr ⟨rfl, hdone⟩

end Sys2Proof.Machine
end

section
/-! Reset: the states it leaves, their registers and words, and the invariant there (70_reset_and_hazards.md R360 to
R362). -/

namespace Sys2Proof.Machine

/-! ### The states after a reset -/

/-- Every register and buffer is at its value of power-on reset; DMEM and the model's own fields but for the engine's
delay are free. -/
def State.Restored (t : State) : Prop :=
  t = { State.powerOn t.caps with
    dmem := t.dmem, inputs := t.inputs, response := t.response, issueCount := t.issueCount }

theorem powerOn_restored (caps : Caps) : (State.powerOn caps).Restored := rfl

theorem softReset_restored (s : State) : s.softReset.Restored := rfl

theorem powerOnReset_restored (s : State) : s.powerOnReset.Restored := rfl

/-- No register reads DMEM or a field of the model's own. -/
theorem State.Restored.readReg_eq {t : State} (h : t.Restored) (r : Reg) :
    t.readReg r = (State.powerOn t.caps).readReg r := by
  have same := congrArg (State.readReg · r) h
  cases r <;> exact same

theorem State.Restored.irq {t : State} (h : t.Restored) : t.irq = false := congrArg State.irq h

/-- After a reset only DMEM can hold a written word. -/
theorem State.Restored.peek_eq {t : State} (h : t.Restored) (sp : Space) (i : Nat) :
    t.peek sp i = if sp = .dmem then t.peek .dmem i else none := by
  have same := congrArg (State.peek · sp i) h
  cases sp <;> exact same

theorem State.Restored.peek_eq_none {t : State} (h : t.Restored) (hdmem : t.dmem = []) (sp : Space) (i : Nat) :
    t.peek sp i = none := by
  have unwritten : t.peek .dmem i = none := congrArg (Memory.read · i) hdmem
  rw [h.peek_eq, unwritten, ite_self]

/-! ### The values of the registers -/

/-- The derived registers of the configuration at reset: 409, 100.0 and 31.25 (10_state.md R49 to R51). -/
theorem Cfg.reset_derived : Cfg.reset.frameLen = 409 ∧ Cfg.reset.fshift = 0x4059000000000000#64 ∧
    Cfg.reset.dfreq = 0x403F400000000000#64 := by decide +kernel

/-- The reset table of 70_reset_and_hazards.md R362, but for the implementation parameters. -/
def resetTable : List (Reg × Word) :=
  [ (.ctrl, 0#64), (.status, 0#64), (.cmd, 0#64), (.errInfo, 0#64),
    (.arg 0, 0#64), (.arg 1, 0#64), (.arg 2, 0#64), (.arg 3, 0#64), (.arg 4, 0#64), (.arg 5, 0#64),
    (.res0, 0#64), (.res1, 0#64),
    (.cfg .sampleRate, 16000#64), (.cfg .frameRate, 160#64), (.cfg .frameDur, 0x3F9A36E2EB1C432D#64),
    (.cfg .nfft, 512#64), (.cfg .nfilt, 40#64), (.cfg .ncep, 13#64),
    (.cfg .lowerFreq, 0x4060AAAA64C2F838#64), (.cfg .upperFreq, 0x40BAC77F62B6AE7D#64),
    (.cfg .alpha, 0x3FEF0A3D70A3D70A#64),
    (.frameLen, 409#64), (.fshift, 0x4059000000000000#64), (.dfreq, 0x403F400000000000#64),
    (.sigBase, 0#64), (.sigLen, 0#64), (.basisTag, 0#64), (.basisStep, 0#64),
    (.prior 0#2, 0#64), (.prior 1#2, 0#64), (.prior 2#2, 0#64), (.prior 3#2, 0#64) ]

/-- The words of CTRL, STATUS, ERR_INFO and BASIS_TAG at reset, from their fields. -/
theorem powerOn_words (caps : Caps) : (State.powerOn caps).ctrlWord = 0#64 ∧ (State.powerOn caps).status.word = 0#64 ∧
    (State.powerOn caps).errInfo.word = 0#64 ∧ (State.powerOn caps).basisTag.word = 0#64 := by
  change (0#63 ++ BitVec.ofBool false : Word) = 0#64 ∧ Status.reset.word = 0#64 ∧
    (⟨0#16, 0#32⟩ : ErrInfo).word = 0#64 ∧ BasisTag.reset.word = 0#64
  decide

theorem powerOn_derived (caps : Caps) : (State.powerOn caps).frameLen = 409 ∧
    (State.powerOn caps).fshift = 0x4059000000000000#64 ∧ (State.powerOn caps).dfreq = 0x403F400000000000#64 :=
  Cfg.reset_derived

/-- At power-on the registers read as the table with all parameters: the composed and the derived ones are computed, the
others are as stored. -/
theorem powerOn_readReg_of_mem_resetTable (caps : Caps) :
    ∀ row ∈ resetTable, (State.powerOn caps).readReg row.1 = row.2 := by
  obtain ⟨ctrl, status, errInfo, basisTag⟩ := powerOn_words caps
  obtain ⟨frameLen, fshift, dfreq⟩ := powerOn_derived caps
  refine List.map_inj_left.mp ?_
  simp only [resetTable, List.map_cons, List.map_nil, State.readReg, ctrl, status, errInfo, basisTag, frameLen, fshift,
    dfreq]
  rfl

theorem State.Restored.readReg_of_mem_resetTable {t : State} (h : t.Restored) :
    ∀ row ∈ resetTable, t.readReg row.1 = row.2 := fun row hrow =>
  (h.readReg_eq row.1).trans (powerOn_readReg_of_mem_resetTable t.caps row hrow)

/-- Settles O31: ID and the default parameters, then the table that holds with all parameters. -/
theorem resetRegisterValues : Obligations.ResetRegisterValues := by
  have restored : State.reset.Restored := powerOn_restored Caps.default
  refine ⟨?_, restored.peek_eq_none rfl, restored.irq⟩
  change ∀ row ∈ [(Reg.id, 0x4D454C4645000007#64), (.cap .dmemWords, 65536#64), (.cap .maxNfft, 2048#64),
    (.cap .maxFilt, 64#64), (.cap .maxFrame, 2048#64), (.cap .maxDct, 64#64), (.cap .numCtx, 4#64)] ++ resetTable, _
  refine List.forall_mem_append.mpr ⟨?_, restored.readReg_of_mem_resetTable⟩
  decide

/-! ### The invariant at reset -/

/-- Power-on reset is what the reset line makes of itself. -/
theorem powerOn_powerOnReset (caps : Caps) : (State.powerOn caps).powerOnReset = State.powerOn caps := rfl

theorem powerOn_softReset (caps : Caps) : (State.powerOn caps).softReset = State.powerOn caps := rfl

theorem inv_powerOn {caps : Caps} (h : caps.Legal) : (State.powerOn caps).Inv := by
  have memories := powerOnReset_memoriesFit (State.powerOn caps)
  have errors := softReset_errorsInStep (State.powerOn caps)
  have promises := softReset_promisesWritten (State.powerOn caps)
  rw [powerOn_powerOnReset] at memories
  rw [powerOn_softReset] at errors promises
  exact (inv_iff _).mpr ⟨h, memories, errors, promises⟩

/-- Settles O15: reset clears the flags, the stage and the tag, so that none of them promises anything. -/
theorem resetMeetsInvariant : Obligations.ResetMeetsInvariant :=
  ⟨inv_powerOn (by decide), fun caps hlegal => ⟨inv_powerOn hlegal, nofun, nofun, frameCurrent_of_not_hasCond rfl,
    powerOn_softReset caps ▸ softReset_basisCached (State.powerOn caps)⟩⟩

/-! ### The steps that reset -/

/-- A write to CTRL with bit 1 = 1 is a soft reset (10_state.md R35). -/
theorem step_ctrl_softReset {s : State} {d : Word} {rest : List HostInput} (hb : s.status.busy = false)
    (hi : s.inputs = hostWr (.reg .ctrl) d :: rest) (hd : d.getLsbD 1 = true) :
    step s = .next { s.softReset with inputs := rest, response := some .okayWrite } := by
  rw [step_register_write hb rfl hi]
  simp only [State.writeReg, State.writeCtrl, hd, if_true]
  rfl

/-- The reset line acts as soon as it is the next input (log 6). -/
theorem step_resetLine {s : State} {rest : List HostInput} (hi : s.inputs = .resetLine :: rest) :
    step s = .next ({ s with inputs := rest } : State).powerOnReset := by
  rw [step_input (mover_resetLine hi)]
  rfl

/-- While a command is pending, no step takes a write (20_memory.md R93). -/
theorem step_inputs_of_held_write {s t : State} {a : HostAddr} {size : Nat} {d : Word} {rest : List HostInput}
    (hb : s.status.busy = true) (hi : s.inputs = .write a size d :: rest) (h : step s = .next t) :
    t.inputs = s.inputs := by
  rw [step_engine (mover_of_held hb hi nofun rfl)] at h
  exact (engineStep_inputs_busy h).1

/-- Settles O30: both resets leave a restored state, with DMEM kept by the soft one and unwritten by the line. -/
theorem softResetRestoresRegisters : Obligations.SoftResetRestoresRegisters := by
  intro s rest registersReset
  refine ⟨fun d hd hi => ⟨fun hb t h => step_inputs_of_held_write hb hi h, fun hb => ?_⟩, fun hi => ?_⟩
  · have restored : State.Restored { s.softReset with inputs := rest, response := some .okayWrite } := rfl
    exact ⟨_, step_ctrl_softReset hb hi hd, restored.readReg_of_mem_resetTable, restored.peek_eq, rfl⟩
  · have restored := powerOnReset_restored { s with inputs := rest }
    exact ⟨_, step_resetLine hi, restored.readReg_of_mem_resetTable, restored.peek_eq_none rfl, rfl, restored.irq, rfl⟩

end Sys2Proof.Machine
end

section
/-! A pending command ends (70_reset_and_hazards.md R381): every step with BUSY = 1 ends it or uses up one of the exempt
reads that may still come first. -/

namespace Sys2Proof.Machine

/-- Within `n` steps the model has faulted or BUSY is 0. -/
def State.EndsWithin (n : Nat) (s : State) : Prop :=
  ∃ k, k ≤ n ∧ ((∃ f, Sys2Proof.core.run k s = .fault f) ∨
    ∃ t : State, Sys2Proof.core.run k s = .next t ∧ t.status.busy = false)

theorem endsWithin_of_idle (n : Nat) {s : State} (h : s.status.busy = false) : s.EndsWithin n :=
  ⟨0, Nat.zero_le n, .inr ⟨s, rfl, h⟩⟩

theorem endsWithin_of_step_fault (n : Nat) {s : State} {f : Fault} (h : step s = .fault f) : s.EndsWithin (n + 1) :=
  ⟨1, Nat.le_add_left 1 n, .inl ⟨f, (core_run_one s).trans h⟩⟩

theorem State.EndsWithin.before_step {n : Nat} {s t : State} (ht : t.EndsWithin n) (h : step s = .next t) :
    s.EndsWithin (n + 1) := by
  obtain ⟨k, hk, hrun⟩ := ht
  rw [← core_run_succ k h] at hrun
  exact ⟨k + 1, Nat.succ_le_succ hk, hrun⟩

/-- The engine's step faults or ends the command; it refuses none. -/
theorem engineStep_ends (s : State) :
    (∃ f, engineStep s = .fault f) ∨ ∃ t, engineStep s = .next t ∧ t.status.busy = false := by
  cases h : engineStep s with
  | next t => exact .inr ⟨t, rfl, (engineStep_inputs_busy h).2⟩
  | fault f => exact .inl ⟨f, rfl⟩
  | refused r =>
    cases hd : decode s.caps.numCtx s.cmd with
    | error e => exact nomatch (engineStep_of_reject hd).symm.trans h
    | ok i => exact absurd ((engineStep_of_decode hd).symm.trans h) (exec_not_refused i s r)

/-- A step with BUSY = 1 faults, ends the command, or is an exempt read and uses up one of the latency count (log 7). -/
theorem step_of_busy {s : State} (hb : s.status.busy = true) :
    (∃ f, step s = .fault f) ∨ (∃ t, step s = .next t ∧ t.status.busy = false) ∨
    ∃ t, step s = .next t ∧ t.status.busy = true ∧ t.engineDelay + 1 = s.engineDelay := by
  cases hm : s.mover with
  | idle =>
    obtain ⟨-, hidle⟩ := of_mover_idle hm
    exact nomatch hb.symm.trans hidle
  | engine =>
    rw [step_engine hm]
    exact (engineStep_ends s).imp_right .inl
  | input i rest =>
    obtain ⟨hi, rfl | hidle⟩ := of_mover_input hm
    · exact .inr (.inl ⟨_, step_resetLine hi, rfl⟩)
    · exact nomatch hb.symm.trans hidle
  | exemptRead i rest =>
    obtain ⟨hi, -, -, hx, hdelay⟩ := of_mover_exemptRead hm
    obtain ⟨r, hr, rfl⟩ := (exempt_iff_hostRd s.caps i).mp hx
    exact .inr (.inr ⟨_, step_exempt_register_read hb hdelay hr hi, hb, Nat.sub_one_add_one hdelay⟩)

/-- By induction on the latency count, which bounds the exempt reads that come first. -/
theorem endsWithin_of_busy (delay : Nat) {s : State} (hb : s.status.busy = true) (hd : s.engineDelay = delay) :
    s.EndsWithin (delay + 1) := by
  induction delay generalizing s with
  | zero =>
    rcases step_of_busy hb with ⟨f, h⟩ | ⟨t, h, hidle⟩ | ⟨t, -, -, hcount⟩
    · exact endsWithin_of_step_fault 0 h
    · exact (endsWithin_of_idle 0 hidle).before_step h
    · omega
  | succ delay ih =>
    rcases step_of_busy hb with ⟨f, h⟩ | ⟨t, h, hidle⟩ | ⟨t, h, hbusy, hcount⟩
    · exact endsWithin_of_step_fault _ h
    · exact (endsWithin_of_idle _ hidle).before_step h
    · exact (ih hbusy (by omega)).before_step h

/-- Settles O7: the bound is the latency count of the state and the one step that ends the command. -/
theorem pendingCommandEnds : Obligations.PendingCommandEnds := fun _ hb => endsWithin_of_busy _ hb rfl

end Sys2Proof.Machine
end
